-- ==== Sys2Proof/Word.lean ====
section
/-! DEFINITION. Words, bytes and the sparse maps in one canonical form that the state is built of. -/

namespace Sys2Proof

/-- A general register, an address, a GA: 64 bits (R22, R156). -/
abbrev Word := BitVec 64
abbrev Byte := BitVec 8

/-- A sparse map: entries in strictly rising key order, none equal to the default (`SMap.wf`). -/
abbrev SMap (α : Type) := List (Nat × α)

namespace SMap

/-- What the map holds at `k`; an unlisted key reads as `d`. -/
def get {α : Type} (m : SMap α) (d : α) (k : Nat) : α :=
  match m with
  | [] => d
  | (j, v) :: t => if j = k then v else get t d k

/-- Drop every entry at `k`. -/
def drop {α : Type} (m : SMap α) (k : Nat) : SMap α :=
  match m with
  | [] => []
  | (j, v) :: t => if j = k then drop t k else (j, v) :: drop t k

/-- Write `v` at `k`, in its place by key. -/
def put {α : Type} (m : SMap α) (k : Nat) (v : α) : SMap α :=
  match m with
  | [] => [(k, v)]
  | (j, w) :: t =>
    if k < j then (k, v) :: (j, w) :: t
    else if j = k then (k, v) :: t
    else (j, w) :: put t k v

/-- Write `v` at `k`, keeping the canonical form: writing the default removes the entry. -/
def set {α : Type} [DecidableEq α] (m : SMap α) (d : α) (k : Nat) (v : α) : SMap α :=
  if v = d then drop m k else put m k v

/-- The keys rise strictly from above `lo` and no entry holds the default. -/
def wfFrom {α : Type} [DecidableEq α] (d : α) : Option Nat → SMap α → Bool
  | _, [] => true
  | lo, (k, v) :: t =>
    (match lo with | none => true | some l => decide (l < k)) && decide (v ≠ d) && wfFrom d (some k) t

/-- The canonical form. -/
def wf {α : Type} [DecidableEq α] (d : α) (m : SMap α) : Bool := wfFrom d none m

end SMap

/-- Bits `[hi:lo]` of a word, as a number. -/
def bitsOf {n : Nat} (x : BitVec n) (hi lo : Nat) : Nat := (x.extractLsb' lo (hi + 1 - lo)).toNat

/-- Bit `i` of a word. -/
def bitOf {n : Nat} (x : BitVec n) (i : Nat) : Bool := x.getLsbD i

/-- One bit as a number. -/
def b2n (b : Bool) : Nat := if b then 1 else 0

/-- `v` shifted to bit `lo` of a 64-bit word: for building registers from their fields. -/
def fieldAt (lo v : Nat) : Word := BitVec.ofNat 64 (v * 2 ^ lo)

end Sys2Proof
end

