-- ==== Sys2Proof/Syntax.lean ====
section
/-! DEFINITION. The syntax: operand forms of the instruction set (R147, R170, R208), the messages that hidden agents
exchange, and `Instr`, one constructor for each row of spec/opcode_table.json: the instructions a task slot issues and
the steps of the carter, gleaner, homes, Press, system cores, links and host. -/

namespace Sys2Proof

/-! ## Operands of the instruction set -/

/-- Fields that name a register: G (4 bits), V (3), P (2), S (3), C (1), descriptor SD (2). -/
abbrev Reg := BitVec 4
abbrev VReg := BitVec 3
abbrev PReg := BitVec 2
abbrev SReg := BitVec 3
abbrev Acc := BitVec 1
abbrev Tag := BitVec 4

/-- Operand type TY of M[3:2] (R170). -/
inductive Ty where
  | i | n | b | w
  deriving DecidableEq, Repr

/-- Width SZ of M[1:0] (R170). -/
inductive Sz where
  | s8 | s16 | s32 | s64
  deriving DecidableEq, Repr

/-- The second source: the forms of R171 and R211. The register of `rr` is a G or a V register as the row says. -/
inductive Src where
  | rr (b : BitVec 4)
  | ri (imm : BitVec 20)
  | rk (win : BitVec 3) (off : BitVec 17)
  | rl (lit : BitVec 32)
  | rl64 (lit : BitVec 64)
  deriving DecidableEq, Repr

/-- Displacement of a memory form: MS (TL 3) or ML (TL 4) (R147). -/
inductive Disp where
  | ms (d : BitVec 17)
  | ml (d : BitVec 32)
  deriving DecidableEq, Repr

/-- A memory operand `[Ss:Gb+disp]` of MS or ML. -/
structure Mem where
  seg : SReg
  base : Reg
  disp : Disp
  deriving DecidableEq, Repr

/-- A memory operand of MR or MX, whose displacement has 32 bits. -/
structure MemR where
  seg : SReg
  base : Reg
  disp : BitVec 32
  deriving DecidableEq, Repr

/-- Scalar two-source operands (R170, R171). -/
structure Alu where
  ty : Ty
  sz : Sz
  d : Reg
  a : Reg
  src : Src
  deriving DecidableEq, Repr

/-- Scalar one-source operands (R174, R175). -/
structure Un where
  ty : Ty
  sz : Sz
  d : Reg
  a : Reg
  deriving DecidableEq, Repr

/-- Width-only operands (R176, R178). -/
structure Cnt where
  sz : Sz
  d : Reg
  a : Reg
  deriving DecidableEq, Repr

/-- A BR tail (R147, R152). -/
structure Br where
  lineoff : BitVec 19
  head : BitVec 5
  deriving DecidableEq, Repr

/-- A scalar load or store (R190). -/
structure LdSt where
  ty : Ty
  sz : Sz
  d : Reg
  mem : Mem
  deriving DecidableEq, Repr

/-- A vector memory instruction (R208, R215). -/
structure VMem where
  fmt : BitVec 5
  pm : PReg
  d : VReg
  mem : Mem
  deriving DecidableEq, Repr

/-- Vector two-source operands (R208, R211). -/
structure V2 where
  fmt : BitVec 5
  pm : PReg
  d : VReg
  a : VReg
  src : Src
  deriving DecidableEq, Repr

/-- Vector register-register operands. -/
structure VB where
  fmt : BitVec 5
  pm : PReg
  d : VReg
  a : VReg
  b : VReg
  deriving DecidableEq, Repr

/-- Vector one-source operands. -/
structure V1 where
  fmt : BitVec 5
  pm : PReg
  d : VReg
  a : VReg
  deriving DecidableEq, Repr

/-- Conversions (R234, R235): destination and source format codes and the part. -/
structure Cvt where
  df : BitVec 4
  sf : BitVec 4
  d : VReg
  a : VReg
  part : BitVec 4
  deriving DecidableEq, Repr

/-- VRED and VSCAN (R237): the operation in b. -/
structure Red where
  fmt : BitVec 5
  pm : PReg
  op : BitVec 4
  d : VReg
  a : VReg
  deriving DecidableEq, Repr

/-- VZIP and VUZP (R239). -/
structure Zip where
  fmt : BitVec 5
  sel : Bool
  d : VReg
  a : VReg
  b : VReg
  deriving DecidableEq, Repr

/-- JOIN and LDF: a join type and a location (R258). -/
structure LatMem where
  jt : BitVec 7
  d : Reg
  mem : Mem
  deriving DecidableEq, Repr

/-- LTH (R269): MR form with one trigger, or MX form. -/
structure Lth where
  sz : BitVec 2
  nt : BitVec 2
  filled : Bool
  kind : BitVec 3
  d : Reg
  b : Reg
  more : Option (Reg × Reg × BitVec 64)
  mem : MemR
  deriving DecidableEq, Repr

/-- A register mask or an immediate mask. -/
inductive RegImm where
  | reg (a : Reg)
  | imm (v : BitVec 20)
  deriving DecidableEq, Repr

/-- A register or a 64-bit literal. -/
inductive RegLit where
  | reg (a : Reg)
  | lit (v : BitVec 64)
  deriving DecidableEq, Repr

/-- NPUB and NWANT (R278, R279). -/
structure NamOp where
  n : BitVec 4
  k : SReg
  name : RegLit
  loc : Reg
  deriving DecidableEq, Repr

/-- MMA, MMAH (R310, R311, R320). -/
structure MmaOp where
  sc : Bool
  seg : SReg
  mf : BitVec 3
  d : Acc
  a : Reg
  src : RegImm
  deriving DecidableEq, Repr

/-! ## Places and parties -/

/-- A task slot of the package (R17, R29). -/
structure SlotRef where
  die : Nat
  cluster : Nat
  core : Nat
  slot : Nat
  deriving DecidableEq, Repr

/-- The number of the slot's core among the 131,072 of the package. -/
def SlotRef.coreKey (r : SlotRef) : Nat := (r.die * 512 + r.cluster) * 16 + r.core

/-- The number of the slot's cluster. -/
def SlotRef.clusterKey (r : SlotRef) : Nat := r.die * 512 + r.cluster

/-- The fault codes of R408. -/
inductive FaultCode where
  | seg | page | prot | mapAttr | illegal | badTarget | line | align
  | latticeTop | afterFreeze | unfrozenRead | triggerCompat | kindMismatch
  | neverProduced | nameUnknown | capsulePlace | capsuleChannel | capsuleReset
  | segOverlap | formatTable | groupNotMember | memUe | linkLost | rngOverlap
  | trap | watchdog | interestStall
  deriving DecidableEq, Repr

/-- Which party asked: the slot, the identity of its task, its launch, its order key and its logical lane (R407). -/
structure Requester where
  slot : SlotRef
  task : Nat
  launch : Nat
  key : Word
  llane : BitVec 32
  deriving DecidableEq, Repr

/-- Where an acknowledgement goes: a slot's counter of a scope, or a job of the carter (R107, R288, R332). -/
inductive AckTo where
  | scope (n : Nat)
  | job (n : Nat)
  deriving DecidableEq, Repr

/-- An answer to a parked request: a fault or none, result words and bytes. -/
structure Answer where
  xid : Nat
  code : Option FaultCode
  ga : Word
  a : Word
  b : Word
  bytes : List Byte
  deriving DecidableEq, Repr

/-- A continuation record (R34); `lane` is the lane whose queue it is in, of a reproducible launch (R376, R380), and `since` the
count of choices when it was posted, or of its launch's expansion for an initial record (R186; log 20). -/
structure Record where
  entry : Word
  arg0 : Word
  arg1 : Word
  arg2 : Word
  arg3 : Word
  data : Word
  key : Word
  launch : Nat
  lane : Nat
  since : Nat
  deriving DecidableEq, Repr

/-! ## Messages -/

/-- A join under way (R107, R264). -/
structure JoinPkt where
  req : Requester
  xid : Nat
  ack : AckTo
  ga : Word
  kind : Nat
  fmt : Nat
  value : Word
  deriving DecidableEq, Repr

/-- A tile fill under way: FILLT, NPUB, MDRAINP or a Thresher output (R275, R278, R325, R332). `named` is its tensor,
iteration and tile index when NPUB resolved it. -/
structure FillPkt where
  req : Requester
  xid : Nat
  ack : AckTo
  ga : Word
  gran : Nat
  fmt : Nat
  named : Option Word
  bytes : List Byte
  deriving DecidableEq, Repr

/-- A SPACE = 1 store under way (R349, R350). -/
structure StorePkt where
  req : Requester
  xid : Nat
  ack : AckTo
  parts : List (Nat × List Byte)
  deriving DecidableEq, Repr

/-- A SPACE = 1 load under way: addresses and sizes of its parts, in order. -/
structure LoadPkt where
  req : Requester
  xid : Nat
  parts : List (Nat × Nat)
  deriving DecidableEq, Repr

/-- A load reply or any other answer on its way to a task. -/
structure WakePkt where
  req : Requester
  answer : Answer
  deriving DecidableEq, Repr

/-- A value-returning count (R265). -/
structure CountPkt where
  req : Requester
  xid : Nat
  ga : Word
  fmt : Nat
  inc : Word
  lane : Nat
  round : Nat
  deriving DecidableEq, Repr

/-- Who waits at a home: a parked LTH, an address-based LDT, a MACC slot, an arm (R54, R277, R287, R326). -/
inductive WaitFor where
  | lth (kind w : Nat) (filled : Bool) (triggers : List Word)
  | ldtAddr (gran : Nat)
  | macc
  | arm (core job : Nat) (t : Word)
  deriving DecidableEq, Repr

/-- A threshold registration (R54, R110, R270). -/
structure RegPkt where
  req : Requester
  xid : Nat
  ga : Word
  wait : WaitFor
  deriving DecidableEq, Repr

/-- An exact read (R114, R271). -/
structure ExactPkt where
  req : Requester
  xid : Nat
  ga : Word
  kind : Nat
  fmt : Nat
  deriving DecidableEq, Repr

/-- A request to form (R273) or freeze (R274) one plot; `va` is its virtual address, for the record. -/
structure PlotPkt where
  req : Requester
  xid : Nat
  ga : Word
  va : Word
  desc : Word
  deriving DecidableEq, Repr

/-- NCLOSE at the tensor table (R280). -/
structure ClosePkt where
  req : Requester
  xid : Nat
  tensor : Nat
  iter : Nat
  /-- the iterations are closed, and the answer waits for the purges and answers under way -/
  done : Bool
  deriving DecidableEq, Repr

/-- NPUB's name resolution (R278). -/
structure NamePkt where
  req : Requester
  xid : Nat
  name : Word
  n : Nat
  deriving DecidableEq, Repr

/-- NTENS at the tensor table (R281). -/
structure TensorPkt where
  req : Requester
  xid : Nat
  num : Word
  image : List Byte
  deriving DecidableEq, Repr

/-- An interest in a named tile (R124): completes LDT, or a tag of NWANT; `child` is the port or core it came from. -/
structure InterestPkt where
  req : Requester
  xid : Nat
  tag : Option Nat
  name : Word
  n : Nat
  dst : Word
  born : Nat
  /-- it has raised its INTEREST_STALL event (R126) -/
  stalled : Bool
  deriving DecidableEq, Repr

/-- A tile on its way down the recorded paths (R124, R127), or a NEVER or fault answer. -/
structure DeliverPkt where
  name : Word
  code : Option FaultCode
  latecomer : Bool
  bytes : List Byte
  deriving DecidableEq, Repr

/-- An acknowledgement (R107). -/
structure AckPkt where
  req : Requester
  xid : Nat
  ack : AckTo
  ga : Word
  code : Option FaultCode
  deriving DecidableEq, Repr

/-- A reservation for a capsule that waits in berth `berth` of core `src` (R132). -/
structure ReservePkt where
  src : Nat
  berth : Nat
  launch : Nat
  step : Word
  born : Nat
  deriving DecidableEq, Repr

/-- A grant: berth `dstBerth` of core `dst` is held for the capsule in `src`, `berth`. -/
structure GrantPkt where
  src : Nat
  berth : Nat
  dst : Nat
  dstBerth : Nat
  deriving DecidableEq, Repr

/-- A capsule in flight: its 16,640-byte berth image. -/
structure CapsulePkt where
  src : Nat
  dst : Nat
  dstBerth : Nat
  bytes : List Byte
  deriving DecidableEq, Repr

/-- A capsule going back to its origin's queue (R134), with the identity and key for its second record (R405). -/
structure ReturnPkt where
  src : Option (Nat × Nat)
  launch : Nat
  code : FaultCode
  bytes : List Byte
  req : Option Requester
  deriving DecidableEq, Repr

/-- What a channel instruction does to an entry (R295). -/
inductive ChanOp where
  | entry (v : Word)
  | block
  | unblock
  deriving DecidableEq, Repr

/-- A channel change on its way to a core (R43). -/
structure ChanPkt where
  req : Requester
  xid : Nat
  ack : Option AckTo
  core : Nat
  chan : Nat
  op : ChanOp
  deriving DecidableEq, Repr

/-- A Press contribution or result between nodes (R423-R428). `up` is true toward the root; `child` is the port it
comes from. `bar` marks an arrival, `part` is the exact partial: for .fsum a multiple of 2^-160 (R339), for .fmax and .fmin
the selected value as such a multiple; `negz` and `zpos` say that every present one is -0, or +0. `members` are the contributors the result is owed to, `lanes` their number for a
root group (R425), `bad` an inconsistent round (R340). -/
structure PressPkt where
  node : Nat
  up : Bool
  child : Nat
  gid : Nat
  gen : Nat
  round : Nat
  op : Nat
  fmt : Nat
  sat : Bool
  mode : Nat
  bar : Bool
  part : Int
  count : Nat
  nan : Bool
  pinf : Bool
  minf : Bool
  negz : Bool
  zpos : Bool
  lanes : Nat
  bad : Bool
  members : List Requester
  deriving DecidableEq, Repr

/-- A Thresher request (R331): its four ranges as addresses and sizes of their pieces. -/
structure SortReq where
  req : Requester
  job : Nat
  keys : List (Nat × Nat)
  pays : List (Nat × Nat)
  payOut : List (Nat × Nat)
  tabOut : List (Nat × Nat)
  n : Nat
  kb : Nat
  pw : Nat
  deriving DecidableEq, Repr

/-- A request to the seed registry (R249). -/
structure SeedReq where
  die : Nat
  launch : Nat
  seed : Word
  base : Word
  len : Word
  deriving DecidableEq, Repr

/-- Who waits for a translation walk: a task's bundle, or a carter job (R402, R403). -/
inductive Walker where
  | task (r : SlotRef) (task : Nat)
  | job (core job : Nat)
  deriving DecidableEq, Repr

/-- A walk of the port walker (R395): launch, page address, rights {RD, WR, EX} in bits 0-2, and the use that R397
checks: lattice, private, or none for a fetch or a constant read (log 15). -/
structure WalkReq where
  cluster : Nat
  launch : Nat
  va : Word
  need : Nat
  space : Option Bool
  who : Walker
  /-- the pages of the access in order, and the faults of step 4 of R392 found on some of them so far (R404) -/
  pages : List Word
  bad : List (FaultCode × Nat × Word)
  deriving DecidableEq, Repr

/-- One end of a Ubon port: port number at the Granary (R455) and which end. -/
structure LinkEnd where
  port : Nat
  granary : Bool
  deriving DecidableEq, Repr

/-- A Ubon flit: 128-bit control header and four 64-byte slots (R445). -/
structure Flit where
  ctrl : BitVec 128
  slots : List (BitVec 512)
  deriving DecidableEq, Repr

/-- A wavelength of an optical port (R467). -/
structure Wave where
  port : Nat
  fibre : Nat
  lambda : Nat
  deriving DecidableEq, Repr

/-- A host write or read through a BAR (R460): function (0-15 die functions, 16 package function 0), BAR, offset. -/
structure BarAcc where
  fn : Nat
  bar : Nat
  off : Nat
  deriving DecidableEq, Repr

/-! ## The rows of the opcode table -/

/-- The instructions and steps of the machine, one constructor per row of spec/opcode_table.json. -/
inductive Instr where
  -- scalar, control and local memory (R169-R206)
  | add (o : Alu)
  | sub (o : Alu)
  | mul (o : Alu)
  | mulh (o : Alu)
  | div (o : Alu)
  | rem (o : Alu)
  | divideResult (r : SlotRef)
  | neg (o : Un)
  | abs (o : Un)
  | min (o : Alu)
  | max (o : Alu)
  | and (o : Alu)
  | or (o : Alu)
  | xor (o : Alu)
  | andn (o : Alu)
  | not (o : Un)
  | shl (o : Alu)
  | shr (o : Alu)
  | sar (o : Alu)
  | rol (o : Alu)
  | ror (o : Alu)
  | clz (o : Cnt)
  | ctz (o : Cnt)
  | ffs (o : Cnt)
  | popc (o : Cnt)
  | brev (o : Cnt)
  | ext (o : Alu)
  | ins (o : Alu)
  | sext (o : Cnt)
  | zext (o : Cnt)
  | cmp (o : Alu)
  | setc (cc : BitVec 4) (o : Alu)
  | sel (cc : BitVec 4) (d a b : Reg)
  | mov (d a : Reg)
  | movi (ty : BitVec 2) (d : Reg) (imm : BitVec 20)
  | movl (ty : BitVec 2) (d : Reg) (src : Src)
  | lea (d : Reg) (mem : Mem)
  | b (br : Br)
  | bc (cc : BitVec 4) (br : Br)
  | bz (d : Reg) (br : Br)
  | bnz (d : Reg) (br : Br)
  | loop (d : Reg) (br : Br)
  | call (br : Br)
  | jmp (d : Reg)
  | ld (o : LdSt)
  | ldTake (o : LdSt)
  | st (o : LdSt)
  | stPut (o : LdSt)
  | stReset (o : LdSt)
  | ldp (d : Reg) (mem : Mem)
  | stp (d : Reg) (mem : Mem)
  | movc (d : Reg) (num : BitVec 7)
  | movs (num : BitVec 7) (src : Src)
  | segld (d : SReg) (mem : Mem)
  | segrd (hi : Bool) (d : Reg) (a : SReg)
  | trap (imm : BitVec 20)
  -- vector (R207-R256)
  | vld (o : VMem)
  | vst (o : VMem)
  | vlds (o : VMem)
  | vsts (o : VMem)
  | vgath (o : VMem)
  | vscat (o : VMem)
  | vbcast (fmt : BitVec 5) (pm : PReg) (d : VReg) (src : Src)
  | vmovgToG (fmt : BitVec 5) (d : Reg) (a : VReg) (b : Reg)
  | vmovgToV (fmt : BitVec 5) (d : VReg) (a b : Reg)
  | vadd (o : V2)
  | vsub (o : V2)
  | vmul (o : V2)
  | vfma (o : VB)
  | vfms (o : VB)
  | vdiv (o : V2)
  | vmax (o : V2)
  | vmin (o : V2)
  | vabs (o : V1)
  | vneg (o : V1)
  | vcps (o : VB)
  | vrcp (o : V1)
  | vrsq (o : V1)
  | vsqrt (o : V1)
  | vexp2 (o : V1)
  | vlog2 (o : V1)
  | vsin (o : V1)
  | vcos (o : V1)
  | vtanh (o : V1)
  | verf (o : V1)
  | specialFunctionResult (r : SlotRef)
  | viadd (o : V2)
  | visub (o : V2)
  | vimul (o : V2)
  | vimax (o : V2)
  | vimin (o : V2)
  | vand (o : V2)
  | vor (o : V2)
  | vxor (o : V2)
  | vshl (o : V2)
  | vshr (o : V2)
  | vsar (o : V2)
  | vclz (o : V1)
  | vctz (o : V1)
  | vpopc (o : V1)
  | vcmp (pr : BitVec 4) (fmt : BitVec 5) (d : PReg) (a : VReg) (src : Src)
  | vsel (o : VB)
  | vclass (o : V1)
  | vpres (fmt : BitVec 5) (d : PReg) (a : VReg)
  | vfilla (o : V1)
  | vcvt (o : Cvt)
  | vpack (o : Cvt)
  | vunpk (o : Cvt)
  | vscale (inv : Bool) (f : BitVec 4) (d a : VReg) (b : Reg)
  | vred (o : Red)
  | vscan (o : Red)
  | vperm (o : VB)
  | vrot (o : V2)
  | vzip (o : Zip)
  | vuzp (o : Zip)
  | vsort (asc : Bool) (fmt : BitVec 5) (d a : VReg)
  | vtopk (asc : Bool) (fmt : BitVec 5) (d a : VReg) (src : Src)
  | vmrgk (asc : Bool) (fmt : BitVec 5) (d a b : VReg)
  | vselgt (o : V2)
  | vselge (o : V2)
  | vcompr (o : V1)
  | vrand (fmt : BitVec 5) (pm : PReg) (d : VReg) (a : Reg)
  | rand (d a : Reg)
  | rngreg (a b : Reg)
  | seedRegistryRequest (q : SeedReq)
  | sdset (d : BitVec 2) (mem : Mem)
  | sdon (write : Bool) (d : BitVec 4) (a : BitVec 2)
  | sdoff (d : BitVec 4)
  | rep (imm : BitVec 20)
  | repx (len : BitVec 5) (a : Reg)
  | fmtld (place : BitVec 3) (mem : Mem)
  | fmtsel (d : BitVec 2) (src : RegImm)
  -- lattice, names, copies, tasks, capsules (R257-R306)
  | join (o : LatMem)
  | joinf (jt : BitVec 7) (d b : Reg) (mem : MemR)
  | lth (o : Lth)
  | ldf (o : LatMem)
  | freeze (b : Reg) (mem : MemR)
  | plot (b : Reg) (mem : MemR)
  | fillt (n : BitVec 4) (fmt : BitVec 5) (k : SReg) (b : Reg) (mem : MemR)
  | ldt (n : BitVec 4) (b : Reg) (mem : MemR)
  | ldtAddr (n : BitVec 4) (k : SReg) (b : Reg) (mem : MemR)
  | npub (o : NamOp)
  | nwant (tag : Tag) (o : NamOp)
  | nclose (a : Reg) (t : RegImm)
  | ntensCreate (d : Reg) (mem : Mem)
  | ntensDelete (d : Reg) (mem : Mem)
  | jfence (scope : BitVec 3)
  | copy (tag : Tag) (nj : Bool) (nseg sseg : SReg) (b : Reg) (mem : MemR)
  | copyt (tag : Tag) (mem : MemR)
  | copyd (tag : Tag) (mem : MemR)
  | copya (tag : Tag) (k : SReg) (b : Reg) (t : BitVec 64) (mem : MemR)
  | waitany (d : Reg) (m : RegImm)
  | waitall (d : Reg) (m : RegImm)
  | fready (d a : Reg)
  | freadyCode (d a : Reg)
  | tclr (m : RegImm)
  | spawn (mem : Mem)
  | chset (a b : Reg)
  | chblk (a : Reg)
  | chunb (a : Reg)
  | capnew (d a : Reg)
  | capstep (a b : Reg)
  | capins (a : Reg) (step : RegLit)
  | capdel (i : RegImm)
  | capredir (a : Reg) (place : RegLit)
  | caprd (d : Reg) (sel : RegImm)
  -- matrix, Thresher, Press (R307-R346)
  | mzero (c : Acc)
  | mma (o : MmaOp)
  | mmah (o : MmaOp)
  | mhoop (seg : SReg) (mf : BitVec 3) (a b : Reg)
  | mdrain (norm : Bool) (code : BitVec 4) (c : Acc) (mem : Mem)
  | mdrainp (c : Acc) (b : Reg) (mem : MemR)
  | macc (c : Acc) (b : Reg) (mem : MemR)
  | mpri (p : BitVec 2)
  | thresh (tag : Tag) (k : SReg) (b c e : Reg) (opts : BitVec 64) (mem : MemR)
  | gjoin (h : RegImm)
  | gleave (h : RegImm)
  | gbar (h : RegImm)
  | gcon (op : BitVec 4) (fmt : BitVec 5) (a b : Reg)
  | grecv (d a : Reg)
  | gstat (d a : Reg)
  -- steps of the matrix unit, the Hoop, the carter and the Thresher
  | matrixKstep (core : Nat)
  | hoopLatchMove (core : Nat)
  | hoopChunkSend (core : Nat)
  | maccSlotReady (core : Nat) (a : Answer)
  | mailboxTake (core : Nat)
  | copyComplete (core job : Nat)
  | armFire (core job : Nat) (code : Option FaultCode)
  | thresherSort (q : SortReq)
  -- scheduling, translation
  | budgetRefill (core : Nat)
  | recordBind (cluster : Nat)
  | spillReturn (die : Nat)
  | wakeAccept (r : SlotRef)
  | translationWalk (q : WalkReq)
  -- launches
  | submissionFill (die : Nat)
  | lcountJoin (die : Nat)
  | launchExpansion (die : Nat)
  | launchCompletion (launch : Nat)
  | preemptTriggerArrival (die launch : Nat)
  | contextSave (launch : Nat)
  -- shoot-down
  | shootDownAck (die cluster : Nat)
  -- reset, boot, links
  | discover (e : LinkEnd) (desc : BitVec 512)
  | flitSend (e : LinkEnd)
  | flitReceive (e : LinkEnd) (f : Flit)
  | portRetrain (e : LinkEnd)
  | portsync (e : LinkEnd) (last : BitVec 16)
  -- messages taken by their home
  | storeData (p : StorePkt)
  | loadRequest (p : LoadPkt)
  | loadReply (p : WakePkt)
  | joinPacket (p : JoinPkt)
  | valueCountRequest (p : CountPkt)
  | countRoundAnswer (ga : Word)
  | thresholdRegistration (p : RegPkt)
  | exactRead (p : ExactPkt)
  | plotRequest (p : PlotPkt)
  | freezeRequest (p : PlotPkt)
  | closeRequest (p : ClosePkt)
  | nameResolution (p : NamePkt)
  | tensorTableWrite (p : TensorPkt)
  | tileFill (p : FillPkt)
  | interest (router : Nat) (child : Nat) (p : InterestPkt)
  | tileDelivery (router : Nat) (p : DeliverPkt)
  | interestStall (router : Nat) (name : Word)
  | copyData (core job : Nat) (ga : Word) (bytes : List (Option Byte))
  | acknowledgement (p : AckPkt)
  | wake (p : WakePkt)
  | neverAnswer (router : Nat) (p : DeliverPkt)
  | purge (router : Nat) (tensor : Nat) (lo hi : Nat)
  | waitingStoreRelease (store : Nat) (idx : Nat)
  | berthReservation (p : ReservePkt)
  | berthGrant (p : GrantPkt)
  | capsuleTransfer (p : CapsulePkt)
  | gleanerBind (core : Nat)
  | capsuleReturn (p : ReturnPkt)
  | channelChange (p : ChanPkt)
  | shootDown (die cluster : Nat)
  | clusterSleep (cluster : Nat)
  | clusterWake (cluster : Nat)
  | pressPacket (p : PressPkt)
  | pressDrainToken (gid : Nat)
  | watchdog (gid : Nat)
  -- faults and service
  | faultRecordDrain (die : Nat)
  | faultRecordOffer (die : Nat)
  | fetch (r : SlotRef)
  -- acts of the host on the device (R367, R460, R464)
  | lsubmit (die : Nat)
  | lcmdPreempt (die slot : Nat)
  | lcmdResume (die slot : Nat)
  | lcmdTearDown (die slot : Nat)
  | lcmdRelease (die slot : Nat)
  | dbggo (die : Nat)
  | tsgo (die : Nat)
  | eqbase (die : Nat) (v : Word)
  | eqsize (die : Nat) (v : Word)
  | eqhead (die : Nat) (v : Word)
  | cfqpop (die : Nat) (v : Word)
  | fattr (v : Word)
  | repairCore (v : Word)
  | repairDie (v : Word)
  | repairSlice (v : Word)
  | repairPort (v : Word)
  | repairWavelength (v : Word)
  | faben (v : Word)
  | snapctlTrigger (v : Word)
  | controlRegisterWrite (ctl off : Nat) (v : Word)
  | hostRead (acc : BarAcc) (n : Nat)
  | hostWrite (acc : BarAcc) (bytes : List Byte)
  | prespRetry (die : Nat) (seq : Nat)
  | prespDeny (die : Nat) (seq : Nat)
  | dieReset (die : Nat)
  | stopInterface (die : Nat)
  | lockInterface (die : Nat)
  | startInterface (die : Nat)
  | lerrRead (die : Nat)
  -- events of the environment (R413, R444, R454, R457, R468)
  | uncorrectableError (ga : Word) (who : Option Requester)
  | junctionHot (die : Nat)
  | junctionCool (die : Nat)
  | junctionCritical (die : Nat)
  | symbolWindow (w : Wave) (corrected : Nat)
  | lossOfSignal (w : Wave)
  | portTrained (e : LinkEnd)
  | discoverTimeout (e : LinkEnd)
  | portFence (e : LinkEnd)
  -- rows without operands
  | nop
  | ret
  | brk
  | snap
  | tend
  | capsend
  | capdone
  | packageFunctionReset
  | packageBoot
  | scrub
  | snapshotLatch
  deriving DecidableEq, Repr

end Sys2Proof
end

