-- ==== Sys2Proof/WellFormed.lean ====
section
/-! DEFINITION. Which terms of `Instr` are instructions of the opcode map (R153, R154 and the operand rules of the
instruction chapters). Steps of hidden agents and of the host have no encoding. -/

namespace Sys2Proof

/-- Sets of format codes (R208). -/
def fmtAll (f : BitVec 5) : Bool := decide (f.toNat < 20)
def fmtNm (f : BitVec 5) : Bool := decide (f.toNat < 8) || (decide (12 ≤ f.toNat) && decide (f.toNat < 20))
def fmtFl (f : BitVec 5) : Bool := decide (12 ≤ f.toNat) && decide (f.toNat < 20)
def fmtInBt (f : BitVec 5) : Bool := decide (f.toNat < 12)
def fmtBt (f : BitVec 5) : Bool := decide (8 ≤ f.toNat) && decide (f.toNat < 12)
def fmtNotE2m1 (f : BitVec 5) : Bool := fmtAll f && decide (f ≠ 18)
/-- 32- and 64-bit formats (R215). -/
def fmtWide (f : BitVec 5) : Bool :=
  (decide (f.toNat < 12) && decide (2 ≤ f.toNat % 4)) || decide (f = 12) || decide (f = 13)
/-- Formats of the special functions (R226). -/
def fmtRoot (f : BitVec 5) : Bool := decide (12 ≤ f.toNat) && decide (f.toNat < 16)
def fmtSpecial (f : BitVec 5) : Bool := decide (13 ≤ f.toNat) && decide (f.toNat < 16)
def fmtRand (f : BitVec 5) : Bool := decide (8 ≤ f.toNat) && decide (f.toNat < 16)

/-- Width in bits of a conversion format code (R234). -/
def cvtWidth (c : BitVec 4) : Nat := [64, 32, 16, 16, 8, 8, 4, 8, 8, 16, 32, 64, 8, 16, 32, 64].getD c.toNat 8

/-- A constant form of a two-source instruction of operand width 64 or less (R148, R171, R211). -/
def Src.fits (s : Src) (wide : Bool) : Bool :=
  match s with
  | .rl64 _ => wide
  | _ => true

def Src.isReg (s : Src) : Bool := match s with | .rr _ => true | _ => false
/-- RR and RI only. -/
def Src.short (s : Src) : Bool := match s with | .rr _ => true | .ri _ => true | _ => false
/-- A V register in RR form (R207). -/
def Src.vreg (s : Src) : Bool := match s with | .rr b => decide (b.toNat < 8) | _ => true

def Ty.notW (t : Ty) : Bool := match t with | .w => false | _ => true

/-- TY i, n or b with a constant that fits (R170, R171). -/
def Alu.wf (o : Alu) : Bool := o.ty.notW && o.src.fits (o.sz == .s64)
def Alu.wfShift (o : Alu) : Bool := o.ty.notW && o.src.short
/-- Descriptors of EXT and INS in RI form (R177). -/
def fieldImm (s : Src) : Bool :=
  match s with
  | .rr _ => true
  | .ri imm => decide (imm.toNat < 2 ^ 13) && decide (imm.toNat / 64 ≤ 64 - imm.toNat % 64)
  | _ => false

/-- The condition under which RL64 is admitted for a vector format: 64-bit elements (R211). -/
def fmt64 (f : BitVec 5) : Bool := (f.toNat % 4 == 3 && f.toNat < 12) || f == 12

def V2.wf (o : V2) (set : BitVec 5 → Bool) : Bool :=
  set o.fmt && o.src.vreg && o.src.fits (fmt64 o.fmt)

def RegImm.below (m : RegImm) (bits : Nat) : Bool :=
  match m with
  | .reg _ => true
  | .imm v => decide (v.toNat < 2 ^ bits)

/-- Join types of R258. -/
def jtOk (jt : BitVec 7) : Bool :=
  let f := jt.toNat % 32
  match jt.toNat / 32 with
  | 0 => decide (f < 8) || (decide (12 ≤ f) && decide (f < 18))
  | 1 => decide (f < 8) || (decide (12 ≤ f) && decide (f < 18))
  | 2 => decide (f < 18) || decide (f = 19)
  | _ => decide (6 ≤ f ∧ f < 12) || decide (24 ≤ f ∧ f < 28)

/-- LTH (R269). -/
def Lth.wf (o : Lth) : Bool :=
  decide (o.kind.toNat < 6) && (!o.filled || o.kind == 5) && (o.kind != 5 || o.d.toNat % 2 == 0) &&
  match o.more with
  | none => o.nt == 0 && (!o.filled || o.b == 0)
  | some (c, e, lit) =>
    (decide (1 ≤ o.nt.toNat) || c == 0) && (decide (2 ≤ o.nt.toNat) || e == 0) && (o.nt == 3 || lit == 0)

def NamOp.wf (o : NamOp) : Bool := decide (o.n.toNat ≤ 8)

/-- MMA and MMAH (R309-R311): MF below 7, block scales in RR form on float formats, NK of an immediate not zero. -/
def MmaOp.wf (o : MmaOp) : Bool :=
  o.mf != 7 && (!o.sc || (o.mf != 5)) &&
  match o.src with
  | .reg _ => true
  | .imm v => !o.sc && decide (v.toNat < 2 ^ 12) && v != 0

/-- Operators and formats of GCON (R338). -/
def gconOk (op : BitVec 4) (f : BitVec 5) : Bool :=
  let fs := fmtFl f && f != 12 && f != 18
  match op.toNat with
  | 0 => fmtInBt f
  | 1 => fmtInBt f
  | 2 => fmtInBt f
  | 3 => fmtBt f
  | 4 => fmtBt f
  | 5 => fs
  | 6 => fs
  | 7 => fs
  | 8 => fmtNotE2m1 f
  | _ => false

/-- Control registers that MOVC reads and MOVS writes (R158). -/
def crReadable (n : BitVec 7) : Bool :=
  decide (n.toNat ≤ 0x0E) || (decide (0x10 ≤ n.toNat) && decide (n.toNat ≤ 0x1B))
def crWritable (n : BitVec 7) : Bool :=
  (decide (1 ≤ n.toNat) && decide (n.toNat ≤ 3)) || (decide (7 ≤ n.toNat) && decide (n.toNat ≤ 9)) ||
  (decide (0x10 ≤ n.toNat) && decide (n.toNat ≤ 0x17))

/-- Which terms are encodable instructions; steps have no encoding. -/
def Instr.wf (i : Instr) : Bool :=
  match i with
  | .nop => true
  | .add o => o.wf
  | .sub o => o.wf
  | .mul o => o.wf
  | .mulh o => o.wf
  | .div o => o.wf
  | .rem o => o.wf
  | .neg o => o.ty == .i || o.ty == .b
  | .abs o => o.ty == .i
  | .min o => o.wf
  | .max o => o.wf
  | .and o => o.wf
  | .or o => o.wf
  | .xor o => o.wf
  | .andn o => o.wf
  | .not o => o.ty.notW
  | .shl o => o.wfShift
  | .shr o => o.wfShift
  | .sar o => o.wfShift
  | .rol o => o.wfShift
  | .ror o => o.wfShift
  | .clz _ => true
  | .ctz _ => true
  | .ffs _ => true
  | .popc _ => true
  | .brev _ => true
  | .ext o => (o.ty == .i || o.ty == .n) && o.sz == .s64 && fieldImm o.src
  | .ins o => o.ty == .b && o.sz == .s64 && fieldImm o.src
  | .sext o => o.sz != .s64
  | .zext o => o.sz != .s64
  | .cmp o => o.wf && o.d == 0
  | .setc _ o => o.ty == .i && o.src.fits (o.sz == .s64)
  | .sel _ _ _ _ => true
  | .mov _ _ => true
  | .movi ty _ _ => ty != 3
  | .movl ty _ src =>
    match src with
    | .rl _ => ty != 3
    | .rl64 _ => ty == 0 || ty == 2
    | _ => false
  | .lea _ _ => true
  | .b _ => true
  | .bc _ _ => true
  | .bz _ _ => true
  | .bnz _ _ => true
  | .loop _ _ => true
  | .call _ => true
  | .ret => true
  | .jmp _ => true
  | .ld o => o.ty.notW
  | .ldTake o => o.ty.notW && o.sz == .s64
  | .st o => o.ty.notW
  | .stPut o => o.ty.notW && o.sz == .s64
  | .stReset o => o.ty.notW && o.sz == .s64
  | .ldp d _ => d.toNat % 2 == 0
  | .stp d _ => d.toNat % 2 == 0
  | .movc _ n => crReadable n
  | .movs n src => crWritable n && match src with | .rr _ => true | .ri _ => true | .rk _ _ => true | _ => false
  | .segld _ _ => true
  | .segrd _ _ _ => true
  | .trap _ => true
  | .brk => true
  | .snap => true
  | .vld o => fmtAll o.fmt
  | .vst o => fmtAll o.fmt
  | .vlds o => fmtNotE2m1 o.fmt
  | .vsts o => fmtNotE2m1 o.fmt
  | .vgath o => fmtWide o.fmt && decide (o.mem.base.toNat < 8)
  | .vscat o => fmtWide o.fmt && decide (o.mem.base.toNat < 8)
  | .vbcast f _ _ src => fmtAll f && src.fits (fmt64 f)
  | .vmovgToG f _ _ _ => fmtAll f
  | .vmovgToV f _ _ _ => fmtAll f
  | .vadd o => o.wf fmtFl
  | .vsub o => o.wf fmtFl
  | .vmul o => o.wf fmtFl
  | .vfma o => fmtFl o.fmt
  | .vfms o => fmtFl o.fmt
  | .vdiv o => o.wf fmtFl
  | .vmax o => o.wf fmtFl
  | .vmin o => o.wf fmtFl
  | .vabs o => fmtFl o.fmt
  | .vneg o => fmtFl o.fmt
  | .vcps o => fmtFl o.fmt
  | .vrcp o => fmtRoot o.fmt
  | .vrsq o => fmtRoot o.fmt
  | .vsqrt o => fmtRoot o.fmt
  | .vexp2 o => fmtSpecial o.fmt
  | .vlog2 o => fmtSpecial o.fmt
  | .vsin o => fmtSpecial o.fmt
  | .vcos o => fmtSpecial o.fmt
  | .vtanh o => fmtSpecial o.fmt
  | .verf o => fmtSpecial o.fmt
  | .viadd o => o.wf fmtInBt
  | .visub o => o.wf fmtInBt
  | .vimul o => o.wf fmtInBt
  | .vimax o => o.wf fmtInBt
  | .vimin o => o.wf fmtInBt
  | .vand o => o.wf fmtInBt
  | .vor o => o.wf fmtInBt
  | .vxor o => o.wf fmtInBt
  | .vshl o => o.wf fmtInBt && o.src.short
  | .vshr o => o.wf fmtInBt && o.src.short
  | .vsar o => o.wf fmtInBt && o.src.short
  | .vclz o => fmtInBt o.fmt
  | .vctz o => fmtInBt o.fmt
  | .vpopc o => fmtInBt o.fmt
  | .vcmp pr f d _ src => decide (pr.toNat < 8) && fmtNotE2m1 f && d != 0 && src.vreg && src.fits (fmt64 f)
  | .vsel o => fmtAll o.fmt
  | .vclass o => fmtNm o.fmt
  | .vpres f d _ => fmtNotE2m1 f && d != 0
  | .vfilla o => fmtNm o.fmt
  | .vcvt o => cvtWidth o.sf == cvtWidth o.df && o.part == 0
  | .vpack o => decide (cvtWidth o.df < cvtWidth o.sf) && decide (o.part.toNat < cvtWidth o.sf / cvtWidth o.df)
  | .vunpk o => decide (cvtWidth o.sf < cvtWidth o.df) && decide (o.part.toNat < cvtWidth o.df / cvtWidth o.sf)
  | .vscale _ f _ _ _ => decide (f.toNat < 8)
  | .vred o => fmtAll o.fmt && decide (o.op.toNat < 4)
  | .vscan o => fmtAll o.fmt && decide (o.op.toNat < 4)
  | .vperm o => fmtAll o.fmt
  | .vrot o => fmtAll o.fmt && o.src.short
  | .vzip o => fmtAll o.fmt
  | .vuzp o => fmtAll o.fmt
  | .vsort _ f d a => fmtNm f && f != 18 && d.toNat % 2 == 0 && a.toNat % 2 == 0
  | .vtopk _ f d a src => fmtNm f && f != 18 && d.toNat % 2 == 0 && a.toNat % 2 == 0 &&
    match src with | .rr _ => true | .ri imm => decide (imm.toNat < 2 ^ 12) | _ => false
  | .vmrgk _ f d a e => fmtNm f && f != 18 && d.toNat % 2 == 0 && a.toNat % 2 == 0 && e.toNat % 2 == 0
  | .vselgt o => fmtNm o.fmt && o.src.fits (fmt64 o.fmt)
  | .vselge o => fmtNm o.fmt && o.src.fits (fmt64 o.fmt)
  | .vcompr o => fmtAll o.fmt
  | .vrand f _ _ _ => fmtRand f
  | .rand _ _ => true
  | .rngreg _ _ => true
  | .sdset _ _ => true
  | .sdon _ d _ => d == 6 || d == 7
  | .sdoff d => d == 6 || d == 7
  | .rep imm => imm.toNat % 32 != 0
  | .repx len _ => len != 0
  | .fmtld _ _ => true
  | .fmtsel d src => d != 3 && src.below 4
  | .join o => jtOk o.jt
  | .joinf jt _ _ _ => jt == 0x66 || jt == 0x67
  | .lth o => o.wf
  | .ldf o => jtOk o.jt
  | .freeze _ _ => true
  | .plot _ _ => true
  | .fillt n f _ _ _ => decide (n.toNat ≤ 8) && fmtAll f
  | .ldt n _ _ => decide (n.toNat ≤ 8)
  | .ldtAddr n _ _ _ => decide (n.toNat ≤ 8)
  | .npub o => o.wf
  | .nwant _ o => o.wf
  | .nclose _ t => t.below 16
  | .ntensCreate _ _ => true
  | .ntensDelete _ _ => false
  | .jfence _ => true
  | .copy _ nj _ _ n _ => decide (n.toNat ≤ (if nj then 13 else 14))
  | .copyt _ _ => true
  | .copyd _ _ => true
  | .copya _ _ _ t _ => t != BitVec.allOnes 64
  | .waitany _ m => m.below 16
  | .waitall _ m => m.below 16
  | .fready _ _ => true
  | .freadyCode _ _ => true
  | .tclr m => m.below 16
  | .spawn _ => true
  | .tend => true
  | .chset _ _ => true
  | .chblk _ => true
  | .chunb _ => true
  | .capnew _ _ => true
  | .capsend => true
  | .capstep _ _ => true
  | .capins _ _ => true
  | .capdel i => i.below 4
  | .capredir _ _ => true
  | .caprd _ m => m.below 5
  | .capdone => true
  | .mzero _ => true
  | .mma o => o.wf
  | .mmah o => o.wf && !o.sc
  | .mhoop _ mf _ _ => mf != 7
  | .mdrain _ code _ _ => [1, 2, 3, 4, 5, 7, 8, 10].contains code.toNat
  | .mdrainp _ _ _ => true
  | .macc _ _ _ => true
  | .mpri _ => true
  | .thresh _ _ _ _ _ opts _ =>
    decide (opts.toNat < 2 ^ 26) && decide (1 ≤ opts.toNat / 2 ^ 20 % 32) && decide (opts.toNat / 2 ^ 20 % 32 ≤ 16)
  | .gjoin h => h.below 16
  | .gleave h => h.below 16
  | .gbar h => h.below 16
  | .gcon op f _ _ => gconOk op f
  | .grecv d _ => d.toNat % 2 == 0
  | .gstat _ _ => true
  | _ => false

end Sys2Proof
end

