-- ==== Sys2Proof/Decode.lean ====
section
/-! DEFINITION. Heads, tails and the opcode map (R136-R154): decoding an instruction from its head and tail, and after it
the encoder. -/

namespace Sys2Proof

/-! ## Tail forms -/

/-- The tail forms of R147. `m` is the modifier; in RI, RK, MS and ML its bit 7 is fixed by the form. -/
inductive Tail where
  | n
  | rr (m : BitVec 8) (b a : BitVec 4)
  | br (lineoff : BitVec 19) (head : BitVec 5)
  | ri (imm : BitVec 20) (m : BitVec 7) (a : BitVec 4)
  | rk (win : BitVec 3) (off : BitVec 17) (m : BitVec 7) (a : BitVec 4)
  | ms (disp : BitVec 17) (seg : BitVec 3) (m : BitVec 7) (base : BitVec 4)
  | rl (lit : BitVec 32) (m : BitVec 8) (a : BitVec 4)
  | ml (disp : BitVec 32) (seg : BitVec 3) (m : BitVec 7) (base : BitVec 4)
  | mr (disp : BitVec 32) (seg : BitVec 3) (m : BitVec 8) (b base : BitVec 4)
  | rl64 (lit : BitVec 64) (m : BitVec 8) (a : BitVec 4)
  | mx (lit : BitVec 64) (disp : BitVec 32) (seg : BitVec 3) (m : BitVec 8) (e c b base : BitVec 4)
  deriving DecidableEq, Repr

/-- Bytes of a tail by its length code (R137). -/
def tailBytes (tl : Nat) : Nat := [0, 2, 3, 4, 6, 8, 10, 16].getD tl 0

/-- `w` bits of a tail from bit `lo`. -/
def tb (t : BitVec 128) (lo w : Nat) : BitVec w := t.extractLsb' lo w

/-- The tail form that a length code selects for a memory or other opcode (R147); none when a zero field is not zero. -/
def parseTail (isMem : Bool) (tl : Nat) (t : BitVec 128) : Option Tail :=
  match tl with
  | 0 => some .n
  | 1 => some (.rr (tb t 8 8) (tb t 4 4) (tb t 0 4))
  | 2 => some (.br (tb t 5 19) (tb t 0 5))
  | 3 =>
    if isMem then (if t.getLsbD 11 then none else some (.ms (tb t 15 17) (tb t 12 3) (tb t 4 7) (tb t 0 4)))
    else if t.getLsbD 11 then some (.rk (tb t 29 3) (tb t 12 17) (tb t 4 7) (tb t 0 4))
    else some (.ri (tb t 12 20) (tb t 4 7) (tb t 0 4))
  | 4 =>
    if isMem then
      (if t.getLsbD 15 || t.getLsbD 11 then none else some (.ml (tb t 16 32) (tb t 12 3) (tb t 4 7) (tb t 0 4)))
    else if tb t 12 4 ≠ 0 then none else some (.rl (tb t 16 32) (tb t 4 8) (tb t 0 4))
  | 5 => if tb t 19 13 ≠ 0 then none else some (.mr (tb t 32 32) (tb t 16 3) (tb t 8 8) (tb t 4 4) (tb t 0 4))
  | 6 => if tb t 12 4 ≠ 0 then none else some (.rl64 (tb t 16 64) (tb t 4 8) (tb t 0 4))
  | 7 =>
    if tb t 27 5 ≠ 0 then none
    else some (.mx (tb t 64 64) (tb t 32 32) (tb t 24 3) (tb t 16 8) (tb t 12 4) (tb t 8 4) (tb t 4 4) (tb t 0 4))
  | _ => none

/-- The length code of a tail form (R147). -/
def Tail.tl : Tail → Nat
  | .n => 0
  | .rr _ _ _ => 1
  | .br _ _ => 2
  | .ri _ _ _ => 3
  | .rk _ _ _ _ => 3
  | .ms _ _ _ _ => 3
  | .rl _ _ _ => 4
  | .ml _ _ _ _ => 4
  | .mr _ _ _ _ _ => 5
  | .rl64 _ _ _ => 6
  | .mx _ _ _ _ _ _ _ _ => 7

/-! ## The opcode map -/

/-- The length codes an opcode admits, as the map writes them (R154); a reserved opcode admits none. -/
def admits (op : Nat) : List Nat :=
  ([[[0], [1,3,4,6], [1,3,4,6], [1,3,4,6], [1,3,4,6], [1,3,4,6], [1,3,4,6], [1],
     [1], [1,3,4,6], [1,3,4,6], [1,3,4,6], [1,3,4,6], [1,3,4,6], [1,3,4,6], [1]],
    [[1,3], [1,3], [1,3], [1,3], [1,3], [1], [1], [1], [1], [1], [1,3], [1,3], [1], [1], [1,3,4,6], [1,3,4,6]],
    [[1], [1], [3], [4,6], [3,4], [2], [2], [2], [2], [2], [2], [0], [0], [3,4], [3,4], [3,4]],
    [[3,4], [1], [1,3], [3,4], [1], [3], [0], [0], [], [], [], [], [], [], [], []],
    [[3,4], [3,4], [3,4], [3,4], [3,4], [3,4], [1,3,4,6], [1],
     [1,3,4,6], [1,3,4,6], [1,3,4,6], [1], [1], [1,3,4,6], [1,3,4,6], [1,3,4,6]],
    [[1], [1], [1], [1], [1], [1], [1], [1], [1], [1], [1], [1], [], [], [], []],
    [[1,3,4,6], [1,3,4,6], [1,3,4,6], [1,3,4,6], [1,3,4,6], [1,3,4,6], [1,3,4,6], [1,3,4,6],
     [1,3], [1,3], [1,3], [1], [1], [1], [1,3,4,6], [1]],
    [[1], [1], [1], [1], [1], [1], [1], [], [1], [1], [1], [1,3], [1], [1], [1], [1,3]],
    [[1], [1,3,4,6], [1,3,4,6], [1], [1], [1], [1], [3,4], [1], [1], [3], [1], [3,4], [1,3], [], []],
    [],
    [[3,4], [5], [5,7], [3,4], [5], [5], [5], [5], [1,6], [1,6], [1,3], [3,4], [0], [5], [5], [5]],
    [[7], [1,3], [1,3], [1], [1,3], [3,4], [0], [1], [1], [1], [1], [0], [1], [1,6], [1,3], [1,6]],
    [[1,3], [0], [], [], [], [], [], [], [], [], [], [], [], [], [], []],
    [[0], [1,3], [1,3], [1], [3,4], [5], [5], [3], [7], [1,3], [1,3], [1,3], [1], [1], [1], []]] :
    List (List (List Nat))).getD (op / 16) [] |>.getD (op % 16) []

/-- A memory opcode: TL 3 and 4 select MS and ML (R147). -/
def isMemOp (op : Nat) : Bool := admits op == [3, 4]

/-- Class V opcodes (R154). -/
def classV (op : Nat) : Bool :=
  (decide (0x40 ≤ op) && decide (op ≤ 0x84)) || (decide (0xD0 ≤ op) && decide (op ≤ 0xD7))

/-! ## Field helpers -/

def Ty.code : Ty → BitVec 2
  | .i => 0
  | .n => 1
  | .b => 2
  | .w => 3

def Ty.ofCode (c : BitVec 2) : Ty :=
  match c.toNat with
  | 0 => .i
  | 1 => .n
  | 2 => .b
  | _ => .w

def Sz.code : Sz → BitVec 2
  | .s8 => 0
  | .s16 => 1
  | .s32 => 2
  | .s64 => 3

def Sz.ofCode (c : BitVec 2) : Sz :=
  match c.toNat with
  | 0 => .s8
  | 1 => .s16
  | 2 => .s32
  | _ => .s64

/-- A 4-bit field that names one of the first 8, 4 or 2 registers (R153). -/
def to3 (x : BitVec 4) : Option (BitVec 3) := if x.getLsbD 3 then none else some (x.extractLsb' 0 3)
def to2 (x : BitVec 4) : Option (BitVec 2) := if x.extractLsb' 2 2 = 0 then some (x.extractLsb' 0 2) else none
def to1 (x : BitVec 4) : Option (BitVec 1) := if x.extractLsb' 1 3 = 0 then some (x.extractLsb' 0 1) else none
def of3 (x : BitVec 3) : BitVec 4 := 0#1 ++ x
def of2 (x : BitVec 2) : BitVec 4 := 0#2 ++ x
def of1 (x : BitVec 1) : BitVec 4 := 0#3 ++ x

/-- A bit field of one bit. -/
def bit1 (b : Bool) : BitVec 1 := BitVec.ofBool b

/-- Modifier, first field and second source of the forms RR, RI, RK, RL and RL64. -/
def ofSrc (t : Tail) : Option (BitVec 7 × BitVec 4 × Src) :=
  match t with
  | .rr m b a => if m.getLsbD 7 then none else some (m.extractLsb' 0 7, a, .rr b)
  | .ri imm m a => some (m, a, .ri imm)
  | .rk w o m a => some (m, a, .rk w o)
  | .rl lit m a => if m.getLsbD 7 then none else some (m.extractLsb' 0 7, a, .rl lit)
  | .rl64 lit m a => if m.getLsbD 7 then none else some (m.extractLsb' 0 7, a, .rl64 lit)
  | _ => none

/-- Modifier and memory operand of MS and ML. -/
def ofMem (t : Tail) : Option (BitVec 7 × Mem) :=
  match t with
  | .ms d seg m base => some (m, ⟨seg, base, .ms d⟩)
  | .ml d seg m base => some (m, ⟨seg, base, .ml d⟩)
  | _ => none

/-- RR with a zero modifier. -/
def rr0 (t : Tail) (k : BitVec 4 → BitVec 4 → Option Instr) : Option Instr :=
  match t with
  | .rr m b a => if m = 0 then k a b else none
  | _ => none

/-- One register, in RR form with zero b and modifier. -/
def rr1 (t : Tail) (k : BitVec 4 → Option Instr) : Option Instr :=
  rr0 t fun a b => if b = 0 then k a else none

/-- No tail and D zero. -/
def noTail (d : BitVec 4) (t : Tail) (i : Instr) : Option Instr :=
  match t with
  | .n => if d = 0 then some i else none
  | _ => none

/-- A register in RR form or an immediate in RI form with a zero. -/
def regImm (t : Tail) (k : RegImm → Option Instr) : Option Instr :=
  match t with
  | .rr m b a => if m = 0 ∧ b = 0 then k (.reg a) else none
  | .ri v m a => if m = 0 ∧ a = 0 then k (.imm v) else none
  | _ => none

/-- MS or ML with a zero modifier. -/
def mem0 (t : Tail) (k : Mem → Option Instr) : Option Instr :=
  match ofMem t with
  | some (m, x) => if m = 0 then k x else none
  | none => none

/-! ## Shapes of the instruction chapters -/

def decAlu (d : BitVec 4) (t : Tail) (mk : Alu → Instr) : Option Instr :=
  match ofSrc t with
  | some (m, a, s) =>
    if m.extractLsb' 4 3 = 0 then
      some (mk ⟨Ty.ofCode (m.extractLsb' 2 2), Sz.ofCode (m.extractLsb' 0 2), d, a, s⟩)
    else none
  | none => none

def decUn (d : BitVec 4) (t : Tail) (mk : Un → Instr) : Option Instr :=
  match t with
  | .rr m b a =>
    if b = 0 ∧ m.extractLsb' 4 4 = 0 then
      some (mk ⟨Ty.ofCode (m.extractLsb' 2 2), Sz.ofCode (m.extractLsb' 0 2), d, a⟩)
    else none
  | _ => none

/-- Width-only instructions: TY is w (R176, R178). -/
def decCnt (d : BitVec 4) (t : Tail) (mk : Cnt → Instr) : Option Instr :=
  match t with
  | .rr m b a =>
    if b = 0 ∧ m.extractLsb' 2 6 = 3 then some (mk ⟨Sz.ofCode (m.extractLsb' 0 2), d, a⟩) else none
  | _ => none

def decBr (t : Tail) (k : Br → Option Instr) : Option Instr :=
  match t with
  | .br l h => k ⟨l, h⟩
  | _ => none

/-- LD and ST: KIND selects the row (R190). -/
def decLdSt (d : BitVec 4) (t : Tail) (k : BitVec 2 → LdSt → Option Instr) : Option Instr :=
  match ofMem t with
  | some (m, x) =>
    if m.getLsbD 6 then none
    else k (m.extractLsb' 4 2) ⟨Ty.ofCode (m.extractLsb' 2 2), Sz.ofCode (m.extractLsb' 0 2), d, x⟩
  | none => none

/-- LDP and STP: SZ 3, TY b, KIND 0 (R190). -/
def decPair (d : BitVec 4) (t : Tail) (mk : Reg → Mem → Instr) : Option Instr :=
  match ofMem t with
  | some (m, x) => if m = 11 then some (mk d x) else none
  | none => none

def decVMem (d : BitVec 4) (t : Tail) (mk : VMem → Instr) : Option Instr :=
  match ofMem t, to3 d with
  | some (m, x), some v => some (mk ⟨m.extractLsb' 0 5, m.extractLsb' 5 2, v, x⟩)
  | _, _ => none

def decV2 (d : BitVec 4) (t : Tail) (mk : V2 → Instr) : Option Instr :=
  match ofSrc t, to3 d with
  | some (m, a, s), some v => (to3 a).bind fun x => some (mk ⟨m.extractLsb' 0 5, m.extractLsb' 5 2, v, x, s⟩)
  | _, _ => none

def decVB (d : BitVec 4) (t : Tail) (mk : VB → Instr) : Option Instr :=
  match t, to3 d with
  | .rr m b a, some v =>
    match to3 a, to3 b with
    | some x, some y => if m.getLsbD 7 then none else some (mk ⟨m.extractLsb' 0 5, m.extractLsb' 5 2, v, x, y⟩)
    | _, _ => none
  | _, _ => none

def decV1 (d : BitVec 4) (t : Tail) (mk : V1 → Instr) : Option Instr :=
  match t, to3 d with
  | .rr m b a, some v =>
    (to3 a).bind fun x =>
      if m.getLsbD 7 ∨ b ≠ 0 then none else some (mk ⟨m.extractLsb' 0 5, m.extractLsb' 5 2, v, x⟩)
  | _, _ => none

def decCvt (d : BitVec 4) (t : Tail) (mk : Cvt → Instr) : Option Instr :=
  match t, to3 d with
  | .rr m b a, some v => (to3 a).bind fun x => some (mk ⟨m.extractLsb' 4 4, m.extractLsb' 0 4, v, x, b⟩)
  | _, _ => none

def decRed (d : BitVec 4) (t : Tail) (mk : Red → Instr) : Option Instr :=
  match t, to3 d with
  | .rr m b a, some v =>
    (to3 a).bind fun x => if m.getLsbD 7 then none else some (mk ⟨m.extractLsb' 0 5, m.extractLsb' 5 2, b, v, x⟩)
  | _, _ => none

/-- VZIP and VUZP: M[5] is SEL (R239). -/
def decZip (d : BitVec 4) (t : Tail) (mk : Zip → Instr) : Option Instr :=
  match t, to3 d with
  | .rr m b a, some v =>
    match to3 a, to3 b with
    | some x, some y =>
      if m.extractLsb' 6 2 = 0 then some (mk ⟨m.extractLsb' 0 5, m.getLsbD 5, v, x, y⟩) else none
    | _, _ => none
  | _, _ => none

/-- DIR in M[6], M[5] zero (R240). -/
def dirFmt (m : BitVec 7) : Option (Bool × BitVec 5) :=
  if m.getLsbD 5 then none else some (m.getLsbD 6, m.extractLsb' 0 5)

def decLat (d : BitVec 4) (t : Tail) (mk : LatMem → Instr) : Option Instr :=
  match ofMem t with
  | some (m, x) => some (mk ⟨m, d, x⟩)
  | none => none

def decMR (t : Tail) (k : BitVec 8 → BitVec 4 → MemR → Option Instr) : Option Instr :=
  match t with
  | .mr disp seg m b base => k m b ⟨seg, base, disp⟩
  | _ => none

def decMX (t : Tail) (k : BitVec 8 → BitVec 64 → BitVec 4 → BitVec 4 → BitVec 4 → MemR → Option Instr) :
    Option Instr :=
  match t with
  | .mx lit disp seg m e c b base => k m lit e c b ⟨seg, base, disp⟩
  | _ => none

/-- NPUB and NWANT (R278, R279). -/
def decNam (t : Tail) (mk : NamOp → Instr) : Option Instr :=
  match t with
  | .rr m b a =>
    if m.getLsbD 3 then none else some (mk ⟨m.extractLsb' 4 4, m.extractLsb' 0 3, .reg a, b⟩)
  | .rl64 lit m a =>
    if m.getLsbD 3 then none else some (mk ⟨m.extractLsb' 4 4, m.extractLsb' 0 3, .lit lit, a⟩)
  | _ => none

def decMma (d : BitVec 4) (t : Tail) (mk : MmaOp → Instr) : Option Instr :=
  match t, to1 d with
  | .rr m b a, some c =>
    if m.getLsbD 7 then none else some (mk ⟨m.getLsbD 6, m.extractLsb' 3 3, m.extractLsb' 0 3, c, a, .reg b⟩)
  | .ri v m a, some c => some (mk ⟨m.getLsbD 6, m.extractLsb' 3 3, m.extractLsb' 0 3, c, a, .imm v⟩)
  | _, _ => none

/-- CAPINS and CAPREDIR: RR, or RL64 with a literal (R303). -/
def decCap (t : Tail) (mk : Reg → RegLit → Instr) : Option Instr :=
  match t with
  | .rr m b a => if m = 0 then some (mk a (.reg b)) else none
  | .rl64 lit m a => if m = 0 then some (mk a (.lit lit)) else none
  | _ => none

/-! ## Decoding by opcode -/

def dec0 (o : Nat) (d : BitVec 4) (t : Tail) : Option Instr :=
  match o with
  | 0 => noTail d t .nop
  | 1 => decAlu d t .add
  | 2 => decAlu d t .sub
  | 3 => decAlu d t .mul
  | 4 => decAlu d t .mulh
  | 5 => decAlu d t .div
  | 6 => decAlu d t .rem
  | 7 => decUn d t .neg
  | 8 => decUn d t .abs
  | 9 => decAlu d t .min
  | 10 => decAlu d t .max
  | 11 => decAlu d t .and
  | 12 => decAlu d t .or
  | 13 => decAlu d t .xor
  | 14 => decAlu d t .andn
  | _ => decUn d t .not

def dec1 (o : Nat) (d : BitVec 4) (t : Tail) : Option Instr :=
  match o with
  | 0 => decAlu d t .shl
  | 1 => decAlu d t .shr
  | 2 => decAlu d t .sar
  | 3 => decAlu d t .rol
  | 4 => decAlu d t .ror
  | 5 => decCnt d t .clz
  | 6 => decCnt d t .ctz
  | 7 => decCnt d t .ffs
  | 8 => decCnt d t .popc
  | 9 => decCnt d t .brev
  | 10 => decAlu d t .ext
  | 11 => decAlu d t .ins
  | 12 => decCnt d t .sext
  | 13 => decCnt d t .zext
  | 14 => decAlu d t .cmp
  | _ =>
    match ofSrc t with
    | some (m, a, s) =>
      if m.getLsbD 6 then none
      else some (.setc (m.extractLsb' 0 4) ⟨.i, Sz.ofCode (m.extractLsb' 4 2), d, a, s⟩)
    | none => none

def dec2 (o : Nat) (d : BitVec 4) (t : Tail) : Option Instr :=
  match o with
  | 0 =>
    match t with
    | .rr m b a => if m.extractLsb' 4 4 = 0 then some (.sel (m.extractLsb' 0 4) d a b) else none
    | _ => none
  | 1 => rr1 t fun a => some (.mov d a)
  | 2 =>
    match t with
    | .ri imm m a => if a = 0 ∧ m.extractLsb' 2 5 = 0 then some (.movi (m.extractLsb' 0 2) d imm) else none
    | _ => none
  | 3 =>
    match ofSrc t with
    | some (m, a, s) => if a = 0 ∧ m.extractLsb' 2 5 = 0 then some (.movl (m.extractLsb' 0 2) d s) else none
    | none => none
  | 4 => mem0 t fun x => some (.lea d x)
  | 5 => decBr t fun x => if d = 0 then some (.b x) else none
  | 6 => decBr t fun x => some (.bc d x)
  | 7 => decBr t fun x => some (.bz d x)
  | 8 => decBr t fun x => some (.bnz d x)
  | 9 => decBr t fun x => some (.loop d x)
  | 10 => decBr t fun x => if d = 0 then some (.call x) else none
  | 11 => noTail d t .ret
  | 12 => match t with | .n => some (.jmp d) | _ => none
  | 13 => decLdSt d t fun k x => match k.toNat with | 0 => some (.ld x) | 1 => some (.ldTake x) | _ => none
  | 14 => decLdSt d t fun k x =>
      match k.toNat with | 0 => some (.st x) | 1 => some (.stPut x) | 2 => some (.stReset x) | _ => none
  | _ => decPair d t .ldp

def dec3 (o : Nat) (d : BitVec 4) (t : Tail) : Option Instr :=
  match o with
  | 0 => decPair d t .stp
  | 1 =>
    match t with
    | .rr m b a => if m.getLsbD 7 ∨ a ≠ 0 ∨ b ≠ 0 then none else some (.movc d (m.extractLsb' 0 7))
    | _ => none
  | 2 =>
    match ofSrc t with
    | some (m, a, s) =>
      if d ≠ 0 then none
      else match s with
        | .rr b => if b = 0 then some (.movs m (.rr a)) else none
        | s => if a = 0 then some (.movs m s) else none
    | none => none
  | 3 => (to3 d).bind fun x => mem0 t fun y => some (.segld x y)
  | 4 =>
    match t with
    | .rr m b a =>
      if b ≠ 0 ∨ m.extractLsb' 1 7 ≠ 0 then none else (to3 a).bind fun x => some (.segrd (m.getLsbD 0) d x)
    | _ => none
  | 5 => match t with | .ri imm m a => if d = 0 ∧ m = 0 ∧ a = 0 then some (.trap imm) else none | _ => none
  | 6 => noTail d t .brk
  | 7 => noTail d t .snap
  | _ => none

def dec4 (o : Nat) (d : BitVec 4) (t : Tail) : Option Instr :=
  match o with
  | 0 => decVMem d t .vld
  | 1 => decVMem d t .vst
  | 2 => decVMem d t .vlds
  | 3 => decVMem d t .vsts
  | 4 => decVMem d t .vgath
  | 5 => decVMem d t .vscat
  | 6 =>
    match ofSrc t, to3 d with
    | some (m, a, s), some v =>
      match s with
      | .rr b => if b = 0 then some (.vbcast (m.extractLsb' 0 5) (m.extractLsb' 5 2) v (.rr a)) else none
      | s => if a = 0 then some (.vbcast (m.extractLsb' 0 5) (m.extractLsb' 5 2) v s) else none
    | _, _ => none
  | 7 =>
    match t with
    | .rr m b a =>
      if m.getLsbD 7 ∨ m.getLsbD 5 then none
      else if m.getLsbD 6 then (to3 d).bind fun v => some (.vmovgToV (m.extractLsb' 0 5) v a b)
      else (to3 a).bind fun v => some (.vmovgToG (m.extractLsb' 0 5) d v b)
    | _ => none
  | 8 => decV2 d t .vadd
  | 9 => decV2 d t .vsub
  | 10 => decV2 d t .vmul
  | 11 => decVB d t .vfma
  | 12 => decVB d t .vfms
  | 13 => decV2 d t .vdiv
  | 14 => decV2 d t .vmax
  | _ => decV2 d t .vmin

def dec5 (o : Nat) (d : BitVec 4) (t : Tail) : Option Instr :=
  match o with
  | 0 => decV1 d t .vabs
  | 1 => decV1 d t .vneg
  | 2 => decVB d t .vcps
  | 3 => decV1 d t .vrcp
  | 4 => decV1 d t .vrsq
  | 5 => decV1 d t .vsqrt
  | 6 => decV1 d t .vexp2
  | 7 => decV1 d t .vlog2
  | 8 => decV1 d t .vsin
  | 9 => decV1 d t .vcos
  | 10 => decV1 d t .vtanh
  | 11 => decV1 d t .verf
  | _ => none

def dec6 (o : Nat) (d : BitVec 4) (t : Tail) : Option Instr :=
  match o with
  | 0 => decV2 d t .viadd
  | 1 => decV2 d t .visub
  | 2 => decV2 d t .vimul
  | 3 => decV2 d t .vimax
  | 4 => decV2 d t .vimin
  | 5 => decV2 d t .vand
  | 6 => decV2 d t .vor
  | 7 => decV2 d t .vxor
  | 8 => decV2 d t .vshl
  | 9 => decV2 d t .vshr
  | 10 => decV2 d t .vsar
  | 11 => decV1 d t .vclz
  | 12 => decV1 d t .vctz
  | 13 => decV1 d t .vpopc
  | 14 =>
    match ofSrc t with
    | some (m, a, s) =>
      (to3 a).bind fun x =>
        some (.vcmp (m.extractLsb' 5 2 ++ d.extractLsb' 2 2) (m.extractLsb' 0 5) (d.extractLsb' 0 2) x s)
    | none => none
  | _ => decVB d t .vsel

def dec7 (o : Nat) (d : BitVec 4) (t : Tail) : Option Instr :=
  match o with
  | 0 => decV1 d t .vclass
  | 1 =>
    match t, to2 d with
    | .rr m b a, some p =>
      (to3 a).bind fun x =>
        if m.extractLsb' 5 3 ≠ 0 ∨ b ≠ 0 then none else some (.vpres (m.extractLsb' 0 5) p x)
    | _, _ => none
  | 2 => decV1 d t .vfilla
  | 3 => decCvt d t .vcvt
  | 4 => decCvt d t .vpack
  | 5 => decCvt d t .vunpk
  | 6 =>
    match t, to3 d with
    | .rr m b a, some v =>
      (to3 a).bind fun x =>
        if m.extractLsb' 5 3 ≠ 0 then none else some (.vscale (m.getLsbD 4) (m.extractLsb' 0 4) v x b)
    | _, _ => none
  | 8 => decRed d t .vred
  | 9 => decRed d t .vscan
  | 10 => decVB d t .vperm
  | 11 => decV2 d t .vrot
  | 12 => decZip d t .vzip
  | 13 => decZip d t .vuzp
  | 14 =>
    match t, to3 d with
    | .rr m b a, some v =>
      match to3 a, dirFmt (m.extractLsb' 0 7) with
      | some x, some (asc, f) => if m.getLsbD 7 ∨ b ≠ 0 then none else some (.vsort asc f v x)
      | _, _ => none
    | _, _ => none
  | 15 =>
    match ofSrc t, to3 d with
    | some (m, a, s), some v =>
      match to3 a, dirFmt m with
      | some x, some (asc, f) => some (.vtopk asc f v x s)
      | _, _ => none
    | _, _ => none
  | _ => none

def dec8 (o : Nat) (d : BitVec 4) (t : Tail) : Option Instr :=
  match o with
  | 0 =>
    match t, to3 d with
    | .rr m b a, some v =>
      match to3 a, to3 b, dirFmt (m.extractLsb' 0 7) with
      | some x, some y, some (asc, f) => if m.getLsbD 7 then none else some (.vmrgk asc f v x y)
      | _, _, _ => none
    | _, _ => none
  | 1 => decV2 d t .vselgt
  | 2 => decV2 d t .vselge
  | 3 => decV1 d t .vcompr
  | 4 =>
    match t, to3 d with
    | .rr m b a, some v =>
      if m.getLsbD 7 ∨ b ≠ 0 then none else some (.vrand (m.extractLsb' 0 5) (m.extractLsb' 5 2) v a)
    | _, _ => none
  | 5 => rr1 t fun a => some (.rand d a)
  | 6 => rr0 t fun a b => if d = 0 then some (.rngreg a b) else none
  | 7 => (to2 d).bind fun x => mem0 t fun y => some (.sdset x y)
  | 8 =>
    match t with
    | .rr m b a =>
      if b ≠ 0 ∨ m.extractLsb' 1 7 ≠ 0 then none else (to2 a).bind fun x => some (.sdon (m.getLsbD 0) d x)
    | _ => none
  | 9 => rr0 t fun a b => if a = 0 ∧ b = 0 then some (.sdoff d) else none
  | 10 => match t with | .ri imm m a => if d = 0 ∧ m = 0 ∧ a = 0 then some (.rep imm) else none | _ => none
  | 11 =>
    match t with
    | .rr m b a => if d ≠ 0 ∨ b ≠ 0 ∨ m.extractLsb' 5 3 ≠ 0 then none else some (.repx (m.extractLsb' 0 5) a)
    | _ => none
  | 12 => (to3 d).bind fun x => mem0 t fun y => some (.fmtld x y)
  | 13 => (to2 d).bind fun x => regImm t fun y => some (.fmtsel x y)
  | _ => none

def decA (o : Nat) (d : BitVec 4) (t : Tail) : Option Instr :=
  match o with
  | 0 => decLat d t .join
  | 1 => decMR t fun m b x => if m.getLsbD 7 then none else some (.joinf (m.extractLsb' 0 7) d b x)
  | 2 =>
    match t with
    | .mr disp seg m b base =>
      some (.lth ⟨m.extractLsb' 6 2, m.extractLsb' 4 2, m.getLsbD 3, m.extractLsb' 0 3, d, b, none, ⟨seg, base, disp⟩⟩)
    | .mx lit disp seg m e c b base =>
      some (.lth ⟨m.extractLsb' 6 2, m.extractLsb' 4 2, m.getLsbD 3, m.extractLsb' 0 3, d, b, some (c, e, lit),
        ⟨seg, base, disp⟩⟩)
    | _ => none
  | 3 => decLat d t .ldf
  | 4 => decMR t fun m b x => if d = 0 ∧ m = 0 then some (.freeze b x) else none
  | 5 => decMR t fun m b x => if d = 0 ∧ m = 0 then some (.plot b x) else none
  | 6 => decMR t fun m b x => some (.fillt d (m.extractLsb' 3 5) (m.extractLsb' 0 3) b x)
  | 7 => decMR t fun m b x =>
      if m.extractLsb' 5 3 ≠ 0 ∨ m.getLsbD 3 then none
      else if m.getLsbD 4 then some (.ldtAddr d (m.extractLsb' 0 3) b x)
      else if m.extractLsb' 0 3 = 0 then some (.ldt d b x) else none
  | 8 => if d = 0 then decNam t .npub else none
  | 9 => decNam t (.nwant d)
  | 10 =>
    match t with
    | .rr m b a => if d = 0 ∧ m = 0 then some (.nclose a (.reg b)) else none
    | .ri v m a => if d = 0 ∧ m = 0 then some (.nclose a (.imm v)) else none
    | _ => none
  | 11 => mem0 t fun x => some (.ntensCreate d x)
  | 12 => match t with | .n => (to3 d).bind fun x => some (.jfence x) | _ => none
  | 13 => decMR t fun m b x =>
      if m.getLsbD 7 then none else some (.copy d (m.getLsbD 3) (m.extractLsb' 4 3) (m.extractLsb' 0 3) b x)
  | 14 => decMR t fun m b x => if m = 0 ∧ b = 0 then some (.copyt d x) else none
  | _ => decMR t fun m b x => if m = 0 ∧ b = 0 then some (.copyd d x) else none

def decB (o : Nat) (d : BitVec 4) (t : Tail) : Option Instr :=
  match o with
  | 0 => decMX t fun m lit e c b x =>
      if m.extractLsb' 3 5 = 0 ∧ c = 0 ∧ e = 0 then some (.copya d (m.extractLsb' 0 3) b lit x) else none
  | 1 => regImm t fun m => some (.waitany d m)
  | 2 => regImm t fun m => some (.waitall d m)
  | 3 =>
    match t with
    | .rr m b a =>
      if b ≠ 0 ∨ m.extractLsb' 1 7 ≠ 0 then none
      else some (if m.getLsbD 0 then .freadyCode d a else .fready d a)
    | _ => none
  | 4 => if d = 0 then regImm t fun m => some (.tclr m) else none
  | 5 => if d = 0 then mem0 t fun x => some (.spawn x) else none
  | 6 => noTail d t .tend
  | 7 => rr0 t fun a b => if d = 0 then some (.chset a b) else none
  | 8 => rr1 t fun a => if d = 0 then some (.chblk a) else none
  | 9 => rr1 t fun a => if d = 0 then some (.chunb a) else none
  | 10 => rr1 t fun a => some (.capnew d a)
  | 11 => noTail d t .capsend
  | 12 => rr0 t fun a b => if d = 0 then some (.capstep a b) else none
  | 13 => if d = 0 then decCap t .capins else none
  | 14 => if d = 0 then regImm t fun i => some (.capdel i) else none
  | _ => if d = 0 then decCap t .capredir else none

def decC (o : Nat) (d : BitVec 4) (t : Tail) : Option Instr :=
  match o with
  | 0 => regImm t fun sel => some (.caprd d sel)
  | 1 => noTail d t .capdone
  | _ => none

def decD (o : Nat) (d : BitVec 4) (t : Tail) : Option Instr :=
  match o with
  | 0 => match t with | .n => (to1 d).bind fun c => some (.mzero c) | _ => none
  | 1 => decMma d t .mma
  | 2 => decMma d t .mmah
  | 3 =>
    match t with
    | .rr m b a =>
      if d ≠ 0 ∨ m.extractLsb' 6 2 ≠ 0 then none
      else some (.mhoop (m.extractLsb' 3 3) (m.extractLsb' 0 3) a b)
    | _ => none
  | 4 =>
    match ofMem t with
    | some (m, x) =>
      if m.extractLsb' 4 3 ≠ 0 ∨ d.extractLsb' 2 2 ≠ 0 then none
      else some (.mdrain (d.getLsbD 1) (m.extractLsb' 0 4) (d.extractLsb' 0 1) x)
    | none => none
  | 5 => (to1 d).bind fun c => decMR t fun m b x => if m = 0 then some (.mdrainp c b x) else none
  | 6 => (to1 d).bind fun c => decMR t fun m b x => if m = 0 then some (.macc c b x) else none
  | 7 =>
    match t with
    | .ri imm m a =>
      if d = 0 ∧ m = 0 ∧ a = 0 ∧ imm.extractLsb' 2 18 = 0 then some (.mpri (imm.extractLsb' 0 2)) else none
    | _ => none
  | 8 => decMX t fun m lit e c b x =>
      if m.extractLsb' 3 5 = 0 then some (.thresh d (m.extractLsb' 0 3) b c e lit x) else none
  | 9 => if d = 0 then regImm t fun h => some (.gjoin h) else none
  | 10 => if d = 0 then regImm t fun h => some (.gleave h) else none
  | 11 => if d = 0 then regImm t fun h => some (.gbar h) else none
  | 12 =>
    match t with
    | .rr m b a => if m.extractLsb' 5 3 = 0 then some (.gcon d (m.extractLsb' 0 5) a b) else none
    | _ => none
  | 13 => rr1 t fun a => some (.grecv d a)
  | 14 => rr1 t fun a => some (.gstat d a)
  | _ => none

/-- Decode by opcode, the form parsed: none is an ILLEGAL encoding (R153). -/
def decodeForm (op : Nat) (d : BitVec 4) (t : Tail) : Option Instr :=
  match op / 16 with
  | 0 => dec0 (op % 16) d t
  | 1 => dec1 (op % 16) d t
  | 2 => dec2 (op % 16) d t
  | 3 => dec3 (op % 16) d t
  | 4 => dec4 (op % 16) d t
  | 5 => dec5 (op % 16) d t
  | 6 => dec6 (op % 16) d t
  | 7 => dec7 (op % 16) d t
  | 8 => dec8 (op % 16) d t
  | 10 => decA (op % 16) d t
  | 11 => decB (op % 16) d t
  | 12 => decC (op % 16) d t
  | 13 => decD (op % 16) d t
  | _ => none

/-- Fields of a head (R136). -/
def headP (h : BitVec 16) : Bool := h.getLsbD 15
def headTL (h : BitVec 16) : Nat := (h.extractLsb' 12 3).toNat
def headOp (h : BitVec 16) : Nat := (h.extractLsb' 4 8).toNat
def headD (h : BitVec 16) : BitVec 4 := h.extractLsb' 0 4

/-- The instruction of a head and its tail, P left to the bundle; none is ILLEGAL (R153). -/
def decodeWord (h : BitVec 16) (t : BitVec 128) : Option Instr :=
  if (admits (headOp h)).contains (headTL h) then
    match parseTail (isMemOp (headOp h)) (headTL h) t with
    | some x =>
      match decodeForm (headOp h) (headD h) x with
      | some i => if i.wf then some i else none
      | none => none
    | none => none
  else none

/-- The tail's own bits of a longer value. -/
def trimTail (tl : Nat) (t : BitVec 128) : BitVec 128 := t &&& BitVec.ofNat 128 (2 ^ (8 * tailBytes tl) - 1)

/-- What the decoder reads from an instruction whose bits are `w`: the head in bits 15-0, the tail above it. -/
def decodeTableWord (_nbits w : Nat) : Option Instr :=
  let h := BitVec.ofNat 16 w
  decodeWord h (trimTail (headTL h) (BitVec.ofNat 128 (w / 2 ^ 16)))

/-! ## Encoding -/

/-- The tail of a two-source instruction. -/
def srcTail (m : BitVec 7) (a : BitVec 4) (s : Src) : Tail :=
  match s with
  | .rr b => .rr (0#1 ++ m) b a
  | .ri imm => .ri imm m a
  | .rk w o => .rk w o m a
  | .rl lit => .rl lit (0#1 ++ m) a
  | .rl64 lit => .rl64 lit (0#1 ++ m) a

def memTail (m : BitVec 7) (x : Mem) : Tail :=
  match x.disp with
  | .ms d => .ms d x.seg m x.base
  | .ml d => .ml d x.seg m x.base

def mrTail (m : BitVec 8) (b : BitVec 4) (x : MemR) : Tail := .mr x.disp x.seg m b x.base
def mxTail (m : BitVec 8) (lit : BitVec 64) (e c b : BitVec 4) (x : MemR) : Tail := .mx lit x.disp x.seg m e c b x.base

def regImmTail (x : RegImm) : Tail :=
  match x with
  | .reg a => .rr 0 0 a
  | .imm v => .ri v 0 0

/-- A source whose register stands in field a (VBCAST, MOVS). -/
def srcTailA (m : BitVec 7) (s : Src) : Tail :=
  match s with
  | .rr a => .rr (0#1 ++ m) 0 a
  | s => srcTail m 0 s

def encAlu (op : Nat) (o : Alu) : Nat × BitVec 4 × Tail := (op, o.d, srcTail (0#3 ++ o.ty.code ++ o.sz.code) o.a o.src)
def encUn (op : Nat) (o : Un) : Nat × BitVec 4 × Tail := (op, o.d, .rr (0#4 ++ o.ty.code ++ o.sz.code) 0 o.a)
def encCnt (op : Nat) (o : Cnt) : Nat × BitVec 4 × Tail := (op, o.d, .rr (0#4 ++ 3#2 ++ o.sz.code) 0 o.a)
def encBr (op : Nat) (d : BitVec 4) (x : Br) : Nat × BitVec 4 × Tail := (op, d, .br x.lineoff x.head)
def encLdSt (op : Nat) (kind : BitVec 2) (o : LdSt) : Nat × BitVec 4 × Tail :=
  (op, o.d, memTail (0#1 ++ kind ++ o.ty.code ++ o.sz.code) o.mem)
def encVMem (op : Nat) (o : VMem) : Nat × BitVec 4 × Tail := (op, of3 o.d, memTail (o.pm ++ o.fmt) o.mem)
def encV2 (op : Nat) (o : V2) : Nat × BitVec 4 × Tail := (op, of3 o.d, srcTail (o.pm ++ o.fmt) (of3 o.a) o.src)
def encVB (op : Nat) (o : VB) : Nat × BitVec 4 × Tail := (op, of3 o.d, .rr (0#1 ++ o.pm ++ o.fmt) (of3 o.b) (of3 o.a))
def encV1 (op : Nat) (o : V1) : Nat × BitVec 4 × Tail := (op, of3 o.d, .rr (0#1 ++ o.pm ++ o.fmt) 0 (of3 o.a))
def encCvt (op : Nat) (o : Cvt) : Nat × BitVec 4 × Tail := (op, of3 o.d, .rr (o.df ++ o.sf) o.part (of3 o.a))
def encRed (op : Nat) (o : Red) : Nat × BitVec 4 × Tail := (op, of3 o.d, .rr (0#1 ++ o.pm ++ o.fmt) o.op (of3 o.a))
def encZip (op : Nat) (o : Zip) : Nat × BitVec 4 × Tail :=
  (op, of3 o.d, .rr (0#2 ++ bit1 o.sel ++ o.fmt) (of3 o.b) (of3 o.a))
def encNam (op : Nat) (d : BitVec 4) (o : NamOp) : Nat × BitVec 4 × Tail :=
  match o.name with
  | .reg a => (op, d, .rr (o.n ++ 0#1 ++ o.k) o.loc a)
  | .lit v => (op, d, .rl64 v (o.n ++ 0#1 ++ o.k) o.loc)
def encMma (op : Nat) (o : MmaOp) : Nat × BitVec 4 × Tail :=
  match o.src with
  | .reg b => (op, of1 o.d, .rr (0#1 ++ bit1 o.sc ++ o.seg ++ o.mf) b o.a)
  | .imm v => (op, of1 o.d, .ri v (bit1 o.sc ++ o.seg ++ o.mf) o.a)
def encCap (op : Nat) (a : Reg) (x : RegLit) : Nat × BitVec 4 × Tail :=
  match x with
  | .reg b => (op, 0, .rr 0 b a)
  | .lit v => (op, 0, .rl64 v 0 a)
def encLth (o : Lth) : Nat × BitVec 4 × Tail :=
  let m : BitVec 8 := o.sz ++ o.nt ++ bit1 o.filled ++ o.kind
  match o.more with
  | none => (0xA2, o.d, mrTail m o.b o.mem)
  | some (c, e, lit) => (0xA2, o.d, mxTail m lit e c o.b o.mem)

/-- Opcode, D and tail of an instruction; none for a step, which has no encoding. -/
def encodeForm (i : Instr) : Option (Nat × BitVec 4 × Tail) :=
  match i with
  | .nop => some (0x00, 0, .n)
  | .add o => some (encAlu 0x01 o)
  | .sub o => some (encAlu 0x02 o)
  | .mul o => some (encAlu 0x03 o)
  | .mulh o => some (encAlu 0x04 o)
  | .div o => some (encAlu 0x05 o)
  | .rem o => some (encAlu 0x06 o)
  | .neg o => some (encUn 0x07 o)
  | .abs o => some (encUn 0x08 o)
  | .min o => some (encAlu 0x09 o)
  | .max o => some (encAlu 0x0A o)
  | .and o => some (encAlu 0x0B o)
  | .or o => some (encAlu 0x0C o)
  | .xor o => some (encAlu 0x0D o)
  | .andn o => some (encAlu 0x0E o)
  | .not o => some (encUn 0x0F o)
  | .shl o => some (encAlu 0x10 o)
  | .shr o => some (encAlu 0x11 o)
  | .sar o => some (encAlu 0x12 o)
  | .rol o => some (encAlu 0x13 o)
  | .ror o => some (encAlu 0x14 o)
  | .clz o => some (encCnt 0x15 o)
  | .ctz o => some (encCnt 0x16 o)
  | .ffs o => some (encCnt 0x17 o)
  | .popc o => some (encCnt 0x18 o)
  | .brev o => some (encCnt 0x19 o)
  | .ext o => some (encAlu 0x1A o)
  | .ins o => some (encAlu 0x1B o)
  | .sext o => some (encCnt 0x1C o)
  | .zext o => some (encCnt 0x1D o)
  | .cmp o => some (encAlu 0x1E o)
  | .setc cc o => some (0x1F, o.d, srcTail (0#1 ++ o.sz.code ++ cc) o.a o.src)
  | .sel cc d a b => some (0x20, d, .rr (0#4 ++ cc) b a)
  | .mov d a => some (0x21, d, .rr 0 0 a)
  | .movi ty d imm => some (0x22, d, .ri imm (0#5 ++ ty) 0)
  | .movl ty d src => some (0x23, d, srcTail (0#5 ++ ty) 0 src)
  | .lea d x => some (0x24, d, memTail 0 x)
  | .b x => some (encBr 0x25 0 x)
  | .bc cc x => some (encBr 0x26 cc x)
  | .bz d x => some (encBr 0x27 d x)
  | .bnz d x => some (encBr 0x28 d x)
  | .loop d x => some (encBr 0x29 d x)
  | .call x => some (encBr 0x2A 0 x)
  | .ret => some (0x2B, 0, .n)
  | .jmp d => some (0x2C, d, .n)
  | .ld o => some (encLdSt 0x2D 0 o)
  | .ldTake o => some (encLdSt 0x2D 1 o)
  | .st o => some (encLdSt 0x2E 0 o)
  | .stPut o => some (encLdSt 0x2E 1 o)
  | .stReset o => some (encLdSt 0x2E 2 o)
  | .ldp d x => some (0x2F, d, memTail 11 x)
  | .stp d x => some (0x30, d, memTail 11 x)
  | .movc d n => some (0x31, d, .rr (0#1 ++ n) 0 0)
  | .movs n src => some (0x32, 0, srcTailA n src)
  | .segld d x => some (0x33, of3 d, memTail 0 x)
  | .segrd hi d a => some (0x34, d, .rr (0#7 ++ bit1 hi) 0 (of3 a))
  | .trap imm => some (0x35, 0, .ri imm 0 0)
  | .brk => some (0x36, 0, .n)
  | .snap => some (0x37, 0, .n)
  | .vld o => some (encVMem 0x40 o)
  | .vst o => some (encVMem 0x41 o)
  | .vlds o => some (encVMem 0x42 o)
  | .vsts o => some (encVMem 0x43 o)
  | .vgath o => some (encVMem 0x44 o)
  | .vscat o => some (encVMem 0x45 o)
  | .vbcast f pm d src => some (0x46, of3 d, srcTailA (pm ++ f) src)
  | .vmovgToG f d a b => some (0x47, d, .rr (0#3 ++ f) b (of3 a))
  | .vmovgToV f d a b => some (0x47, of3 d, .rr (2#3 ++ f) b a)
  | .vadd o => some (encV2 0x48 o)
  | .vsub o => some (encV2 0x49 o)
  | .vmul o => some (encV2 0x4A o)
  | .vfma o => some (encVB 0x4B o)
  | .vfms o => some (encVB 0x4C o)
  | .vdiv o => some (encV2 0x4D o)
  | .vmax o => some (encV2 0x4E o)
  | .vmin o => some (encV2 0x4F o)
  | .vabs o => some (encV1 0x50 o)
  | .vneg o => some (encV1 0x51 o)
  | .vcps o => some (encVB 0x52 o)
  | .vrcp o => some (encV1 0x53 o)
  | .vrsq o => some (encV1 0x54 o)
  | .vsqrt o => some (encV1 0x55 o)
  | .vexp2 o => some (encV1 0x56 o)
  | .vlog2 o => some (encV1 0x57 o)
  | .vsin o => some (encV1 0x58 o)
  | .vcos o => some (encV1 0x59 o)
  | .vtanh o => some (encV1 0x5A o)
  | .verf o => some (encV1 0x5B o)
  | .viadd o => some (encV2 0x60 o)
  | .visub o => some (encV2 0x61 o)
  | .vimul o => some (encV2 0x62 o)
  | .vimax o => some (encV2 0x63 o)
  | .vimin o => some (encV2 0x64 o)
  | .vand o => some (encV2 0x65 o)
  | .vor o => some (encV2 0x66 o)
  | .vxor o => some (encV2 0x67 o)
  | .vshl o => some (encV2 0x68 o)
  | .vshr o => some (encV2 0x69 o)
  | .vsar o => some (encV2 0x6A o)
  | .vclz o => some (encV1 0x6B o)
  | .vctz o => some (encV1 0x6C o)
  | .vpopc o => some (encV1 0x6D o)
  | .vcmp pr f d a src =>
    some (0x6E, pr.extractLsb' 0 2 ++ d, srcTail (pr.extractLsb' 2 2 ++ f) (of3 a) src)
  | .vsel o => some (encVB 0x6F o)
  | .vclass o => some (encV1 0x70 o)
  | .vpres f d a => some (0x71, of2 d, .rr (0#3 ++ f) 0 (of3 a))
  | .vfilla o => some (encV1 0x72 o)
  | .vcvt o => some (encCvt 0x73 o)
  | .vpack o => some (encCvt 0x74 o)
  | .vunpk o => some (encCvt 0x75 o)
  | .vscale inv f d a b => some (0x76, of3 d, .rr (0#3 ++ bit1 inv ++ f) b (of3 a))
  | .vred o => some (encRed 0x78 o)
  | .vscan o => some (encRed 0x79 o)
  | .vperm o => some (encVB 0x7A o)
  | .vrot o => some (encV2 0x7B o)
  | .vzip o => some (encZip 0x7C o)
  | .vuzp o => some (encZip 0x7D o)
  | .vsort asc f d a => some (0x7E, of3 d, .rr (0#1 ++ bit1 asc ++ 0#1 ++ f) 0 (of3 a))
  | .vtopk asc f d a src => some (0x7F, of3 d, srcTail (bit1 asc ++ 0#1 ++ f) (of3 a) src)
  | .vmrgk asc f d a b => some (0x80, of3 d, .rr (0#1 ++ bit1 asc ++ 0#1 ++ f) (of3 b) (of3 a))
  | .vselgt o => some (encV2 0x81 o)
  | .vselge o => some (encV2 0x82 o)
  | .vcompr o => some (encV1 0x83 o)
  | .vrand f pm d a => some (0x84, of3 d, .rr (0#1 ++ pm ++ f) 0 a)
  | .rand d a => some (0x85, d, .rr 0 0 a)
  | .rngreg a b => some (0x86, 0, .rr 0 b a)
  | .sdset d x => some (0x87, of2 d, memTail 0 x)
  | .sdon write d a => some (0x88, d, .rr (0#7 ++ bit1 write) 0 (of2 a))
  | .sdoff d => some (0x89, d, .rr 0 0 0)
  | .rep imm => some (0x8A, 0, .ri imm 0 0)
  | .repx len a => some (0x8B, 0, .rr (0#3 ++ len) 0 a)
  | .fmtld p x => some (0x8C, of3 p, memTail 0 x)
  | .fmtsel d src => some (0x8D, of2 d, regImmTail src)
  | .join o => some (0xA0, o.d, memTail o.jt o.mem)
  | .joinf jt d b x => some (0xA1, d, mrTail (0#1 ++ jt) b x)
  | .lth o => some (encLth o)
  | .ldf o => some (0xA3, o.d, memTail o.jt o.mem)
  | .freeze b x => some (0xA4, 0, mrTail 0 b x)
  | .plot b x => some (0xA5, 0, mrTail 0 b x)
  | .fillt n f k b x => some (0xA6, n, mrTail (f ++ k) b x)
  | .ldt n b x => some (0xA7, n, mrTail 0 b x)
  | .ldtAddr n k b x => some (0xA7, n, mrTail (2#5 ++ k) b x)
  | .npub o => some (encNam 0xA8 0 o)
  | .nwant tag o => some (encNam 0xA9 tag o)
  | .nclose a t =>
    match t with
    | .reg b => some (0xAA, 0, .rr 0 b a)
    | .imm v => some (0xAA, 0, .ri v 0 a)
  | .ntensCreate d x => some (0xAB, d, memTail 0 x)
  | .ntensDelete d x => some (0xAB, d, memTail 0 x)
  | .jfence s => some (0xAC, of3 s, .n)
  | .copy tag nj nseg sseg b x => some (0xAD, tag, mrTail (0#1 ++ nseg ++ bit1 nj ++ sseg) b x)
  | .copyt tag x => some (0xAE, tag, mrTail 0 0 x)
  | .copyd tag x => some (0xAF, tag, mrTail 0 0 x)
  | .copya tag k b t x => some (0xB0, tag, mxTail (0#5 ++ k) t 0 0 b x)
  | .waitany d m => some (0xB1, d, regImmTail m)
  | .waitall d m => some (0xB2, d, regImmTail m)
  | .fready d a => some (0xB3, d, .rr 0 0 a)
  | .freadyCode d a => some (0xB3, d, .rr 1 0 a)
  | .tclr m => some (0xB4, 0, regImmTail m)
  | .spawn x => some (0xB5, 0, memTail 0 x)
  | .tend => some (0xB6, 0, .n)
  | .chset a b => some (0xB7, 0, .rr 0 b a)
  | .chblk a => some (0xB8, 0, .rr 0 0 a)
  | .chunb a => some (0xB9, 0, .rr 0 0 a)
  | .capnew d a => some (0xBA, d, .rr 0 0 a)
  | .capsend => some (0xBB, 0, .n)
  | .capstep a b => some (0xBC, 0, .rr 0 b a)
  | .capins a x => some (encCap 0xBD a x)
  | .capdel i => some (0xBE, 0, regImmTail i)
  | .capredir a x => some (encCap 0xBF a x)
  | .caprd d m => some (0xC0, d, regImmTail m)
  | .capdone => some (0xC1, 0, .n)
  | .mzero c => some (0xD0, of1 c, .n)
  | .mma o => some (encMma 0xD1 o)
  | .mmah o => some (encMma 0xD2 o)
  | .mhoop seg mf a b => some (0xD3, 0, .rr (0#2 ++ seg ++ mf) b a)
  | .mdrain norm code c x => some (0xD4, 0#2 ++ bit1 norm ++ c, memTail (0#3 ++ code) x)
  | .mdrainp c b x => some (0xD5, of1 c, mrTail 0 b x)
  | .macc c b x => some (0xD6, of1 c, mrTail 0 b x)
  | .mpri p => some (0xD7, 0, .ri (0#18 ++ p) 0 0)
  | .thresh tag k b c e opts x => some (0xD8, tag, mxTail (0#5 ++ k) opts e c b x)
  | .gjoin h => some (0xD9, 0, regImmTail h)
  | .gleave h => some (0xDA, 0, regImmTail h)
  | .gbar h => some (0xDB, 0, regImmTail h)
  | .gcon op f a b => some (0xDC, op, .rr (0#3 ++ f) b a)
  | .grecv d a => some (0xDD, d, .rr 0 0 a)
  | .gstat d a => some (0xDE, d, .rr 0 0 a)
  | _ => none

/-- The bits of a tail, R147's layouts read from the right. -/
def Tail.bits (t : Tail) : BitVec 128 :=
  match t with
  | .n => 0
  | .rr m b a => (m ++ b ++ a).setWidth 128
  | .br l h => (l ++ h).setWidth 128
  | .ri imm m a => (imm ++ 0#1 ++ m ++ a).setWidth 128
  | .rk w o m a => (w ++ o ++ 1#1 ++ m ++ a).setWidth 128
  | .ms d s m base => (d ++ s ++ 0#1 ++ m ++ base).setWidth 128
  | .rl lit m a => (lit ++ 0#4 ++ m ++ a).setWidth 128
  | .ml d s m base => (d ++ 0#1 ++ s ++ 0#1 ++ m ++ base).setWidth 128
  | .mr d s m b base => (d ++ 0#13 ++ s ++ m ++ b ++ base).setWidth 128
  | .rl64 lit m a => (lit ++ 0#4 ++ m ++ a).setWidth 128
  | .mx lit d s m e c b base => (lit ++ d ++ 0#5 ++ s ++ m ++ e ++ c ++ b ++ base).setWidth 128

/-- The head of an instruction with P = 0, and its tail. -/
def encode (i : Instr) : Option (BitVec 16 × BitVec 128) :=
  match encodeForm i with
  | some (op, d, t) => some (0#1 ++ BitVec.ofNat 3 t.tl ++ BitVec.ofNat 8 op ++ d, t.bits)
  | none => none

/-- Whether an instruction is of class V (R140, R154). -/
def Instr.isV (i : Instr) : Bool :=
  match encodeForm i with
  | some (op, _, _) => classV op
  | none => false

end Sys2Proof
end

