-- ==== Sys2Proof/Config.lean ====
section
/-! DEFINITION. What the spec leaves to an implementation: constants without a body, so nothing can be proved of a value
of theirs. -/

namespace Sys2Proof.Config

/-- Which of the agents that can move moves next, by the counter of choices (R63, R353; log 1). -/
opaque pick : Nat → Nat

/-- How the physical cores of a die differ from a plain numbering, as a list of exchanges: those that back its core names at
initialisation, and those that are its spares (R18; log 3). -/
opaque boundCores : Nat → List (Nat × Nat)
opaque spareCores : Nat → List (Nat × Nat)

/-- The IDE keys of a function, by the counter of choices (R20, R461; log 56). -/
opaque ideKey : Nat → BitVec 256

/-- Number of waiters a home die's structure holds (R54; log 8). -/
opaque waiterPlaces : Nat → Nat

/-- Whether a delivery is kept in the rick it passes, by the counter of choices (R127; log 9). -/
opaque rickKeeps : Nat → Bool

/-- Which port of a group carries a packet (R12; log 10). -/
opaque port : Nat → Nat

/-- A byte, by its offset, of a part of the save area or of a context record whose form is the implementation's: a function of what
that part holds (R415, R416; log 11). -/
opaque saveByte : List Nat → Nat → BitVec 8

/-- What a host read brings where the spec gives no value, by the counter of choices (R464; log 11). -/
opaque hostByte : Nat → BitVec 8

/-- The check code of a save area (R415; log 11). -/
opaque checkCode : List (BitVec 8) → BitVec 64

/-- Which leaf a full TLB or walk cache gives up (R398; log 12). -/
opaque victim : Nat → Nat

/-- What a die says of itself beyond CLASS, VERSION and PORT, by die (R454; log 13). -/
opaque identity : Nat → BitVec 512

/-- How old a line or a constant is that a core still holds, by the counter of choices and the address (R151, R186; log 20). -/
opaque age : Nat → Nat → Nat

/-- Whether a port trains, by the counter of choices (R444, R450, R455; log 13). -/
opaque trains : Nat → Bool

/-- Which of the source bytes that a deal names for one destination byte is written, by copy and unit (R288; log 54). -/
opaque dealt : Nat → Nat

/-- Which free entry of the seed registry takes a range, by the counter of choices (R249, R442; log 45). -/
opaque seedEntry : Nat → Nat

/-- Bytes of the CXL expanders that are enumerated to the package (R23, R455; log 52). -/
opaque expanderBytes : Nat

/-- Whether the expander that holds an offset of region 4 stands behind host link 1 (R459; log 52). -/
opaque expanderLink : Nat → Bool

/-- Which of several even codes at one distance a T8 encoding takes, by their number (R83; log 48). -/
opaque tie : Nat → Nat

end Sys2Proof.Config
end

