-- ==== Sys2Proof/Machine/Num.lean ====
section
/-! DEFINITION. Number formats (05_number_formats.md): decoding, exact values, rounding once in a mode (R85-R87),
block scales (R77), T8 tables (R78-R83), integer saturation (R74) and HCM-64 (R99, R100). -/

namespace Sys2Proof.Machine

/-! ## Formats -/

/-- Width in bits of a format code (R103). -/
def fmtWidth (f : Nat) : Nat :=
  if f < 12 then [8, 16, 32, 64].getD (f % 4) 8
  else [64, 32, 16, 16, 8, 8, 4, 8].getD (f - 12) 8

def fmtIsI (f : Nat) : Bool := decide (f < 4)
def fmtIsN (f : Nat) : Bool := decide (4 ≤ f ∧ f < 8)
def fmtIsB (f : Nat) : Bool := decide (8 ≤ f ∧ f < 12)
def fmtIsF (f : Nat) : Bool := decide (12 ≤ f ∧ f < 20)
def fmtIn (f : Nat) : Bool := decide (f < 8)
def fmtT8 : Nat := 19
def fmtE2M1 : Nat := 18

/-- Elements in a 512-bit register (R209). -/
def fmtElems (f : Nat) : Nat := 512 / fmtWidth f

/-- Bytes of an element as a memory instruction moves it; E2M1 moves pairs (R215). -/
def fmtBytes (f : Nat) : Nat := if f = fmtE2M1 then 1 else fmtWidth f / 8

/-- A binary format of R65: field sizes, the largest finite magnitude code, the infinity, NaN and absent codes. -/
structure FP where
  w : Nat
  mb : Nat
  bias : Nat
  maxMag : Nat
  inf : Option Nat
  nan : Option Nat
  absent : Nat
  deriving DecidableEq, Repr

/-- The formats of R65, by format code. -/
def fpOf (f : Nat) : FP :=
  match f with
  | 12 => ⟨64, 52, 1023, 0x7FEFFFFFFFFFFFFF, some 0x7FF0000000000000, some 0x7FF8000000000000, 0xFFF8000000000000⟩
  | 13 => ⟨32, 23, 127, 0x7F7FFFFF, some 0x7F800000, some 0x7FC00000, 0xFFC00000⟩
  | 14 => ⟨16, 7, 127, 0x7F7F, some 0x7F80, some 0x7FC0, 0xFFC0⟩
  | 15 => ⟨16, 10, 15, 0x7BFF, some 0x7C00, some 0x7E00, 0xFE00⟩
  | 16 => ⟨8, 2, 15, 0x7B, some 0x7C, some 0x7E, 0xFE⟩
  | 17 => ⟨8, 3, 7, 0x7E, none, some 0x7F, 0xFF⟩
  | _ => ⟨4, 1, 1, 0x7, none, none, 0x8⟩

/-- The absent code of a format; zero for b formats, which have none (R65, R73, R105). -/
def absentCode (f : Nat) : Nat :=
  if fmtIsI f then 2 ^ (fmtWidth f - 1)
  else if fmtIsN f then 2 ^ fmtWidth f - 1
  else if fmtIsB f then 0
  else if f = fmtT8 then 0xFF
  else (fpOf f).absent

/-! ## Exact values -/

/-- A value as an operation sees it: absent, NaN, an infinity, or an exact rational with the sign of a zero. -/
inductive Val where
  | absent
  | nan
  | inf (neg : Bool)
  | num (neg : Bool) (n d : Nat)
  deriving DecidableEq, Repr

/-- `m` times `2^e`, exactly. -/
def dyadic (neg : Bool) (m : Nat) (e : Int) : Val :=
  if 0 ≤ e then .num neg (m * 2 ^ e.toNat) 1 else .num neg m (2 ^ (-e).toNat)

/-- The value of a pattern of a binary format (R65-R68, R70). -/
def decodeFp (p : FP) (x : Nat) : Val :=
  let half := 2 ^ (p.w - 1)
  let neg := decide (half ≤ x)
  let mag := x % half
  if x = p.absent then .absent
  else if p.inf = some mag then .inf neg
  else if p.maxMag < mag then .nan
  else
    let e := mag / 2 ^ p.mb
    let f := mag % 2 ^ p.mb
    if e = 0 then dyadic neg f (1 - (p.bias : Int) - (p.mb : Int))
    else dyadic neg (2 ^ p.mb + f) ((e : Int) - (p.bias : Int) - (p.mb : Int))

/-- A format table: 256 entry words (R79). -/
abbrev Table := List (BitVec 32)

/-- The value of a table entry word (R78, R79). -/
def decodeEntry (x : BitVec 32) : Val :=
  let neg := bitOf x 18
  let e := bitsOf x 17 10
  let f := bitsOf x 9 0
  match bitsOf x 21 20 with
  | 0 => if e = 0 then dyadic neg f (-136) else dyadic neg (1024 + f) ((e : Int) - 137)
  | 1 => .inf neg
  | 2 => .nan
  | _ => .absent

def tableEntry (t : Table) (k : Nat) : BitVec 32 := t.getD k 0

/-- E5M3 block scales (R77). -/
def decodeE5M3 (x : Nat) : Val :=
  if x = 0xFE then .absent
  else if x = 0xFF then .nan
  else if x / 8 = 0 then dyadic false (x % 8) (-17)
  else dyadic false (8 + x % 8) ((x / 8 : Nat) - 18)

/-- The entry word of a finite value `m * 2^e` that E8M10 holds exactly. -/
def entryOf (neg : Bool) (m : Nat) (e : Int) : BitVec 32 :=
  if m = 0 then BitVec.ofNat 32 (b2n neg * 2 ^ 18)
  else
    let l := Nat.log2 m
    BitVec.ofNat 32 (b2n neg * 2 ^ 18 + ((l : Int) + e + 127).toNat * 2 ^ 10 + (m * 2 ^ (10 - l)) % 1024)

/-- The built-in tables of places 0-2 (R80). -/
def builtinEntry (place k : Nat) : BitVec 32 :=
  let neg := decide (128 ≤ k)
  let m := k % 128
  let sgn : BitVec 32 := BitVec.ofNat 32 (b2n neg * 2 ^ 18)
  if k = 0x7F then 0x200000#32
  else if k = 0xFF then 0x300000#32
  else match place with
    | 0 => if m / 8 = 0 then entryOf neg (m % 8) (-9) else entryOf neg (8 + m % 8) ((m / 8 : Nat) - 10)
    | 1 => if 0x7C ≤ m then 0x100000#32 ||| sgn
           else if m / 4 = 0 then entryOf neg (m % 4) (-16) else entryOf neg (4 + m % 4) ((m / 4 : Nat) - 17)
    | _ => entryOf neg m 0

def builtinTable (place : Nat) : Table := (List.range 256).map (builtinEntry place)

/-! ## Arithmetic on exact values -/

/-- Signed numerators over a common denominator. -/
def sgn (neg : Bool) (n : Nat) : Int := if neg then -(n : Int) else n

/-- `x + y` for numbers, with the sign of an exact zero sum by IEEE 754: `-0` when both are `-0`, or in RDN unless
both are `+0` (R225). -/
def addNum (rdn : Bool) (nx : Bool) (a b : Nat) (ny : Bool) (c d : Nat) : Val :=
  let s := sgn nx (a * d) + sgn ny (c * b)
  if s = 0 then
    if a = 0 ∧ c = 0 ∧ nx = ny then .num nx 0 1 else .num rdn 0 1
  else .num (decide (s < 0)) s.natAbs (b * d)

/-- Exact sum of present values; `inf - inf` is NaN (R89). -/
def addVal (rdn : Bool) (x y : Val) : Val :=
  match x, y with
  | .absent, _ => .absent
  | _, .absent => .absent
  | .nan, _ => .nan
  | _, .nan => .nan
  | .inf a, .inf b => if a = b then .inf a else .nan
  | .inf a, _ => .inf a
  | _, .inf b => .inf b
  | .num nx a b, .num ny c d => addNum rdn nx a b ny c d

def negVal (x : Val) : Val :=
  match x with
  | .inf a => .inf (!a)
  | .num n a b => .num (!n) a b
  | v => v

def absVal (x : Val) : Val :=
  match x with
  | .inf _ => .inf false
  | .num _ a b => .num false a b
  | v => v

/-- Exact product; `0 * inf` is NaN (R89). -/
def mulVal (x y : Val) : Val :=
  match x, y with
  | .absent, _ => .absent
  | _, .absent => .absent
  | .nan, _ => .nan
  | _, .nan => .nan
  | .inf a, .inf b => .inf (a != b)
  | .inf a, .num n c _ => if c = 0 then .nan else .inf (a != n)
  | .num n c _, .inf a => if c = 0 then .nan else .inf (a != n)
  | .num nx a b, .num ny c d => .num (nx != ny) (a * c) (b * d)

/-- Exact quotient: `0/0` and `inf/inf` are NaN, a nonzero value over zero an infinity (R89). -/
def divVal (x y : Val) : Val :=
  match x, y with
  | .absent, _ => .absent
  | _, .absent => .absent
  | .nan, _ => .nan
  | _, .nan => .nan
  | .inf _, .inf _ => .nan
  | .inf a, .num n _ _ => .inf (a != n)
  | .num n _ _, .inf a => .num (n != a) 0 1
  | .num nx a b, .num ny c d =>
    if c = 0 then (if a = 0 then .nan else .inf (nx != ny)) else .num (nx != ny) (a * d) (b * c)

/-- Rank of a value in the order of R92; zeros equal. -/
def valLt (x y : Val) : Bool :=
  match x, y with
  | .num nx a b, .num ny c d => decide (sgn nx (a * d) < sgn ny (c * b))
  | .inf true, .inf true => false
  | .inf true, _ => true
  | _, .inf true => false
  | .num _ _ _, _ => true
  | _, .num _ _ _ => false
  | .inf false, .inf false => false
  | .inf false, _ => true
  | _, .inf false => false
  | .nan, .nan => false
  | .nan, _ => true
  | .absent, _ => false

/-- Equal by value, the zeros equal. -/
def valEq (x y : Val) : Bool := !valLt x y && !valLt y x

def valIsAbsent (x : Val) : Bool := x == .absent
def valIsNan (x : Val) : Bool := x == .nan

/-! ## Rounding -/

/-- What a rounding needs: mode and saturation of RMODE (R84), and `d[63:40]` of the element's draw under SR (R86). -/
structure Rm where
  mode : Nat
  sat : Bool
  draw : Nat
  deriving DecidableEq, Repr

/-- The sticky flags an operation sets (R90). -/
structure Sticky where
  a : Bool
  ovf : Bool
  nan : Bool
  deriving DecidableEq, Repr

def Sticky.none : Sticky := ⟨false, false, false⟩
def Sticky.or (x y : Sticky) : Sticky := ⟨x.a || y.a, x.ovf || y.ovf, x.nan || y.nan⟩

/-- The magnitude of a real number: `lg` with `2^lg <= x < 2^(lg+1)`, and `fl k`, the floor of `x * 2^k` with whether
anything is left over. -/
structure Mag where
  lg : Int
  fl : Int → Nat × Bool

/-- `floor (n/d * 2^k)` and whether it is inexact. -/
def ratFloor (n d : Nat) (k : Int) : Nat × Bool :=
  let a := if 0 ≤ k then n * 2 ^ k.toNat else n
  let b := if 0 ≤ k then d else d * 2 ^ (-k).toNat
  (a / b, decide (a % b ≠ 0))

/-- `floor (log2 (n/d))` for positive `n`. -/
def ratLog2 (n d : Nat) : Int :=
  let e := (Nat.log2 n : Int) - (Nat.log2 d : Int)
  if 0 ≤ e then (if d * 2 ^ e.toNat ≤ n then e else e - 1)
  else (if d ≤ n * 2 ^ (-e).toNat then e else e - 1)

/-- The magnitude of a positive rational. -/
def ratMag (n d : Nat) : Mag := ⟨ratLog2 n d, ratFloor n d⟩

/-- Whether a magnitude truncated to `f` rounds up: `half` is the next bit, `more` anything below it (R85). -/
def roundsUp (mode : Nat) (neg odd half more : Bool) (frac draw : Nat) : Bool :=
  match mode with
  | 0 => half && (more || odd)
  | 1 => false
  | 2 => (half || more) && !neg
  | 3 => (half || more) && neg
  | 4 => half
  | _ => decide (draw < frac)

/-- The overflow code of R87. -/
def overflowMag (p : FP) (r : Rm) (neg : Bool) : Nat :=
  let toInf := r.mode == 0 || r.mode == 4 || r.mode == 5 || (r.mode == 2 && !neg) || (r.mode == 3 && neg)
  if r.sat then p.maxMag
  else if toInf then p.inf.getD (p.nan.getD p.maxMag) else p.maxMag

/-- Sign bit over a magnitude; E4M3's NaN has no sign and E2M1 no negative zero (R67, R87). -/
def signMag (p : FP) (neg : Bool) (mag : Nat) : Nat :=
  if p.nan = some mag then mag
  else if p.nan = none ∧ mag = 0 then 0
  else if neg then 2 ^ (p.w - 1) + mag else mag

/-- Round a nonzero magnitude once into a binary format (R85-R87). -/
def roundMag (p : FP) (r : Rm) (neg : Bool) (x : Mag) : Nat × Sticky :=
  let lg := max x.lg (1 - (p.bias : Int))
  let q := lg - (p.mb : Int)
  let f := x.fl (-q)
  let g := x.fl (1 - q)
  let code := (lg + (p.bias : Int) - 1).toNat * 2 ^ p.mb + f.1
  let mode := if r.mode = 5 ∧ (p.maxMag < code ∨ (p.maxMag = code ∧ f.2)) then 0 else r.mode
  let frac := (x.fl (24 - q)).1 - f.1 * 2 ^ 24
  let up := f.2 && roundsUp mode neg (code % 2 = 1) (g.1 % 2 = 1) g.2 frac r.draw
  let c := if up then code + 1 else code
  if p.maxMag < c then
    let m := overflowMag p r neg
    (signMag p neg m, ⟨false, true, p.nan = some m⟩)
  else (signMag p neg c, Sticky.none)

/-- The canonical NaN of a format, E2M1's being absent (R87). -/
def nanCode (p : FP) : Nat := p.nan.getD p.absent

/-- Convert any value into a binary format with one rounding (R87). -/
def encodeFp (p : FP) (r : Rm) (x : Val) : Nat × Sticky :=
  match x with
  | .absent => (p.absent, Sticky.none)
  | .nan => (nanCode p, ⟨false, false, true⟩)
  | .inf neg =>
    match p.inf with
    | some m => (signMag p neg m, Sticky.none)
    | none =>
      if r.sat ∨ p.nan = none then (signMag p neg p.maxMag, ⟨false, true, false⟩)
      else (nanCode p, ⟨false, false, true⟩)
  | .num neg n d => if n = 0 then (signMag p neg 0, Sticky.none) else roundMag p r neg (ratMag n d)

/-! ## T8 encoding (R83) -/

def entryFinite (x : BitVec 32) : Bool := decide (bitsOf x 21 20 = 0)
def entryInf (x : BitVec 32) : Bool := decide (bitsOf x 21 20 = 1)

/-- Numerator and denominator of a finite entry's magnitude. -/
def entryMag (x : BitVec 32) : Nat × Nat :=
  match decodeEntry x with
  | .num _ n d => (n, d)
  | _ => (0, 1)

/-- The largest `k < bound` among 0x00-0x7E that `f` accepts. -/
def lastCode (f : Nat → Bool) : Nat → Option Nat
  | 0 => none
  | k + 1 => if f k then some k else lastCode f k

def firstInf (t : Table) : Option Nat := (List.range 127).find? (fun k => entryInf (tableEntry t k))

/-- The codes of a list at the least distance: `dist` gives each one's, as a fraction. -/
def nearest (dist : Nat → Nat × Nat) (ks : List Nat) : List Nat :=
  let nearer (a b : Nat × Nat) : Bool := decide (a.1 * b.2 < b.1 * a.2)
  let best := ks.foldl (fun b k => if nearer (dist k) b then dist k else b) (dist (ks.headD 0))
  ks.filter fun k => !nearer best (dist k)

/-- The code a tie takes: the even one. Where several even codes tie, as they do in a place no table was loaded into, R83
leaves open which (log 48). -/
def tieCode (ks : List Nat) : Nat :=
  match ks.filter (· % 2 = 0) with
  | [] => ks.headD 0
  | es => es.getD (Config.tie es.length % es.length) 0

/-- Encode through a table: nearest, ties to the even code, overflow at the virtual code above the top (R83). -/
def encodeT8 (t : Table) (sat : Bool) (x : Val) : Nat × Sticky :=
  let top := (lastCode (fun k => entryFinite (tableEntry t k)) 127).getD 0
  let inf := firstInf t
  let tooLarge (neg : Bool) : Nat × Sticky :=
    if sat then (b2n neg * 128 + top, ⟨false, true, false⟩)
    else match inf with
      | some k => (b2n neg * 128 + k, ⟨false, true, false⟩)
      | none => (0x7F, ⟨false, true, true⟩)
  match x with
  | .absent => (0xFF, Sticky.none)
  | .nan => (0x7F, ⟨false, false, true⟩)
  | .inf neg =>
    match inf with
    | some k => (b2n neg * 128 + k, Sticky.none)
    | none => if sat then (b2n neg * 128 + top, ⟨false, true, false⟩) else (0x7F, ⟨false, true, true⟩)
  | .num neg n d =>
    let val (k : Nat) : Nat × Nat := entryMag (tableEntry t k)
    if n * (val 0).2 ≤ (val 0).1 * d then (b2n neg * 128, Sticky.none)
    else
      let v := val top
      let below := val (top - 1)
      let step : Nat × Nat := (2 * v.1 * below.2 - below.1 * v.2, v.2 * below.2)
      let code (k : Nat) : Nat × Nat := if k ≤ top then val k else if top = 0 then v else step
      let dist (k : Nat) : Nat × Nat := ((sgn false (n * (code k).2) - sgn false ((code k).1 * d)).natAbs, (code k).2)
      let k := tieCode (nearest dist (List.range (top + 2)))
      if top < k then tooLarge neg else (b2n neg * 128 + k, Sticky.none)

/-! ## Integers (R73, R74) -/

/-- The value of an integer pattern; none when absent. -/
def decodeInt (f x : Nat) : Option Int :=
  let w := fmtWidth f
  if x = absentCode f ∧ !fmtIsB f then none
  else if fmtIsI f ∧ 2 ^ (w - 1) ≤ x then some ((x : Int) - 2 ^ w) else some x

def intLo (f : Nat) : Int := if fmtIsI f then -(2 ^ (fmtWidth f - 1) - 1) else 0
def intHi (f : Nat) : Int := if fmtIsI f then 2 ^ (fmtWidth f - 1) - 1 else if fmtIsN f then 2 ^ fmtWidth f - 2 else 2 ^ fmtWidth f - 1

/-- An integer as a w-bit pattern, modulo 2^w. -/
def intPattern (f : Nat) (v : Int) : Nat := (v % (2 ^ fmtWidth f : Int)).toNat

/-- R74: an exact integer into an i or n format, clamped or wrapped; into a b format modulo 2^w. -/
def encodeInt (f : Nat) (sat : Bool) (v : Int) : Nat × Sticky :=
  if fmtIsB f then (intPattern f v, Sticky.none)
  else if v < intLo f then (intPattern f (if sat then intLo f else v), ⟨false, true, false⟩)
  else if intHi f < v then (intPattern f (if sat then intHi f else v), ⟨false, true, false⟩)
  else (intPattern f v, Sticky.none)

/-- Round a rational to an integer in a mode (R87). -/
def roundToInt (r : Rm) (neg : Bool) (n d : Nat) : Int :=
  let f := ratFloor n d 0
  let g := ratFloor n d 1
  let frac := (ratFloor n d 24).1 - f.1 * 2 ^ 24
  let up := f.2 && roundsUp r.mode neg (f.1 % 2 = 1) (g.1 % 2 = 1) g.2 frac r.draw
  sgn neg (if up then f.1 + 1 else f.1)

/-- A float value into an i or n format: rounded in the mode, then the nearest end of the range (R87). Beyond the
range, and for a negative value in an n format, SR rounds as RNE (R86). -/
def valToInt (f : Nat) (r : Rm) (x : Val) : Nat × Sticky :=
  match x with
  | .absent => (absentCode f, Sticky.none)
  | .nan => (absentCode f, ⟨false, false, true⟩)
  | .inf neg => (intPattern f (if neg then intLo f else intHi f), ⟨false, true, false⟩)
  | .num neg n d =>
    let fl := sgn neg (ratFloor n d 0).1
    let r' : Rm := if r.mode = 5 ∧ (fl < intLo f ∨ intHi f ≤ fl ∨ (neg ∧ fl = intLo f)) then { r with mode := 0 } else r
    let v := roundToInt r' neg n d
    if v < intLo f then (intPattern f (intLo f), ⟨false, true, false⟩)
    else if intHi f < v then (intPattern f (intHi f), ⟨false, true, false⟩)
    else (intPattern f v, Sticky.none)

/-! ## Any format -/

/-- The value of an element of a Nm or b format; T8 through a table (R212). -/
def decodeVal (f : Nat) (t : Table) (x : Nat) : Val :=
  if f = fmtT8 then decodeEntry (tableEntry t x)
  else if fmtIsF f then decodeFp (fpOf f) x
  else match decodeInt f x with
    | none => .absent
    | some v => .num (decide (v < 0)) v.natAbs 1

/-- Round a value once into any format (R83, R85-R87). -/
def encodeVal (f : Nat) (t : Table) (r : Rm) (x : Val) : Nat × Sticky :=
  if f = fmtT8 then encodeT8 t r.sat x
  else if fmtIsF f then encodeFp (fpOf f) r x
  else valToInt f r x

/-- A nonzero magnitude that a binary format does not hold exactly: it lies between two codes, or beyond the largest. -/
def fpInexact (p : FP) (n d : Nat) : Bool :=
  let x := ratMag n d
  let lg := max x.lg (1 - (p.bias : Int))
  let f := x.fl ((p.mb : Int) - lg)
  f.2 || decide (p.maxMag < (lg + (p.bias : Int) - 1).toNat * 2 ^ p.mb + f.1)

/-- The same for an i or n format. -/
def intInexact (f : Nat) (neg : Bool) (n d : Nat) : Bool :=
  let fl := sgn neg (ratFloor n d 0).1
  (ratFloor n d 0).2 || decide (fl < intLo f) || decide (intHi f < fl)

/-- Whether a result counts as rounded under SR: a number that its format, one that RMODE rounds, does not hold exactly; an
exact one is returned unchanged, which is no rounding (R83, R86; log 22). -/
def countsForSr (f : Nat) (x : Val) : Bool :=
  match x with
  | .num neg n d => decide (n ≠ 0) && decide (f ≠ fmtT8) && (if fmtIsF f then fpInexact (fpOf f) n d else intInexact f neg n d)
  | _ => false

/-! ## HCM-64 -/

def hcmRound (seed : Word) (x : Word) (i : Nat) : Word :=
  let x := (x + seed.rotateLeft (8 * i)) ^^^ 0x6A09E667F3BCC909#64
  let x := x ^^^ (x >>> (31 : Nat))
  let x := x * 0xD6E8FEB86659FD93#64
  x ^^^ (x >>> (29 : Nat))

/-- R99. -/
def hcm64 (seed counter : Word) : Word :=
  (List.range 6).foldl (hcmRound seed) (counter ^^^ seed)

/-- R100: a uniform draw as a pattern of a float format. -/
def uniform (f : Nat) (d : Word) : Nat :=
  match f with
  | 12 => (encodeFp (fpOf 12) ⟨1, false, 0⟩ (.num false (bitsOf d 63 11) (2 ^ 53))).1
  | _ => (encodeFp (fpOf f) ⟨1, false, 0⟩ (.num false (bitsOf d 63 40) (2 ^ 24))).1

end Sys2Proof.Machine
end

