-- ==== Sys2Proof/Machine/State.lean ====
section
/-! DEFINITION. The state of one package as plain data, its value at power-on, and the ways a step may stop. -/

namespace Sys2Proof.Machine

/-- Reasons for the machine to stop. The device reports every error as an effect (R405-R410): a fault record, a marked
launch, an ended task. No rule stops the machine, so no reason exists. -/
inductive Fault where
  deriving DecidableEq, Repr

/-- Reasons to refuse an instruction. -/
inductive Refusal where
  /-- Raised by an arm of `exec` that has no meaning yet; safe. -/
  | notModelled (mnemonic : String)
  deriving DecidableEq, Repr

/-! ## Task slots -/

/-- A fetched half of a bundle and what the bundle continues with: `pc` is its first head, `succ` its sequential
successor (R144, R145). -/
structure Bundle where
  pc : Word
  succ : Word
  first : Instr
  second : Option Instr
  deriving DecidableEq, Repr

/-- The repetition buffer (R251, R252): REPST's fields and the bundles held so far. `due`: the body bundle in hand has issued and is
parked, and REPST moves on when it completes (R253). -/
structure Rep where
  act : Bool
  len : Nat
  pos : Nat
  left : Nat
  body : List Bundle
  due : Bool
  deriving DecidableEq, Repr

def Rep.idle : Rep := ⟨false, 0, 0, 0, [], false⟩

/-- A stream descriptor: its 256-bit image and position (R218). -/
structure Stream where
  image : BitVec 256
  pos : Nat
  deriving DecidableEq, Repr

/-- A binding of V6 or V7: write direction and descriptor (R220). -/
structure Binding where
  write : Bool
  desc : BitVec 2
  deriving DecidableEq, Repr

/-- A result that a long operation writes when it finishes (R173, R214): the register and the flags it sets. -/
inductive Late where
  | g (d : Reg) (v : Word) (flags : Option (BitVec 4))
  | v (d : VReg) (x : BitVec 512) (sticky : Word)
  deriving DecidableEq, Repr

/-- What the carter copies (R283-R287, R331). Offsets lie in the recorded segments. -/
inductive CopyKind where
  | plain (src dst len : Nat)
  | tile (desc : BitVec 512)
  | deal (desc : BitVec 512)
  | arm (src dst len : Nat) (loc : Word) (t : Word)
  | sort (keys pays payOut tabOut : List (Nat × Nat)) (n kb pw : Nat)
  deriving DecidableEq, Repr

/-- An entry of a copy mailbox (R282): operands, recorded segments and tag. -/
structure CopyReq where
  tag : Nat
  req : Requester
  kind : CopyKind
  dseg : BitVec 128
  sseg : BitVec 128
  nseg : BitVec 128
  notify : Option Nat
  deriving DecidableEq, Repr

/-- A load through SPACE = 1 that waits for its replies (R192, R195). -/
structure LoadWait where
  /-- its requests, in order, each with its keys and sizes -/
  reqs : List (Nat × List (Nat × Nat))
  /-- for a vector load, the image and position of the stream its elements go to (R221) -/
  dst : Option (BitVec 256 × Nat)
  /-- the virtual ranges it reads, in order -/
  vas : List (Nat × Nat)
  /-- its bytes as they stood when a store that follows it in its bundle was performed (R142) -/
  held : Option (List Byte)
  deriving DecidableEq, Repr

/-- What a parked instruction waits for (R51). -/
inductive ParkCond where
  /-- the answers of these transactions, in order (R270, R273) -/
  | answers (xids : List Nat)
  /-- the replies of a load -/
  | loads (w : LoadWait)
  /-- a load of a restored task, which is issued again (R195): whether it waits for a translation -/
  | again (w : LoadWait) (walk : Bool)
  /-- tags in the mask: any, or all of them -/
  | tags (mask : BitVec 16) (all : Bool)
  /-- the bank's completion of a take or put at this word of local memory, which the answer `xid` brings -/
  | mailbox (off : Nat) (xid : Nat)
  /-- the counters of scopes 2 to `top` are zero -/
  | fence (top : Nat)
  /-- a divide, remainder or special function is done -/
  | late (result : Late)
  /-- the matrix operation completes -/
  | matrix
  /-- a place for the record -/
  | spawn (r : Record)
  /-- the Press result or barrier of the group -/
  | press (gid : Nat)
  /-- a free entry of the slot's copy mailbox, for this one -/
  | copyPlace (c : CopyReq)
  /-- a granted berth, by its number -/
  | berth (xid : Nat)
  /-- a translation, after which the bundle is reissued -/
  | translation
  /-- words missing from the constant cache, after which the bundle is reissued (R143, R150): whether S3 has SPACE = 1, and
  each word's address and key -/
  | constants (far : Bool) (words : List (Nat × Nat))
  deriving DecidableEq, Repr

/-- A parked instruction: what it waits for, the first head of its bundle, and in `ea` the address it works on, or the mask of a
vector load. -/
structure Park where
  instr : Instr
  pc : Word
  cond : ParkCond
  ea : Word
  deriving DecidableEq, Repr

/-- Why a slot is halted: not, by BRK (R202), for pre-emption (R414). -/
inductive Halt where
  | no
  | debug
  | preempt
  deriving DecidableEq, Repr

/-- A contribution whose result the task has not taken (R337), with the round it goes into. `bar` marks a GBAR arrival. -/
structure Outst where
  gid : Nat
  gen : Nat
  round : Nat
  bar : Bool
  result : Option PressPkt
  lost : Bool
  deriving DecidableEq, Repr

/-- A task slot (R29, R36, R156-R160). -/
structure Slot where
  /-- the slot holds a task; `task` is the identity the model gives it -/
  occupied : Bool
  task : Nat
  launch : Nat
  lane : Nat
  key : Word
  /-- for a capsule task, the step index whose visit started it -/
  capStep : Option Nat
  pc : Word
  g : Vector Word 16
  v : Vector (BitVec 512) 8
  p : Vector Word 4
  c : SMap (BitVec 128)
  started : Vector Bool 2
  s : Vector (BitVec 128) 8
  flags : Word
  rmode : Word
  round : Word
  fa : Word
  fb : Word
  fs : Word
  cause : Word
  cw : Vector Word 8
  rep : Rep
  sd : Vector Stream 4
  bind6 : Option Binding
  bind7 : Option Binding
  tagSet : BitVec 16
  tagBusy : BitVec 16
  tagStat : BitVec 16
  tagCode : Vector Byte 16
  /-- unacknowledged counters and fault-pending bits by scope (R266); scopes 2-6 are used -/
  unack : Vector Nat 8
  faultPending : BitVec 8
  mailbox : List CopyReq
  /-- written bits of the frame and its size in bytes (R56) -/
  written : BitVec 512
  frame : Nat
  /-- berth of the capsule the task holds (R298) -/
  capsule : Option (BitVec 2)
  prio : BitVec 2
  outs : List Outst
  parks : List Park
  answers : List Answer
  halt : Halt
  /-- first cycle in which the slot may issue (R50, R384) -/
  readyAt : Nat
  /-- the task's fault record waits for room in the fault buffer, and the task keeps its slot (R410) -/
  ending : Bool
  /-- TEND has issued beside an instruction that is parked, and the task ends when that one completes (R143, R294) -/
  tending : Bool
  /-- the task has issued MHOOP (R320) -/
  hooped : Bool
  /-- the count of choices from which on a store may be unseen by the task's fetches (R186; log 20) -/
  since : Nat
  deriving DecidableEq, Repr

def Slot.empty : Slot where
  occupied := false
  task := 0
  launch := 0
  lane := 0
  key := 0
  capStep := none
  pc := 0
  g := Vector.replicate 16 0
  v := Vector.replicate 8 0
  p := Vector.replicate 4 0
  c := []
  started := Vector.replicate 2 false
  s := Vector.replicate 8 0
  flags := 0
  rmode := 0
  round := 0
  fa := 0
  fb := 0
  fs := 0
  cause := 0
  cw := Vector.replicate 8 0
  rep := Rep.idle
  sd := Vector.replicate 4 ⟨0, 0⟩
  bind6 := none
  bind7 := none
  tagSet := 0
  tagBusy := 0
  tagStat := 0
  tagCode := Vector.replicate 16 0
  unack := Vector.replicate 8 0
  faultPending := 0
  mailbox := []
  written := 0
  frame := 0
  capsule := none
  prio := 0
  outs := []
  parks := []
  answers := []
  halt := .no
  readyAt := 0
  ending := false
  tending := false
  hooped := false
  since := 0

/-! ## Cores -/

/-- What a berth of a core holds (R131): nothing, a reservation for a capsule on its way, or a capsule with its state. -/
inductive Berth where
  | free
  | reserved
  /-- with a task -/
  | held
  /-- sent, waiting for its next place (R132) -/
  | leaving
  /-- arrived, not yet examined by the gleaner -/
  | arrived
  /-- on the pending list of a blocked channel (R44) -/
  | pending
  /-- waiting for a slot (R44) -/
  | ready
  /-- waiting to be written to a full capsule fault queue (R134) -/
  | returning (code : FaultCode) (req : Option Requester)
  deriving DecidableEq, Repr

/-- Who asks a core for a berth: a capsule in a berth elsewhere, a parked CAPNEW, or the move of a capsule that a saved task of a
launch holds (R132, R305). -/
inductive BerthAsk where
  | capsule (p : ReservePkt)
  | local (r : SlotRef) (task : Nat) (xid : Nat) (born : Nat)
  | move (launch task : Nat) (born : Nat)
  deriving DecidableEq, Repr

/-- Which matrix operation (R308). -/
inductive MatKind where
  | mma
  | mmah
  | mhoop
  | mdrain
  | macc
  deriving DecidableEq, Repr

/-- A matrix operation in the queue or the unit (R308, R328-R330). Offsets are local addresses; for MACC `a` is the
first slot's GA list. -/
structure MatOp where
  kind : MatKind
  slot : Nat
  tile : Acc
  mf : Nat
  sc : Bool
  a : Nat
  b : Nat
  asc : Nat
  bsc : Nat
  gas : List Word
  mask : BitVec 16
  code : Nat
  norm : Bool
  /-- MDRAIN: RMODE at issue (R324), and whether the other half of its bundle wrote RMODE (R142) -/
  rmode : Word
  keepRm : Bool
  /-- MDRAIN: its stores have been performed, ahead of the accesses of the other half of its bundle (R142) -/
  stored : Bool
  /-- bytes of local memory, by offset, as they stood when a store that follows the operation in its bundle was performed (R142) -/
  before : List (Nat × Byte)
  step : Nat
  total : Nat
  base : Nat
  entered : Nat
  waited : Nat
  since : Nat
  overtaken : Nat
  /-- priority when it last started (R329) -/
  rank : Nat
  /-- tables FA, FB, FS sampled at the start (R82, R316) -/
  tables : Option (Table × Table × Table)
  /-- MMAH: the k-step is done and the chunk waits to be sent (R320) -/
  sending : Bool
  /-- MACC: registration under way, and the answer for slot `step` (R326) -/
  waitXid : Option Nat
  answer : Option Answer
  /-- a k-step whose charge became a claim (R389) -/
  claimed : Bool
  deriving DecidableEq, Repr

/-- The Hoop latch (R318). `owner` is the task that last issued MHOOP. -/
structure Hoop where
  chunk : List Byte
  full : Bool
  inbox : List Byte
  infull : Bool
  mask : BitVec 16
  mf : Nat
  t : Nat
  owner : Option Nat
  deriving DecidableEq, Repr

def Hoop.idle : Hoop := ⟨[], false, [], false, 0, 0, 0, none⟩

/-- Where a copy stands: the destination range it writes, the bytes of it done, the source bytes read and not yet dropped, and
`flying` parts on their way. -/
structure Job where
  id : Nat
  copy : CopyReq
  run : Nat
  pos : Nat
  got : List (Nat × Byte)
  flying : Nat
  /-- notify-joins sent, and acknowledgements of notify-joins and sort fills still due -/
  sent : Nat
  notifies : Nat
  /-- the fault that stopped the copy, and the first fault that a notify-join or sort fill brought (R289) -/
  code : Option FaultCode
  note : Option FaultCode
  /-- a fault of the copy whose record has no room yet, with its VA and GA (R410) -/
  fault : Option (FaultCode × Option Word × Option Word)
  /-- an arm registered and not fired (R287) -/
  armed : Bool
  /-- an unresolved page of the copy (R289) -/
  waiting : Bool
  deriving DecidableEq, Repr

/-- A waiter at a bank of local memory: a parked take or put in issue order (R193). -/
structure BankWait where
  off : Nat
  take : Bool
  value : Word
  req : Requester
  xid : Nat
  deriving DecidableEq, Repr

/-- Counters of the snapshot registers (R463): bundles, parked turns, denied turns, k-steps. -/
structure Snap where
  bundles : Word
  parked : Word
  denied : Word
  ksteps : Word
  deriving DecidableEq, Repr

def Snap.zero : Snap := ⟨0, 0, 0, 0⟩

/-- A word of a core's constant cache (R150): the launch, SPACE and address it is read by, the memory it came from, its value. -/
structure ConstWord where
  launch : Nat
  far : Bool
  addr : Nat
  key : Nat
  value : BitVec 32
  deriving DecidableEq, Repr

/-- A core apart from its task slots and local memory. -/
structure Core where
  channels : SMap (BitVec 128)
  berths : Vector Berth 4
  asks : List BerthAsk
  /-- arrivals, held and ready capsules by berth in arrival order (R44, R45) -/
  arrivals : List (BitVec 2)
  hoop : Hoop
  queue : List MatOp
  running : Option MatOp
  budget : Nat
  /-- claims in the order they were made: task slots 0-7, 8 the matrix unit; with their charge (R389) -/
  claims : List (Nat × Nat)
  /-- refills done since die initialisation (R386) -/
  refills : Nat
  lastServed : Nat
  jobs : List Job
  banks : List BankWait
  /-- the constant cache, the latest word last (R150, R151) -/
  consts : List ConstWord
  fenced : Bool
  snap : Snap
  latched : Snap
  /-- SPARE and PCORE of a core bound to a spare by repair (R18, R466) -/
  spare : Option Nat
  /-- the cycle and the slot of the latest SEGLD whose reply was written (R199) -/
  segldAt : Nat × Nat
  deriving DecidableEq, Repr

def Core.reset : Core where
  channels := []
  berths := Vector.replicate 4 .free
  asks := []
  arrivals := []
  hoop := Hoop.idle
  queue := []
  running := none
  budget := 65535
  claims := []
  refills := 0
  lastServed := 7
  jobs := []
  banks := []
  consts := []
  fenced := false
  snap := Snap.zero
  latched := Snap.zero
  spare := none
  segldAt := (0, 0)

/-! ## Translation -/

/-- A leaf of a port TLB (R398): level, rights {RD, WR, EX} in bits 0-2, frame GA, LAT, POLICY. -/
structure Leaf where
  launch : Nat
  level : Nat
  va : Nat
  rights : Nat
  frame : Nat
  lat : Bool
  policy : Nat
  deriving DecidableEq, Repr

/-- A walk-cache entry: the table below a non-leaf entry (R398). -/
structure NonLeaf where
  launch : Nat
  level : Nat
  va : Nat
  table : Nat
  deriving DecidableEq, Repr

/-- A cluster: its memory port, router and record queue. -/
structure Port where
  tlb : List Leaf
  /-- leaves that have left the TLB by replacement or retry; an access may still use one of them (R400) -/
  past : List Leaf
  walks : List NonLeaf
  asleep : Bool
  stale : Bool
  deriving DecidableEq, Repr

def Port.reset : Port := ⟨[], [], [], false, false⟩

/-- An open page request (R402). -/
structure PageReq where
  seq : Nat
  launch : Nat
  page : Word
  cause : Nat
  need : Nat
  who : List WalkReq
  deriving DecidableEq, Repr

/-! ## Homes -/

/-- A request of a value-returning round (R116). -/
structure CountRound where
  ga : Word
  round : Nat
  members : List Nat
  left : List Nat
  reqs : List CountPkt
  deriving DecidableEq, Repr

/-- A plot at its home: attribute entry (R102), its GRAN in full, since the four bits of the entry hold no 16 (log 16), fill states (R105; 0 unfilled, 1 filled, 2 TOP, 3 NEVER), and for
value-returning counts the lowest unanswered round by location (R118). -/
structure Plot where
  attr : Word
  gran : Nat
  fill : SMap Nat
  low : SMap Nat
  deriving DecidableEq, Repr

def Plot.reset : Plot := ⟨0, 0, [], []⟩

/-- A router's interest entry (R124): requests of its own cores and child routers. -/
structure Interest where
  name : Word
  own : List InterestPkt
  ports : List Nat
  deriving DecidableEq, Repr

structure Router where
  table : List Interest
  rick : List (Word × List Byte)
  deriving DecidableEq, Repr

def Router.reset : Router := ⟨[], []⟩

/-- A seed registry entry (R249). -/
structure Seed where
  seed : Word
  base : Word
  len : Word
  launch : Nat
  deriving DecidableEq, Repr

/-! ## Press -/

/-- A node's group entry with its partial (R426); a core's Press port keeps its member slots in `child` (R425). `round` is the round in progress at the node, by the identifier's count of rounds, and `owed` the
children to which its result will go (R428). -/
structure PressEntry where
  state : Nat
  root : Bool
  gen : Nat
  rip : Bool
  op : Nat
  fmt : Nat
  sat : Bool
  mode : Nat
  child : BitVec 8
  arrived : BitVec 8
  round : Nat
  owed : BitVec 8
  part : Option PressPkt
  deriving DecidableEq, Repr

/-- A Press node or a core's Press port: entries and STALE counts by group. -/
structure PressNode where
  entries : SMap (Option PressEntry)
  stale : SMap Nat
  deriving DecidableEq, Repr

def PressNode.reset : PressNode := ⟨[], []⟩

/-- An identifier and its group: phase 0 idle, 1 active, 2 draining (R335). `root` marks a root group, whose members are
lanes (R48); `top` is the node at the root of its tree (R427), and `round` counts the identifier's rounds. -/
structure Group where
  phase : Nat
  gen : Nat
  launch : Nat
  root : Bool
  top : Option Nat
  round : Nat
  members : List Requester
  /-- tasks that take part in the round in progress, and those that have contributed -/
  roundOf : List Nat
  arrived : List Nat
  /-- contributions that go into the next round (R48, R335) -/
  held : List (Requester × PressPkt)
  /-- the watchdog's count (R343): start of the GBAR round, cycles paused, reported -/
  barStart : Option Nat
  paused : Nat
  fired : Bool
  deriving DecidableEq, Repr

def Group.reset : Group := ⟨0, 0, 0, false, none, 0, [], [], [], [], none, 0, false⟩

/-! ## Launches -/

/-- Why a launch is halted or ending: commands of R370 under way. -/
inductive LaunchPhase where
  | running
  /-- the pre-empt request has been accepted; halts are in progress (R414) -/
  | halting
  | halted
  | tearing
  deriving DecidableEq, Repr

/-- A saved context (R416): the slot with its place in the bound slot list, its matrix operation, its Hoop latch, the
interests withdrawn and the address of its record. -/
structure Context where
  slot : Slot
  place : SlotRef
  idx : Nat
  op : Option MatOp
  hoop : Option Hoop
  interests : List InterestPkt
  tables : List Byte
  frame : List Byte
  /-- the core asked for a berth for the capsule that the task holds, and the berth once it is granted (R305) -/
  move : Option (Nat × Option (BitVec 2))
  deriving DecidableEq, Repr

/-- A live launch; `bytes` is its record (R371). -/
structure Launch where
  bytes : List Byte
  die : Nat
  plotSlot : Nat
  phase : LaunchPhase
  /-- root-group barriers completed (R59) -/
  count : Word
  faulted : Bool
  code : Nat
  /-- joins, stores, copies, arms sent and not acknowledged (R41) -/
  outstanding : Nat
  saved : List Context
  laneStores : List (Nat × List Byte)
  /-- bound slots that have taken their lane store since the resume -/
  laneGiven : List Nat
  /-- check code and length of the save area (R415) -/
  check : Word
  areaLen : Nat
  /-- plots and tensors of its object (R374) -/
  plots : List Word
  tensors : List Nat
  /-- tables of places 3-7, constant windows and entry as expanded (R374) -/
  tables : List (List Byte)
  windows : List Word
  /-- pre-empted by a repair, and resumed after it (R466) -/
  repair : Bool
  lostDie : Bool
  /-- capsules made so far by lane (R299) -/
  made : SMap Nat
  /-- initial records posted so far (R376) -/
  posted : Nat
  /-- the count of choices at its expansion (R151, R186; log 20) -/
  since : Nat
  deriving DecidableEq, Repr

/-! ## Dies -/

inductive Tdisp where
  | configUnlocked
  | configLocked
  | run
  | error
  deriving DecidableEq, Repr

/-- A fault record (R407) as its fields; SEQ is given when it enters the buffer. -/
structure FaultRec where
  code : Nat
  cls : Nat
  flags : Nat
  launch : Nat
  source : Word
  llane : BitVec 32
  seq : Nat
  pc : Word
  va : Word
  ga : Word
  key : Word
  arg : Word
  /-- the task, and the groups whose watchdog counts the record pauses (R343) -/
  task : Nat
  pauses : List Nat
  /-- a refusal's record, which names a launch that is not live (R372) -/
  quiet : Bool
  deriving DecidableEq, Repr

/-- A record without room in the buffer (R410), and the slot whose task ends once it is placed. -/
structure FaultWait where
  record : FaultRec
  ends : Option (SlotRef × FaultCode)
  deriving DecidableEq, Repr

/-- A compute die apart from its cores and memories. -/
structure Die where
  lstat : SMap (Nat × Nat)
  lwin : SMap Byte
  lnext : Nat
  lcount : Nat
  lerr : BitVec 2
  /-- accepted submissions: number, phase (0 to fill, 1 to join, 2 to expand; 4 more when torn down), record -/
  subs : List (Nat × Nat × List Byte)
  expanded : Nat
  lsave : SMap Word
  tsva : Word
  tslen : Word
  tsBusy : Bool
  tsCount : Nat
  /-- clusters that have not acknowledged; once they have removed entries, the transactions before and the leaves (R400) -/
  tsWait : List (Nat × Nat × List Leaf)
  faults : List FaultRec
  faultWait : List FaultWait
  nextSeq : Nat
  hold : Bool
  blocked : Bool
  lastOffer : Nat
  eqbase : Word
  eqsize : Word
  eqhead : BitVec 32
  eqtail : BitVec 32
  cfqHead : Nat
  cfqHeld : Nat
  /-- entries marked void by a tear-down (R412) -/
  cfqVoid : List Nat
  returns : List ReturnPkt
  pages : List PageReq
  pageWait : List PageReq
  dbgsel : Word
  spill : List (Nat × Record × Nat)
  store : List Instr
  tdisp : Tdisp
  /-- the IDE keys of the die's function, once they are set (R20, R461) -/
  keys : Option (BitVec 256)
  inReset : Bool
  fenced : Bool
  hot : Bool
  /-- physical cores that repair has taken out of use (R18, R466) -/
  worn : List Nat
  deriving DecidableEq, Repr

def Die.reset : Die where
  lstat := []
  lwin := []
  lnext := 0
  lcount := 0
  lerr := 0
  subs := []
  expanded := 0
  lsave := []
  tsva := 0
  tslen := 0
  tsBusy := false
  tsCount := 0
  tsWait := []
  faults := []
  faultWait := []
  nextSeq := 0
  hold := false
  blocked := false
  lastOffer := 0
  eqbase := 0
  eqsize := 0
  eqhead := 0
  eqtail := 0
  cfqHead := 0
  cfqHeld := 0
  cfqVoid := []
  returns := []
  pages := []
  pageWait := []
  dbgsel := 0
  spill := []
  store := []
  tdisp := .configUnlocked
  keys := none
  inReset := true
  fenced := false
  hot := false
  worn := []

/-! ## Links -/

/-- A packet of a link: transaction, channel, slots still to send (R446), and whether the receiver holds its earlier slots from a
fenced port (R451). -/
structure Packet where
  xid : Nat
  chan : Nat
  slots : List (BitVec 512)
  goesOn : Bool
  deriving DecidableEq, Repr

/-- One end of a Ubon port: sender and receiver (R445-R451). Vectors are by channel. -/
structure Link where
  trained : Bool
  fenced : Bool
  seq : BitVec 16
  lastRx : BitVec 16
  nak : Bool
  replay : List Flit
  resent : Nat
  credits : Vector Nat 4
  give : Vector Nat 4
  idle : Vector Nat 4
  out : Vector (List Packet) 4
  begun : Vector Bool 4
  parts : Vector (List (BitVec 512)) 4
  errors : Nat
  /-- slots of packets that the receiver accepted from a fenced port and that go on here: channel, transaction, slots (R451) -/
  carried : List (Nat × Nat × List (BitVec 512))
  /-- flits to send again, in order -/
  again : List Flit
  /-- packets that have been given a queue here -/
  taken : List Nat
  /-- an acknowledgement is due -/
  due : Bool
  heard : Bool
  lanes : Nat
  deriving DecidableEq, Repr

def Link.reset : Link where
  trained := false
  fenced := false
  seq := 0
  lastRx := 0
  nak := false
  replay := []
  resent := 0
  credits := Vector.replicate 4 0
  give := Vector.replicate 4 0
  idle := Vector.replicate 4 0
  out := Vector.replicate 4 []
  begun := Vector.replicate 4 false
  parts := Vector.replicate 4 []
  errors := 0
  carried := []
  again := []
  taken := []
  due := false
  heard := false
  lanes := 2

/-- The wavelengths of a fibre (R456, R457): those fenced (0-15 active, 16 and 17 spares), the wavelength whose symbols each spare
carries, and the lanes fenced. -/
structure Fibre where
  bad : BitVec 18
  serves : Vector (Option Nat) 2
  shut : BitVec 2
  deriving DecidableEq, Repr

def Fibre.reset : Fibre := ⟨0, Vector.replicate 2 none, 0⟩

/-- A message between dies: what it is, and the link ends it has still to leave from. -/
structure Transit where
  xid : Nat
  msg : Instr
  hops : List LinkEnd
  deriving DecidableEq, Repr

/-! ## Who moves next -/

inductive Turn where
  | slot (r : SlotRef)
  | deliver (n : Nat)
  | act (i : Instr)
  | tick
  deriving DecidableEq, Repr

/-- Where and with what a fault is reported (R407): first head, VA, GA and ARG. -/
structure Detail where
  pc : Word
  va : Option Word
  ga : Option Word
  arg : Word
  deriving DecidableEq, Repr

def Detail.zero : Detail := ⟨0, none, none, 0⟩

/-- How the bundle in hand ended (R143). -/
inductive Ended where
  | done
  | trapped (code : FaultCode) (d : Detail)
  | reissued
  deriving DecidableEq, Repr

/-- The slot that issues, the bundle it issues and where it goes next. -/
structure Focus where
  who : SlotRef
  pc : Word
  next : Word
  disp : Ended
  bundle : Option Bundle
  deriving DecidableEq, Repr

def Focus.none : Focus := ⟨⟨0, 0, 0, 0⟩, 0, 0, .done, .none⟩

/-! ## The package -/

structure State where
  mem : SMap Byte
  /-- bytes that stores have written over, the latest first: the count of choices at the store, the address, and what the byte was
  before (R151, R186; log 20) -/
  past : List (Nat × Nat × Byte)
  fe : SMap Bool
  frameAttr : SMap Word
  plots : SMap Plot
  ue : SMap Bool
  slots : SMap Slot
  cores : SMap Core
  ports : SMap Port
  routers : SMap Router
  /-- cluster queues and the core that took the last bind -/
  queues : SMap (List Record)
  lastCore : SMap (Option Nat)
  /-- the cycle of each cluster's last bind of a record (R381) -/
  boundAt : SMap (Option Nat)
  waiters : List RegPkt
  rounds : List CountRound
  tensors : SMap (List Byte)
  /-- interests waiting at homes: the name and the router to answer -/
  wants : List (Word × Nat)
  namers : List NamePkt
  anyAsks : List ReservePkt
  seeds : SMap (Option Seed)
  press : SMap PressNode
  groups : SMap Group
  launches : SMap (Option Launch)
  dies : SMap Die
  gstore : List Instr
  links : SMap Link
  waves : SMap Fibre
  transits : List Transit
  /-- packets that wait in a slot buffer for a place in a full waiting store: the store's die, the end, the message (R449) -/
  stuck : List (Nat × LinkEnd × Instr)
  pkgid : Nat
  faben : Bool
  discDone : Bool
  discConflict : Bool
  snapEnable : Nat
  snapSeq : Nat
  /-- cycle in which a pending snapshot latches (R463) -/
  snapAt : Option Nat
  fattrRefused : Bool
  repairBusy : Bool
  repairRefused : Bool
  repairsDone : Nat
  repairWait : Option Word
  sliceMoved : SMap Bool
  ioRegs : SMap Byte
  msix : List (Nat × Nat)
  hostReply : Option (List Byte)
  booted : Bool
  cycle : Nat
  nextTask : Nat
  xid : Nat
  draws : Nat
  agenda : List Instr
  turn : Turn
  focus : Focus
  deriving DecidableEq, Repr

/-- The package at power-on (R455): nothing is written, no port is trained, and the boot firmware is about to run.
Fields without a reset value in the spec are zero or empty (log 4). -/
def State.reset : State where
  mem := []
  past := []
  fe := []
  frameAttr := []
  plots := []
  ue := []
  slots := []
  cores := []
  ports := []
  routers := []
  queues := []
  lastCore := []
  boundAt := []
  waiters := []
  rounds := []
  tensors := []
  wants := []
  namers := []
  anyAsks := []
  seeds := []
  press := []
  groups := []
  launches := []
  dies := []
  gstore := []
  links := []
  waves := []
  transits := []
  stuck := []
  pkgid := 0
  faben := false
  discDone := false
  discConflict := false
  snapEnable := 0
  snapSeq := 0
  snapAt := none
  fattrRefused := false
  repairBusy := false
  repairRefused := false
  repairsDone := 0
  repairWait := none
  sliceMoved := []
  ioRegs := []
  msix := []
  hostReply := none
  booted := false
  cycle := 0
  nextTask := 1
  xid := 1
  draws := 0
  agenda := [.packageBoot]
  turn := .deliver 0
  focus := Focus.none

end Sys2Proof.Machine
end

