-- ==== Sys2Proof/Machine/Base.lean ====
section
/-! DEFINITION. Where the pieces of state stand: slots, cores, dies, launches, bytes of memory by global address (R22-R25),
messages between dies, and fault records entering a die's buffer (R405-R410). -/

namespace Sys2Proof.Machine

/-! ## Numbers and bytes -/

/-- `n` bytes of a number, lowest first (R3). -/
def bytesOf : Nat → Nat → List Byte
  | 0, _ => []
  | n + 1, x => BitVec.ofNat 8 x :: bytesOf n (x / 256)

/-- The number a byte string holds, lowest first (R3). -/
def natOf : List Byte → Nat
  | [] => 0
  | b :: t => b.toNat + 256 * natOf t

/-- A field of `n` bytes at byte `lo` of an image. -/
def fieldOf (bs : List Byte) (lo n : Nat) : Nat := natOf ((bs.drop lo).take n)

def wordOf (bs : List Byte) (lo : Nat) : Word := BitVec.ofNat 64 (fieldOf bs lo 8)

/-- An image with `new` over its bytes from `lo`. -/
def patch (bs : List Byte) (lo : Nat) (new : List Byte) : List Byte :=
  bs.take lo ++ new ++ bs.drop (lo + new.length)

/-- Sign extension of an `n`-bit field to 64 bits. -/
def sext64 {n : Nat} (x : BitVec n) : Word := x.signExtend 64

/-- Put `x` before the first entry that does not come before it. -/
def insertBy {α : Type} (before : α → α → Bool) (x : α) : List α → List α
  | [] => [x]
  | y :: t => if before x y then x :: y :: t else y :: insertBy before x t

/-- A list in the order `before`; entries that neither precedes keep their order from last to first. -/
def sortBy {α : Type} (before : α → α → Bool) (l : List α) : List α := l.foldr (insertBy before) []

/-- Two local ranges share a byte. -/
def overlaps (a la b lb : Nat) : Bool := decide (0 < la) && decide (0 < lb) && decide (a < b + lb) && decide (b < a + la)

def inc32 (x : Nat) : Nat := (x + 1) % 2 ^ 32

/-! ## Slots, cores, dies -/

def skey (r : SlotRef) : Nat := r.coreKey * 8 + r.slot

/-- The core with a number (R17). -/
def refOf (core slot : Nat) : SlotRef := ⟨core / 8192, core / 16 % 512, core % 16, slot⟩

def dieOfCore (core : Nat) : Nat := core / 8192
def clusterOfCore (core : Nat) : Nat := core / 16

def State.slot (s : State) (r : SlotRef) : Slot := SMap.get s.slots Slot.empty (skey r)
def State.setSlot (s : State) (r : SlotRef) (x : Slot) : State := { s with slots := SMap.put s.slots (skey r) x }
def State.modSlot (s : State) (r : SlotRef) (f : Slot → Slot) : State := s.setSlot r (f (s.slot r))

/-- The first cycle of a slot that is not before `c` (R49). -/
def turnAt (slot c : Nat) : Nat := c + (slot + 8 - c % 8) % 8

def State.core (s : State) (k : Nat) : Core := SMap.get s.cores Core.reset k
def State.setCore (s : State) (k : Nat) (c : Core) : State := { s with cores := SMap.put s.cores k c }
def State.modCore (s : State) (k : Nat) (f : Core → Core) : State := s.setCore k (f (s.core k))

def State.die (s : State) (d : Nat) : Die := SMap.get s.dies Die.reset d
def State.setDie (s : State) (d : Nat) (x : Die) : State := { s with dies := SMap.put s.dies d x }
def State.modDie (s : State) (d : Nat) (f : Die → Die) : State := s.setDie d (f (s.die d))

def State.port (s : State) (c : Nat) : Port := SMap.get s.ports Port.reset c
def State.setPort (s : State) (c : Nat) (x : Port) : State := { s with ports := SMap.put s.ports c x }

def State.router (s : State) (c : Nat) : Router := SMap.get s.routers Router.reset c
def State.setRouter (s : State) (c : Nat) (x : Router) : State := { s with routers := SMap.put s.routers c x }

def State.queue (s : State) (c : Nat) : List Record := SMap.get s.queues [] c
def State.setQueue (s : State) (c : Nat) (q : List Record) : State := { s with queues := SMap.put s.queues c q }

def State.group (s : State) (g : Nat) : Group := SMap.get s.groups Group.reset g
def State.setGroup (s : State) (g : Nat) (x : Group) : State := { s with groups := SMap.put s.groups g x }

def State.launch (s : State) (n : Nat) : Option Launch := SMap.get s.launches none n
def State.setLaunch (s : State) (n : Nat) (l : Launch) : State := { s with launches := SMap.put s.launches n (some l) }
def State.modLaunch (s : State) (n : Nat) (f : Launch → Launch) : State :=
  match s.launch n with
  | some l => s.setLaunch n (f l)
  | none => s

def State.tensor (s : State) (n : Nat) : List Byte := SMap.get s.tensors [] n
def State.setTensor (s : State) (n : Nat) (bs : List Byte) : State := { s with tensors := SMap.put s.tensors n bs }

def linkKey (e : LinkEnd) : Nat := 2 * e.port + b2n e.granary
def State.link (s : State) (e : LinkEnd) : Link := SMap.get s.links Link.reset (linkKey e)
def State.setLink (s : State) (e : LinkEnd) (l : Link) : State := { s with links := SMap.put s.links (linkKey e) l }

/-! ## Launch records (R371) -/

def Launch.num (l : Launch) : Nat := fieldOf l.bytes 16 2
def Launch.repro (l : Launch) : Bool := decide (fieldOf l.bytes 18 1 % 2 = 1)
def Launch.debug (l : Launch) : Bool := decide (fieldOf l.bytes 18 1 / 2 % 2 = 1)
def Launch.lmap (l : Launch) : Bool := decide (fieldOf l.bytes 18 1 / 4 % 2 = 1)
def Launch.troot (l : Launch) : Nat := fieldOf l.bytes 8 8
def Launch.rm (l : Launch) : Nat := fieldOf l.bytes 19 1
def Launch.lanes (l : Launch) : Nat := fieldOf l.bytes 20 4
def Launch.dies (l : Launch) : Nat := fieldOf l.bytes 24 2
def Launch.clo (l : Launch) : Nat := fieldOf l.bytes 26 2
def Launch.chi (l : Launch) : Nat := fieldOf l.bytes 28 2
/-- Declared frame size in bytes (R56). -/
def Launch.frame (l : Launch) : Nat := 64 * fieldOf l.bytes 30 2
def Launch.wdog (l : Launch) : Nat := fieldOf l.bytes 32 4
def Launch.ebud (l : Launch) : Nat := fieldOf l.bytes 36 2
def Launch.grp0 (l : Launch) : Nat := fieldOf l.bytes 38 2
def Launch.ngrp (l : Launch) : Nat := fieldOf l.bytes 40 2
def Launch.entry (l : Launch) : Word := wordOf l.bytes 48
def Launch.seed (l : Launch) : Word := wordOf l.bytes 56
/-- Default image `k` of S0, S3, S4, S5, S6, S7. -/
def Launch.seg (l : Launch) (k : Nat) : BitVec 128 := BitVec.ofNat 128 (fieldOf l.bytes (64 + 16 * k) 16)
def Launch.fab (l : Launch) (k : Nat) : Nat := fieldOf l.bytes (264 + k) 1
def Launch.lsbase (l : Launch) : Nat := fieldOf l.bytes 272 8
def Launch.lsbytes (l : Launch) : Nat := fieldOf l.bytes 280 4
def Launch.lsspace (l : Launch) : Bool := decide (fieldOf l.bytes 284 1 % 2 = 1)

/-! ## Bound slots (R375) -/

/-- A core that no launch binds: a system core or a fenced core (R18, R19). -/
def State.excluded (s : State) (core : Nat) : Bool := decide (core % 8192 = 0) || (s.core core).fenced || (s.die (core / 8192)).fenced

def Launch.binds (l : Launch) (s : State) (core : Nat) : Bool :=
  decide (l.dies / 2 ^ (core / 8192) % 2 = 1) && decide (l.clo ≤ core / 16 % 512) && decide (core / 16 % 512 ≤ l.chi) &&
  decide (core < 131072) && !s.excluded core

/-- Bound cores in ascending order. -/
def Launch.cores (l : Launch) (s : State) : List Nat :=
  (List.range 131072).filter (l.binds s)

/-- NS of R375. -/
def Launch.ns (l : Launch) (s : State) : Nat := 8 * (l.cores s).length

/-- Slot `i` of the bound slot list. -/
def Launch.slotAt (l : Launch) (s : State) (i : Nat) : Option SlotRef :=
  match (l.cores s)[i / 8]? with
  | some c => some (refOf c (i % 8))
  | none => none

/-- Position of a slot in the bound slot list. -/
def Launch.indexOf (l : Launch) (s : State) (r : SlotRef) : Nat :=
  8 * ((l.cores s).filter (fun c => decide (c < r.coreKey))).length + r.slot

/-- The slot given to a lane in reproducible mode (R375). -/
def Launch.laneSlot (l : Launch) (s : State) (lane : Nat) : Option SlotRef :=
  l.slotAt s (lane * l.ns s / l.lanes)

/-- The lane, if any, to which a slot is given: the least lane with that slot. -/
def Launch.slotLane (l : Launch) (s : State) (r : SlotRef) : Option Nat :=
  if l.binds s r.coreKey then
    let i := l.indexOf s r
    let lane := (i * l.lanes + l.ns s - 1) / l.ns s
    if lane < l.lanes ∧ lane * l.ns s / l.lanes = i then some lane else none
  else none

def State.live (s : State) : List Launch := s.launches.filterMap (fun x => x.2)

/-- The reproducible launch to which a slot is reserved (R375). -/
def State.reservedTo (s : State) (r : SlotRef) : Option Nat :=
  (s.live.find? (fun l => l.repro && (l.slotLane s r).isSome)).map Launch.num

/-- Bound clusters in ascending order, those fenced as a whole left out (R376, R379). -/
def Launch.clusters (l : Launch) (s : State) : List Nat :=
  (List.range 8192).filter (fun c => (List.range 16).any (fun k => l.binds s (c * 16 + k)))

/-! ## Identity of a task -/

/-- LANE in its physical form (R31). -/
def physLane (s : State) (r : SlotRef) : Word :=
  BitVec.ofNat 64 (s.pkgid * 2 ^ 53 + r.die * 2 ^ 49 + r.cluster * 2 ^ 40 + r.core * 2 ^ 36 + r.slot * 2 ^ 32)

def isRepro (s : State) (launch : Nat) : Bool := match s.launch launch with | some l => l.repro | none => false

/-- LANE as the task reads it (R32). -/
def laneOf (s : State) (r : SlotRef) : Word :=
  let x := s.slot r
  if isRepro s x.launch then BitVec.ofNat 64 (2 ^ 63 + x.lane) else physLane s r

/-- The requester of a slot's task (R407). -/
def requesterOf (s : State) (r : SlotRef) : Requester :=
  let x := s.slot r
  ⟨r, x.task, x.launch, x.key, if isRepro s x.launch then BitVec.ofNat 32 x.lane else BitVec.allOnes 32⟩

/-- The requester's slot still holds its task. -/
def isHere (s : State) (q : Requester) : Bool :=
  (s.slot q.slot).occupied && decide ((s.slot q.slot).task = q.task)

/-- Change the task of a requester where it stands: in its slot, in the slot it was moved to, or in its saved context
(R55, R417). -/
def onTask (s : State) (q : Requester) (f : Slot → Slot) : State :=
  if isHere s q then s.modSlot q.slot f
  else match s.slots.find? (fun x => x.2.occupied && decide (x.2.task = q.task)) with
    | some (k, x) => { s with slots := SMap.put s.slots k (f x) }
    | none => s.modLaunch q.launch fun l =>
        { l with saved := l.saved.map fun c => if (Context.slot c).task = q.task then { c with slot := f (Context.slot c) } else c }

/-- The task of a requester in a slot. -/
def taskSlot (s : State) (q : Requester) : Option Slot :=
  if isHere s q then some (s.slot q.slot)
  else (s.slots.find? (fun x => x.2.occupied && decide (x.2.task = q.task))).map Prod.snd

/-- The task of a requester, wherever it stands. -/
def taskOf (s : State) (q : Requester) : Option Slot :=
  if isHere s q then some (s.slot q.slot)
  else match s.slots.find? (fun x => x.2.occupied && decide (x.2.task = q.task)) with
    | some (_, x) => some x
    | none => match s.launch q.launch with
      | some l => (l.saved.find? (fun c => decide (c.slot.task = q.task))).map Context.slot
      | none => none

/-- Where a task stands now, its last slot when it is saved or gone. -/
def placeOf (s : State) (q : Requester) : SlotRef :=
  if isHere s q then q.slot
  else match s.slots.find? (fun x => x.2.occupied && decide (x.2.task = q.task)) with
    | some (k, _) => refOf (k / 8) (k % 8)
    | none => q.slot

/-! ## Global addresses (R22-R28) -/

def gaPkg (ga : Word) : Nat := bitsOf ga 63 54
def gaRegion (ga : Word) : Nat := bitsOf ga 53 50
/-- The address within the package: PKG cleared. Memory is keyed by it. -/
def gaKey (ga : Word) : Nat := ga.toNat % 2 ^ 54

/-- A GA of this package from its key. -/
def gaOf (s : State) (key : Nat) : Word := BitVec.ofNat 64 (s.pkgid * 2 ^ 54 + key)

def keyRegion (k : Nat) : Nat := k / 2 ^ 50
def keyOff (k : Nat) : Nat := k % 2 ^ 50

/-- Key of a byte of core local memory (R23). -/
def localKey (core off : Nat) : Nat := core * 2 ^ 33 + off
def localCore (k : Nat) : Nat := keyOff k / 2 ^ 33
def localOff (k : Nat) : Nat := k % 2 ^ 19
/-- Key of a byte of HBM of a die. -/
def hbmKey (die off : Nat) : Nat := 3 * 2 ^ 50 + die * 2 ^ 46 + off
def cellarKey (off : Nat) : Nat := 4 * 2 ^ 50 + off
def granaryKey (slice off : Nat) : Nat := 2 * 2 ^ 50 + slice * 2 ^ 41 + off
def storeKey (cluster off : Nat) : Nat := 2 ^ 50 + cluster * 2 ^ 37 + off
def hostKey (a : Nat) : Nat := 5 * 2 ^ 50 + a

/-- The windows of CXL expanders in region 4, which start at 0x400_0000_0000 where no foreign die is present (R23, R455). How many
bytes of expanders are enumerated is free (log 52). -/
def inExpander (o : Nat) : Bool := decide (0x40000000000 ≤ o) && decide (o < 0x40000000000 + Config.expanderBytes)

/-- Coordinates within range and zero where they must be (R23). -/
def coordsOk (region o : Nat) : Bool :=
  match region with
  | 0 => decide (o / 2 ^ 19 % 2 ^ 14 = 0)
  | 1 => decide (o / 2 ^ 22 % 2 ^ 15 = 0)
  | 2 => decide (o / 2 ^ 21 % 2 ^ 20 = 0) && decide (o % 2 ^ 21 < 0x180000)
  | 3 => decide (o / 2 ^ 36 % 2 ^ 10 = 0) && decide (o % 2 ^ 36 < 0xC00000000)
  | 4 => decide (o < 0x30000000000) || inExpander o
  | 5 => true
  | _ => false

/-- Memory reserved by R28. -/
def reservedKey (k : Nat) : Bool :=
  match keyRegion k with
  | 3 => decide (0xB80000000 ≤ k % 2 ^ 36)
  | 4 => decide (0x2FE00000000 ≤ keyOff k) && decide (keyOff k < 0x30000000000)
  | _ => false

/-- Reserved offsets of core local memory (R25, R80, R189). -/
def reservedLocal (k : Nat) : Bool := decide (keyRegion k = 0) && decide (0x60000 ≤ localOff k)

/-- A GA that a task may reach: R22-R25, R28. Packages other than this one are outside the model (log 14). -/
def gaValid (s : State) (ga : Word) : Bool :=
  let k := gaKey ga
  decide (gaPkg ga = s.pkgid) && coordsOk (keyRegion k) (keyOff k) && !reservedKey k && !reservedLocal k

/-- Number of a die: compute 0-15, Granary 16, optical 17-24, host I/O 25-26. -/
def granaryDie : Nat := 16
def hostDie (k : Nat) : Nat := 25 + k

/-- The slice of a Granary key. -/
def sliceOf (k : Nat) : Nat := keyOff k / 2 ^ 41

/-- The die that homes an address (R13, R26, R27), from the slices that repair has moved: the frames of such a slice lie in HBM of
die (slice mod 16) (R28, R466). -/
def homeOf (moved : SMap Bool) (k : Nat) : Nat :=
  match keyRegion k with
  | 0 => keyOff k / 2 ^ 46
  | 1 => keyOff k / 2 ^ 46
  | 2 => if SMap.get moved false (sliceOf k) then sliceOf k % 16 else granaryDie
  | 3 => keyOff k / 2 ^ 46
  | 4 => if inExpander (keyOff k) then hostDie (b2n (Config.expanderLink (keyOff k)))
         else if keyOff k < 1536 * 2 ^ 30 then hostDie 0 else hostDie 1
  | _ => hostDie (keyOff k / 2 ^ 49)

def State.homeDie (s : State) (k : Nat) : Nat := homeOf s.sliceMoved k

/-- Scope of a home as a thread sees it (R266, R350), from the slices that repair has moved to HBM of a die (R28). -/
def scopeOf (moved : SMap Bool) (r : SlotRef) (k : Nat) : Nat :=
  match keyRegion k with
  | 0 => if localCore k / 16 = r.clusterKey then 2 else if keyOff k / 2 ^ 46 = r.die then 3 else 4
  | 1 => if keyOff k / 2 ^ 37 = r.clusterKey then 2 else if keyOff k / 2 ^ 46 = r.die then 3 else 4
  | 2 => if homeOf moved k = r.die then 3 else 4
  | 3 => if keyOff k / 2 ^ 46 = r.die then 3 else 4
  | 4 => if inExpander (keyOff k) then 6 else 4
  | 5 => 6
  | _ => 4

/-! ## Bytes of memory -/

/-- The slot and granule of a frame byte (R56): the frame of slot j begins at 0x2_0000 + 0x8000 j. -/
def granuleOf (s : State) (k : Nat) : Option (Nat × Nat) :=
  if keyRegion k = 0 ∧ 0x20000 ≤ localOff k ∧ localOff k < 0x60000 then
    let j := (localOff k - 0x20000) / 0x8000
    let o := (localOff k - 0x20000) % 0x8000
    let sk := localCore k * 8 + j
    if o < (SMap.get s.slots Slot.empty sk).frame then some (sk, o / 64) else none
  else none

/-- Read one byte: a frame granule not yet written reads as zero (R56). -/
def State.load (s : State) (k : Nat) : Byte :=
  match granuleOf s k with
  | some (sk, g) => if (SMap.get s.slots Slot.empty sk).written.getLsbD g then SMap.get s.mem 0 k else 0
  | none => SMap.get s.mem 0 k

/-- Zero 64 bytes from `k`. -/
def zeroBytes (m : SMap Byte) (k : Nat) : Nat → SMap Byte
  | 0 => m
  | n + 1 => zeroBytes (SMap.set m 0 (k + n) 0) k n

/-- Write one byte: the first write to a granule of a frame zeroes the granule and sets its bit (R56). -/
def State.store (s : State) (k : Nat) (b : Byte) : State :=
  match granuleOf s k with
  | some (sk, g) =>
    let x := SMap.get s.slots Slot.empty sk
    if x.written.getLsbD g then { s with mem := SMap.set s.mem 0 k b, past := (s.draws, k, s.load k) :: s.past }
    else
      { s with
        past := (s.draws, k, s.load k) :: s.past
        mem := SMap.set (zeroBytes s.mem (k - k % 64) 64) 0 k b
        slots := SMap.put s.slots sk { x with written := x.written ||| (1#512 <<< g) } }
  | none => { s with mem := SMap.set s.mem 0 k b, past := (s.draws, k, s.load k) :: s.past }

def State.loads (s : State) (k : Nat) : Nat → List Byte
  | 0 => []
  | n + 1 => s.load k :: s.loads (k + 1) n

def State.stores (s : State) (k : Nat) : List Byte → State
  | [] => s
  | b :: t => (s.store k b).stores (k + 1) t

/-- A byte before the stores made at the count of choices `t` or later. -/
def State.loadAt (s : State) (t k : Nat) : Byte :=
  s.past.foldl (fun v x => if t ≤ x.1 ∧ x.2.1 = k then x.2.2 else v) (s.load k)

def State.loadsAt (s : State) (t k : Nat) : Nat → List Byte
  | 0 => []
  | n + 1 => s.loadAt t k :: s.loadsAt t (k + 1) n

/-- As of which count of choices a constant or a line at `k` is read: any from `since` up to now (R151, R186; log 20). -/
def State.seen (s : State) (since k : Nat) : Nat :=
  if s.past.any fun x => decide (since ≤ x.1) then since + Config.age s.draws k % (s.draws + 2 - since) else s.draws + 1

def State.loadNat (s : State) (k n : Nat) : Nat := natOf (s.loads k n)
def State.loadWord (s : State) (k : Nat) : Word := BitVec.ofNat 64 (s.loadNat k 8)
def State.storeNat (s : State) (k n v : Nat) : State := s.stores k (bytesOf n v)

/-- Key of a launch's save area (R415), and of a context record in it (R416). -/
def saveKey (s : State) (l : Launch) : Nat := gaKey (SMap.get (s.die l.die).lsave 0 l.plotSlot)
def contextKey (s : State) (l : Launch) (idx : Nat) : Nat := saveKey s l + 0x10000 + 0xE000 * idx

/-- A wake that reaches a saved task sets the pending-wake bit of its record, and the area's check code follows (R417). -/
def noteWake (s : State) (q : Requester) : State :=
  if (taskSlot s q).isSome then s
  else match s.launch q.launch with
    | none => s
    | some l => match l.saved.find? fun c => c.slot.task = q.task with
      | none => s
      | some c =>
        let s := s.storeNat (contextKey s l c.idx + 9) 1 1
        s.setLaunch q.launch { l with check := Config.checkCode (s.loads (saveKey s l) l.areaLen) }

/-- An answer, completion or result changes a task, which it wakes (R55, R417). -/
def wakeTask (s : State) (q : Requester) (f : Slot → Slot) : State := onTask (noteWake s q) q f

/-- Bytes of a range that hold an uncorrectable error (R21). -/
def State.hasUe (s : State) (k n : Nat) : Option Nat :=
  (s.ue.find? (fun x => x.2 && decide (k ≤ x.1) && decide (x.1 < k + n))).map Prod.fst

/-- Frame attribute word (R396): regions 0 and 5 have fixed attributes 0, apart from retirement. -/
def State.attr (s : State) (k : Nat) : Word := SMap.get s.frameAttr 0 (k / 2 ^ 16)
def State.isLattice (s : State) (k : Nat) : Bool := bitOf (s.attr k) 0
def State.isRetired (s : State) (k : Nat) : Bool := bitOf (s.attr k) 3

/-- The plot that holds a byte (R102). -/
def State.plot (s : State) (k : Nat) : Plot := SMap.get s.plots Plot.reset (k / 4096)
def State.setPlot (s : State) (k : Nat) (p : Plot) : State := { s with plots := SMap.put s.plots (k / 4096) p }

/-! Fields of an attribute entry (R102). -/
def plotValid (a : Word) : Bool := bitOf a 63
def plotFrozen (a : Word) : Bool := bitOf a 62
def plotKind (a : Word) : Nat := bitsOf a 60 58
def plotFmt (a : Word) : Nat := bitsOf a 57 53
def plotGv (a : Word) : Bool := bitOf a 48
def plotGroup (a : Word) : Nat := bitsOf a 47 36
def plotGen (a : Word) : Nat := bitsOf a 35 32
def plotNamed (a : Word) : Bool := bitOf a 31
def plotTensor (a : Word) : Nat := bitsOf a 15 0

/-- Full/empty bit of a word of a task area (R193). -/
def State.full (s : State) (core off : Nat) : Bool := SMap.get s.fe false (core * 65536 + off / 8)
def State.setFull (s : State) (core off : Nat) (b : Bool) : State :=
  { s with fe := SMap.set s.fe false (core * 65536 + off / 8) b }

/-! ## Messages -/

/-- A new transaction number. -/
def State.fresh (s : State) : Nat × State := (s.xid, { s with xid := s.xid + 1 })

/-- Whether a die takes no traffic: in reset, or fenced (R421, R466). -/
def State.dead (s : State) (d : Nat) : Bool := decide (d < 16) && ((s.die d).inReset || (s.die d).fenced)

/-- A die that takes no part in a launch: dead, or back from a reset with its function still in ERROR (R422, R461). -/
def State.absent (s : State) (d : Nat) : Bool := s.dead d || decide ((s.die d).tdisp = .error)

/-- Ports at the Granary that lead to a die (R455). -/
def portsOf (d : Nat) : List Nat :=
  if d < 16 then (List.range 32).map (· + 32 * d)
  else if d < 25 then (List.range 8).map (· + (512 + 8 * (d - 17)))
  else (List.range 8).map (· + (576 + 8 * (d - 25)))

/-- An end of a port that is trained and has been opened by the other end's descriptor (R454). -/
def Link.isOpen (l : Link) : Bool := l.trained && !l.fenced

/-- The working ports of a die. -/
def State.working (s : State) (d : Nat) : List Nat :=
  (portsOf d).filter fun p => (s.link ⟨p, true⟩).isOpen && (s.link ⟨p, false⟩).isOpen

/-- Messages that keep their order have one number: the Press packets of a link, the reservations, grants and capsules of a core (R132,
R428). Any other message has its own. -/
def portKey (m : Instr) (other : Nat) : Nat :=
  match m with
  | .pressPacket _ => 1
  | .berthReservation p => 2 * p.src + 3
  | .berthGrant p => 2 * p.dst + 3
  | .capsuleTransfer p => 2 * p.src + 3
  | _ => 2 * other

/-- A working port of a die; which one is free (log 10). -/
def State.choosePort (s : State) (d key : Nat) : Option Nat :=
  let w := s.working d
  w[Config.port key % w.length]?

/-- The port between a die and the Granary that the latest message of a number sent before transaction `x` takes, if that is still under
way (R132, R428). -/
def State.portBefore (s : State) (d key x : Nat) (granary : Bool) : Option Nat :=
  s.transits.reverse.findSome? fun t =>
    if t.xid < x ∧ portKey t.msg t.xid = key then
      (t.hops.find? fun e => (portsOf d).contains e.port && e.granary == granary).map LinkEnd.port
    else none

/-- The port for a message: that of an earlier one whose order it keeps, else a working one, free which (log 10). -/
def State.portFor (s : State) (d key x : Nat) (granary : Bool) : Option Nat :=
  match s.portBefore d key x granary with
  | some p => some p
  | none => s.choosePort d key

/-- A working port for a message that its port has failed: that of an earlier one whose order it keeps, else a free one (R451). -/
def State.portAgain (s : State) (d key x : Nat) (granary : Bool) : Option Nat :=
  match s.portBefore d key x granary with
  | some p => if (s.working d).contains p then some p else s.choosePort d key
  | none => s.choosePort d key

/-- The link ends a message leaves from on its way (R12). -/
def State.route (s : State) (src dst key x : Nat) : List LinkEnd :=
  let out := if src = granaryDie then [] else match s.portFor src key x false with | some p => [⟨p, false⟩] | none => []
  let back := if dst = granaryDie then [] else match s.portFor dst key x true with | some p => [⟨p, true⟩] | none => []
  out ++ back

/-- Send a message from die to die: within a die it is under way at once, between dies it waits at a link. -/
def State.post (s : State) (src dst : Nat) (m : Instr) : State :=
  if src = dst then { s with agenda := s.agenda ++ [m] }
  else
    let (x, s) := s.fresh
    { s with transits := s.transits ++ [⟨x, m, s.route src dst (portKey m x) x⟩] }

/-- Put a message back: its home cannot take it yet. -/
def State.again (s : State) (m : Instr) : State := { s with agenda := s.agenda ++ [m] }

/-- Answer a parked request of a task (R52, R417). -/
def State.reply (s : State) (src : Nat) (q : Requester) (a : Answer) : State :=
  s.post src (placeOf s q).die (.wake ⟨q, a⟩)

/-- The die that an acknowledgement goes to: that of its task, or of the carter of its job. -/
def ackDie (s : State) (q : Requester) (dest : AckTo) : Nat :=
  match dest with
  | .scope _ => (placeOf s q).die
  | .job _ => q.slot.die

/-- Acknowledge a join, fill or store (R107). -/
def State.ack (s : State) (src : Nat) (q : Requester) (xid : Nat) (dest : AckTo) (k : Nat) (code : Option FaultCode) : State :=
  s.post src (ackDie s q dest) (.acknowledgement ⟨q, xid, dest, gaOf s k, code⟩)

/-- Joins, stores, copies and arms of a launch not yet acknowledged (R41, R288). -/
def State.owe (s : State) (launch n : Nat) : State :=
  s.modLaunch launch fun l => { l with outstanding := l.outstanding + n }
def State.paid (s : State) (launch n : Nat) : State :=
  s.modLaunch launch fun l => { l with outstanding := l.outstanding - n }

/-! ## Fault codes and records -/

/-- The code of R408. -/
def codeNum : FaultCode → Nat
  | .seg => 0x01
  | .page => 0x02
  | .prot => 0x03
  | .mapAttr => 0x04
  | .illegal => 0x05
  | .badTarget => 0x06
  | .line => 0x07
  | .align => 0x08
  | .latticeTop => 0x10
  | .afterFreeze => 0x11
  | .unfrozenRead => 0x12
  | .triggerCompat => 0x13
  | .kindMismatch => 0x14
  | .neverProduced => 0x18
  | .nameUnknown => 0x19
  | .capsulePlace => 0x20
  | .capsuleChannel => 0x21
  | .capsuleReset => 0x22
  | .segOverlap => 0x28
  | .formatTable => 0x29
  | .groupNotMember => 0x31
  | .memUe => 0x38
  | .linkLost => 0x39
  | .rngOverlap => 0x3A
  | .trap => 0x40
  | .watchdog => 0x41
  | .interestStall => 0x48

/-- The 64 bytes of a record (R407). -/
def FaultRec.bytes (r : FaultRec) : List Byte :=
  bytesOf 1 r.code ++ bytesOf 1 r.cls ++ bytesOf 1 r.flags ++ bytesOf 1 0 ++ bytesOf 2 r.launch ++ bytesOf 2 0 ++
  bytesOf 8 r.source.toNat ++ bytesOf 4 r.llane.toNat ++ bytesOf 4 r.seq ++ bytesOf 8 r.pc.toNat ++
  bytesOf 8 r.va.toNat ++ bytesOf 8 r.ga.toNat ++ bytesOf 8 r.key.toNat ++ bytesOf 8 r.arg.toNat

/-- The masks of the Hoop rings of a task that has issued MHOOP: that of its core's latch, and those of the MHOOPs that wait or run
there (R318, R319). -/
def ringMasks (s : State) (q : Requester) : List (BitVec 16) :=
  if (taskOf s q).any Slot.hooped then
    let c := s.core (placeOf s q).coreKey
    c.hoop.mask :: ((c.queue ++ c.running.toList).filter fun o => o.kind = .mhoop).map MatOp.mask
  else []

/-- Two tasks are Hoop peers: a ring of one takes in the core of the other (R322; log 23). -/
def ringHas (s : State) (m q : Requester) : Bool :=
  let a := placeOf s m
  let b := placeOf s q
  decide (a.clusterKey = b.clusterKey) &&
  ((ringMasks s m).any (fun k => k.getLsbD b.core) || (ringMasks s q).any fun k => k.getLsbD a.core)

/-- Groups whose watchdog counts a record of a task pauses (R343): those it is a member of, by joining or as a task of the launch whose
root group it is, and those with a member in a Hoop ring with its core. -/
def pausedBy (s : State) (q : Requester) : List Nat :=
  (s.groups.filter fun x => decide (x.2.phase ≠ 0) && decide (x.2.launch = q.launch) &&
    (x.2.root || x.2.members.any fun m => decide (m.task = q.task) || ringHas s m q)).map Prod.fst

/-- A record of a task (R407). -/
def recordOf (s : State) (q : Requester) (cls : Nat) (sync : Bool) (code : FaultCode) (d : Detail) : FaultRec where
  code := codeNum code
  cls := cls
  flags := b2n sync + 2 * b2n d.va.isSome + 4 * b2n d.ga.isSome
  launch := q.launch
  source := physLane s q.slot
  llane := q.llane
  seq := 0
  pc := d.pc
  va := d.va.getD 0
  ga := d.ga.getD 0
  key := q.key
  arg := d.arg
  task := q.task
  pauses := pausedBy s q
  quiet := false

/-- A record of a launch as a whole, or of the device (R407). -/
def recordFor (launch cls : Nat) (code : FaultCode) (va ga : Option Word) (arg : Word) : FaultRec where
  code := codeNum code
  cls := cls
  flags := 2 * b2n va.isSome + 4 * b2n ga.isSome
  launch := launch
  source := 0
  llane := BitVec.allOnes 32
  seq := 0
  pc := 0
  va := va.getD 0
  ga := ga.getD 0
  key := 0
  arg := arg
  task := 0
  pauses := []
  quiet := false

/-- Mark a launch faulted; LSTAT's CODE is that of its first record (R368, R405). -/
def State.markFaulted (s : State) (launch code : Nat) : State :=
  match s.launch launch with
  | none => s
  | some l =>
    if l.code ≠ 0 then s
    else
      let s := s.setLaunch launch { l with faulted := true, code := code }
      s.modDie l.die fun d => { d with lstat := SMap.put d.lstat l.plotSlot ((SMap.get d.lstat (0, 0) l.plotSlot).1, code) }

/-- Clear the claims on the budgets of a die's cores (R390). -/
def State.clearClaims (s : State) (d : Nat) : State :=
  { s with cores := s.cores.map fun (k, (c : Core)) => if dieOfCore k = d then (k, { c with claims := [] }) else (k, c) }

/-- Enter fault hold, raising vector 1 of the die (R410, R462); no slot of it issues, and its claims are cleared (R390). -/
def State.enterHold (s : State) (d : Nat) : State :=
  if (s.die d).hold then s
  else { (s.modDie d (fun x => { x with hold := true })).clearClaims d with msix := s.msix ++ [(d, 1)] }

/-- Leave fault hold when both conditions of R410 hold. -/
def State.leaveHold (s : State) (d : Nat) : State :=
  let x := s.die d
  if x.hold ∧ x.faults.length ≤ 32 ∧ x.cfqHeld ≤ 512 then s.modDie d (fun x => { x with hold := false }) else s

/-- Place a record in a die's buffer if it has room (R409): it takes the next SEQ, marks its launch when it is of
CLASS 0, and fills the buffer to fault hold at 64 (R410). A record without room waits. -/
def State.record (s : State) (d : Nat) (r : FaultRec) : State :=
  let x := s.die d
  if x.faults.length < 64 ∧ x.faultWait = [] then
    let s := s.setDie d { x with faults := x.faults ++ [{ r with seq := x.nextSeq }], nextSeq := inc32 x.nextSeq }
    let s := if r.cls = 0 ∧ !r.quiet then s.markFaulted r.launch r.code else s
    if (s.die d).faults.length = 64 then s.enterHold d else s
  else s.setDie d { x with faultWait := x.faultWait ++ [⟨r, none⟩] }

/-- The die takes records: its buffer has room and nothing waits before them. -/
def State.hasRoom (s : State) (d : Nat) : Bool :=
  decide ((s.die d).faults.length < 64) && (s.die d).faultWait.isEmpty

end Sys2Proof.Machine
end

