-- ==== Sys2Proof/Machine/PressOps.lean ====
section
/-! DEFINITION. The Press: its tree, group entries, rounds and membership (R334-R345, R423-R431). A node is numbered by level
and index; level 0 is a core's Press port, level n + 1 the spec's level n. -/

namespace Sys2Proof.Machine

/-- Cores under one node of a level: the tree of R423. -/
def pressSpan (lvl : Nat) : Nat := [1, 4, 16, 64, 256, 1024, 4096, 8192, 32768, 131072].getD lvl 131072

def pressId (lvl core : Nat) : Nat := lvl * 2 ^ 20 + core / pressSpan lvl
def pressLevel (n : Nat) : Nat := n / 2 ^ 20
def pressFirst (n : Nat) : Nat := n % 2 ^ 20 * pressSpan (pressLevel n)

/-- The parent of a node below the package root, and the child port it has there. -/
def pressParent (n : Nat) : Nat := pressId (pressLevel n + 1) (pressFirst n)
def pressPort (n : Nat) : Nat :=
  pressFirst n / pressSpan (pressLevel n) % (pressSpan (pressLevel n + 1) / pressSpan (pressLevel n))

/-- The die that holds a node. -/
def pressDie (n : Nat) : Nat := if pressLevel n ≤ 7 then pressFirst n / 8192 else granaryDie

def State.pnode (s : State) (n : Nat) : PressNode := SMap.get s.press PressNode.reset n
def State.setPnode (s : State) (n : Nat) (x : PressNode) : State := { s with press := SMap.put s.press n x }

def State.pentry (s : State) (n g : Nat) : Option PressEntry := SMap.get (s.pnode n).entries none g
def State.setPentry (s : State) (n g : Nat) (e : Option PressEntry) : State :=
  s.setPnode n { s.pnode n with entries := SMap.put (s.pnode n).entries g e }

/-- The lowest level whose node holds every core of a list (R427): never a core's own port. -/
def pressRootLevel (cores : List Nat) : Nat :=
  match cores with
  | [] => 1
  | c :: t => ((List.range 9).map (· + 1)).find? (fun l => t.all fun d => d / pressSpan l = c / pressSpan l) |>.getD 9

/-- A node's entry for a group as it is first written. -/
def PressEntry.new (gen : Nat) : PressEntry := ⟨1, false, gen, false, 0, 0, false, 0, 0, 0, 0, 0, none⟩

/-- Where a node's packets are taken: the rounds of a die that a repair has fenced go on at the Granary (R466; log 40). -/
def State.pressAt (s : State) (n : Nat) : Nat :=
  if pressDie n < 16 ∧ (s.die (pressDie n)).fenced then granaryDie else pressDie n

/-- The node that is to be the root of a group with members on these cores: the lowest over them and the present root, which never
moves down (R427). -/
def pressTop (top : Option Nat) (cores : List Nat) : Option Nat :=
  match cores with
  | [] => top
  | c :: _ => some (pressId (max ((top.map pressLevel).getD 1) (pressRootLevel (cores ++ (top.map pressFirst).toList))) c)

/-- Add a member slot's path to the entries of a group, up to the root's level. -/
def addPath (g gen root : Nat) (s : State) (r : SlotRef) : State :=
  ((List.range (root + 1))).foldl (fun s l =>
    let n := pressId l r.coreKey
    let bit := if l = 0 then r.slot else pressPort (pressId (l - 1) r.coreKey)
    let e := (s.pentry n g).getD (PressEntry.new gen)
    s.setPentry n g (some { e with root := decide (l = root), gen := gen, child := e.child ||| (1#8 <<< bit) })) s

/-- Groups a node holds at most (R426). -/
def nodeGroups : Nat := 1024

/-- Groups that hold an entry of a node (R335, R426). -/
def State.pressLoad (s : State) (n : Nat) : Nat := ((s.pnode n).entries.filter fun x => x.2.isSome).length

/-- Each of some nodes has an entry of a group, or a place for one (R335, R426). -/
def State.fits (s : State) (g : Nat) (ns : List Nat) : Bool :=
  ns.all fun n => (s.pentry n g).isSome || decide (s.pressLoad n < nodeGroups)

/-- Nodes over some cores, up to a level. -/
def treeNodes (root : Nat) (cores : List Nat) : List Nat :=
  cores.flatMap fun k => (List.range root).map fun l => pressId (l + 1) k

/-- Members where they stand now, if every node over them has a place for the group; else the group keeps the tree it has (R426;
log 58). -/
def movedMembers (s : State) (g : Nat) : List Requester :=
  let x := s.group g
  let ms := x.members.map fun (q : Requester) => { q with slot := placeOf s q }
  let cores := ms.map fun q => q.slot.coreKey
  if s.fits g (treeNodes (((pressTop x.top cores).map pressLevel).getD 1) cores) then ms else x.members

/-- Write the entries of a group for its members where they stand now (R335, R427): at a round boundary, or with no round in progress.
An entry through which a result has still to pass stays (R428). -/
def rebuild (s : State) (g : Nat) : State :=
  let x : Group := { s.group g with members := movedMembers s g }
  let blank (e : PressEntry) : Option PressEntry := if e.rip then some { e with child := 0, root := false } else none
  let wipe (nd : PressNode) : PressNode := { nd with entries := nd.entries.map fun (k, e) => if k = g then (k, e.bind blank) else (k, e) }
  let s := { s with press := s.press.map fun (k, nd) => (k, wipe nd) }
  let x : Group := { x with top := pressTop x.top (x.members.map fun q => q.slot.coreKey) }
  (x.members.map Requester.slot).foldl (addPath g x.gen ((x.top.map pressLevel).getD 1)) (s.setGroup g x)

/-- Nodes in which a join of a core needs an entry: its path to the root, and the old root's (R335, R427). -/
def joinPath (s : State) (g core : Nat) : List Nat :=
  let x := s.group g
  match pressTop x.top (core :: x.members.map fun q => (placeOf s q).coreKey) with
  | none => []
  | some top =>
    (List.range (pressLevel top)).map (fun i => pressId (i + 1) core) ++
    (match x.top with
      | some old => (List.range (pressLevel top - pressLevel old)).map fun i => pressId (pressLevel old + 1 + i) (pressFirst old)
      | none => [])

/-- Take the entries that a join needs; they lead to the new member from the next round on (R335). -/
def reservePath (s : State) (g core : Nat) : State :=
  (joinPath s g core).foldl (fun s n => if (s.pentry n g).isSome then s else s.setPentry n g (some (PressEntry.new (s.group g).gen))) s

/-! ## Contributions -/

/-- Operator 15 marks the empty contribution of a member that left before contributing (R336). -/
def emptyOp : Nat := 15

/-- Combine two partials exactly (R338, R339). -/
def pressCombine (a b : PressPkt) : PressPkt :=
  if a.op = emptyOp then { b with members := a.members ++ b.members, lanes := a.lanes + b.lanes, bad := a.bad || b.bad }
  else if b.op = emptyOp then { a with members := a.members ++ b.members, lanes := a.lanes + b.lanes, bad := a.bad || b.bad }
  else
    let same := a.op = b.op ∧ a.fmt = b.fmt ∧ a.sat = b.sat ∧ a.mode = b.mode ∧ a.bar = b.bar
    let lt (x y : PressPkt) : Bool := x.part < y.part || (x.part = y.part && x.negz && !y.negz)
    let part : Int × Bool :=
      if a.count = 0 then (b.part, b.negz)
      else if b.count = 0 then (a.part, a.negz)
      else match a.op with
        | 0 => (a.part + b.part, false)
        | 1 => (max a.part b.part, false)
        | 2 => (min a.part b.part, false)
        | 3 => (((a.part.toNat ||| b.part.toNat : Nat) : Int), false)
        | 4 => (((a.part.toNat &&& b.part.toNat : Nat) : Int), false)
        | 5 => (a.part + b.part, a.negz && b.negz)
        | 6 => if a.minf then (b.part, b.negz) else if b.minf then (a.part, a.negz)
               else if lt a b then (b.part, b.negz) else (a.part, a.negz)
        | 7 => if a.pinf then (b.part, b.negz) else if b.pinf then (a.part, a.negz)
               else if lt a b then (a.part, a.negz) else (b.part, b.negz)
        | _ => (0, false)
    -- for .fmax and .fmin an infinity on the losing side is dropped once a value beats it
    let pinf := match a.op with
      | 7 => (a.pinf || a.count = 0) && (b.pinf || b.count = 0) && (a.pinf || b.pinf)
      | _ => a.pinf || b.pinf
    let minf := match a.op with
      | 6 => (a.minf || a.count = 0) && (b.minf || b.count = 0) && (a.minf || b.minf)
      | _ => a.minf || b.minf
    { a with
      part := part.1
      negz := part.2
      count := a.count + b.count
      nan := a.nan || b.nan
      pinf := pinf
      minf := minf
      zpos := (a.zpos || a.count = 0) && (b.zpos || b.count = 0)
      lanes := a.lanes + b.lanes
      bad := a.bad || b.bad || !same
      members := a.members ++ b.members }

/-- Send a packet from a node up to its parent. -/
def pressSendUp (s : State) (n : Nat) (p : PressPkt) : State :=
  let up := pressParent n
  s.post (s.pressAt n) (s.pressAt up) (.pressPacket { p with node := up, up := true, child := pressPort n })

/-- Child `j` of a node above the ports. -/
def pressChild (n j : Nat) : Nat := pressId (pressLevel n - 1) (pressFirst n + j * pressSpan (pressLevel n - 1))

/-- Send a result down the ports in a mask, with the contributors it is owed to (R428). -/
def pressSendDown (s : State) (n : Nat) (mask : BitVec 8) (p : PressPkt) : State :=
  ((List.range 8).filter mask.getLsbD).foldl (fun s j =>
    let k := pressChild n j
    s.post (s.pressAt n) (s.pressAt k) (.pressPacket { p with
      node := k, up := false, child := 0,
      members := p.members.filter fun q => decide (pressId (pressLevel k) q.slot.coreKey = k) })) s

/-- Count a discarded packet of an identifier at a node, saturating (R429, R344). -/
def pressStale (s : State) (n g : Nat) : State :=
  let nd := s.pnode n
  s.setPnode n { nd with stale := SMap.put nd.stale g (min 0xFFFF (SMap.get nd.stale 0 g + 1)) }

/-- Lanes of the launch of a root group. -/
def groupLanes (s : State) (g : Nat) : Nat :=
  match s.launch (s.group g).launch with
  | some l => l.lanes
  | none => 0

/-- A member's contribution enters its core's Press port (R337, R425). A member restored elsewhere during a round still contributes along
its path of that round. -/
def pressPlace (s : State) (q : Requester) (p : PressPkt) : State :=
  let r := (((s.group p.gid).members.find? fun m => m.task = q.task).map Requester.slot).getD q.slot
  let n := pressId 0 r.coreKey
  s.again (.pressPacket { p with
    node := n, up := true, child := r.slot, round := (s.group p.gid).round, members := p.members.map fun m => { m with slot := r } })

/-- A contribution that goes into the next round: of a task that does not take part in the round in progress, or has contributed to it
(R335); to a root group, one beyond its L (R48). -/
def pressLate (s : State) (q : Requester) (g : Nat) : Bool :=
  let x := s.group g
  if x.root then decide (groupLanes s g ≤ x.arrived.length)
  else !x.roundOf.isEmpty && (!x.roundOf.contains q.task || x.arrived.contains q.task)

/-- The round that a contribution of a task goes into. -/
def pressRound (s : State) (q : Requester) (g : Nat) : Nat := (s.group g).round + b2n (pressLate s q g)

/-- A round of a root group in reproducible mode that lacks a lane of a die which is away cannot complete (R48, R345, R422; log 40). -/
def pressStuck (s : State) (g : Nat) : Bool :=
  let x := s.group g
  x.root && (List.range 16).any s.absent && match s.launch x.launch with
    | some l => l.repro && (List.range l.lanes).any fun k =>
        !x.arrived.contains k && (l.laneSlot s k).any fun r => s.absent r.die
    | none => false

/-- What a task awaits of a group's round will not come (R345). -/
def markLost (g round : Nat) (x : Slot) : Slot := { x with outs := x.outs.map fun o =>
  if o.gid = g ∧ o.round = round ∧ o.result = none then { o with lost := true } else o }

/-- A member contributes (R337, R342): the round takes its participants at its first contribution, and the watchdog
starts with the first GBAR arrival (R343). A root group notes the lanes that have contributed (R48). -/
def pressContribute (s : State) (q : Requester) (p : PressPkt) : State :=
  let g := p.gid
  let x := s.group g
  if pressLate s q g then s.setGroup g { x with held := x.held ++ [(q, p)] }
  else if pressStuck s g then onTask s q (markLost g x.round)
  else
    let x := if x.roundOf.isEmpty then { x with roundOf := x.members.map Requester.task } else x
    let x := { x with arrived := (if x.root then q.llane.toNat else q.task) :: x.arrived }
    let x := if p.bar ∧ x.barStart = none then { x with barStart := some s.cycle, paused := 0, fired := false } else x
    pressPlace (s.setGroup g x) q p

/-- The contribution of a task to a group goes into another round. -/
def moveOut (g round : Nat) (x : Slot) : Slot := { x with outs := x.outs.map fun o =>
  if o.gid = g ∧ o.result = none ∧ o.lost = false then { o with round := round } else o }

/-- Contributions that were held go in: each into the round in progress or the one after it (R48, R335). -/
def pressHeld (s : State) (g : Nat) (held : List (Requester × PressPkt)) : State :=
  held.foldl (fun s y => pressContribute (onTask s y.1 (moveOut g (pressRound s y.1 g))) y.1 y.2) s

/-- The round boundary at the root: joins and leaves since the round began take effect, and held contributions go in
(R335, R427). -/
def pressBoundary (s : State) (g : Nat) : State :=
  let x := s.group g
  let s := s.setGroup g { x with roundOf := [], arrived := [], held := [], barStart := none, round := x.round + 1 }
  pressHeld (if x.root then s else rebuild s g) g x.held

/-- The root forms the result and sends it down the ports in a mask (R428). A barrier of a launch's root group first raises its phase
counter (R59, R342). -/
def pressComplete (s : State) (n : Nat) (mask : BitVec 8) (p : PressPkt) : State :=
  let x := s.group p.gid
  let s := if x.root ∧ p.bar ∧ !p.bad then s.modLaunch x.launch (fun l => { l with count := l.count + 1 }) else s
  pressBoundary (pressSendDown s n mask p) p.gid

/-- A node has finished its round before it takes a packet of the next (R428). -/
def pressReady (s : State) (p : PressPkt) : Bool :=
  match s.pentry p.node p.gid with
  | some e => !(p.up && e.rip && decide (e.round ≠ p.round))
  | none => true

/-- OP, FMT, SAT and MODE of an entry are those of the round's first contribution (R426). -/
def PressEntry.carry (e : PressEntry) (p : PressPkt) : PressEntry :=
  if e.op = emptyOp then { e with op := p.op, fmt := p.fmt, sat := p.sat, mode := p.mode } else e

/-- A node combines a contribution into its partial and marks the child (R428). -/
def PressEntry.take (e : PressEntry) (p : PressPkt) : PressEntry :=
  let e := if e.rip then e else { e with rip := true, op := emptyOp, round := p.round, arrived := 0, owed := 0, part := none }
  { e.carry p with arrived := e.arrived ||| (1#8 <<< p.child), part := some (match e.part with | none => p | some a => pressCombine a p) }

/-- A node that has sent its partial up waits for the result (R428). -/
def PressEntry.sent (e : PressEntry) : PressEntry := { e with owed := e.owed ||| e.arrived, arrived := 0, part := none }

/-- A partial arrives at a node on its way up (R428, R429): the root completes the round, any other node sends it on, when every child
has contributed; of a root group, when L lanes have, and at once (R425). -/
def pressUp (s : State) (p : PressPkt) : State :=
  let n := p.node
  let g := p.gid
  let x := s.group g
  match s.pentry n g with
  | none => pressStale s n g
  | some e =>
    if e.gen ≠ p.gen ∨ p.round < x.round then pressStale s n g
    else if !pressReady s p then s.again (.pressPacket p)
    else
      let e := e.take p
      let part := e.part.getD p
      let whole := if x.root then !e.root || decide (groupLanes s g ≤ part.lanes) else decide (e.arrived = e.child)
      if !whole then s.setPentry n g (some e)
      else if e.root then pressComplete (s.setPentry n g (some { e with rip := false, arrived := 0, part := none })) n e.arrived part
      else pressSendUp (s.setPentry n g (some e.sent)) n part

/-- Put a result into the extract queue of each contributing task (R341, R345). -/
def pressDeliver (s : State) (p : PressPkt) : State :=
  p.members.foldl (fun s q => wakeTask s q fun x =>
    { x with outs := x.outs.map fun o =>
        if o.gid = p.gid ∧ o.gen = p.gen ∧ o.round = p.round ∧ o.result = none then { o with result := some p } else o }) s

/-- An entry when the result has passed it: its round is over, and it is freed when no member is below it (R427, R428). -/
def PressEntry.passed (e : PressEntry) : Option PressEntry := if e.child = 0 then none else some { e with rip := false, owed := 0 }

/-- A result arrives at a node on its way down (R428, R429): a port delivers it to its slots that contributed. -/
def pressDown (s : State) (p : PressPkt) : State :=
  let n := p.node
  match s.pentry n p.gid with
  | none => pressStale s n p.gid
  | some e =>
    if e.gen ≠ p.gen ∨ !e.rip ∨ e.round ≠ p.round then pressStale s n p.gid
    else
      let t := s.setPentry n p.gid e.passed
      if pressLevel n = 0 then pressDeliver t p else pressSendDown t n e.owed p

/-! ## Membership -/

/-- The packet of a member that leaves without contributing (R336). -/
def emptyPkt (g gen : Nat) : PressPkt :=
  ⟨0, true, 0, g, gen, 0, emptyOp, 0, false, 0, false, 0, 0, false, false, false, false, true, 0, false, []⟩

/-- A lane that leaves a group counts as an increment of zero in the open rounds of its counts (R118). -/
def leaveRounds (s : State) (q : Requester) (g : Nat) : State :=
  { s with rounds := s.rounds.map fun r =>
      if plotGroup (s.plot (gaKey r.ga)).attr = g then { r with left := q.llane.toNat :: r.left } else r }

/-- A group whose last member has left dissolves: its root's STATE is draining (R336, R430). -/
def dissolve (s : State) (g : Nat) : State :=
  let drain (e : PressEntry) : PressEntry := if e.root then { e with state := 2 } else e
  let mark (nd : PressNode) : PressNode := { nd with entries := nd.entries.map fun (k, e) => if k = g then (k, e.map drain) else (k, e) }
  { s.setGroup g { s.group g with phase := 2 } with press := s.press.map fun (k, nd) => (k, mark nd) }

/-- A member leaves its group (R336, R40): it counts as contributing nothing to a round in progress, a result owed to it
is dropped, and the group dissolves with its last member. -/
def leaveGroup (s : State) (q : Requester) (g : Nat) : State :=
  let x := s.group g
  if x.members.any (fun m => m.task = q.task) ∧ !x.root then
    let s := onTask (leaveRounds s q g) q fun t => { t with outs := t.outs.filter fun o => decide (o.gid ≠ g) }
    let inRound := x.roundOf.contains q.task && !x.arrived.contains q.task
    let s := if inRound then pressPlace s q (emptyPkt g x.gen) else s
    let y := { x with
      arrived := if inRound then q.task :: x.arrived else x.arrived
      members := x.members.filter (fun m => m.task ≠ q.task)
      held := x.held.filter (fun h => h.1.task ≠ q.task) }
    let s := s.setGroup g y
    if y.members.isEmpty then dissolve s g
    else if y.roundOf.isEmpty then rebuild s g
    else s
  else s

/-- A task leaves every group but its launch's root group, in ascending identifier (R40). -/
def leaveAll (s : State) (q : Requester) : State :=
  (s.groups.filter (fun x => x.2.members.any (fun m => m.task = q.task) && !x.2.root)).foldl
    (fun s x => leaveGroup s q x.1) s

/-- Whether a Press packet of an identifier is under way (R430). -/
def State.pressBusy (s : State) (g : Nat) : Bool :=
  let hit (i : Instr) : Bool := match i with | .pressPacket p => decide (p.gid = g) | _ => false
  s.agenda.any hit || s.transits.any (fun t => hit t.msg)

/-- Every drain token is back: the generation advances, the entries are freed, the identifier is idle (R430). -/
def pressDrained (s : State) (g : Nat) : State :=
  let x := s.group g
  let free (nd : PressNode) : PressNode := { nd with entries := nd.entries.map fun (j, e) => if j = g then (j, none) else (j, e) }
  let s := { s with press := s.press.map fun (k, nd) => (k, free nd) }
  s.setGroup g { Group.reset with gen := (x.gen + 1) % 16, launch := x.launch, round := x.round + 1 }

end Sys2Proof.Machine
end

