-- ==== Sys2Proof/Machine/Ops.lean ====
section
/-! DEFINITION. What every meaning is written with: the slot that issues, its registers, the ways an issue ends (R143), segment
checks and translation (R191, R259, R260, R392-R404), private and shared accesses, and taking a fault (R405). -/

namespace Sys2Proof.Machine

/-! ## How an issue ends -/

/-- A synchronous fault with its detail, or a translation miss with its walks, or a constant-cache miss, that parks the task and
reissues the bundle (R143). -/
inductive Stop where
  | trap (code : FaultCode) (d : Detail)
  | reissue (c : ParkCond) (w : List WalkReq)
  deriving DecidableEq, Repr

/-- What an instruction does: a new state, or a stop that leaves the old one. -/
abbrev Exec (α : Type) := StateT State (Except Stop) α

def stop {α : Type} (x : Stop) : Exec α := fun _ => .error x

/-- `fault(NAME)` of R7, without an address. -/
def trap {α : Type} (c : FaultCode) : Exec α := stop (.trap c Detail.zero)
def trapVa {α : Type} (c : FaultCode) (va : Word) : Exec α := stop (.trap c ⟨0, some va, none, 0⟩)
/-- A fault of an offset in a segment: the record's VA is the address BASE + ea (R407). -/
def trapSeg {α : Type} (c : FaultCode) (seg : BitVec 128) (ea : Nat) : Exec α :=
  trapVa c (BitVec.ofNat 64 ((bitsOf seg 55 0 + ea) % 2 ^ 56))
def trapGa {α : Type} (c : FaultCode) (va ga : Word) : Exec α := stop (.trap c ⟨0, some va, some ga, 0⟩)
def require (b : Bool) (c : FaultCode) : Exec Unit := fun s => if b then .ok ((), s) else .error (.trap c Detail.zero)

/-! ## The slot that issues -/

def State.me (s : State) : SlotRef := s.focus.who
def State.cur (s : State) : Slot := s.slot s.focus.who
def State.setCur (s : State) (x : Slot) : State := s.setSlot s.focus.who x
def State.modCur (s : State) (f : Slot → Slot) : State := s.setCur (f s.cur)
def State.asker (s : State) : Requester := requesterOf s s.focus.who
def State.myLaunch (s : State) : Option Launch := s.launch s.cur.launch
def State.mine (s : State) : Bool := isRepro s s.cur.launch

def modify' (f : State → State) : Exec Unit := fun s => .ok ((), f s)
def look {α : Type} (f : State → α) : Exec α := fun s => .ok (f s, s)
def modMe (f : Slot → Slot) : Exec Unit := modify' fun s => s.modCur f

/-! ## Registers (R156-R160) -/

def Slot.getG (x : Slot) (r : Reg) : Word := x.g[r.toNat]'(r.isLt)
def Slot.setG (x : Slot) (r : Reg) (w : Word) : Slot := { x with g := x.g.set r.toNat w (r.isLt) }
def Slot.getV (x : Slot) (r : VReg) : BitVec 512 := x.v[r.toNat]'(r.isLt)
def Slot.setV (x : Slot) (r : VReg) (w : BitVec 512) : Slot := { x with v := x.v.set r.toNat w (r.isLt) }
/-- P0 reads as all ones and takes no write (R156). -/
def Slot.getP (x : Slot) (r : PReg) : Word := if r = 0 then BitVec.allOnes 64 else x.p[r.toNat]'(r.isLt)
def Slot.setP (x : Slot) (r : PReg) (w : Word) : Slot :=
  if r = 0 then x else { x with p := x.p.set r.toNat w (r.isLt) }
def Slot.getS (x : Slot) (r : SReg) : BitVec 128 := x.s[r.toNat]'(r.isLt)
def Slot.setS (x : Slot) (r : SReg) (w : BitVec 128) : Slot := { x with s := x.s.set r.toNat w (r.isLt) }
def Slot.getSd (x : Slot) (r : BitVec 2) : Stream := x.sd[r.toNat]'(r.isLt)
def Slot.setSd (x : Slot) (r : BitVec 2) (d : Stream) : Slot := { x with sd := x.sd.set r.toNat d (r.isLt) }

/-- Element (i, j) of an accumulator tile (R94), and its write. -/
def Slot.getC (x : Slot) (c : Acc) (n : Nat) : BitVec 128 := SMap.get x.c 0 (c.toNat * 256 + n)
def Slot.setC (x : Slot) (c : Acc) (n : Nat) (e : BitVec 128) : Slot := { x with c := SMap.set x.c 0 (c.toNat * 256 + n) e }

def readG (r : Reg) : Exec Word := look fun s => s.cur.getG r
def writeG (r : Reg) (w : Word) : Exec Unit := modMe fun x => x.setG r w

/-! ## Segments (R157) -/

def segLimit (s : BitVec 128) : Nat := bitsOf s 119 64
def segSpace (s : BitVec 128) : Bool := bitOf s 63
def segEx (s : BitVec 128) : Bool := bitOf s 62
def segWr (s : BitVec 128) : Bool := bitOf s 61
def segRd (s : BitVec 128) : Bool := bitOf s 60
def segBase (s : BitVec 128) : Nat := bitsOf s 55 0

/-- A segment image from its fields. -/
def mkSeg (limit : Nat) (space ex wr rd : Bool) (base : Nat) : BitVec 128 :=
  BitVec.ofNat 128 (limit * 2 ^ 64 + b2n space * 2 ^ 63 + b2n ex * 2 ^ 62 + b2n wr * 2 ^ 61 + b2n rd * 2 ^ 60 + base % 2 ^ 56)

/-- The address of an offset within a segment: 56 bits. -/
def segAddr (s : BitVec 128) (ea : Nat) : Nat := (segBase s + ea) % 2 ^ 56

/-- Limit and rights (R191): none, or SEG. Comparisons are unsigned and do not wrap. -/
def segOk (s : BitVec 128) (ea z : Nat) (rd wr : Bool) : Bool :=
  decide (segLimit s ≠ 0) && decide (ea < segLimit s) && decide (ea + z ≤ segLimit s) && (!rd || segRd s) && (!wr || segWr s)

def dispWord (d : Disp) : Word := match d with | .ms x => sext64 x | .ml x => sext64 x

/-- Effective address of a memory operand (R191, R259). -/
def Slot.ea (x : Slot) (m : Mem) : Word := x.getG m.base + dispWord m.disp
def Slot.eaR (x : Slot) (m : MemR) : Word := x.getG m.base + sext64 m.disp

/-! ## Translation (R393-R404) -/

def rightsRd : Nat := 1
def rightsWr : Nat := 2
def rightsEx : Nat := 4

/-- Offset bits of a page of a level (R393). -/
def pageBits (lvl : Nat) : Nat := [42, 29, 16].getD lvl 16

/-- A leaf agrees with the frame of an address; an address no task reaches is judged at step 4 of R392. -/
def leafAgrees (s : State) (e : Leaf) (va : Nat) : Bool :=
  let ga : Word := BitVec.ofNat 64 (e.frame + va % 2 ^ pageBits e.level)
  !gaValid s ga || (decide (s.isLattice (gaKey ga) = e.lat) && decide (bitsOf (s.attr (gaKey ga)) 2 1 = e.policy))

/-- The TLB leaf of a cluster that maps an address of a launch and agrees with its frame (R397, R398). A cluster that has
slept looks nothing up before its structures are emptied (R401). -/
def State.lookup (s : State) (cluster launch va : Nat) : Option Leaf :=
  let p := s.port cluster
  if p.asleep ∨ p.stale then none
  else p.tlb.find? fun e => e.launch = launch ∧ va / 2 ^ pageBits e.level = e.va / 2 ^ pageBits e.level ∧ leafAgrees s e va

/-- An access's rights lie within a leaf's. -/
def rightsOk (need have_ : Nat) : Bool := need &&& have_ == need

/-- Key of an address through a leaf; PKG bits that name another package keep the GA outside this one. -/
def leafGa (e : Leaf) (va : Nat) : Nat := e.frame + va % 2 ^ pageBits e.level

/-- Pages of 64 KiB that a range touches, in ascending order. -/
def pagesOf (va n : Nat) : List Nat :=
  (List.range ((va + n - 1) / 2 ^ 16 + 1 - va / 2 ^ 16)).map fun i => (va / 2 ^ 16 + i) * 2 ^ 16

/-- Translate one address: a GA, or none on a miss (R402). -/
def State.xlate1 (s : State) (cluster launch va need : Nat) : Option Word :=
  match s.lookup cluster launch va with
  | some e => if rightsOk need e.rights then some (BitVec.ofNat 64 (leafGa e va)) else none
  | none => none

/-- A GA that no task reaches, or that a lattice instruction may not name (R24, R259). -/
def gaBarred (s : State) (space : Option Bool) (ga : Word) : Bool :=
  !gaValid s ga || (decide (space = some true) && !(decide (1 ≤ gaRegion ga) && decide (gaRegion ga ≤ 4)))

/-- Step 4 of R392 on a translated GA: PROT for a barred one, MEM_UE for a retired frame, MAP_ATTR for the wrong space
(R24, R397). -/
def gaFault (s : State) (space : Option Bool) (ga : Word) : Option FaultCode :=
  if gaBarred s space ga then some .prot
  else if s.isRetired (gaKey ga) then some .memUe
  else if space = some (!s.isLattice (gaKey ga)) then some .mapAttr
  else none

/-- The fault of an access from those of its pages, in order: PROT of any page goes before the others (R216, R259). -/
def worstOf (l : List (FaultCode × Nat × Word)) : Option (FaultCode × Nat × Word) :=
  match l.find? fun x => x.1 = .prot with
  | some x => some x
  | none => l.head?

/-- The fault of a list of translated pages at step 4. -/
def firstBad (s : State) (space : Option Bool) (ps : List (Nat × Word)) : Option (FaultCode × Nat × Word) :=
  worstOf (ps.filterMap fun p => (gaFault s space p.2).map fun c => (c, p.1, p.2))

/-- Split a range at 64 KiB pages: starts and sizes. -/
def pieces (va n : Nat) : List (Nat × Nat) :=
  (pagesOf va n).map fun p => (max p va, min (p + 2 ^ 16) (va + n) - max p va)

/-- Translate every page of a list of ranges before any part is performed (R404): the lowest missing page is walked and the
bundle reissued, until none is missing; then every GA is checked. The pieces come back in order, as keys and sizes. -/
def translate (ranges : List (Nat × Nat)) (need : Nat) (space : Option Bool) : Exec (List (Nat × Nat)) := fun s =>
  let x := s.cur
  let c := s.me.clusterKey
  let ps := ranges.flatMap fun r => pieces r.1 r.2
  let miss := ps.filter fun p => (s.xlate1 c x.launch p.1 need).isNone
  if miss = [] then
    let gas := ps.map fun p => (p.1, (s.xlate1 c x.launch p.1 need).getD 0)
    match firstBad s space gas with
    | some (code, va, ga) => .error (.trap code ⟨0, some (BitVec.ofNat 64 va), some ga, 0⟩)
    | none => .ok ((gas.zip ps).map (fun y => (gaKey y.1.2, y.2.2)), s)
  else
    let pageOf (p : Nat × Nat) : Nat := p.1 / 2 ^ 16 * 2 ^ 16
    let pages := sortBy (fun a b => decide (a < b)) (miss.map pageOf).dedup
    let all := (ps.map fun p => BitVec.ofNat 64 (pageOf p)).dedup
    .error (.reissue .translation ((pages.take 1).map fun p => ⟨c, x.launch, BitVec.ofNat 64 p, need, space, .task s.me x.task, all, []⟩))

/-! ## Accesses -/

/-- A place a checked access reaches: core local memory, or pieces of global memory. -/
inductive Place where
  | near (off : Nat)
  | far (parts : List (Nat × Nat))
  deriving DecidableEq, Repr

/-- R191 for a private access of `z` bytes aligned to `al`: segment, rights, alignment, then translation. -/
def privateAt (seg : BitVec 128) (ea z al : Nat) (rd wr : Bool) : Exec Place := do
  if !segOk seg ea z rd wr then trapSeg .seg seg ea
  let addr := segAddr seg ea
  if addr % al ≠ 0 then trapSeg .align seg ea
  if segSpace seg then
    let ps ← translate [(addr, z)] ((if rd then rightsRd else 0) + (if wr then rightsWr else 0)) (some false)
    return .far ps
  else return .near addr

/-- R191 on a memory operand. -/
def privateMem (m : Mem) (z : Nat) (rd wr : Bool) : Exec Place := fun s =>
  privateAt (s.cur.getS m.seg) (s.cur.ea m).toNat z z rd wr s

/-- The key of a local offset of the issuing core. -/
def nearKey (s : State) (off : Nat) : Nat := localKey s.me.coreKey off

/-- The bytes that stores of a task before a transaction bring which are still on their way, the latest store last (R194). -/
def flyingBytes (s : State) (task before : Nat) : List (Nat × Byte) :=
  let ps := (s.agenda ++ s.transits.map Transit.msg).filterMap fun m => match m with
    | .storeData p => if p.req.task = task ∧ p.xid < before then some p else none
    | _ => none
  (sortBy (fun a b => decide (a.xid < b.xid)) ps).flatMap fun p => p.parts.flatMap fun x => x.2.zipIdx.map fun b => (x.1 + b.2, b.1)

/-- Bytes of memory as an access of a task observes them: the task's earlier stores on their way among them (R194). -/
def State.seenAs (s : State) (task before k n : Nat) : List Byte :=
  (flyingBytes s task before).foldl (fun bs x => if k ≤ x.1 ∧ x.1 < k + n then bs.set (x.1 - k) x.2 else bs) (s.loads k n)

/-- Bytes of memory as the instruction in hand observes them. -/
def State.seenBy (s : State) (k n : Nat) : List Byte := s.seenAs s.cur.task s.xid k n

/-- Bytes of a part that lie outside ranges; the empty part keeps its place. -/
def cutPart (rs : List (Nat × Nat)) (p : Nat × List Byte) : List (Nat × List Byte) :=
  if rs.any fun r => overlaps r.1 r.2 p.1 p.2.length then
    (p.1, []) :: (p.2.zipIdx.filterMap fun b =>
      if rs.any fun r => decide (r.1 ≤ p.1 + b.2) && decide (p.1 + b.2 < r.1 + r.2) then none else some (p.1 + b.2, [b.1]))
  else [p]

/-- A later store of a task has been performed: the task's earlier stores to those bytes that are still on their way change them no
more (R194, R352, R353; log 7). -/
def outrun (s : State) (task xid : Nat) (rs : List (Nat × Nat)) : State :=
  let cut (m : Instr) : Instr := match m with
    | .storeData p => if p.req.task = task ∧ p.xid < xid then .storeData { p with parts := p.parts.flatMap (cutPart rs) } else m
    | _ => m
  { s with agenda := s.agenda.map cut, transits := s.transits.map fun t => { t with msg := cut t.msg } }

def meets (a b : List (Nat × Nat)) : Bool := a.any fun x => b.any fun y => overlaps x.1 x.2 y.1 y.2

/-- A load before a store keeps the bytes from before it, where the store touches one of them (R142, R194). -/
def keepLoad (s : State) (task xid : Nat) (rs : List (Nat × Nat)) (p : Park) : Park :=
  match p.cond with
  | .loads w =>
    if w.held = none ∧ w.reqs.any fun r => decide (r.1 < xid) && meets r.2 rs then
      { p with cond := .loads { w with held := some (w.reqs.flatMap fun r => r.2.flatMap fun y => s.seenAs task r.1 y.1 y.2) } }
    else p
  | _ => p

/-- A matrix operation before a store keeps the bytes from before it (R142). -/
def keepOperand (s : State) (q : SlotRef) (xid : Nat) (rs : List (Nat × Nat)) (o : MatOp) : MatOp :=
  if o.slot = q.slot ∧ o.entered < xid then
    { o with before := o.before ++ rs.flatMap fun r => (List.range r.2).filterMap fun j =>
      let k := r.1 + j
      let off := k - localKey q.coreKey 0
      if localKey q.coreKey off = k ∧ off < 2 ^ 33 then some (off, s.load k) else none }
  else o

/-- A store of a task is about to be performed: of the accesses before it, stores that are still on their way change its bytes no
more, and loads and matrix operations that are still to read keep what stood there (R142, R194, R352; log 7). -/
def overtake (s : State) (q : SlotRef) (task xid : Nat) (rs : List (Nat × Nat)) : State :=
  let t := (outrun s task xid rs).modSlot q fun x =>
    if x.task = task then { x with parks := x.parks.map (keepLoad s task xid rs) } else x
  if (s.slot q).task = task then t.modCore q.coreKey fun c => { c with
    queue := c.queue.map (keepOperand s q xid rs), running := c.running.map (keepOperand s q xid rs) } else t

/-- Read local bytes; a location with an uncorrectable error faults MEM_UE (R191, R21). Accesses through SPACE = 0 act in the order of
their issue cycles, also those of different slots (log 7). -/
def loadNear (off n : Nat) : Exec (List Byte) := fun s =>
  let k := nearKey s off
  match s.hasUe k n with
  | some j => .error (.trap .memUe ⟨0, none, some (gaOf s j), 0⟩)
  | none => .ok (s.seenBy k n, s)

/-- Ranges of the issuing core that FILLT or NPUB still read are none in this model: their bytes are read when they retire
(R276). -/
def storeNear (off : Nat) (bs : List Byte) : Exec Unit := modify' fun s =>
  (overtake s s.me s.cur.task s.xid [(nearKey s off, bs.length)]).stores (nearKey s off) bs

/-- Consecutive pieces with one home die form one message. -/
def byHome (s : State) : List (Nat × Nat) → List (List (Nat × Nat))
  | [] => []
  | p :: t =>
    match byHome s t with
    | (q :: qs) :: rest => if s.homeDie p.1 = s.homeDie q.1 then (p :: q :: qs) :: rest else [p] :: (q :: qs) :: rest
    | rest => [p] :: rest

/-- Send a load for each group of pieces; the transactions come back in order with their pieces. -/
def sendLoads (groups : List (List (Nat × Nat))) (s : State) : List (Nat × List (Nat × Nat)) × State :=
  match groups with
  | [] => ([], s)
  | g :: t =>
    let (x, s) := s.fresh
    let s := s.post s.me.die (s.homeDie ((g.head?.map Prod.fst).getD 0)) (.loadRequest ⟨s.asker, x, g⟩)
    let (xs, s) := sendLoads t s
    ((x, g) :: xs, s)

/-- Park the instruction in hand until answers arrive (R51). -/
def parkOn (i : Instr) (c : ParkCond) (ea : Word) : Exec Unit :=
  modify' fun s => s.modCur fun x => { x with parks := x.parks ++ [⟨i, s.focus.pc, c, ea⟩] }

/-- Load virtual ranges from far memory: requests for the parts they translate to go out, and `i` parks until the replies are
written (R192, R195), to the stream `dst` where there is one. -/
def loadFarTo (dst : Option (BitVec 256 × Nat)) (i : Instr) (vas parts : List (Nat × Nat)) (ea : Word) : Exec Unit := do
  let xs ← fun s => let (xs, s) := sendLoads (byHome s parts) s; .ok (xs, s)
  parkOn i (.loads ⟨xs, dst, vas, none⟩) ea

def loadFar (i : Instr) (vas parts : List (Nat × Nat)) (ea : Word) : Exec Unit := loadFarTo none i vas parts ea

/-- The virtual range of a memory operand of `n` bytes. -/
def Slot.range (x : Slot) (m : Mem) (n : Nat) : List (Nat × Nat) := [(segAddr (x.getS m.seg) (x.ea m).toNat, n)]
def Slot.rangeR (x : Slot) (m : MemR) (n : Nat) : List (Nat × Nat) := [(segAddr (x.getS m.seg) (x.eaR m).toNat, n)]

/-- Count one unacknowledged request at the scope of its home (R107, R266). -/
def countAt (s : State) (k : Nat) : State :=
  let sc := scopeOf s.sliceMoved s.me k
  let s := s.modCur fun x => { x with unack := x.unack.setIfInBounds sc (x.unack.getD sc 0 + 1) }
  s.owe s.cur.launch 1

/-- Split bytes over pieces. -/
def deal : List (Nat × Nat) → List Byte → List (Nat × List Byte)
  | [], _ => []
  | p :: t, bs => (p.1, bs.take p.2) :: deal t (bs.drop p.2)

/-- Send a store for each group of pieces; it retires at once and is counted by scope (R194, R349). -/
def sendStores (groups : List (List (Nat × Nat))) (bs : List Byte) (s : State) : State :=
  match groups with
  | [] => s
  | g :: t =>
    let k := (g.head?.map Prod.fst).getD 0
    let n := (g.map Prod.snd).sum
    let (x, s) := s.fresh
    let s := countAt s k
    let s := s.post s.me.die (s.homeDie k) (.storeData ⟨s.asker, x, .scope (scopeOf s.sliceMoved s.me k), deal g (bs.take n)⟩)
    sendStores t (bs.drop n) s

/-- Store to a checked place. -/
def storeAt (p : Place) (bs : List Byte) : Exec Unit :=
  match p with
  | .near off => storeNear off bs
  | .far ps => modify' fun s => sendStores (byHome s ps) bs s

/-- R259: a lattice location of `z` bytes aligned to `al`. The keys of its pieces come back. -/
def latticeAt (seg : BitVec 128) (ea z al : Nat) (rd wr : Bool) : Exec (List (Nat × Nat)) := do
  if !segOk seg ea z rd wr then trapSeg .seg seg ea
  if !segSpace seg then trapSeg .prot seg ea
  let addr := segAddr seg ea
  if addr % al ≠ 0 then trapSeg .align seg ea
  translate [(addr, z)] ((if rd then rightsRd else 0) + (if wr then rightsWr else 0)) (some true)

/-- The segment part of R259, made before a location is used (R283). -/
def latticeSeg (seg : BitVec 128) (ea z al : Nat) (rd wr : Bool) : Exec Unit := do
  if !segOk seg ea z rd wr then trapSeg .seg seg ea
  if !segSpace seg then trapSeg .prot seg ea
  if segAddr seg ea % al ≠ 0 then trapSeg .align seg ea

/-- R260: a local source or destination of `n` bytes, aligned to 64. Its local offset comes back. -/
def localAt (seg : BitVec 128) (ea n : Nat) (rd wr : Bool) : Exec Nat := do
  if segSpace seg then trapSeg .prot seg ea
  if !segOk seg ea n rd wr then trapSeg .seg seg ea
  let addr := segAddr seg ea
  if addr % 64 ≠ 0 then trapSeg .align seg ea
  return addr

/-! ## Ending a task (R40, R294) -/

/-- Berth `k` of a core as its offset (R131, R189). -/
def berthOff (k : Nat) : Nat := 0x60000 + 16640 * k
def berthKey (core k : Nat) : Nat := localKey core (berthOff k)

def Core.berth (c : Core) (k : BitVec 2) : Berth := c.berths[k.toNat]'(k.isLt)
def Core.setBerth (c : Core) (k : BitVec 2) (b : Berth) : Core := { c with berths := c.berths.set k.toNat b (k.isLt) }

/-- Fields of a capsule header in a berth (R129). -/
def capField (s : State) (core : Nat) (b : BitVec 2) (lo n : Nat) : Nat := s.loadNat (berthKey core b.toNat + lo) n
def setCapField (s : State) (core : Nat) (b : BitVec 2) (lo n v : Nat) : State := s.storeNat (berthKey core b.toNat + lo) n v

/-- A step's cluster and core among those of the package, and whether it takes any core (R130). -/
def stepCluster (w : Word) : Nat := bitsOf w 53 50 * 512 + bitsOf w 49 41
def stepAny (w : Word) : Bool := bitOf w 36
def stepCore (w : Word) : Nat := stepCluster w * 16 + bitsOf w 40 37

/-- A core that takes capsules: no system core and not fenced (R19, R132). -/
def State.takesCapsules (s : State) (core : Nat) : Bool := !s.excluded core

/-- When a request began to wait, by the count of transactions: one at the core and an ANY request never have the same rank in it. -/
def askBorn (a : BerthAsk) : Nat := match a with | .capsule p => p.born | .local _ _ _ b => b | .move _ _ b => b

/-- A saved task whose capsule waits to move to a core (R305). -/
def waitsToMove (core task : Nat) (c : Context) : Bool := decide (c.slot.task = task) && decide (c.move = some (core, none))

/-- A free berth of a core. -/
def Core.freeBerth (c : Core) : Option (BitVec 2) := ([0, 1, 2, 3] : List (BitVec 2)).find? fun b => c.berth b = .free

/-- Give a berth to a request (R132). -/
def grantTo (s : State) (core : Nat) (b : BitVec 2) (a : BerthAsk) : State :=
  match a with
  | .capsule p =>
    (s.modCore core fun c => c.setBerth b .reserved).post (dieOfCore core) (dieOfCore p.src)
      (.berthGrant ⟨p.src, p.berth, core, b.toNat⟩)
  | .local r task xid _ =>
    let s := s.modCore core fun c => c.setBerth b .held
    if (s.slot r).task = task then
      s.modSlot r fun x => { x with answers := x.answers ++ [⟨xid, none, 0, BitVec.ofNat 64 b.toNat, 0, []⟩] }
    else s
  | .move launch task _ =>
    match s.launch launch with
    | none => s
    | some l =>
      if l.saved.any (waitsToMove core task) then
        (s.modCore core fun c => c.setBerth b .held).setLaunch launch { l with
          saved := l.saved.map fun c => if waitsToMove core task c then { c with move := some (core, some b) } else c }
      else s

/-- Grant free berths of a core, to the request that began to wait first among those at the core and, when the core may
serve them, those at its cluster (R132). -/
def grantBerths (core : Nat) : Nat → State → State
  | 0, s => s
  | n + 1, s =>
    let c := s.core core
    match c.freeBerth with
    | none => s
    | some b =>
      let own := c.asks.head?
      let any := if s.takesCapsules core then s.anyAsks.find? (fun p => stepCluster p.step = core / 16) else none
      match own, any with
      | none, none => s
      | some a, none => grantBerths core n (grantTo (s.setCore core { c with asks := c.asks.tail }) core b a)
      | none, some p => grantBerths core n (grantTo { s with anyAsks := s.anyAsks.erase p } core b (.capsule p))
      | some a, some p =>
        if askBorn a ≤ p.born then grantBerths core n (grantTo (s.setCore core { c with asks := c.asks.tail }) core b a)
        else grantBerths core n (grantTo { s with anyAsks := s.anyAsks.erase p } core b (.capsule p))

/-- Free a berth and grant it on (R132, R302). -/
def freeBerth (s : State) (core : Nat) (b : BitVec 2) : State :=
  grantBerths core 4 (s.modCore core fun c => c.setBerth b .free)

/-- Turns that a parked slot has lost since `readyAt`, the present cycle's among them (R463). -/
def lostTurns (s : State) (r : SlotRef) : Nat :=
  let x := s.slot r
  let first := turnAt r.slot x.readyAt
  if x.parks ≠ [] ∧ x.halt = .no ∧ first ≤ s.cycle then (s.cycle - first) / 8 + 1 else 0

/-- Count them; the slot's next turn is at least one cycle away (R52). -/
def countParked (r : SlotRef) (s : State) : State :=
  let n := BitVec.ofNat 64 (lostTurns s r)
  if (s.slot r).parks = [] then s
  else (s.modSlot r fun x => { x with readyAt := max x.readyAt (s.cycle + 1) }).modCore r.coreKey fun c =>
    { c with snap := { c.snap with parked := c.snap.parked + n } }

/-- Free a slot: the task is gone; copies it placed stay in the mailbox (R294). -/
def freeSlot (s : State) (r : SlotRef) : State :=
  let s := countParked r s
  let x := s.slot r
  let s := s.setSlot r { Slot.empty with mailbox := x.mailbox, readyAt := x.readyAt }
  s.modCore r.coreKey fun c => { c with
    claims := c.claims.filter fun y => y.1 ≠ r.slot ∧ ¬ (y.1 = 8 ∧ c.running.map MatOp.slot = some r.slot)
    banks := c.banks.filter fun w => w.req.task ≠ x.task
    queue := c.queue.filter fun o => o.slot ≠ r.slot
    running := match c.running with | some o => if o.slot = r.slot then none else some o | none => none
    asks := c.asks.filter fun a => match a with | .local q _ _ _ => decide (q ≠ r) | _ => true }

/-- The steps of R40: groups, written bits, berth, slot. `keepBerth` leaves a capsule that a fault returns. -/
def endTask (s : State) (r : SlotRef) (keepBerth : Bool) : State :=
  let s := leaveAll s (requesterOf s r)
  let s := match (s.slot r).capsule with
    | some b => if keepBerth then s else freeBerth s r.coreKey b
    | none => s
  freeSlot s r

/-- The die a capsule came from (R129, R134). -/
def capOrigin (s : State) (core : Nat) (b : BitVec 2) : Nat := capField s core b 8 8 / 2 ^ 49 % 16

/-- A capsule in a berth goes back to its origin's fault queue, keeping the berth until it is written (R134). -/
def returnCapsule (s : State) (core : Nat) (b : BitVec 2) (code : FaultCode) (req : Option Requester) : State :=
  let s := s.modCore core fun c => c.setBerth b (.returning code req)
  s.post (dieOfCore core) (capOrigin s core b)
    (.capsuleReturn ⟨some (core, b.toNat), capField s core b 24 2, code, s.loads (berthKey core b.toNat) 16640, req⟩)

/-- Steps 3 and 4 of R405, once the record is placed: the capsule's FAULT, FLAGS and CURSOR are written, the capsule goes
to its origin's queue and the task ends. -/
def endFaulted (s : State) (r : SlotRef) (code : FaultCode) : State :=
  let q := requesterOf s r
  let x := s.slot r
  let k := r.coreKey
  match x.capsule with
  | none => endTask s r false
  | some b =>
    let step := match x.capStep with | some n => n | none => capField s k b 26 1
    let s := setCapField s k b 2 2 1
    let s := setCapField s k b 28 4 (codeNum code + 256 * step)
    let s := match x.capStep with | some n => setCapField s k b 26 1 n | none => s
    returnCapsule (endTask s r true) k b code (some q)

/-- Taking a synchronous reported fault (R405): the record enters the die's buffer, the launch is marked and the task ends;
with no room the slot keeps its task until there is (R410). -/
def faultTask (s : State) (r : SlotRef) (code : FaultCode) (d : Detail) : State :=
  let rec_ := recordOf s (requesterOf s r) 0 true code d
  if s.hasRoom r.die then endFaulted (s.record r.die rec_) r code
  else
    let s := (countParked r s).modDie r.die fun y => { y with faultWait := y.faultWait ++ [⟨rec_, some (r, code)⟩] }
    s.modSlot r fun x => { x with ending := true, parks := [], answers := [] }

/-- The slot that issues takes a fault: its PC is that of the bundle (R407). -/
def takeFault (s : State) (code : FaultCode) (d : Detail) : State :=
  let d := { d with pc := s.focus.pc }
  { faultTask s s.me code d with focus := { s.focus with disp := .trapped code d } }

/-- An asynchronous fault of a task's request (R406): a record, the launch marked; the caller sets the pending bit. -/
def asyncFault (s : State) (die : Nat) (q : Requester) (code : FaultCode) (va ga : Option Word) : State :=
  s.record die (recordOf s q 0 false code ⟨0, va, ga, 0⟩)

/-! ## Issuing -/

/-- Move the slot on to the bundle's successor or target. -/
def State.advance (s : State) : State :=
  { s.modCur (fun x => { x with pc := s.focus.next }) with focus := { s.focus with disp := .done } }

/-- Park for a translation, whose walks start, or for words of the constant cache; the bundle is reissued whole (R52, R143, R402). -/
def State.reissue (s : State) (i : Instr) (c : ParkCond) (w : List WalkReq) : State :=
  let s := s.modCur fun x => { x with parks := [⟨i, s.focus.pc, c, 0⟩] }
  { s with agenda := s.agenda ++ w.map Instr.translationWalk, focus := { s.focus with disp := .reissued } }

/-- The meaning of an issued instruction: its effect and the move to the next bundle; a fault ends the task with no other
effect; a translation or constant-cache miss parks it with no other effect (R143). -/
def retire (i : Instr) (m : Exec Unit) (s : State) : Host.Outcome State Fault Refusal :=
  match m s with
  | .ok (_, t) => .next t.advance
  | .error (.trap c d) => .next (takeFault s c d)
  | .error (.reissue c w) => .next (s.reissue i c w)

/-- A taken branch replaces the successor (R145). -/
def branchTo (t : Word) : Exec Unit := modify' fun s => { s with focus := { s.focus with next := t } }

end Sys2Proof.Machine
end

