-- ==== Sys2Proof/Machine/Flags.lean ====
section
/-! DEFINITION. FLAGS (R159): Z, N, C and V of the scalar instructions (R172), the sticky flags A, OVF and NAN (R90), F of
the fences (R267), and the condition codes (R161). -/

namespace Sys2Proof.Machine

def flagZ : Nat := 0
def flagN : Nat := 1
def flagC : Nat := 2
def flagV : Nat := 3
def flagF : Nat := 4
def flagA : Nat := 5
def flagOvf : Nat := 6
def flagNan : Nat := 7

/-- The four scalar flags of a result. -/
structure Znvc where
  z : Bool
  n : Bool
  c : Bool
  v : Bool
  deriving DecidableEq, Repr

/-- Z and N of an `n`-bit result (R172). -/
def resultFlags (n r : Nat) (c v : Bool) : Znvc := ⟨decide (r = 0), decide (2 ^ (n - 1) ≤ r), c, v⟩

def Znvc.bits (f : Znvc) : BitVec 4 := BitVec.ofNat 4 (b2n f.z + 2 * b2n f.n + 4 * b2n f.c + 8 * b2n f.v)

/-- FLAGS with Z, N, C and V replaced and its other bits kept. -/
def withZnvc (flags : Word) (f : BitVec 4) : Word := flags.extractLsb' 4 60 ++ f

/-- FLAGS with sticky bits ORed in (R90). -/
def stickyWord (x : Sticky) : Word := BitVec.ofNat 64 (32 * b2n x.a + 64 * b2n x.ovf + 128 * b2n x.nan)
def withSticky (flags : Word) (x : Sticky) : Word := flags ||| stickyWord x

/-- The condition codes of R161 on FLAGS. -/
def condHolds (cc : BitVec 4) (flags : Word) : Bool :=
  let z := bitOf flags flagZ
  let n := bitOf flags flagN
  let c := bitOf flags flagC
  let v := bitOf flags flagV
  match cc.toNat with
  | 0 => z
  | 1 => !z
  | 2 => n != v
  | 3 => n == v
  | 4 => z || n != v
  | 5 => !z && n == v
  | 6 => !c
  | 7 => c
  | 8 => !c || z
  | 9 => c && !z
  | 10 => n
  | 11 => !n
  | 12 => v
  | 13 => !v
  | 14 => true
  | _ => bitOf flags flagF

def setZnvc (f : Znvc) : Exec Unit := modMe fun x => { x with flags := withZnvc x.flags f.bits }
def setSticky (f : Sticky) : Exec Unit := modMe fun x => { x with flags := withSticky x.flags f }

end Sys2Proof.Machine
end

