-- ==== Sys2Proof/Machine/Operands.lean ====
section
/-! DEFINITION. Operand forms: scalar sources (R171), constants of a tail and of a constant window (R148-R150), elements of
vector registers and masks (R209, R210), converted constants (R149), and stream registers (R218-R222). -/

namespace Sys2Proof.Machine

/-- Width in bits of SZ (R170). -/
def width (z : Sz) : Nat := match z with | .s8 => 8 | .s16 => 16 | .s32 => 32 | .s64 => 64

/-- The low `n` bits of a word, as a number. -/
def low (n : Nat) (x : Word) : Nat := x.toNat % 2 ^ n

/-- An `n`-bit pattern read as two's complement. -/
def signed (n x : Nat) : Int := if 2 ^ (n - 1) ≤ x then (x : Int) - 2 ^ n else x

/-- An integer modulo 2^n. -/
def wrap (n : Nat) (v : Int) : Nat := (v % (2 ^ n : Int)).toNat

/-- An `n`-bit result as a register takes it: sign-extended for type i, zero-extended otherwise (R172). -/
def extendTo (sgn : Bool) (n r : Nat) : Word := if sgn then BitVec.ofInt 64 (signed n r) else BitVec.ofNat 64 r

def tyI (t : Ty) : Bool := match t with | .i => true | _ => false

/-! ## Constant windows (R150) -/

/-- Since when a constant may be as old as it is read: the launch's expansion (R151; log 20). -/
def constSince (s : State) : Nat := match s.launch s.cur.launch with | some l => l.since | none => s.cur.since

/-- The value of a word in the issuing core's constant cache (R150). -/
def cachedConst (s : State) (far : Bool) (addr : Nat) : Option (BitVec 32) :=
  ((s.core s.me.coreKey).consts.find? fun w => w.launch = s.cur.launch ∧ w.far = far ∧ w.addr = addr).map ConstWord.value

/-- The addresses of the words of a constant, the lower first. -/
def constWords (addr z : Nat) : List Nat := if z = 8 then [addr, addr + 4] else [addr]

/-- Memory that the words of a constant stand in, each found by its own address. -/
def constPlaces (far : Bool) (ws : List Nat) : Exec (List (Nat × Nat)) :=
  if far then translate (ws.map fun a => (a, 4)) rightsRd none else look fun s => ws.map fun a => (nearKey s a, 4)

/-- Read a constant of `n` bits through a window (R150): the checks, then its words from the constant cache. A missing word parks
the task, and the bundle is reissued when the cache holds it (R143). -/
def readConst (win : BitVec 3) (off : BitVec 17) (n : Nat) : Exec Nat := do
  let cw ← look fun s => s.cur.cw[win.toNat]'(win.isLt)
  let s3 ← look fun s => s.cur.getS 3
  let addr := bitsOf cw 55 0 + 4 * off.toNat
  let z := if n = 64 then 8 else 4
  if !bitOf cw 63 then trapVa .seg (BitVec.ofNat 64 addr)
  if !(decide (segBase s3 ≤ addr) && decide (addr + z ≤ segBase s3 + segLimit s3) && segRd s3) then
    trapVa .seg (BitVec.ofNat 64 addr)
  if n = 64 ∧ off.toNat % 2 = 1 then trapVa .align (BitVec.ofNat 64 addr)
  let far := segSpace s3
  let ws := constWords addr z
  match ← look fun s => ws.mapM (cachedConst s far) with
  | some vs => return natOf (vs.flatMap fun v => bytesOf 4 v.toNat) % 2 ^ n
  | none => do
    let ps ← constPlaces far ws
    stop (.reissue (.constants far (ws.zip (ps.map Prod.fst))) [])

/-- Put a word into a core's constant cache of 16 KiB; which one a full cache gives up is free (R150; log 12). -/
def fillConst (w : ConstWord) (c : Core) (n : Nat) : Core :=
  let ws := c.consts.filter fun x => ¬ (x.launch = w.launch ∧ x.far = w.far ∧ x.addr = w.addr)
  { c with consts := (if 4096 ≤ ws.length then ws.eraseIdx (Config.victim n % ws.length) else ws) ++ [w] }

/-- The words a task's bundle waits for come into the constant cache: each as it stood at the launch's expansion, or as it was stored
later (R151; log 20). A bad location faults MEM_UE (R21). -/
def fetchConsts (far : Bool) : List (Nat × Nat) → Exec Unit
  | [] => return ()
  | (addr, key) :: t => do
    let k ← look fun s => if far then key else nearKey s addr
    let bad ← look fun s => (s.hasUe k 4).map (gaOf s)
    if bad.isSome then stop (.trap .memUe ⟨0, none, bad, 0⟩)
    modify' fun s => s.modCore s.me.coreKey fun c =>
      fillConst ⟨s.cur.launch, far, addr, k, BitVec.ofNat 32 (natOf (s.loadsAt (s.seen (constSince s) (k / 8)) k 4))⟩ c s.draws
    fetchConsts far t

/-! ## Scalar sources (R171) -/

/-- The second source y of an instruction of width `n`. -/
def srcVal (src : Src) (n : Nat) : Exec Word :=
  match src with
  | .rr b => readG b
  | .ri imm => return sext64 imm
  | .rk win off => do
    let v ← readConst win off n
    return BitVec.ofNat 64 v
  | .rl lit => return sext64 lit
  | .rl64 lit => return lit

/-- A register or an immediate mask (R290). -/
def regImmVal (m : RegImm) : Exec Word :=
  match m with
  | .reg a => readG a
  | .imm v => return BitVec.ofNat 64 v.toNat

/-- A register or a 64-bit literal (R278, R303). -/
def regLitVal (m : RegLit) : Exec Word :=
  match m with
  | .reg a => readG a
  | .lit v => return v

/-! ## Elements (R209, R210) -/

/-- Element `j` of width `w`. -/
def elemAt (x : BitVec 512) (w j : Nat) : Nat := x.toNat / 2 ^ (w * j) % 2 ^ w

/-- A register from its elements, the lowest first. -/
def pack (w : Nat) : List Nat → Nat
  | [] => 0
  | e :: t => e % 2 ^ w + 2 ^ w * pack w t

def ofElems (w : Nat) (es : List Nat) : BitVec 512 := BitVec.ofNat 512 (pack w es)
def elems (x : BitVec 512) (w : Nat) : List Nat := (List.range (512 / w)).map (elemAt x w)

/-- Element `j` of `e` elements is active under a mask (R210). -/
def activeIn (p : Word) (e j : Nat) : Bool := bitOf p (if e = 128 then j / 2 else j)

/-- Which elements an instruction handles under a mask register. -/
def mask (pm : PReg) (e : Nat) : Exec (Nat → Bool) := do
  let p ← look fun s => s.cur.getP pm
  return activeIn p e

/-! ## Tables (R80-R82, R212) -/

/-- Offset of a loadable table place of a slot (R189). -/
def tableOff (slot place : Nat) : Nat := 0x70400 + 5120 * slot + 1024 * (place - 3)

/-- The table at a place of a slot. -/
def tableOf (s : State) (r : SlotRef) (place : Nat) : Table :=
  if place < 3 then builtinTable place
  else (List.range 256).map fun k => BitVec.ofNat 32 (s.loadNat (localKey r.coreKey (tableOff r.slot place + 4 * k)) 4)

/-- The place that FA, FB or FS names. -/
def placeIn (f : Word) : Nat := bitsOf f 2 0

/-- The tables FA and FB name; empty for formats that use none. -/
def tableA (f : Nat) : Exec Table := look fun s => if f = fmtT8 then tableOf s s.me (placeIn s.cur.fa) else []
def tableB (f : Nat) : Exec Table := look fun s => if f = fmtT8 then tableOf s s.me (placeIn s.cur.fb) else []

/-! ## Rounding state (R84-R86) -/

def rmMode (r : Word) : Nat := bitsOf r 2 0
def rmSat (r : Word) : Bool := bitOf r 3
def rmSrn (r : Word) : Nat := bitsOf r 55 32

/-- The lane key of SR (R86). -/
def laneKey (s : State) (r : SlotRef) : Nat :=
  let x := s.slot r
  if isRepro s x.launch then x.lane
  else 2 ^ 31 + (s.pkgid * 2 ^ 21 + r.die * 2 ^ 17 + r.cluster * 2 ^ 8 + r.core * 2 ^ 4 + r.slot) % 2 ^ 31

def seedOf (s : State) (launch : Nat) : Word := match s.launch launch with | some l => l.seed | none => 0

/-- What rounding of element `j` under an RMODE needs: mode, saturation, and the draw of R86. -/
def rmFrom (s : State) (r : SlotRef) (rmode : Word) (j : Nat) : Rm :=
  let m := rmMode rmode
  let draw := if m = 5 then
      bitsOf (hcm64 (seedOf s (s.slot r).launch) (BitVec.ofNat 64 (laneKey s r * 2 ^ 32 + rmSrn rmode * 2 ^ 8 + j))) 63 40
    else 0
  ⟨m, rmSat rmode, draw⟩

/-- The same under the slot's own RMODE. -/
def rmOf (s : State) (r : SlotRef) (j : Nat) : Rm := rmFrom s r (s.slot r).rmode j

/-- Rounding by element of the slot that issues. -/
def rounding : Exec (Nat → Rm) := look fun s j => rmOf s s.me j

/-- SRN after an instruction that rounded an element under SR (R86). -/
def bumpSrn (r : Word) : Word :=
  BitVec.ofNat 64 (bitsOf r 63 56 * 2 ^ 56 + (rmSrn r + 1) % 2 ^ 24 * 2 ^ 32 + bitsOf r 31 0)

/-- SRN advances when the mode is SR and some element counted as rounded. -/
def srStep (counted : Bool) : Exec Unit :=
  modMe fun x => if rmMode x.rmode = 5 ∧ counted then { x with rmode := bumpSrn x.rmode } else x

/-! ## Constants of a vector instruction (R149, R150, R211) -/

/-- SR counts as RNE for constants (R149). -/
def constRm (r : Word) : Rm := ⟨if rmMode r = 5 then 0 else rmMode r, rmSat r, 0⟩

/-- An F32 pattern as an element of a float format, with the flags of its conversion. -/
def convConst (f : Nat) (t : Table) (rm : Rm) (pattern : Nat) : Nat × Sticky := encodeVal f t rm (decodeFp (fpOf 13) pattern)

/-- An integer constant keeps its low bits; a float constant is converted from its F32 pattern (R148, R149). -/
def constElem (f : Nat) (t : Table) (rm : Rm) (int f32 : Nat) : Nat × Sticky :=
  if fmtIsF f then convConst f t rm f32 else (int % 2 ^ fmtWidth f, Sticky.none)

/-- The constant of a vector source, once for every element, with the flags of its conversion; zero in RR form. -/
def vecConst (f : Nat) (src : Src) : Exec (Nat × Sticky) := do
  let t ← tableB f
  let rm ← look fun s => constRm s.cur.rmode
  match src with
  | .rr _ => return (0, Sticky.none)
  | .ri imm => return constElem f t rm (sext64 imm).toNat (imm.toNat * 2 ^ 12)
  | .rl lit => return constElem f t rm (sext64 lit).toNat lit.toNat
  | .rk win off =>
    let v ← readConst win off (fmtWidth f)
    return (v, Sticky.none)
  | .rl64 lit => return (lit.toNat, Sticky.none)

/-! ## Stream registers (R218-R222) -/

def sdValid (i : BitVec 256) : Bool := bitOf i 63
def sdSeg (i : BitVec 256) : BitVec 3 := i.extractLsb' 56 3
def sdFmt (i : BitVec 256) : Nat := bitsOf i 55 51
def sdOffset (i : BitVec 256) : Nat := bitsOf i 47 0
def sdStride0 (i : BitVec 256) : Int := (i.extractLsb' 64 32).toInt
def sdStride1 (i : BitVec 256) : Int := (i.extractLsb' 96 32).toInt
def sdBound0 (i : BitVec 256) : Nat := bitsOf i 159 128
def sdBound1 (i : BitVec 256) : Nat := bitsOf i 191 160
def sdCount (i : BitVec 256) : Nat := sdBound0 i * sdBound1 i

/-- Byte offset of stream element `k` within its segment, in 64 bits. -/
def sdElem (i : BitVec 256) (k : Nat) : Nat :=
  wrap 64 ((sdOffset i : Int) + (k % sdBound0 i : Nat) * sdStride0 i + (k / sdBound0 i : Nat) * sdStride1 i)

/-- The binding of a V register, if it is bound (R220). -/
def Slot.binding (x : Slot) (r : VReg) : Option Binding := if r = 6 then x.bind6 else if r = 7 then x.bind7 else none

/-- Check element `k` of a stream at its pop or push and give its local offset (R221). -/
def streamAt (i : BitVec 256) (w k : Nat) (rd wr : Bool) : Exec Nat := do
  let seg ← look fun s => s.cur.getS (sdSeg i)
  let ea := sdElem i k
  if !segOk seg ea (w / 8) rd wr then trapSeg .seg seg ea
  if segSpace seg then trapSeg .prot seg ea
  if segAddr seg ea % (w / 8) ≠ 0 then trapSeg .align seg ea
  return segAddr seg ea

/-- Advance a stream by `e` elements. -/
def streamStep (d : BitVec 2) (e : Nat) : Exec Unit := modMe fun x =>
  let sd := x.getSd d
  x.setSd d { sd with pos := min (sd.pos + e) (sdCount sd.image) }

/-- Every element takes part: what an instruction without a mask asks of its sources (R210). -/
def everyElem (_ : Nat) : Bool := true

/-- Elements `p` to `p + e - 1` of a stream; past its end, the absent code of the descriptor's FMT (R221; log 49). An element
that `want` leaves out makes no access and is never used (R210). -/
def popElems (i : BitVec 256) (f p : Nat) (want : Nat → Bool) : List Nat → Exec (List Nat)
  | [] => return []
  | j :: t => do
    let w := fmtWidth f
    let v ← if sdCount i ≤ p + j then pure (absentCode (sdFmt i))
      else if !want j then pure 0
      else do
        let off ← streamAt i w (p + j) true false
        let bs ← loadNear off (w / 8)
        pure (natOf bs)
    let rest ← popElems i f p want t
    return v :: rest

/-- Pop a bound source of an instruction of format `f` (R221, R222). -/
def popStream (b : Binding) (f : Nat) (want : Nat → Bool) : Exec (BitVec 512) := do
  let sd ← look fun s => s.cur.getSd b.desc
  let es ← popElems sd.image f sd.pos want (List.range (fmtElems f))
  streamStep b.desc (fmtElems f)
  return ofElems (fmtWidth f) es

/-- Read a source V register: its bits, or a pop of the stream it is bound to. -/
def readV (f : Nat) (r : VReg) (want : Nat → Bool) : Exec (BitVec 512) := do
  match ← look fun s => s.cur.binding r with
  | some b => popStream b f want
  | none => look fun s => s.cur.getV r

/-- Read two sources; a register named twice is popped once (R221). -/
def readV2 (f : Nat) (a b : VReg) (want : Nat → Bool) : Exec (BitVec 512 × BitVec 512) := do
  let x ← readV f a want
  let y ← if a = b then pure x else readV f b want
  return (x, y)

/-- The uses of a bound register that fault ILLEGAL at issue (R222): a source of format `f` that is write-bound or of
another width, a destination that is read-bound or of another width. -/
def streamUse (write : Bool) (f : Nat) (r : VReg) : Exec Unit := do
  match ← look fun s => s.cur.binding r with
  | some b => do
    let sd ← look fun s => s.cur.getSd b.desc
    require (b.write == write && decide (fmtWidth (sdFmt sd.image) = fmtWidth f)) .illegal
  | none => return ()

def sourcesOk (f : Nat) (rs : List VReg) : Exec Unit := rs.forM (streamUse false f)
def destOk (f : Nat) (d : VReg) : Exec Unit := streamUse true f d

/-- Write the elements that an instruction writes, those past the stream's end left out (R221). -/
def pushElems (i : BitVec 256) (f p j : Nat) : List (Option Nat) → Exec Unit
  | [] => return ()
  | v :: t => do
    match v with
    | some e =>
      if p + j < sdCount i then do
        let off ← streamAt i (fmtWidth f) (p + j) false true
        storeNear off (bytesOf (fmtWidth f / 8) e)
      else pure ()
    | none => pure ()
    pushElems i f p (j + 1) t

/-- Old elements with the written ones over them. -/
def blend (old : List Nat) (new : List (Option Nat)) : List Nat := old.zipWith (fun o n => n.getD o) new

/-- Where a destination's elements go: the image and position of the stream the register is bound to, or the register. -/
abbrev PushTo := Option (BitVec 256 × Nat)

def pushTo (d : VReg) : Exec PushTo := look fun s =>
  (s.cur.binding d).map fun b => ((s.cur.getSd b.desc).image, (s.cur.getSd b.desc).pos)

/-- Write elements, none leaving one unchanged, to the register or to a stream (R210, R221). -/
def writeVTo (dst : PushTo) (f : Nat) (d : VReg) (new : List (Option Nat)) : Exec Unit :=
  match dst with
  | some (i, p) => pushElems i f p 0 new
  | none => modMe fun x => x.setV d (ofElems (fmtWidth f) (blend (elems (x.getV d) (fmtWidth f)) new))

/-- A bound destination moves its stream on (R221). -/
def pushStep (f : Nat) (d : VReg) : Exec Unit := do
  match ← look fun s => s.cur.binding d with
  | some b => streamStep b.desc (fmtElems f)
  | none => return ()

/-- Write a destination V register; a bound register pushes (R210, R221, R222). -/
def writeV (f : Nat) (d : VReg) (new : List (Option Nat)) : Exec Unit := do
  let dst ← pushTo d
  writeVTo dst f d new
  pushStep f d

/-- Sources a and y of R211 under a mask, with the flags of a constant's conversion; one register named twice is popped once. -/
def vecOperands (f : Nat) (a : VReg) (src : Src) (want : Nat → Bool) : Exec ((Nat → Nat) × (Nat → Nat) × Sticky) := do
  match src with
  | .rr b =>
    let (x, y) ← readV2 f a (b.extractLsb' 0 3) want
    return (elemAt x (fmtWidth f), elemAt y (fmtWidth f), Sticky.none)
  | src =>
    let x ← readV f a want
    let c ← vecConst f src
    return (elemAt x (fmtWidth f), fun _ => c.1, c.2)

end Sys2Proof.Machine
end

