-- ==== Sys2Proof/Machine/Scalar.lean ====
section
/-! DEFINITION. Scalar instructions of opcodes 0x00-0x24: arithmetic, logic, shifts, bit counts, fields, compare, select and
moves (R169-R184). -/

namespace Sys2Proof.Machine

/-- What a meaning answers. -/
abbrev Out := Host.Outcome State Fault Refusal

/-- An `n`-bit operation on x and y, signed or not: r, C and V. -/
abbrev AluFn := Bool → Nat → Nat → Nat → Nat × Bool × Bool

/-- An integer outside the signed range of `n` bits. -/
def outside (n : Nat) (v : Int) : Bool := decide (v < -(2 ^ (n - 1))) || decide (2 ^ (n - 1) ≤ v)

def addFn : AluFn := fun _ n x y =>
  ((x + y) % 2 ^ n, decide (2 ^ n ≤ x + y), outside n (signed n x + signed n y))

def subFn : AluFn := fun _ n x y =>
  (wrap n ((x : Int) - y), decide (y ≤ x), outside n (signed n x - signed n y))

/-- The exact product, signed or unsigned. -/
def product (sgn : Bool) (n x y : Nat) : Int := if sgn then signed n x * signed n y else ((x * y : Nat) : Int)

def mulFn : AluFn := fun sgn n x y =>
  (wrap n (product sgn n x y), false,
    if sgn then outside n (product sgn n x y) else decide (2 ^ n ≤ x * y))

def mulhFn : AluFn := fun sgn n x y => (wrap n (product sgn n x y / 2 ^ n), false, false)

/-- Division truncates toward zero; its borderline cases are those of R174. -/
def divFn : AluFn := fun sgn n x y =>
  if y = 0 then (2 ^ n - 1, false, true)
  else if sgn then (wrap n ((signed n x).tdiv (signed n y)), false, outside n ((signed n x).tdiv (signed n y)))
  else (x / y, false, false)

def remFn : AluFn := fun sgn n x y =>
  if y = 0 then (x, false, true)
  else if sgn then (wrap n ((signed n x).tmod (signed n y)), false, outside n ((signed n x).tdiv (signed n y)))
  else (x % y, false, false)

def less (sgn : Bool) (n x y : Nat) : Bool := if sgn then decide (signed n x < signed n y) else decide (x < y)
def minFn : AluFn := fun sgn n x y => (if less sgn n x y then x else y, false, false)
def maxFn : AluFn := fun sgn n x y => (if less sgn n x y then y else x, false, false)
def negFn : AluFn := fun _ n x _ => (wrap n (-(x : Int)), decide (x = 0), decide (x = 2 ^ (n - 1)))
def absFn : AluFn := fun _ n x _ => (wrap n (signed n x).natAbs, false, decide (x = 2 ^ (n - 1)))

def andFn : AluFn := fun _ _ x y => (x &&& y, false, false)
def orFn : AluFn := fun _ _ x y => (x ||| y, false, false)
def xorFn : AluFn := fun _ _ x y => (x ^^^ y, false, false)
def andnFn : AluFn := fun _ n x y => (x &&& (2 ^ n - 1 - y), false, false)
def notFn : AluFn := fun _ n x _ => (2 ^ n - 1 - x, false, false)

/-! Shifts take the whole count y (R175). -/
def shlFn : AluFn := fun _ n x s => (if s < n then x * 2 ^ s % 2 ^ n else 0, false, false)
def shrFn : AluFn := fun _ n x s => (if s < n then x / 2 ^ s else 0, false, false)
def sarFn : AluFn := fun _ n x s => (wrap n (signed n x / 2 ^ min s n), false, false)
def rolFn : AluFn := fun _ n x s => ((x * 2 ^ (s % n) + x / 2 ^ (n - s % n)) % 2 ^ n, false, false)
def rorFn : AluFn := fun _ n x s => ((x / 2 ^ (s % n) + x * 2 ^ (n - s % n)) % 2 ^ n, false, false)

/-- Write an `n`-bit result with its flags (R172). -/
def writeAlu (sgn : Bool) (n : Nat) (d : Reg) (r : Nat × Bool × Bool) : Exec Unit := do
  writeG d (extendTo sgn n r.1)
  setZnvc (resultFlags n r.1 r.2.1 r.2.2)

/-- A two-source instruction: the low n bits of both sources (R171, R172). -/
def alu (f : AluFn) (o : Alu) : Exec Unit := do
  let n := width o.sz
  let x ← readG o.a
  let y ← srcVal o.src n
  writeAlu (tyI o.ty) n o.d (f (tyI o.ty) n (low n x) (low n y))

/-- A shift or rotate: the count is all of y (R175). -/
def shift (f : AluFn) (o : Alu) : Exec Unit := do
  let n := width o.sz
  let x ← readG o.a
  let y ← srcVal o.src n
  writeAlu (tyI o.ty) n o.d (f (tyI o.ty) n (low n x) y.toNat)

/-- A one-source instruction (R174, R175). -/
def unary (f : AluFn) (o : Un) : Exec Unit := do
  let n := width o.sz
  let x ← readG o.a
  writeAlu (tyI o.ty) n o.d (f (tyI o.ty) n (low n x) 0)

/-- DIV and REM park; their results are written when DIVIDE_RESULT comes (R173). -/
def divide (i : Instr) (f : AluFn) (o : Alu) : Exec Unit := do
  let n := width o.sz
  let x ← readG o.a
  let y ← srcVal o.src n
  let r := f (tyI o.ty) n (low n x) (low n y)
  parkOn i (.late (.g o.d (extendTo (tyI o.ty) n r.1) (some (resultFlags n r.1 r.2.1 r.2.2).bits))) 0

def execAdd (o : Alu) (s : State) : Out := retire (.add o) (alu addFn o) s
def execSub (o : Alu) (s : State) : Out := retire (.sub o) (alu subFn o) s
def execMul (o : Alu) (s : State) : Out := retire (.mul o) (alu mulFn o) s
def execMulh (o : Alu) (s : State) : Out := retire (.mulh o) (alu mulhFn o) s
def execDiv (o : Alu) (s : State) : Out := retire (.div o) (divide (.div o) divFn o) s
def execRem (o : Alu) (s : State) : Out := retire (.rem o) (divide (.rem o) remFn o) s
def execNeg (o : Un) (s : State) : Out := retire (.neg o) (unary negFn o) s
def execAbs (o : Un) (s : State) : Out := retire (.abs o) (unary absFn o) s
def execMin (o : Alu) (s : State) : Out := retire (.min o) (alu minFn o) s
def execMax (o : Alu) (s : State) : Out := retire (.max o) (alu maxFn o) s
def execAnd (o : Alu) (s : State) : Out := retire (.and o) (alu andFn o) s
def execOr (o : Alu) (s : State) : Out := retire (.or o) (alu orFn o) s
def execXor (o : Alu) (s : State) : Out := retire (.xor o) (alu xorFn o) s
def execAndn (o : Alu) (s : State) : Out := retire (.andn o) (alu andnFn o) s
def execNot (o : Un) (s : State) : Out := retire (.not o) (unary notFn o) s
def execShl (o : Alu) (s : State) : Out := retire (.shl o) (shift shlFn o) s
def execShr (o : Alu) (s : State) : Out := retire (.shr o) (shift shrFn o) s
def execSar (o : Alu) (s : State) : Out := retire (.sar o) (shift sarFn o) s
def execRol (o : Alu) (s : State) : Out := retire (.rol o) (shift rolFn o) s
def execRor (o : Alu) (s : State) : Out := retire (.ror o) (shift rorFn o) s

/-- The result of a divide or remainder is written (R173). -/
def writeLate (r : Late) (x : Slot) : Slot :=
  match r with
  | .g d v flags =>
    let x := x.setG d v
    match flags with
    | some f => { x with flags := withZnvc x.flags f }
    | none => x
  | .v d v sticky => { x.setV d v with flags := x.flags ||| sticky }

/-! ## Bit counts and fields (R176-R178) -/

/-- Zero bits above the highest set bit of an `n`-bit element. -/
def clzOf (n x : Nat) : Nat := if x = 0 then n else n - 1 - Nat.log2 x

/-- Zero bits below the lowest set bit, looked for in `k` bits. -/
def ctzFrom (x : Nat) : Nat → Nat → Nat
  | 0, _ => 0
  | k + 1, i => if x.testBit i then 0 else 1 + ctzFrom x k (i + 1)

def ctzOf (n x : Nat) : Nat := ctzFrom x n 0
def ffsOf (n x : Nat) : Nat := if x = 0 then 0 else 1 + ctzOf n x
def popcOf (n x : Nat) : Nat := ((List.range n).filter x.testBit).length
def brevOf (n x : Nat) : Nat := ((List.range n).map fun j => if x.testBit (n - 1 - j) then 2 ^ j else 0).sum

/-- Each element of a word replaced by its own result (R176). -/
def perElem (f : Nat → Nat → Nat) (o : Cnt) : Exec Unit := do
  let n := width o.sz
  let x ← readG o.a
  let e (j : Nat) : Nat := f n (x.toNat / 2 ^ (n * j) % 2 ^ n)
  writeG o.d (BitVec.ofNat 64 (pack n ((List.range (64 / n)).map e)))

def execClz (o : Cnt) (s : State) : Out := retire (.clz o) (perElem clzOf o) s
def execCtz (o : Cnt) (s : State) : Out := retire (.ctz o) (perElem ctzOf o) s
def execFfs (o : Cnt) (s : State) : Out := retire (.ffs o) (perElem ffsOf o) s
def execPopc (o : Cnt) (s : State) : Out := retire (.popc o) (perElem popcOf o) s
def execBrev (o : Cnt) (s : State) : Out := retire (.brev o) (perElem brevOf o) s

/-- Position and effective length of a field descriptor (R177). -/
def fieldPos (d : Word) : Nat := bitsOf d 5 0
def fieldLen (d : Word) : Nat := min (bitsOf d 12 6) (64 - fieldPos d)

def extOf (sgn : Bool) (x d : Word) : Nat :=
  let len := fieldLen d
  let v := x.toNat / 2 ^ fieldPos d % 2 ^ len
  if sgn ∧ 0 < len then wrap 64 (signed len v) else v

def insOf (x d old : Word) : Nat :=
  let p := fieldPos d
  let len := fieldLen d
  old.toNat - old.toNat / 2 ^ p % 2 ^ len * 2 ^ p + x.toNat % 2 ^ len * 2 ^ p

def ext (o : Alu) : Exec Unit := do
  let x ← readG o.a
  let d ← srcVal o.src 64
  writeAlu false 64 o.d (extOf (tyI o.ty) x d, false, false)

def ins (o : Alu) : Exec Unit := do
  let x ← readG o.a
  let d ← srcVal o.src 64
  let old ← readG o.d
  writeAlu false 64 o.d (insOf x d old, false, false)

def execExt (o : Alu) (s : State) : Out := retire (.ext o) (ext o) s
def execIns (o : Alu) (s : State) : Out := retire (.ins o) (ins o) s

/-- SEXT and ZEXT (R178). -/
def extend (sgn : Bool) (o : Cnt) : Exec Unit := do
  let x ← readG o.a
  writeAlu false 64 o.d ((extendTo sgn (width o.sz) (low (width o.sz) x)).toNat, false, false)

def execSext (o : Cnt) (s : State) : Out := retire (.sext o) (extend true o) s
def execZext (o : Cnt) (s : State) : Out := retire (.zext o) (extend false o) s

/-! ## Compare and select (R179-R181) -/

/-- The flags of CMP. -/
def cmpFlags (n : Nat) (x y : Word) : Znvc :=
  let r := subFn false n (low n x) (low n y)
  resultFlags n r.1 r.2.1 r.2.2

def cmp (o : Alu) : Exec Unit := do
  let x ← readG o.a
  let y ← srcVal o.src (width o.sz)
  setZnvc (cmpFlags (width o.sz) x y)

def setc (cc : BitVec 4) (o : Alu) : Exec Unit := do
  let x ← readG o.a
  let y ← srcVal o.src (width o.sz)
  let f ← look fun s => s.cur.flags
  writeG o.d (if condHolds cc (withZnvc f (cmpFlags (width o.sz) x y).bits) then 1 else 0)

def sel (cc : BitVec 4) (d a b : Reg) : Exec Unit := do
  let f ← look fun s => s.cur.flags
  let x ← readG a
  let y ← readG b
  writeG d (if condHolds cc f then x else y)

def execCmp (o : Alu) (s : State) : Out := retire (.cmp o) (cmp o) s
def execSetc (cc : BitVec 4) (o : Alu) (s : State) : Out := retire (.setc cc o) (setc cc o) s
def execSel (cc : BitVec 4) (d a b : Reg) (s : State) : Out := retire (.sel cc d a b) (sel cc d a b) s

/-! ## Moves and addresses (R182-R184) -/

def mov (d a : Reg) : Exec Unit := do
  let x ← readG a
  writeG d x

/-- An F32 pattern converted exactly to F64 (R183). -/
def f32ToF64 (p : Nat) : Nat := (encodeFp (fpOf 12) ⟨0, false, 0⟩ (decodeFp (fpOf 13) p)).1

/-- The constant of MOVI and MOVL by TYPE: integer, F32 pattern, F32 converted to F64. -/
def moveConst (ty : BitVec 2) (int : Word) (f32 : Nat) : Word :=
  match ty.toNat with
  | 0 => int
  | 1 => BitVec.ofNat 64 f32
  | _ => BitVec.ofNat 64 (f32ToF64 f32)

def movi (ty : BitVec 2) (d : Reg) (imm : BitVec 20) : Exec Unit :=
  writeG d (moveConst ty (sext64 imm) (imm.toNat * 2 ^ 12))

def movl (ty : BitVec 2) (d : Reg) (src : Src) : Exec Unit :=
  match src with
  | .rl lit => writeG d (moveConst ty (sext64 lit) lit.toNat)
  | .rl64 lit => writeG d lit
  | _ => trap .illegal

def lea (d : Reg) (m : Mem) : Exec Unit := do
  let a ← look fun s => BitVec.ofNat 64 (((segBase (s.cur.getS m.seg)) + (s.cur.ea m).toNat) % 2 ^ 56)
  writeG d a

def execMov (d a : Reg) (s : State) : Out := retire (.mov d a) (mov d a) s
def execMovi (ty : BitVec 2) (d : Reg) (imm : BitVec 20) (s : State) : Out := retire (.movi ty d imm) (movi ty d imm) s
def execMovl (ty : BitVec 2) (d : Reg) (src : Src) (s : State) : Out := retire (.movl ty d src) (movl ty d src) s
def execLea (d : Reg) (m : Mem) (s : State) : Out := retire (.lea d m) (lea d m) s

end Sys2Proof.Machine
end

