-- ==== Sys2Proof/Machine/Control.lean ====
section
/-! DEFINITION. Control flow, private memory, control and segment registers, traps (R185-R205). -/

namespace Sys2Proof.Machine

/-! ## Branches (R187, R188) -/

/-- The target of a BR tail from the bundle's first head (R152). -/
def brTarget (pc : Word) (x : Br) : Word :=
  (pc &&& ~~~(0x3F : Word)) + sext64 x.lineoff * 64 + 2 + BitVec.ofNat 64 (2 * x.head.toNat)

def branchIf (taken : Bool) (x : Br) : Exec Unit := do
  let pc ← look fun s => s.focus.pc
  if taken then branchTo (brTarget pc x)

def branch (x : Br) : Exec Unit := branchIf true x

def branchCond (cc : BitVec 4) (x : Br) : Exec Unit := do
  let f ← look fun s => s.cur.flags
  branchIf (condHolds cc f) x

def branchZero (d : Reg) (x : Br) : Exec Unit := do
  let v ← readG d
  branchIf (v == 0) x

def branchNonzero (d : Reg) (x : Br) : Exec Unit := do
  let v ← readG d
  branchIf (v != 0) x

def loop (d : Reg) (x : Br) : Exec Unit := do
  let v ← readG d
  writeG d (v - 1)
  branchIf (v - 1 != 0) x

/-- CALL links the sequential successor in G15 (R145, R187). -/
def call (x : Br) : Exec Unit := do
  let succ ← look fun s => s.focus.next
  writeG 15 succ
  branch x

def jump (d : Reg) : Exec Unit := do
  let v ← readG d
  branchTo v

def execB (x : Br) (s : State) : Out := retire (.b x) (branch x) s
def execBc (cc : BitVec 4) (x : Br) (s : State) : Out := retire (.bc cc x) (branchCond cc x) s
def execBz (d : Reg) (x : Br) (s : State) : Out := retire (.bz d x) (branchZero d x) s
def execBnz (d : Reg) (x : Br) (s : State) : Out := retire (.bnz d x) (branchNonzero d x) s
def execLoop (d : Reg) (x : Br) (s : State) : Out := retire (.loop d x) (loop d x) s
def execCall (x : Br) (s : State) : Out := retire (.call x) (call x) s
def execRet (s : State) : Out := retire .ret (jump 15) s
def execJmp (d : Reg) (s : State) : Out := retire (.jmp d) (jump d) s

/-! ## Private memory (R190-R195) -/

/-- A loaded value of `z` bytes as its register takes it (R192). -/
def loaded (o : LdSt) (bs : List Byte) : Word := extendTo (tyI o.ty) (width o.sz) (natOf bs % 2 ^ width o.sz)

def ld (o : LdSt) : Exec Unit := do
  let z := width o.sz / 8
  let ea ← look fun s => s.cur.ea o.mem
  match ← privateMem o.mem z true false with
  | .near off => do
    let bs ← loadNear off z
    writeG o.d (loaded o bs)
  | .far ps => do
    let vas ← look fun s => s.cur.range o.mem z
    loadFar (.ld o) vas ps ea

def st (o : LdSt) : Exec Unit := do
  let z := width o.sz / 8
  let v ← readG o.d
  let p ← privateMem o.mem z false true
  storeAt p (bytesOf z v.toNat)

/-- LDP takes the lower 8 bytes to G[D] and the upper to G[D + 1] (R190). -/
def writePair (d : Reg) (bs : List Byte) : Exec Unit := do
  writeG d (wordOf bs 0)
  writeG (d + 1) (wordOf bs 8)

def ldp (d : Reg) (m : Mem) : Exec Unit := do
  let ea ← look fun s => s.cur.ea m
  match ← privateMem m 16 true false with
  | .near off => do
    let bs ← loadNear off 16
    writePair d bs
  | .far ps => do
    let vas ← look fun s => s.cur.range m 16
    loadFar (.ldp d m) vas ps ea

def stp (d : Reg) (m : Mem) : Exec Unit := do
  let lo ← readG d
  let hi ← readG (d + 1)
  let p ← privateMem m 16 false true
  storeAt p (bytesOf 8 lo.toNat ++ bytesOf 8 hi.toNat)

/-! ## Mailbox words (R193) -/

/-- R191 for a take, put or reset: SPACE must be 0, after the alignment check. R193 gives a full/empty bit to the words of the task
area; it does not say what an access with KIND does to a word of a berth, which S2 reaches: the model gives such words a bit too
(log 55). -/
def mailboxAt (m : Mem) (rd wr : Bool) : Exec Nat := do
  let seg ← look fun s => s.cur.getS m.seg
  let ea ← look fun s => (s.cur.ea m).toNat
  if !segOk seg ea 8 rd wr then trapSeg .seg seg ea
  let addr := segAddr seg ea
  if addr % 8 ≠ 0 then trapSeg .align seg ea
  if segSpace seg then trapSeg .prot seg ea
  return addr

/-- The earliest waiter of a kind at a word of a bank, and the bank without it. -/
def takeWaiter (take : Bool) (off : Nat) : List BankWait → Option (BankWait × List BankWait)
  | [] => none
  | w :: t =>
    if w.take = take ∧ w.off = off then some (w, t)
    else (takeWaiter take off t).map fun x => (x.1, w :: x.2)

/-- Bring a bank's completion to its waiter. -/
def bankAnswer (s : State) (w : BankWait) (v : Word) : State :=
  wakeTask s w.req fun x => { x with answers := x.answers ++ [⟨w.xid, none, 0, v, 0, []⟩] }

/-- The word has just been emptied: the earliest waiting put completes within the same access. -/
def afterEmpty (s : State) (core off : Nat) : State :=
  match takeWaiter false off (s.core core).banks with
  | some (w, rest) =>
    let s := s.modCore core fun c => { c with banks := rest }
    let s := overtake s w.req.slot w.req.task w.xid [(localKey core off, 8)]
    bankAnswer ((s.stores (localKey core off) (bytesOf 8 w.value.toNat)).setFull core off true) w 0
  | none => s

/-- The word has just been filled: the earliest waiting take completes within the same access and empties it. -/
def afterFull (s : State) (core off : Nat) : State :=
  match takeWaiter true off (s.core core).banks with
  | some (w, rest) =>
    let s := s.modCore core fun c => { c with banks := rest }
    bankAnswer (s.setFull core off false) w (s.loadWord (localKey core off))
  | none => s

/-- Wait at the bank in issue order. -/
def bankWait (i : Instr) (take : Bool) (off : Nat) (v : Word) : Exec Unit := do
  let x ← fun s => let (x, s) := s.fresh; .ok (x, s)
  modify' fun s => s.modCore s.me.coreKey fun c => { c with banks := c.banks ++ [⟨off, take, v, s.asker, x⟩] }
  parkOn i (.mailbox off x) (BitVec.ofNat 64 off)

def ldTake (o : LdSt) : Exec Unit := do
  let off ← mailboxAt o.mem true false
  let full ← look fun s => s.full s.me.coreKey off
  if full then do
    let bs ← loadNear off 8
    writeG o.d (loaded o bs)
    modify' fun s => afterEmpty (s.setFull s.me.coreKey off false) s.me.coreKey off
  else bankWait (.ldTake o) true off 0

def stPut (o : LdSt) : Exec Unit := do
  let v ← readG o.d
  let off ← mailboxAt o.mem false true
  let full ← look fun s => s.full s.me.coreKey off
  if full then bankWait (.stPut o) false off v
  else do
    storeNear off (bytesOf 8 v.toNat)
    modify' fun s => afterFull (s.setFull s.me.coreKey off true) s.me.coreKey off

def stReset (o : LdSt) : Exec Unit := do
  let v ← readG o.d
  let off ← mailboxAt o.mem false true
  storeNear off (bytesOf 8 v.toNat)
  modify' fun s => afterEmpty (s.setFull s.me.coreKey off false) s.me.coreKey off

def execLd (o : LdSt) (s : State) : Out := retire (.ld o) (ld o) s
def execLdTake (o : LdSt) (s : State) : Out := retire (.ldTake o) (ldTake o) s
def execSt (o : LdSt) (s : State) : Out := retire (.st o) (st o) s
def execStPut (o : LdSt) (s : State) : Out := retire (.stPut o) (stPut o) s
def execStReset (o : LdSt) (s : State) : Out := retire (.stReset o) (stReset o) s
def execLdp (d : Reg) (m : Mem) (s : State) : Out := retire (.ldp d m) (ldp d m) s
def execStp (d : Reg) (m : Mem) (s : State) : Out := retire (.stp d m) (stp d m) s

/-! ## Control registers (R158, R196, R197) -/

/-- REPST from the repetition buffer (R252). -/
def repst (r : Rep) : Word :=
  BitVec.ofNat 64 (b2n r.act * 2 ^ 63 + r.len * 2 ^ 58 + r.pos * 2 ^ 53 + r.left)

/-- TAGS (R262). -/
def tagsWord (x : Slot) : Word :=
  BitVec.ofNat 64 (x.tagBusy.toNat * 2 ^ 32 + x.tagStat.toNat * 2 ^ 16 + x.tagSet.toNat)

/-- TIME (R59): the launch's phase counter in reproducible mode, package time otherwise. -/
def timeOf (s : State) (r : SlotRef) : Word :=
  match s.launch (s.slot r).launch with
  | some l => if l.repro then l.count else BitVec.ofNat 64 s.cycle
  | none => BitVec.ofNat 64 s.cycle

/-- Physical cores of a die (R18). -/
def physCores : Nat := 8448

/-- A core number after a list of exchanges of two numbers each. -/
def swapped (ps : List (Nat × Nat)) (n : Nat) : Nat :=
  ps.foldl (fun n p => if n = p.1 % physCores then p.2 % physCores else if n = p.2 % physCores then p.1 % physCores else n) n

/-- The 256 spare cores of a die; which numbers they have is free (log 3). -/
def spares (die : Nat) : List Nat := (List.range 256).map fun i => swapped (Config.spareCores die) (8192 + i)

/-- PCORE of a core name: as bound at initialisation, which is free but gives two names two cores (log 3), or the spare that a
repair bound. -/
def pcoreOf (s : State) (core : Nat) : Nat :=
  match (s.core core).spare with
  | some p => p
  | none => swapped (Config.boundCores (dieOfCore core)) (core % 8192)

/-- PHYS (R18). -/
def physOf (s : State) (r : SlotRef) : Word :=
  let p := pcoreOf s r.coreKey
  BitVec.ofNat 64 (s.pkgid * 2 ^ 54 + r.die * 2 ^ 50 + r.cluster * 2 ^ 41 + r.core * 2 ^ 37 + r.slot * 2 ^ 33 +
    b2n ((spares r.die).contains p) * 2 ^ 32 + p)

/-- NETCAP (R361). -/
def netcap : Word := 0x4008404040

/-- A control register as MOVC reads it (R158). -/
def readCr (s : State) (r : SlotRef) (n : BitVec 7) : Word :=
  let x := s.slot r
  match n.toNat with
  | 0x00 => s.focus.pc
  | 0x01 => x.flags
  | 0x02 => x.rmode
  | 0x03 => x.round
  | 0x04 => laneOf s r
  | 0x05 => timeOf s r
  | 0x06 => tagsWord x
  | 0x07 => x.fa
  | 0x08 => x.fb
  | 0x09 => x.fs
  | 0x0A => repst x.rep
  | 0x0B => match s.launch x.launch with | some l => BitVec.ofNat 64 l.ebud | none => 0
  | 0x0C => x.cause
  | 0x0D => physOf s r
  | 0x0E => netcap
  | 0x10 => x.cw[0]
  | 0x11 => x.cw[1]
  | 0x12 => x.cw[2]
  | 0x13 => x.cw[3]
  | 0x14 => x.cw[4]
  | 0x15 => x.cw[5]
  | 0x16 => x.cw[6]
  | 0x17 => x.cw[7]
  | 0x18 => (x.getSd 0).image.extractLsb' 0 64
  | 0x19 => (x.getSd 1).image.extractLsb' 0 64
  | 0x1A => (x.getSd 2).image.extractLsb' 0 64
  | _ => (x.getSd 3).image.extractLsb' 0 64

def movc (d : Reg) (n : BitVec 7) : Exec Unit := do
  require (crReadable n) .illegal
  let v ← look fun s => readCr s s.me n
  writeG d v

/-- Values that MOVS refuses (R84, R159, R160, R197). -/
def crValueOk (n : BitVec 7) (v : Word) : Bool :=
  match n.toNat with
  | 0x01 => decide (bitsOf v 63 8 = 0)
  | 0x02 => decide (bitsOf v 63 56 = 0) && decide (bitsOf v 31 4 = 0) && decide (bitsOf v 2 0 < 6)
  | k => decide (k < 0x10) || (decide (bitsOf v 62 56 = 0) && decide (bitsOf v 1 0 = 0))

/-- A control register written: reserved bits of ROUND, FA, FB and FS are ignored (R5, R82, R117). -/
def writeCr (n : BitVec 7) (v : Word) (x : Slot) : Slot :=
  match n.toNat with
  | 0x01 => { x with flags := v }
  | 0x02 => { x with rmode := v }
  | 0x03 => { x with round := v &&& 0xFFFFFFFF }
  | 0x07 => { x with fa := v &&& 7 }
  | 0x08 => { x with fb := v &&& 7 }
  | 0x09 => { x with fs := v &&& 15 }
  | k => { x with cw := x.cw.setIfInBounds (k - 0x10) v }

def movs (n : BitVec 7) (src : Src) : Exec Unit := do
  require (crWritable n) .illegal
  let v ← srcVal src 64
  require (crValueOk n v) .illegal
  modMe (writeCr n v)

def execMovc (d : Reg) (n : BitVec 7) (s : State) : Out := retire (.movc d n) (movc d n) s
def execMovs (n : BitVec 7) (src : Src) (s : State) : Out := retire (.movs n src) (movs n src) s

/-! ## Segment registers (R198-R200) -/

/-- A writable core-local segment of a slot, the berth's S2 left out (R199). -/
def ownsWritable (x : Slot) (base len : Nat) : Bool :=
  (List.finRange 8).any fun k =>
    let g := x.s[k]
    segWr g && !segSpace g && !(k = 2 && x.capsule.isSome) && overlaps base len (segBase g) (segLimit g)

/-- Another occupied slot of the core holds an overlapping writable segment (R199). -/
def overlapHit (s : State) (r : SlotRef) (base len : Nat) : Bool :=
  (List.range 8).any fun j => decide (j ≠ r.slot) && (s.slot { r with slot := j }).occupied &&
    ownsWritable (s.slot { r with slot := j }) base len

/-- Reserved bits of a segment image (R157). -/
def segReserved (g : BitVec 128) : Bool := decide (bitsOf g 127 120 ≠ 0) || decide (bitsOf g 59 56 ≠ 0)

/-- The checks of R198 on an image, then the write. -/
def segldWith (d : SReg) (g : BitVec 128) : Exec Unit := do
  if segReserved g || (segEx g && segWr g) then trap .illegal
  if !segSpace g && decide (0x60000 < segBase g + segLimit g) then trap .prot
  if segSpace g && decide (2 ^ 56 < segBase g + segLimit g) then trap .prot
  let hit ← look fun s => s.mine && segWr g && !segSpace g && overlapHit s s.me (segBase g) (segLimit g)
  if hit then trap .segOverlap
  modMe fun x => x.setS d g

/-- SEGLD of S2 while the task holds a capsule faults ILLEGAL (R298). -/
def segld (d : SReg) (m : Mem) : Exec Unit := do
  let held ← look fun s => s.cur.capsule.isSome
  require (!(d == 2 && held)) .illegal
  let ea ← look fun s => s.cur.ea m
  match ← privateMem m 16 true false with
  | .near off => do
    let bs ← loadNear off 16
    segldWith d (BitVec.ofNat 128 (natOf bs))
  | .far ps => do
    let vas ← look fun s => s.cur.range m 16
    loadFar (.segld d m) vas ps ea

def segrd (hi : Bool) (d : Reg) (a : SReg) : Exec Unit := do
  let g ← look fun s => s.cur.getS a
  writeG d (if hi then g.extractLsb' 64 64 else g.extractLsb' 0 64)

def execSegld (d : SReg) (m : Mem) (s : State) : Out := retire (.segld d m) (segld d m) s
def execSegrd (hi : Bool) (d : Reg) (a : SReg) (s : State) : Out := retire (.segrd hi d a) (segrd hi d a) s

/-! ## Trap, breakpoint, snapshot, no-op (R201-R205) -/

def execTrap (imm : BitVec 20) (s : State) : Out :=
  retire (.trap imm) (stop (.trap .trap ⟨0, none, none, BitVec.ofNat 64 imm.toNat⟩)) s

/-- BRK halts its slot when the launch's debug enable is set, with an event record (R202). -/
def breakpoint : Exec Unit := modify' fun s =>
  match s.myLaunch with
  | some l =>
    if l.debug then
      let r := recordOf s s.asker 1 false .trap ⟨s.focus.pc, none, none, 0xFFFFF⟩
      (s.modCur fun x => { x with halt := .debug }).record s.me.die r
    else s
  | none => s

def execBrk (s : State) : Out := retire .brk breakpoint s

/-- SNAP requests a snapshot when its die is enabled; a pending request takes it in (R205, R463). -/
def snapRequest : Exec Unit := modify' fun s =>
  if s.snapEnable / 2 ^ s.me.die % 2 = 1 then { s with snapAt := some (s.snapAt.getD (s.cycle + 128)) } else s

def execSnap (s : State) : Out := retire .snap snapRequest s

def execNop (s : State) : Out := retire .nop (pure ()) s

end Sys2Proof.Machine
end

