-- ==== Sys2Proof/Machine/Sched.lean ====
section
/-! DEFINITION. Where a posted record goes: hash, bucket, lane and cluster queue (R378-R380, R38, R39). -/

namespace Sys2Proof.Machine

/-- R378. -/
def recordHash (data : Word) : Word := hcm64 0 data
def recordBucket (r : Record) : Nat := bitsOf (recordHash r.data) 7 0

/-- R380. -/
def Launch.laneOf (l : Launch) (data : Word) : Nat :=
  if l.lmap then data.toNat % l.lanes else (recordHash data).toNat * l.lanes / 2 ^ 64

/-- Entry `k mod n` of a list of n. -/
def nthOr (l : List Nat) (k d : Nat) : Nat := l.getD (k % l.length) d

/-- Bound clusters of the dies that take part in a launch: a reset die takes part in none (R422; log 40). -/
def Launch.clustersUp (l : Launch) (s : State) : List Nat := (l.clusters s).filter fun c => !s.absent (c / 512)

/-- The cluster whose queue a record enters (R379, R380). -/
def spawnCluster (s : State) (l : Launch) (data : Word) : Nat :=
  let h := recordHash data
  let cs := l.clustersUp s
  if l.repro then
    match l.laneSlot s (l.laneOf data) with
    | some r => r.clusterKey
    | none => 0
  else
    let k := gaKey data
    let named := keyOff k / 2 ^ 37
    let die := s.homeDie k
    let mine := cs.filter fun c => decide (c / 512 = die)
    if gaPkg data = s.pkgid ∧ keyRegion k ≤ 1 ∧ cs.contains named then named
    else if gaPkg data = s.pkgid ∧ keyRegion k = 3 ∧ mine ≠ [] then nthOr mine (bitsOf h 47 32) 0
    else nthOr cs (bitsOf h 63 32) 0

/-- Records the overflow area of a die holds (R39). -/
def spillPlaces : Nat := 1048576

/-- Place a record in a cluster queue, or in its die's overflow area when the queue is full or records of the queue are
still spilled; none when neither has room (R39), or the die takes no part in the launch (R422; log 40). -/
def placeRecord (s : State) (cluster : Nat) (r : Record) : Option State :=
  let q := s.queue cluster
  let die := cluster / 512
  let d := s.die die
  if s.absent die then none
  else if q.length < 256 ∧ !(d.spill.any fun x => decide (x.1 = cluster)) then some (s.setQueue cluster (q ++ [r]))
  else if d.spill.length < spillPlaces then some (s.setDie die { d with spill := d.spill ++ [(cluster, r, recordBucket r)] })
  else none

/-- Post a record of a launch (R293). A launch that is gone takes no record. -/
def postRecord (s : State) (r : Record) : Option State :=
  match s.launch r.launch with
  | some l => placeRecord s (spawnCluster s l r.data) { r with lane := if l.repro then l.laneOf r.data else 0 }
  | none => some s

end Sys2Proof.Machine
end

