-- ==== Sys2Proof/Machine/Lattice.lean ====
section
/-! DEFINITION. Joins, fences, threshold and exact reads, plots, tiles and names, as a task issues them (R257-R281). -/

namespace Sys2Proof.Machine

/-! ## Join types (R258) -/

/-- Kind numbers of R102. -/
def kindMax : Nat := 0
def kindMin : Nat := 1
def kindUnion : Nat := 2
def kindIsect : Nat := 3
def kindCount : Nat := 4
def kindFill : Nat := 5

def jtKind (jt : BitVec 7) : Nat :=
  match jt.toNat / 32 with
  | 0 => kindMax
  | 1 => kindMin
  | 2 => kindFill
  | _ => if jt.toNat % 32 < 8 then kindCount else if jt.toNat % 32 < 16 then kindUnion else kindIsect

def jtFmt (jt : BitVec 7) : Nat :=
  if jtKind jt = kindIsect then jt.toNat % 16 else jt.toNat % 32

/-- A new transaction number. -/
def freshX : Exec Nat := fun s => let (x, s) := s.fresh; .ok (x, s)

/-- Send a message to the home of a key. -/
def sendHome (k : Nat) (m : Instr) : Exec Unit := modify' fun s => s.post s.me.die (s.homeDie k) m

/-- The GA of a key. -/
def gaWord (k : Nat) : Exec Word := look fun s => gaOf s k

/-- First key of checked pieces. -/
def firstKey (ps : List (Nat × Nat)) : Nat := (ps.head?.map Prod.fst).getD 0

/-- R259 on a memory operand of `z` bytes, aligned to `z`. -/
def latticeMem (m : Mem) (z : Nat) (rd wr : Bool) : Exec Nat := do
  let seg ← look fun s => s.cur.getS m.seg
  let ea ← look fun s => (s.cur.ea m).toNat
  let ps ← latticeAt seg ea z z rd wr
  return firstKey ps

def latticeMemR (m : MemR) (z al : Nat) (rd wr : Bool) : Exec (List (Nat × Nat)) := do
  let seg ← look fun s => s.cur.getS m.seg
  let ea ← look fun s => (s.cur.eaR m).toNat
  latticeAt seg ea z al rd wr

/-- R260 on a register in a segment. -/
def localReg (k : SReg) (b : Reg) (n : Nat) (rd wr : Bool) : Exec Nat := do
  let seg ← look fun s => s.cur.getS k
  let ea ← readG b
  localAt seg ea.toNat n rd wr

def localMemR (m : MemR) (n : Nat) (rd wr : Bool) : Exec Nat := do
  let seg ← look fun s => s.cur.getS m.seg
  let ea ← look fun s => (s.cur.eaR m).toNat
  localAt seg ea n rd wr

/-- Count one request whose home is at `k` (R107). -/
def counted (k : Nat) : Exec AckTo := do
  modify' fun s => countAt s k
  look fun s => .scope (scopeOf s.sliceMoved s.me k)

/-! ## Joins and fences (R264, R265, R267) -/

def join (o : LatMem) : Exec Unit := do
  let w := fmtWidth (jtFmt o.jt)
  let v ← readG o.d
  let k ← latticeMem o.mem (w / 8) false true
  let x ← freshX
  let ack ← counted k
  let ga ← gaWord k
  let q ← look State.asker
  sendHome k (.joinPacket ⟨q, x, ack, ga, jtKind o.jt, jtFmt o.jt, BitVec.ofNat 64 (low w v)⟩)

/-- JOINF parks for its pre-value (R115). R107 names it among the joins that the slot counts, and R349 has it not counted: the model
follows R349 (log 60). -/
def joinf (i : Instr) (jt : BitVec 7) (b : Reg) (m : MemR) : Exec Unit := do
  require (jt == 0x66 || jt == 0x67) .illegal
  let w := fmtWidth (jtFmt jt)
  let v ← readG b
  let ps ← latticeMemR m (w / 8) (w / 8) true true
  let x ← freshX
  let ga ← gaWord (firstKey ps)
  let q ← look State.asker
  let round ← look fun s => s.cur.round
  sendHome (firstKey ps) (.valueCountRequest ⟨q, x, ga, jtFmt jt, BitVec.ofNat 64 (low w v), q.llane.toNat, round.toNat % 2 ^ 32⟩)
  parkOn i (.answers [x]) 0

/-- The counters of scopes 2 to `top` are zero. -/
def fenceMet (x : Slot) (top : Nat) : Bool :=
  (List.range 7).all fun k => decide (k < 2) || decide (top < k) || decide (x.unack.getD k 0 = 0)

/-- Scopes 2 to `top` as a mask of fault-pending bits. -/
def scopeMask (top : Nat) : BitVec 8 := BitVec.ofNat 8 (2 ^ (min top 6 + 1) - 4)

/-- The end of a fence: F, and the fault-pending bits cleared. -/
def fenceEnd (top : Nat) (x : Slot) : Slot :=
  if top < 2 then x
  else
    let hit := x.faultPending &&& scopeMask top ≠ 0
    { x with
      flags := if hit then x.flags ||| 0x10 else x.flags
      faultPending := x.faultPending &&& ~~~(scopeMask top) }

def jfence (scope : BitVec 3) : Exec Unit := do
  let x ← look fun s => s.cur
  if fenceMet x scope.toNat then modMe (fenceEnd scope.toNat) else parkOn (.jfence scope) (.fence scope.toNat) 0

def execJoin (o : LatMem) (s : State) : Out := retire (.join o) (join o) s
def execJoinf (jt : BitVec 7) (d b : Reg) (m : MemR) (s : State) : Out :=
  retire (.joinf jt d b m) (joinf (.joinf jt d b m) jt b m) s
def execJfence (scope : BitVec 3) (s : State) : Out := retire (.jfence scope) (jfence scope) s

/-! ## Threshold and exact reads (R269-R271) -/

def lthWidth (o : Lth) : Nat := 8 * 2 ^ o.sz.toNat

/-- The triggers, their low w bits. -/
def lthTriggers (o : Lth) : Exec (List Word) := look fun s =>
  let x := s.cur
  let all := match o.more with
    | none => [x.getG o.b]
    | some (c, e, lit) => [x.getG o.b, x.getG c, x.getG e, lit]
  (all.take (o.nt.toNat + 1)).map fun t => BitVec.ofNat 64 (low (lthWidth o) t)

def lth (o : Lth) : Exec Unit := do
  require (decide (o.kind.toNat < 6) && (o.kind != 5 || o.d.toNat % 2 == 0)) .illegal
  let ts ← lthTriggers o
  require (!((decide (1 < ts.length) && o.kind != 5) || (o.filled && decide (1 < ts.length)) || !decide ts.Nodup)) .triggerCompat
  let ps ← latticeMemR o.mem (lthWidth o / 8) (lthWidth o / 8) true false
  let x ← freshX
  let ga ← gaWord (firstKey ps)
  let q ← look State.asker
  sendHome (firstKey ps) (.thresholdRegistration ⟨q, x, ga, .lth o.kind.toNat (lthWidth o) o.filled ts⟩)
  parkOn (.lth o) (.answers [x]) 0

def ldf (o : LatMem) : Exec Unit := do
  let w := fmtWidth (jtFmt o.jt)
  let k ← latticeMem o.mem (w / 8) true false
  let x ← freshX
  let ga ← gaWord k
  let q ← look State.asker
  sendHome k (.exactRead ⟨q, x, ga, jtKind o.jt, jtFmt o.jt⟩)
  parkOn (.ldf o) (.answers [x]) 0

def execLth (o : Lth) (s : State) : Out := retire (.lth o) (lth o) s
def execLdf (o : LatMem) (s : State) : Out := retire (.ldf o) (ldf o) s

/-! ## Plots (R272-R274) -/

/-- Keys of the plots of checked pieces, in order. -/
def plotKeys (ps : List (Nat × Nat)) : List Nat :=
  ps.flatMap fun p => (List.range (p.2 / 4096)).map fun i => p.1 + 4096 * i

/-- One request for each plot, and the park on all their answers. -/
def sendPlots (i : Instr) (mk : PlotPkt → Instr) (va : Nat) (desc : Word) (ks : List Nat) : Exec Unit := do
  let xs ← fun s =>
    let r := ks.foldl (fun (a : List Nat × Nat × State) k =>
      let (x, t) := a.2.2.fresh
      (x :: a.1, a.2.1 + 4096, t.post t.me.die (s.homeDie k)
        (mk ⟨t.asker, x, gaOf t k, BitVec.ofNat 64 a.2.1, desc⟩))) ([], va, s)
    .ok (r.1.reverse, r.2.2)
  parkOn i (.answers xs) (BitVec.ofNat 64 va)

/-- The zero fields and alignments of a plot descriptor (R272). -/
def plotDescOk (v : Word) (addr : Nat) : Bool :=
  let gran := bitsOf v 4 0
  let n := (bitsOf v 31 16 + 1) * 4096
  decide (bitsOf v 63 49 = 0) && decide (bitsOf v 7 5 = 0) &&
  (decide (gran ≤ 12) || (decide (addr % 2 ^ gran = 0) && decide (n % 2 ^ gran = 0)))

def plotReq (b : Reg) (m : MemR) : Exec Unit := do
  let v ← readG b
  let seg ← look fun s => s.cur.getS m.seg
  let ea ← look fun s => (s.cur.eaR m).toNat
  require (plotDescOk v (segAddr seg ea)) .illegal
  let ps ← latticeAt seg ea ((bitsOf v 31 16 + 1) * 4096) 4096 false true
  sendPlots (.plot b m) .plotRequest (segAddr seg ea) v (plotKeys ps)

def freeze (b : Reg) (m : MemR) : Exec Unit := do
  let v ← readG b
  if v = 0 then return ()
  require (decide (v.toNat ≤ 65536)) .illegal
  let seg ← look fun s => s.cur.getS m.seg
  let ea ← look fun s => (s.cur.eaR m).toNat
  let ps ← latticeAt seg ea (v.toNat * 4096) 4096 false true
  sendPlots (.freeze b m) .freezeRequest (segAddr seg ea) v (plotKeys ps)

def execPlot (b : Reg) (m : MemR) (s : State) : Out := retire (.plot b m) (plotReq b m) s
def execFreeze (b : Reg) (m : MemR) (s : State) : Out := retire (.freeze b m) (freeze b m) s

/-! ## Tiles and names (R275-R281) -/

/-- Send a fill of bytes to a key; it counts as a join (R107, R275). -/
def sendFill (k gran fmt : Nat) (named : Option Word) (bs : List Byte) : Exec Unit := do
  let x ← freshX
  let ack ← counted k
  let ga ← gaWord k
  let q ← look State.asker
  sendHome k (.tileFill ⟨q, x, ack, ga, gran, fmt, named, bs⟩)

/-- Tile bytes of a size field (R275). -/
def tileSize (n : BitVec 4) : Nat := 2 ^ (n.toNat + 8)

def fillt (n : BitVec 4) (fmt : BitVec 5) (k : SReg) (b : Reg) (m : MemR) : Exec Unit := do
  require (decide (n.toNat ≤ 8)) .illegal
  let ps ← latticeMemR m (tileSize n) (tileSize n) false true
  let off ← localReg k b (tileSize n) true false
  let bs ← loadNear off (tileSize n)
  sendFill (firstKey ps) (n.toNat + 8) fmt.toNat none bs

/-- Send an interest to the cluster's own router (R124). -/
def sendInterest (tag : Option Nat) (name : Word) (n : Nat) (off : Nat) : Exec Nat := do
  let x ← freshX
  modify' fun s => s.post s.me.die s.me.die
    (.interest s.me.clusterKey s.me.clusterKey ⟨s.asker, x, tag, name, n, BitVec.ofNat 64 off, s.cycle, false⟩)
  return x

def ldt (n : BitVec 4) (b : Reg) (m : MemR) : Exec Unit := do
  require (decide (n.toNat ≤ 8)) .illegal
  let off ← localMemR m (tileSize n) false true
  let name ← readG b
  let x ← sendInterest none name (n.toNat + 8) off
  parkOn (.ldt n b m) (.answers [x]) (BitVec.ofNat 64 off)

def ldtAddr (n : BitVec 4) (k : SReg) (b : Reg) (m : MemR) : Exec Unit := do
  require (decide (n.toNat ≤ 8)) .illegal
  let off ← localMemR m (tileSize n) false true
  let seg ← look fun s => s.cur.getS k
  let ea ← readG b
  let ps ← latticeAt seg ea.toNat (tileSize n) (tileSize n) true false
  let x ← freshX
  let ga ← gaWord (firstKey ps)
  let q ← look State.asker
  sendHome (firstKey ps) (.thresholdRegistration ⟨q, x, ga, .ldtAddr (n.toNat + 8)⟩)
  parkOn (.ldtAddr n k b m) (.answers [x]) (BitVec.ofNat 64 off)

def npub (o : NamOp) : Exec Unit := do
  require (decide (o.n.toNat ≤ 8)) .illegal
  let name ← regLitVal o.name
  let off ← localReg o.k o.loc (tileSize o.n) true false
  let x ← freshX
  let q ← look State.asker
  modify' fun s => s.post s.me.die granaryDie (.nameResolution ⟨q, x, name, o.n.toNat + 8⟩)
  parkOn (.npub o) (.answers [x]) (BitVec.ofNat 64 off)

/-! Tags (R263). -/

def tagBit (t : Nat) : BitVec 16 := 1#16 <<< t

/-- Put a tag to work: not while it is BUSY. -/
def tagStart (t : Tag) : Exec Unit := do
  let busy ← look fun s => s.cur.tagBusy.getLsbD t.toNat
  require (!busy) .illegal
  modMe fun x => { x with
    tagSet := x.tagSet &&& ~~~(tagBit t.toNat)
    tagStat := x.tagStat &&& ~~~(tagBit t.toNat)
    tagCode := x.tagCode.set t.toNat 0 t.isLt
    tagBusy := x.tagBusy ||| tagBit t.toNat }

/-- A tag completes with a status code. -/
def tagDone (t code : Nat) (x : Slot) : Slot :=
  { x with
    tagBusy := x.tagBusy &&& ~~~(tagBit t)
    tagSet := x.tagSet ||| tagBit t
    tagStat := if code = 0 then x.tagStat else x.tagStat ||| tagBit t
    tagCode := x.tagCode.setIfInBounds t (BitVec.ofNat 8 code) }

def nwant (tag : Tag) (o : NamOp) : Exec Unit := do
  require (decide (o.n.toNat ≤ 8)) .illegal
  tagStart tag
  let name ← regLitVal o.name
  let off ← localReg o.k o.loc (tileSize o.n) false true
  let _ ← sendInterest (some tag.toNat) name (o.n.toNat + 8) off
  return ()

def nclose (a : Reg) (t : RegImm) : Exec Unit := do
  let v ← readG a
  let it ← regImmVal t
  let x ← freshX
  let q ← look State.asker
  modify' fun s => s.post s.me.die granaryDie (.closeRequest ⟨q, x, bitsOf v 15 0, bitsOf it 15 0, false⟩)
  parkOn (.nclose a t) (.answers [x]) 0

/-- NTENS once its image has been read: the request goes to the tensor table. -/
def ntensWith (i : Instr) (num : Word) (bs : List Byte) : Exec Unit := do
  let x ← freshX
  let q ← look State.asker
  modify' fun s => s.post s.me.die granaryDie (.tensorTableWrite ⟨q, x, num, bs⟩)
  parkOn i (.answers [x]) 0

/-- The image is read as a private load; `ea` of the park keeps the tensor number. -/
def ntens (i : Instr) (d : Reg) (m : Mem) : Exec Unit := do
  let num ← readG d
  match ← privateMem m 64 true false with
  | .near off => do
    let bs ← loadNear off 64
    ntensWith i num bs
  | .far ps => do
    let vas ← look fun s => s.cur.range m 64
    loadFar i vas ps num

def execFillt (n : BitVec 4) (f : BitVec 5) (k : SReg) (b : Reg) (m : MemR) (s : State) : Out :=
  retire (.fillt n f k b m) (fillt n f k b m) s
def execLdt (n : BitVec 4) (b : Reg) (m : MemR) (s : State) : Out := retire (.ldt n b m) (ldt n b m) s
def execLdtAddr (n : BitVec 4) (k : SReg) (b : Reg) (m : MemR) (s : State) : Out :=
  retire (.ldtAddr n k b m) (ldtAddr n k b m) s
def execNpub (o : NamOp) (s : State) : Out := retire (.npub o) (npub o) s
def execNwant (t : Tag) (o : NamOp) (s : State) : Out := retire (.nwant t o) (nwant t o) s
def execNclose (a : Reg) (t : RegImm) (s : State) : Out := retire (.nclose a t) (nclose a t) s
def execNtensCreate (d : Reg) (m : Mem) (s : State) : Out := retire (.ntensCreate d m) (ntens (.ntensCreate d m) d m) s
def execNtensDelete (d : Reg) (m : Mem) (s : State) : Out := retire (.ntensDelete d m) (ntens (.ntensDelete d m) d m) s

end Sys2Proof.Machine
end

