-- ==== Sys2Proof/Machine/Copies.lean ====
section
/-! DEFINITION. Copies, tag waits and SPAWN as a task issues them (R282-R287, R290-R294). -/

namespace Sys2Proof.Machine

/-! ## The copy mailbox (R282) -/

/-- Place an entry, or park until the carter takes one. -/
def placeCopy (i : Instr) (c : CopyReq) : Exec Unit := do
  let n ← look fun s => s.cur.mailbox.length
  if n < 4 then modMe fun x => { x with mailbox := x.mailbox ++ [c] } else parkOn i (.copyPlace c) 0

/-- A range check for limit and rights, without alignment (R283). -/
def rangeOk (seg : BitVec 128) (ea z : Nat) (rd wr : Bool) : Exec Unit := do
  if !segOk seg ea z rd wr then trapSeg .seg seg ea

/-- The check of a notify location (R283). -/
def notifyOk (seg : BitVec 128) (ea : Nat) : Exec Unit := latticeSeg seg ea 8 8 false true

def copy (i : Instr) (tag : Tag) (nj : Bool) (nseg sseg : SReg) (b : Reg) (m : MemR) : Exec Unit := do
  require (decide (b.toNat ≤ if nj then 13 else 14)) .illegal
  tagStart tag
  let x ← look fun s => s.cur
  let dst := (x.eaR m).toNat
  let src := (x.getG b).toNat
  let len := (x.getG (b + 1)).toNat
  let note := (x.getG (b + 2)).toNat
  require (decide (len < 2 ^ 32)) .illegal
  rangeOk (x.getS m.seg) dst len false true
  rangeOk (x.getS sseg) src len true false
  if nj then notifyOk (x.getS nseg) note
  if len = 0 then modMe (tagDone tag.toNat 0)
  else
    let q ← look State.asker
    placeCopy i ⟨tag.toNat, q, .plain src dst len, x.getS m.seg, x.getS sseg, x.getS nseg, if nj then some note else none⟩

/-! ## Descriptors -/

def byteAt (bs : List Byte) (k : Nat) : Nat := fieldOf bs k 1
/-- SEGS and NOTE bytes of a descriptor (R284-R286). -/
def segsOk (segs note : Nat) : Bool := decide (segs / 8 % 2 = 0) && decide (segs < 128) && decide (note < 16)
def sregOf (n : Nat) : SReg := BitVec.ofNat 3 n

/-- A signed field of `n` bytes. -/
def signedField (bs : List Byte) (lo n : Nat) : Int := signed (8 * n) (fieldOf bs lo n)

/-- A tile descriptor of COPYT, with fields in range (R285). -/
def tileDescOk (bs : List Byte) : Bool :=
  let f := byteAt bs 36
  let rows := fieldOf bs 32 2
  let cols := fieldOf bs 34 2
  let w := fmtWidth f / 8
  let pitch := fieldOf bs 56 4
  decide (1 ≤ rows) && decide (rows ≤ 256) && decide (1 ≤ cols) && decide (cols ≤ 256) &&
  decide (f < 20) && decide (f ≠ fmtE2M1) && segsOk (byteAt bs 37) (byteAt bs 38) && decide (byteAt bs 39 = 0) &&
  decide (cols * w ≤ pitch) && decide (pitch % w = 0) && decide (fieldOf bs 60 4 = 0)

/-- COPYT once its descriptor has been read. -/
def copytWith (i : Instr) (tag : Tag) (bs : List Byte) : Exec Unit := do
  require (tileDescOk bs) .illegal
  let x ← look fun s => s.cur
  let sseg := x.getS (sregOf (byteAt bs 37))
  let dseg := x.getS (sregOf (byteAt bs 37 / 16))
  let nseg := x.getS (sregOf (byteAt bs 38 / 2))
  let nj := byteAt bs 38 % 2 = 1
  let size := (fieldOf bs 32 2 - 1) * fieldOf bs 56 4 + fieldOf bs 34 2 * (fmtWidth (byteAt bs 36) / 8)
  rangeOk dseg (fieldOf bs 48 8) size false true
  if nj then notifyOk nseg (fieldOf bs 40 8)
  let q ← look State.asker
  placeCopy i ⟨tag.toNat, q, .tile (BitVec.ofNat 512 (natOf bs)), dseg, sseg, nseg,
    if nj then some (fieldOf bs 40 8) else none⟩

/-- Fields of a deal descriptor (R286). -/
def dealOk (bs : List Byte) : Bool :=
  decide (1 ≤ fieldOf bs 24 4) && decide (fieldOf bs 24 4 ≤ 2 ^ 20) && decide (1 ≤ fieldOf bs 28 4) &&
  decide (1 ≤ byteAt bs 32) && decide (byteAt bs 32 ≤ 64) && segsOk (byteAt bs 33) (byteAt bs 34) &&
  decide (fieldOf bs 35 5 = 0) && decide (fieldOf bs 56 8 = 0)

/-- Blocks that destination `d` receives. -/
def dealBlocks (bs : List Byte) (d : Nat) : Nat := (fieldOf bs 28 4 + byteAt bs 32 - 1 - d) / byteAt bs 32
/-- Destinations that receive a block. -/
def dealDests (bs : List Byte) : Nat := min (byteAt bs 32) (fieldOf bs 28 4)
def dealDst (bs : List Byte) (d : Nat) : Nat := wrap 64 ((fieldOf bs 8 8 : Int) + d * signedField bs 16 8)
def dealNote (bs : List Byte) (d : Nat) : Nat := wrap 64 ((fieldOf bs 40 8 : Int) + d * signedField bs 48 8)

/-- Check the destinations of a deal one after another. -/
def dealChecks (bs : List Byte) (dseg nseg : BitVec 128) (nj : Bool) : List Nat → Exec Unit
  | [] => return ()
  | d :: t => do
    rangeOk dseg (dealDst bs d) (dealBlocks bs d * fieldOf bs 24 4) false true
    if nj then notifyOk nseg (dealNote bs d)
    dealChecks bs dseg nseg nj t

/-- COPYD once its descriptor has been read. -/
def copydWith (i : Instr) (tag : Tag) (bs : List Byte) : Exec Unit := do
  require (dealOk bs) .illegal
  let x ← look fun s => s.cur
  let sseg := x.getS (sregOf (byteAt bs 33))
  let dseg := x.getS (sregOf (byteAt bs 33 / 16))
  let nseg := x.getS (sregOf (byteAt bs 34 / 2))
  let nj := byteAt bs 34 % 2 = 1
  rangeOk sseg (fieldOf bs 0 8) (fieldOf bs 28 4 * fieldOf bs 24 4) true false
  dealChecks bs dseg nseg nj (List.range (dealDests bs))
  let q ← look State.asker
  placeCopy i ⟨tag.toNat, q, .deal (BitVec.ofNat 512 (natOf bs)), dseg, sseg, nseg,
    if nj then some (fieldOf bs 40 8) else none⟩

/-- A copy whose 64-byte descriptor is a private load; a far one resumes with its bytes. -/
def copyDesc (i : Instr) (tag : Tag) (m : MemR) (go : Instr → Tag → List Byte → Exec Unit) : Exec Unit := do
  tagStart tag
  let seg ← look fun s => s.cur.getS m.seg
  let ea ← look fun s => s.cur.eaR m
  match ← privateAt seg ea.toNat 64 64 true false with
  | .near off => do
    let bs ← loadNear off 64
    go i tag bs
  | .far ps => loadFar i [(segAddr seg ea.toNat, 64)] ps 0

/-- COPYA once its descriptor has been read (R284, R287). -/
def copyaWith (i : Instr) (tag : Tag) (t loc : Word) (bs : List Byte) : Exec Unit := do
  require (segsOk (byteAt bs 20) (byteAt bs 21) && decide (fieldOf bs 22 2 = 0)) .illegal
  let x ← look fun s => s.cur
  let sseg := x.getS (sregOf (byteAt bs 20))
  let dseg := x.getS (sregOf (byteAt bs 20 / 16))
  let nseg := x.getS (sregOf (byteAt bs 21 / 2))
  let nj := byteAt bs 21 % 2 = 1
  rangeOk dseg (fieldOf bs 8 8) (fieldOf bs 16 4) false true
  rangeOk sseg (fieldOf bs 0 8) (fieldOf bs 16 4) true false
  if nj then notifyOk nseg (fieldOf bs 24 8)
  let q ← look State.asker
  placeCopy i ⟨tag.toNat, q, .arm (fieldOf bs 0 8) (fieldOf bs 8 8) (fieldOf bs 16 4) loc t, dseg, sseg, nseg,
    if nj then some (fieldOf bs 24 8) else none⟩

def copya (i : Instr) (tag : Tag) (k : SReg) (b : Reg) (t : Word) (m : MemR) : Exec Unit := do
  require (t != BitVec.allOnes 64) .illegal
  tagStart tag
  let ps ← latticeMemR m 8 8 true false
  let loc ← gaWord (firstKey ps)
  let seg ← look fun s => s.cur.getS k
  let ea ← readG b
  match ← privateAt seg ea.toNat 32 32 true false with
  | .near off => do
    let bs ← loadNear off 32
    copyaWith i tag t loc bs
  | .far ps => loadFar i [(segAddr seg ea.toNat, 32)] ps loc

def execCopy (t : Tag) (nj : Bool) (ns ss : SReg) (b : Reg) (m : MemR) (s : State) : Out :=
  retire (.copy t nj ns ss b m) (copy (.copy t nj ns ss b m) t nj ns ss b m) s
def execCopyt (t : Tag) (m : MemR) (s : State) : Out := retire (.copyt t m) (copyDesc (.copyt t m) t m copytWith) s
def execCopyd (t : Tag) (m : MemR) (s : State) : Out := retire (.copyd t m) (copyDesc (.copyd t m) t m copydWith) s
def execCopya (t : Tag) (k : SReg) (b : Reg) (v : BitVec 64) (m : MemR) (s : State) : Out :=
  retire (.copya t k b v m) (copya (.copya t k b v m) t k b v m) s

/-! ## Waiting on tags (R290-R292) -/

def tagMask (m : RegImm) : Exec (BitVec 16) := do
  let v ← regImmVal m
  return v.extractLsb' 0 16

def tagsMet (x : Slot) (m : BitVec 16) (all : Bool) : Bool :=
  if all then decide (x.tagSet &&& m = m) else decide (x.tagSet &&& m ≠ 0)

/-- What a met wait writes. -/
def tagsResult (x : Slot) (m : BitVec 16) (all : Bool) : Word :=
  if all then (x.tagStat &&& m).zeroExtend 64 else (x.tagSet &&& m).zeroExtend 64

def waitTags (i : Instr) (all : Bool) (d : Reg) (m : RegImm) : Exec Unit := do
  let k ← tagMask m
  let x ← look fun s => s.cur
  let known := x.tagBusy ||| x.tagSet
  require (if all then decide (known &&& k = k) else decide (known &&& k ≠ 0)) .illegal
  if tagsMet x k all then writeG d (tagsResult x k all) else parkOn i (.tags k all) 0

def fready (d a : Reg) : Exec Unit := do
  let g ← readG a
  let x ← look fun s => s.cur
  let m := g.extractLsb' 0 16
  writeG d (BitVec.ofNat 64 ((x.tagBusy &&& m).toNat * 2 ^ 32 + (x.tagStat &&& m).toNat * 2 ^ 16 + (x.tagSet &&& m).toNat))

def freadyCode (d a : Reg) : Exec Unit := do
  let g ← readG a
  let x ← look fun s => s.cur
  let t : BitVec 4 := g.extractLsb' 0 4
  writeG d ((x.tagCode[t.toNat]'(t.isLt)).zeroExtend 64)

def tclr (m : RegImm) : Exec Unit := do
  let k ← tagMask m
  let busy ← look fun s => s.cur.tagBusy
  require (decide (busy &&& k = 0)) .illegal
  modMe fun x => { x with
    tagSet := x.tagSet &&& ~~~k
    tagStat := x.tagStat &&& ~~~k
    tagCode := Vector.ofFn fun t => if k.getLsbD t.val then 0 else x.tagCode[t] }

def execWaitany (d : Reg) (m : RegImm) (s : State) : Out := retire (.waitany d m) (waitTags (.waitany d m) false d m) s
def execWaitall (d : Reg) (m : RegImm) (s : State) : Out := retire (.waitall d m) (waitTags (.waitall d m) true d m) s
def execFready (d a : Reg) (s : State) : Out := retire (.fready d a) (fready d a) s
def execFreadyCode (d a : Reg) (s : State) : Out := retire (.freadyCode d a) (freadyCode d a) s
def execTclr (m : RegImm) (s : State) : Out := retire (.tclr m) (tclr m) s

/-! ## Posting a task (R293) -/

/-- A record from its bytes, LAUNCH replaced (R34, R35). -/
def recordFrom (bs : List Byte) (launch now : Nat) : Record where
  entry := wordOf bs 0
  arg0 := wordOf bs 8
  arg1 := wordOf bs 16
  arg2 := wordOf bs 24
  arg3 := wordOf bs 32
  data := wordOf bs 40
  key := wordOf bs 48
  launch := launch
  lane := 0
  since := now

/-- SPAWN once its record has been read: placed, or parked until a place is free. -/
def spawnWith (m : Mem) (bs : List Byte) : Exec Unit := do
  require (decide (fieldOf bs 58 6 = 0)) .illegal
  let r ← look fun s => recordFrom bs s.cur.launch s.draws
  match ← look fun s => postRecord s r with
  | some t => modify' fun _ => t
  | none => parkOn (.spawn m) (.spawn r) 0

def spawn (m : Mem) : Exec Unit := do
  let ea ← look fun s => s.cur.ea m
  match ← privateMem m 64 true false with
  | .near off => do
    let bs ← loadNear off 64
    spawnWith m bs
  | .far ps => do
    let vas ← look fun s => s.cur.range m 64
    loadFar (.spawn m) vas ps ea

def execSpawn (m : Mem) (s : State) : Out := retire (.spawn m) (spawn m) s

/-! ## TEND (R40, R294) -/

/-- The task ends; the slot it held is free and holds no next PC. -/
def execTend (s : State) : Out :=
  .next { endTask s s.me false with focus := { s.focus with disp := .done } }

end Sys2Proof.Machine
end

