-- ==== Sys2Proof/Machine/Capsule.lean ====
section
/-! DEFINITION. Channels and capsules as a task issues them (R295-R304), and the change of a channel at a gleaner (R43-R45). -/

namespace Sys2Proof.Machine

/-! ## Channel entries (R42) -/

def State.chan (s : State) (core k : Nat) : BitVec 128 := SMap.get (s.core core).channels 0 k
def State.setChan (s : State) (core k : Nat) (e : BitVec 128) : State :=
  s.modCore core fun c => { c with channels := SMap.set c.channels 0 k e }

def chanLaunch (e : BitVec 128) : Nat := bitsOf e 79 64
def chanValid (e : BitVec 128) : Bool := bitOf e 63
def chanBlk (e : BitVec 128) : Bool := bitOf e 62
def chanPri (e : BitVec 128) : Nat := bitsOf e 61 60
def chanEntry (e : BitVec 128) : Nat := bitsOf e 55 0

/-- An itinerary step of the capsule in a berth (R130). -/
def capStepAt (s : State) (core : Nat) (b : BitVec 2) (k : Nat) : Word := BitVec.ofNat 64 (capField s core b (64 + 8 * k) 8)
/-- The channel a waiting capsule is for: that of the step its cursor names. -/
def capChannel (s : State) (core : Nat) (b : BitVec 2) : Nat := bitsOf (capStepAt s core b (capField s core b 26 1)) 35 30

/-- Berths of a core whose capsules wait on a channel in one of two states. -/
def waitingOn (s : State) (core k : Nat) (st : Berth) : List (BitVec 2) :=
  (s.core core).arrivals.filter fun b => (s.core core).berth b = st ∧ capChannel s core b = k

/-- Set the state of berths. -/
def markBerths (s : State) (core : Nat) (bs : List (BitVec 2)) (st : Berth) : State :=
  bs.foldl (fun s b => s.modCore core fun c => c.setBerth b st) s

/-- A capsule leaves the arrival list and goes back to its origin. -/
def turnBack (code : FaultCode) (core : Nat) (s : State) (b : BitVec 2) : State :=
  returnCapsule (s.modCore core fun c => { c with arrivals := c.arrivals.filter (· ≠ b) }) core b code none

/-- Set or clear BLK: ready capsules of the channel become held, or held ones ready (R45, R297). -/
def setBlk (s : State) (core k : Nat) (on : Bool) : State :=
  let e := s.chan core k
  let bit : BitVec 128 := 1#128 <<< 62
  if on then markBerths (s.setChan core k (e ||| bit)) core (waitingOn s core k .ready) .pending
  else markBerths (s.setChan core k (e &&& ~~~bit)) core (waitingOn s core k .pending) .ready

/-- A channel change at the gleaner of a core, for a task of a launch (R43, R296, R297). -/
def applyChan (s : State) (launch core k : Nat) (op : ChanOp) : Option FaultCode × State :=
  let old := s.chan core k
  match op with
  | .block => (none, setBlk s core k true)
  | .unblock => (none, setBlk s core k false)
  | .entry v =>
    if chanValid old ∧ chanLaunch old ≠ launch then (some .prot, s)
    else
      let new : BitVec 128 := BitVec.ofNat 128 (launch % 2 ^ 16 * 2 ^ 64 + v.toNat)
      let s := s.setChan core k new
      if !chanValid new then
        (none, (waitingOn s core k .ready ++ waitingOn s core k .pending).foldl (turnBack .capsuleChannel core) s)
      else (none, setBlk s core k (chanBlk new))

/-- The cores a selector names, none when a zero field is not zero (R295). -/
def selectorOk (v : Word) : Bool :=
  decide (bitsOf v 28 0 = 0) && (!bitOf v 29 || decide (bitsOf v 63 36 = 0)) && (!bitOf v 36 || decide (bitsOf v 40 37 = 0))

def selectorCores (s : State) (r : SlotRef) (v : Word) : List Nat :=
  if bitOf v 29 then [r.coreKey]
  else
    let cl := bitsOf v 53 50 * 512 + bitsOf v 49 41
    let here := decide (bitsOf v 63 54 = s.pkgid)
    let bound (c : Nat) : Bool := match s.launch (s.slot r).launch with | some l => l.binds s c | none => false
    if !here then []
    else if bitOf v 36 then ((List.range 16).map (fun k => cl * 16 + k)).filter bound
    else [cl * 16 + bitsOf v 40 37].filter bound

/-- Send a channel change to each other core; it counts by the scope of the core. -/
def sendChan (k : Nat) (op : ChanOp) : List Nat → Exec Unit
  | [] => return ()
  | core :: t => do
    let x ← freshX
    let ack ← counted (localKey core 0)
    let q ← look State.asker
    modify' fun s => s.post s.me.die (dieOfCore core) (.channelChange ⟨q, x, some ack, core, k, op⟩)
    sendChan k op t

/-- A channel instruction on the cores that its selector names (R295). One with ANY whose cluster has no core bound to the launch faults
PROT, as one that names a core which is not bound; the rule does not say (log 60). -/
def channelOp (a : Reg) (op : ChanOp) : Exec Unit := do
  let v ← readG a
  require (selectorOk v) .illegal
  let cores ← look fun s => selectorCores s s.me v
  require (!cores.isEmpty) .prot
  let mine ← look fun s => s.me.coreKey
  let k := bitsOf v 35 30
  if cores.contains mine then
    let r ← look fun s => applyChan s s.cur.launch mine k op
    match r.1 with
    | some c => trap c
    | none => modify' fun _ => r.2
  sendChan k op (cores.filter (· ≠ mine))

def chset (a b : Reg) : Exec Unit := do
  let v ← readG b
  require (decide (bitsOf v 59 56 = 0)) .illegal
  channelOp a (.entry v)

def execChset (a b : Reg) (s : State) : Out := retire (.chset a b) (chset a b) s
def execChblk (a : Reg) (s : State) : Out := retire (.chblk a) (channelOp a .block) s
def execChunb (a : Reg) (s : State) : Out := retire (.chunb a) (channelOp a .unblock) s

/-! ## Capsules (R298-R304) -/

/-- The berth of the capsule the task holds; without one, ILLEGAL. -/
def myBerth : Exec (BitVec 2) := do
  match ← look fun s => s.cur.capsule with
  | some b => return b
  | none => trap .illegal

/-- S2 while a task holds the capsule in a berth (R298). -/
def berthSeg (b : BitVec 2) (tbytes : Nat) : BitVec 128 := mkSeg tbytes false false true true (berthOff b.toNat + 256)

/-- The header, steps and tile of a new capsule (R299). -/
def newCapsule (s : State) (r : SlotRef) (tbytes seq : Nat) : List Byte :=
  bytesOf 2 1 ++ bytesOf 2 0 ++ bytesOf 4 tbytes ++ bytesOf 8 (physLane s r).toNat ++
  bytesOf 8 (laneKey s r * 2 ^ 32 + seq) ++ bytesOf 2 (s.slot r).launch ++ bytesOf 6 0 ++ bytesOf 32 0 ++ bytesOf 192 0 ++
  List.replicate tbytes 0

/-- Number of capsules the lane has made, and one more from now. -/
def madeBy (s : State) (launch lane : Nat) : Nat :=
  match s.launch launch with | some l => SMap.get l.made 0 lane % 2 ^ 32 | none => 0

/-- CAPNEW once its berth is granted. -/
def capnewAt (d : Reg) (tbytes : Nat) (b : BitVec 2) : Exec Unit := do
  let s ← look id
  let lane := laneKey s s.me
  let seq := madeBy s s.cur.launch lane
  modify' fun s =>
    let s := s.stores (berthKey s.me.coreKey b.toNat) (newCapsule s s.me tbytes seq)
    s.modLaunch s.cur.launch fun l => { l with made := SMap.set l.made 0 lane (SMap.get l.made 0 lane + 1) }
  modMe fun x => { x.setS 2 (berthSeg b tbytes) with capsule := some b, capStep := none }
  writeG d (BitVec.ofNat 64 (lane * 2 ^ 32 + seq))

def capnew (d a : Reg) : Exec Unit := do
  let v ← readG a
  let held ← look fun s => s.cur.capsule.isSome
  require (!held && decide (v.toNat ≤ 16384) && decide (v.toNat % 64 = 0)) .illegal
  let core ← look fun s => s.me.coreKey
  match ← look fun s => (s.core core).freeBerth with
  | some b => do
    modify' fun s => s.modCore core fun c => c.setBerth b .held
    capnewAt d v.toNat b
  | none => do
    let x ← freshX
    modify' fun s => s.modCore core fun c => { c with asks := c.asks ++ [.local s.me s.cur.task x x] }
    parkOn (.capnew d a) (.berth x) v

/-- S2 as CAPSEND and CAPDONE leave it. -/
def dropCapsule (x : Slot) : Slot := { x.setS 2 0 with capsule := none, capStep := none }

def capdone : Exec Unit := do
  let b ← myBerth
  modify' fun s => freeBerth (s.modCur dropCapsule) s.me.coreKey b

/-- A capsule asks for its next place; one whose itinerary is done is finished (R132, R301). -/
def capsend : Exec Unit := do
  let b ← myBerth
  let core ← look fun s => s.me.coreKey
  let cursor ← look fun s => capField s core b 26 1
  let steps ← look fun s => capField s core b 27 1
  if cursor = steps then capdone
  else
    modify' fun s =>
      let step := capStepAt s core b cursor
      let dst := if bitsOf step 63 54 = s.pkgid ∧ !s.dead (bitsOf step 53 50) then bitsOf step 53 50 else s.me.die
      let s := (s.modCur dropCapsule).modCore core fun c => c.setBerth b .leaving
      s.post s.me.die dst (.berthReservation ⟨core, b.toNat, capField s core b 24 2, step, s.cycle⟩)

def execCapnew (d a : Reg) (s : State) : Out := retire (.capnew d a) (capnew d a) s
def execCapsend (s : State) : Out := retire .capsend capsend s
def execCapdone (s : State) : Out := retire .capdone capdone s

/-! The itinerary (R303) -/

/-- A change of the capsule in hand from its cursor and number of steps; none when the index is not allowed. -/
def itinerary (f : State → Nat → BitVec 2 → Nat → Nat → Option State) : Exec Unit := do
  let b ← myBerth
  let r ← look fun s =>
    let k := s.me.coreKey
    f s k b (capField s k b 26 1) (capField s k b 27 1)
  match r with
  | some t => modify' fun _ => t
  | none => trap .illegal

def setStep (s : State) (core : Nat) (b : BitVec 2) (k : Nat) (v : Word) : State := setCapField s core b (64 + 8 * k) 8 v.toNat
def setSteps (s : State) (core : Nat) (b : BitVec 2) (n : Nat) : State := setCapField s core b 27 1 n

def capstep (a b : Reg) : Exec Unit := do
  let i ← readG a
  let v ← readG b
  itinerary fun s core q cur n =>
    if 16 ≤ i.toNat ∧ i.toNat ≤ 19 then some (setCapField s core q (32 + 8 * (i.toNat - 16)) 8 v.toNat)
    else if cur ≤ i.toNat ∧ i.toNat < n then some (setStep s core q i.toNat v)
    else if i.toNat = n ∧ n < 12 then some (setSteps (setStep s core q n v) core q (n + 1))
    else none

def capins (a : Reg) (x : RegLit) : Exec Unit := do
  let i ← readG a
  let v ← regLitVal x
  itinerary fun s core q cur n =>
    if i.toNat < cur ∨ n < i.toNat ∨ 12 ≤ n then none
    else
      let s' := (List.range (n - i.toNat)).foldl (fun t k =>
        setStep t core q (n - k) (capStepAt t core q (n - k - 1))) s
      some (setSteps (setStep s' core q i.toNat v) core q (n + 1))

def capdel (x : RegImm) : Exec Unit := do
  let i ← regImmVal x
  itinerary fun s core q cur n =>
    if i.toNat < cur ∨ n ≤ i.toNat then none
    else
      let s' := (List.range (n - 1 - i.toNat)).foldl (fun t k =>
        setStep t core q (i.toNat + k) (capStepAt t core q (i.toNat + k + 1))) s
      some (setSteps (setStep s' core q (n - 1) 0) core q (n - 1))

def capredir (a : Reg) (x : RegLit) : Exec Unit := do
  let i ← readG a
  let v ← regLitVal x
  require (decide (bitsOf v 35 0 = 0)) .illegal
  itinerary fun s core q cur n =>
    if i.toNat < cur ∨ n ≤ i.toNat then none
    else some (setStep s core q i.toNat (v ||| (capStepAt s core q i.toNat &&& 0xFFFFFFFFF)))

def caprd (d : Reg) (sel : RegImm) : Exec Unit := do
  let b ← myBerth
  let v ← regImmVal sel
  require (decide (v.toNat < 20)) .illegal
  let core ← look fun s => s.me.coreKey
  let w ← look fun s => BitVec.ofNat 64 (capField s core b (8 * v.toNat) 8)
  writeG d w

def execCapstep (a b : Reg) (s : State) : Out := retire (.capstep a b) (capstep a b) s
def execCapins (a : Reg) (x : RegLit) (s : State) : Out := retire (.capins a x) (capins a x) s
def execCapdel (i : RegImm) (s : State) : Out := retire (.capdel i) (capdel i) s
def execCapredir (a : Reg) (x : RegLit) (s : State) : Out := retire (.capredir a x) (capredir a x) s
def execCaprd (d : Reg) (sel : RegImm) (s : State) : Out := retire (.caprd d sel) (caprd d sel) s

end Sys2Proof.Machine
end

