-- ==== Sys2Proof/Machine/Special.lean ====
section
/-! DEFINITION. The special functions of R226 as exact values ready for one rounding. A result that is irrational is given by a
rational in the same gap between neighbouring multiples of 2^-96 of its size, so that every mode of R85 rounds it as it
would the exact value. -/

namespace Sys2Proof.Machine

/-! ## Square roots -/

/-- The integer square root of `x`, `b` bits still to be found below the root `r` so far. -/
def isqrtFrom (x : Nat) : Nat → Nat → Nat
  | 0, r => r
  | b + 1, r => isqrtFrom x b (if (r + 2 ^ b) * (r + 2 ^ b) ≤ x then r + 2 ^ b else r)

def isqrt (x : Nat) : Nat := isqrtFrom x (Nat.log2 x / 2 + 1) 0

/-- The square root of `n/d`: exact, or inside its gap. -/
def sqrtVal (n d : Nat) : Val :=
  let k := 160 + Nat.log2 d
  let a := n * 4 ^ k
  let r := isqrt (a / d)
  if r * r * d = a then .num false r (2 ^ k) else .num false (2 * r + 1) (2 ^ (k + 1))

/-! ## Fixed point

`f w` approximates a value in units of 2^-w, with an error below 2^32 units. -/

/-- A value from its approximations: the gap is found when both ends of the error lie in it. -/
def cutVal (f : Nat → Nat) : Nat → Nat → Nat × Nat
  | 0, w => (f w, 2 ^ w)
  | k + 1, w =>
    let v := f w
    let sh := Nat.log2 v + 1 - 96
    let lo := (v - 2 ^ 32) / 2 ^ sh
    if 40 ≤ sh ∧ lo = (v + 2 ^ 32) / 2 ^ sh then (2 * lo + 1, 2 ^ (w + 1 - sh)) else cutVal f k (2 * w)

/-- Start at 512 bits and double. -/
def cut (f : Nat → Nat) : Nat × Nat := cutVal f 12 512

/-- `t - t/(n^2 * 3) * ...`: the series of arctan(1/n), from its term `t / (2k + 1)` on. -/
def arctanSum (n2 : Nat) : Nat → Nat → Nat → Int
  | 0, _, _ => 0
  | j + 1, k, t => if t = 0 then 0 else ((t / (2 * k + 1) : Nat) : Int) - arctanSum n2 j (k + 1) (t / n2)

/-- Pi by Machin's formula. -/
def fxPi (w : Nat) : Nat :=
  let one := 2 ^ (w + 64)
  (16 * arctanSum 25 (w + 64) 0 (one / 5) - 4 * arctanSum 57121 (w + 64) 0 (one / 239)).toNat / 2 ^ 64

/-- Twice the series of artanh z, from its term `t / k` on. -/
def artanhSum (z2 w : Nat) : Nat → Nat → Nat → Nat
  | 0, _, _ => 0
  | j + 1, k, t => if t = 0 then 0 else t / k + artanhSum z2 w j (k + 2) (t * z2 / 2 ^ w)

/-- `2 artanh (n/d)`, for `n/d` at most 1/3. -/
def fxArtanh2 (n d w : Nat) : Nat :=
  let z := n * 2 ^ w / d
  2 * artanhSum (z * z / 2 ^ w) w (w + 1) 1 z

def fxLn2 (w : Nat) : Nat := fxArtanh2 1 3 (w + 64) / 2 ^ 64

/-- The exponential series from its term `t`, number `k`. -/
def expSum (y w : Nat) : Nat → Nat → Nat → Nat
  | 0, _, _ => 0
  | j + 1, k, t => if t = 0 then 0 else t + expSum y w j (k + 1) (t * y / 2 ^ w / k)

/-- `e^y` for y below 1. -/
def fxExp (y w : Nat) : Nat := expSum y w (w + 2) 1 (2 ^ w)

/-- `e^-y` for any y. -/
def fxExpNeg (y w : Nat) : Nat :=
  let l := fxLn2 w
  let n := y / l + 1
  fxExp (n * l - y) w / 2 ^ n

/-- The alternating series of sine and cosine from its term `t`, of power `k`. -/
def trigSum (r2 w : Nat) : Nat → Nat → Nat → Int
  | 0, _, _ => 0
  | j + 1, k, t => if t = 0 then 0 else (t : Int) - trigSum r2 w j (k + 2) (t * r2 / 2 ^ w / ((k + 1) * (k + 2)))

def fxSin (r w : Nat) : Nat := (trigSum (r * r / 2 ^ w) w (w + 2) 1 r).toNat
def fxCos (r w : Nat) : Nat := (trigSum (r * r / 2 ^ w) w (w + 2) 0 (2 ^ w)).toNat

/-- `n/d` reduced by quarter turns: how many, and the rest. -/
def quarter (n d w : Nat) : Nat × Nat :=
  let v := w + 8 + Nat.log2 (n / d + 1)
  let x := n * 2 ^ v / d
  let p := fxPi v
  let q := 2 * x / p
  (q, (2 * x - q * p) / 2 ^ (v + 1 - w))

/-! ## The functions on a positive rational -/

/-- sin or cos of `n/d`: which quadrant decides sign and series. -/
def trigOf (cosine neg : Bool) (n d : Nat) : Val :=
  let q := (quarter n d 1024).1 + b2n cosine
  let f (w : Nat) : Nat :=
    let r := (quarter n d w).2
    if q % 2 = 0 then fxSin r w else fxCos r w
  let v := cut f
  .num ((!cosine && neg) != (q / 2 % 2 == 1)) v.1 v.2

/-- 2^x. Beyond 2^12 every format overflows or rounds as the nearest bound does. -/
def exp2Of (neg : Bool) (n d : Nat) : Val :=
  if 4096 * d ≤ n then (if neg then .num false 1 (2 ^ 4096) else .num false (2 ^ 4096) 1)
  else
    let i := n / d
    let m := n % d
    if m = 0 then (if neg then .num false 1 (2 ^ i) else .num false (2 ^ i) 1)
    else
      let f := if neg then d - m else m
      let v := cut fun w => fxExp (f * 2 ^ w / d * fxLn2 w / 2 ^ w) w
      if neg then .num false v.1 (v.2 * 2 ^ (i + 1)) else .num false (v.1 * 2 ^ i) v.2

def log2Of (n d : Nat) : Val :=
  let e := ratLog2 n d
  let a := if 0 ≤ e then n else n * 2 ^ (-e).toNat
  let b := if 0 ≤ e then d * 2 ^ e.toNat else d
  if a = b then .num (decide (e < 0)) e.natAbs 1
  else
    let v := cut fun w => (e * (2 ^ w : Nat) + ((fxArtanh2 (a - b) (a + b) w * 2 ^ w / fxLn2 w : Nat) : Int)).natAbs
    .num (decide (e < 0)) v.1 v.2

/-- Just below 1: within the last gap of every format. -/
def nearOne (neg : Bool) : Val := .num neg (2 ^ 300 - 1) (2 ^ 300)

def tanhOf (neg : Bool) (n d : Nat) : Val :=
  if 128 * d ≤ n then nearOne neg
  else
    let v := cut fun w =>
      let e := fxExpNeg (2 * n * 2 ^ w / d) w
      (2 ^ w - e) * 2 ^ w / (2 ^ w + e)
    .num neg v.1 v.2

/-- The series of `e^(x^2) erf x` from its term `t`, number `k`. -/
def erfSum (x2 w : Nat) : Nat → Nat → Nat → Nat
  | 0, _, _ => 0
  | j + 1, k, t => if t = 0 then 0 else t + erfSum x2 w j (k + 1) (2 * t * x2 / 2 ^ w / (2 * k + 3))

def erfOf (neg : Bool) (n d : Nat) : Val :=
  if 16 * d ≤ n then nearOne neg
  else
    let v := cut fun w =>
      let u := w + 600
      let x := n * 2 ^ u / d
      let x2 := x * x / 2 ^ u
      let s := erfSum x2 u (u + 2000) 0 x * fxExpNeg x2 u / 2 ^ u
      2 * s * 2 ^ u / isqrt (fxPi u * 2 ^ u) / 2 ^ 600
    .num neg v.1 v.2

/-! ## R226, with its special inputs -/

def rcpVal (x : Val) : Val := divVal (.num false 1 1) x

def rsqVal (x : Val) : Val :=
  match x with
  | .inf neg => if neg then .nan else .num false 0 1
  | .num neg n d => if n = 0 then .inf neg else if neg then .nan else rcpVal (sqrtVal n d)
  | v => v

def sqrtOf (x : Val) : Val :=
  match x with
  | .inf neg => if neg then .nan else .inf false
  | .num neg n d => if n = 0 then .num neg 0 1 else if neg then .nan else sqrtVal n d
  | v => v

def exp2Val (x : Val) : Val :=
  match x with
  | .inf neg => if neg then .num false 0 1 else .inf false
  | .num neg n d => exp2Of neg n d
  | v => v

def log2Val (x : Val) : Val :=
  match x with
  | .inf neg => if neg then .nan else .inf false
  | .num neg n d => if n = 0 then .inf true else if neg then .nan else log2Of n d
  | v => v

def sinVal (x : Val) : Val :=
  match x with
  | .inf _ => .nan
  | .num neg n d => if n = 0 then .num neg 0 1 else trigOf false neg n d
  | v => v

def cosVal (x : Val) : Val :=
  match x with
  | .inf _ => .nan
  | .num neg n d => if n = 0 then .num false 1 1 else trigOf true neg n d
  | v => v

def tanhVal (x : Val) : Val :=
  match x with
  | .inf neg => .num neg 1 1
  | .num neg n d => if n = 0 then .num neg 0 1 else tanhOf neg n d
  | v => v

def erfVal (x : Val) : Val :=
  match x with
  | .inf neg => .num neg 1 1
  | .num neg n d => if n = 0 then .num neg 0 1 else erfOf neg n d
  | v => v

end Sys2Proof.Machine
end

