-- ==== Sys2Proof/Machine/Vector.lean ====
section
/-! DEFINITION. Vector instructions: loads, stores, gathers and scatters, broadcast and moves, float arithmetic, special
functions, integer and bit arithmetic, compare, select and classify (R207-R233). -/

namespace Sys2Proof.Machine

/-! ## Elements and their flags -/

/-- One element result: its code, the sticky flags it sets, and whether it counts as rounded under SR (R86, R90). -/
structure Elem where
  bits : Nat
  st : Sticky
  sr : Bool
  deriving DecidableEq, Repr

/-- A result that sets no flag. -/
def plain (x : Nat) : Elem := ⟨x, Sticky.none, false⟩
def sawAbsent : Sticky := ⟨true, false, false⟩
def absentElem (f : Nat) : Elem := ⟨absentCode f, sawAbsent, false⟩

/-- A value rounded once into a format. -/
def rounded (f : Nat) (t : Table) (rm : Rm) (x : Val) : Elem :=
  let r := encodeVal f t rm x
  ⟨r.1, r.2, countsForSr f x⟩

/-- Results of the active elements; none leaves an element unchanged (R210). -/
def perActive (n : Nat) (act : Nat → Bool) (g : Nat → Elem) : List (Option Elem) :=
  (List.range n).map fun j => if act j then some (g j) else none

def allSticky (es : List (Option Elem)) : Sticky :=
  es.foldl (fun a e => match e with | some x => a.or x.st | none => a) Sticky.none

def anySr (es : List (Option Elem)) : Bool :=
  es.any fun e => match e with | some x => x.sr | none => false

def codes (es : List (Option Elem)) : List (Option Nat) := es.map fun e => e.map Elem.bits

/-- Write the elements of a destination with their flags (R88, R210, R213). -/
def commit (f : Nat) (d : VReg) (es : List (Option Elem)) : Exec Unit := do
  writeV f d (codes es)
  setSticky (allSticky es)
  srStep (anySr es)

/-- The same for an instruction that parks (R214): its result and flags are written when it is done; elements for a bound
register are pushed at issue. -/
def commitLate (i : Instr) (f : Nat) (d : VReg) (es : List (Option Elem)) : Exec Unit := do
  let x ← look fun s => s.cur
  let v := match x.binding d with
    | some _ => x.getV d
    | none => ofElems (fmtWidth f) (blend (elems (x.getV d) (fmtWidth f)) (codes es))
  if (x.binding d).isSome then writeV f d (codes es)
  srStep (anySr es)
  parkOn i (.late (.v d v (stickyWord (allSticky es)))) 0

/-- V registers a second source names. -/
def srcRegs (src : Src) : List VReg := match src with | .rr b => [b.extractLsb' 0 3] | _ => []

/-- Code of a format field. -/
def fc {n : Nat} (x : BitVec n) : Nat := x.toNat

/-- A two-source instruction over the active elements: `g` takes the element number and the codes x and y. -/
def vec2 (o : V2) (g : State → Nat → Nat → Nat → Elem) : Exec (List (Option Elem)) := do
  let f := fc o.fmt
  sourcesOk f (o.a :: srcRegs o.src)
  destOk f o.d
  let act ← mask o.pm (fmtElems f)
  let s ← look id
  let (x, y, st) ← vecOperands f o.a o.src act
  setSticky st
  return perActive (fmtElems f) act fun j => g s j (x j) (y j)

/-- A register-register instruction over the active elements. -/
def vecB (o : VB) (g : State → Nat → Nat → Nat → Elem) : Exec (List (Option Elem)) := do
  let f := fc o.fmt
  sourcesOk f [o.a, o.b]
  destOk f o.d
  let act ← mask o.pm (fmtElems f)
  let s ← look id
  let (x, y) ← readV2 f o.a o.b act
  return perActive (fmtElems f) act fun j => g s j (elemAt x (fmtWidth f) j) (elemAt y (fmtWidth f) j)

/-- A one-source instruction over the active elements. -/
def vec1 (o : V1) (g : State → Nat → Nat → Elem) : Exec (List (Option Elem)) := do
  let f := fc o.fmt
  sourcesOk f [o.a]
  destOk f o.d
  let act ← mask o.pm (fmtElems f)
  let s ← look id
  let x ← readV f o.a act
  return perActive (fmtElems f) act fun j => g s j (elemAt x (fmtWidth f) j)

/-- The table of .t8 operand A, or of operand B (R212). -/
def tabA (s : State) (f : Nat) : Table := if f = fmtT8 then tableOf s s.me (placeIn s.cur.fa) else []
def tabB (s : State) (f : Nat) : Table := if f = fmtT8 then tableOf s s.me (placeIn s.cur.fb) else []

/-! ## Loads, stores, gathers and scatters (R215-R217) -/

/-- Elements a memory instruction moves, and their size in bytes. -/
def memElems (f : Nat) : Nat := 64 / fmtBytes f

/-- Addresses of the elements, by number. -/
def unitEas (o : VMem) : Exec (Nat → Word) := look fun s j =>
  s.cur.ea o.mem + BitVec.ofNat 64 (j * fmtBytes (fc o.fmt))

def strideEas (o : VMem) : Exec (Nat → Word) := look fun s j =>
  s.cur.getG o.mem.base + BitVec.ofNat 64 j * dispWord o.mem.disp

/-- Addresses from the offsets in a register, as i32 or i64. -/
def offsetEa (o : VMem) (x : BitVec 512) (j : Nat) : Word :=
  extendTo true (fmtWidth (fc o.fmt)) (elemAt x (fmtWidth (fc o.fmt)) j) + dispWord o.mem.disp

/-- Offsets of a gather come from V[base], those of the active elements. -/
def gatherEas (o : VMem) : Exec (Nat → Word) := do
  let f := fc o.fmt
  sourcesOk f [o.mem.base.extractLsb' 0 3]
  let act ← mask o.pm (fmtElems f)
  let x ← readV f (o.mem.base.extractLsb' 0 3) act
  return offsetEa o x

/-- The same for a scatter; where V[base] is also its source, the one value serves both (R221). -/
def scatterEas (o : VMem) : Exec ((Nat → Word) × Option (BitVec 512)) := do
  let f := fc o.fmt
  sourcesOk f [o.mem.base.extractLsb' 0 3]
  let act ← mask o.pm (fmtElems f)
  let x ← readV f (o.mem.base.extractLsb' 0 3) act
  return (offsetEa o x, if o.mem.base.extractLsb' 0 3 = o.d then some x else none)

/-- Addresses alone, the source still to be read. -/
def unread (eas : Exec (Nat → Word)) : Exec ((Nat → Word) × Option (BitVec 512)) := do
  let ea ← eas
  return (ea, none)

/-- The checks of R216 on the segment, in ascending element; the addresses come back. -/
def elemAddrs (seg : BitVec 128) (z : Nat) (rd wr : Bool) (ea : Nat → Word) : List Nat → Exec (List Nat)
  | [] => return []
  | j :: t => do
    if !segOk seg (ea j).toNat z rd wr then trapSeg .seg seg (ea j).toNat
    let a := segAddr seg (ea j).toNat
    if a % z ≠ 0 then trapSeg .align seg (ea j).toNat
    let rest ← elemAddrs seg z rd wr ea t
    return a :: rest

/-- The elements of a memory instruction that a mask makes active. -/
def activeOf (o : VMem) (p : Word) : List Nat :=
  (List.range (memElems (fc o.fmt))).filter (activeIn p (memElems (fc o.fmt)))

def activeElems (o : VMem) : Exec (List Nat) := look fun s => activeOf o (s.cur.getP o.pm)

def loadElems (z : Nat) : List Nat → Exec (List Nat)
  | [] => return []
  | a :: t => do
    let bs ← loadNear a z
    let rest ← loadElems z t
    return natOf bs :: rest

/-- Loaded elements at their places. -/
def placed (n : Nat) (js vs : List Nat) : List (Option Nat) :=
  (List.range n).map fun j => ((js.zip vs).find? fun x => x.1 = j).map Prod.snd

/-- E2M1 pairs as the two elements they hold. -/
def unpair (f : Nat) (vs : List (Option Nat)) : List (Option Nat) :=
  if f = fmtE2M1 then vs.flatMap fun v => [v.map (· % 16), v.map (· / 16)] else vs

/-- Write loaded elements; the others are unchanged. -/
def writeLoaded (dst : PushTo) (o : VMem) (js vs : List Nat) : Exec Unit :=
  writeVTo dst (fc o.fmt) o.d (unpair (fc o.fmt) (placed (memElems (fc o.fmt)) js vs))

/-- A load moves its elements to where its destination stands when it issues, also when the reply comes later (R142, R221;
log 25). -/
def vload (i : Instr) (o : VMem) (eas : Exec (Nat → Word)) : Exec Unit := do
  let z := fmtBytes (fc o.fmt)
  destOk (fc o.fmt) o.d
  let ea ← eas
  let js ← activeElems o
  let seg ← look fun s => s.cur.getS o.mem.seg
  let as ← elemAddrs seg z true false ea js
  let dst ← pushTo o.d
  if segSpace seg then
    let vas := as.map fun a => (a, z)
    let ps ← translate vas rightsRd (some false)
    let p ← look fun s => s.cur.getP o.pm
    loadFarTo dst i vas ps p
  else
    let vs ← loadElems z as
    writeLoaded dst o js vs
  pushStep (fc o.fmt) o.d

/-- The element `j` of a source as a store moves it. -/
def storedElem (f : Nat) (x : BitVec 512) (j : Nat) : List Byte := bytesOf (fmtBytes f) (elemAt x (8 * fmtBytes f) j)

def storeElems (as : List Nat) (bs : List (List Byte)) : Exec Unit :=
  (as.zip bs).forM fun x => storeNear x.1 x.2

def vstore (o : VMem) (eas : Exec ((Nat → Word) × Option (BitVec 512))) : Exec Unit := do
  let f := fc o.fmt
  let z := fmtBytes f
  sourcesOk f [o.d]
  let (ea, read) ← eas
  let js ← activeElems o
  let seg ← look fun s => s.cur.getS o.mem.seg
  let as ← elemAddrs seg z false true ea js
  let x ← match read with
    | some x => pure x
    | none => do
      let act ← mask o.pm (fmtElems f)
      readV f o.d act
  let bs := js.map (storedElem f x)
  if segSpace seg then
    let ps ← translate (as.map fun a => (a, z)) rightsWr (some false)
    modify' fun s => sendStores (byHome s ps) bs.flatten s
  else storeElems as bs

def execVld (o : VMem) (s : State) : Out := retire (.vld o) (vload (.vld o) o (unitEas o)) s
def execVst (o : VMem) (s : State) : Out := retire (.vst o) (vstore o (unread (unitEas o))) s
def execVlds (o : VMem) (s : State) : Out := retire (.vlds o) (vload (.vlds o) o (strideEas o)) s
def execVsts (o : VMem) (s : State) : Out := retire (.vsts o) (vstore o (unread (strideEas o))) s
def execVgath (o : VMem) (s : State) : Out := retire (.vgath o) (vload (.vgath o) o (gatherEas o)) s
def execVscat (o : VMem) (s : State) : Out := retire (.vscat o) (vstore o (scatterEas o)) s

/-! ## Broadcast and element moves (R223, R224) -/

/-- VBCAST is bits: a constant's conversion sets no flag (R213, R223; log 50). -/
def vbcast (fmt : BitVec 5) (pm : PReg) (d : VReg) (src : Src) : Exec Unit := do
  let f := fc fmt
  destOk f d
  let act ← mask pm (fmtElems f)
  let c ← match src with
    | .rr a => do
      let x ← readG a
      pure (x.toNat % 2 ^ fmtWidth f)
    | src => do
      let c ← vecConst f src
      pure c.1
  writeV f d ((List.range (fmtElems f)).map fun j => if act j then some c else none)

def vmovgToG (fmt : BitVec 5) (d : Reg) (a : VReg) (b : Reg) : Exec Unit := do
  let f := fc fmt
  sourcesOk f [a]
  let x ← readV f a everyElem
  let i ← readG b
  writeG d (extendTo (fmtIsI f) (fmtWidth f) (elemAt x (fmtWidth f) (i.toNat % fmtElems f)))

def vmovgToV (fmt : BitVec 5) (d : VReg) (a b : Reg) : Exec Unit := do
  let f := fc fmt
  destOk f d
  let x ← readG a
  let i ← readG b
  writeV f d ((List.range (fmtElems f)).map fun j =>
    if j = i.toNat % fmtElems f then some (x.toNat % 2 ^ fmtWidth f) else none)

def execVbcast (f : BitVec 5) (pm : PReg) (d : VReg) (src : Src) (s : State) : Out :=
  retire (.vbcast f pm d src) (vbcast f pm d src) s
def execVmovgToG (f : BitVec 5) (d : Reg) (a : VReg) (b : Reg) (s : State) : Out :=
  retire (.vmovgToG f d a b) (vmovgToG f d a b) s
def execVmovgToV (f : BitVec 5) (d : VReg) (a b : Reg) (s : State) : Out :=
  retire (.vmovgToV f d a b) (vmovgToV f d a b) s

/-! ## Float arithmetic (R225) -/

/-- The scheme of R225: absent first, then the exact result of `g` rounded once. -/
def floatElem (s : State) (f j : Nat) (args : List Val) (r : Rm → Val) : Elem :=
  if args.any valIsAbsent then absentElem f
  else if args.any valIsNan then rounded f (tabA s f) (rmOf s s.me j) .nan
  else rounded f (tabA s f) (rmOf s s.me j) (r (rmOf s s.me j))

def float2 (f : Nat) (g : Rm → Val → Val → Val) (s : State) (j x y : Nat) : Elem :=
  let a := decodeVal f (tabA s f) x
  let b := decodeVal f (tabB s f) y
  floatElem s f j [a, b] fun rm => g rm a b

def float1 (f : Nat) (g : Val → Val) (s : State) (j x : Nat) : Elem :=
  let a := decodeVal f (tabA s f) x
  floatElem s f j [a] fun _ => g a

/-- RDN takes -0 for an exact zero sum (R225). -/
def rdnOf (rm : Rm) : Bool := rm.mode == 3

def addF (rm : Rm) (x y : Val) : Val := addVal (rdnOf rm) x y
def subF (rm : Rm) (x y : Val) : Val := addVal (rdnOf rm) x (negVal y)
def mulF (_ : Rm) (x y : Val) : Val := mulVal x y
def divF (_ : Rm) (x y : Val) : Val := divVal x y

/-- |x| with the sign of y. -/
def cpsF (_ : Rm) (x y : Val) : Val :=
  let neg := match y with | .inf n => n | .num n _ _ => n | _ => false
  if neg then negVal (absVal x) else absVal x

def vfloat2 (g : Rm → Val → Val → Val) (o : V2) : Exec Unit := do
  let es ← vec2 o (float2 (fc o.fmt) g)
  commit (fc o.fmt) o.d es

def vfloat1 (g : Val → Val) (o : V1) : Exec Unit := do
  let es ← vec1 o (float1 (fc o.fmt) g)
  commit (fc o.fmt) o.d es

/-- VFMA and VFMS: x * y with d, rounded once; D may not be bound (R222). -/
def fused (neg : Bool) (o : VB) : Exec Unit := do
  let f := fc o.fmt
  let bound ← look fun s => (s.cur.binding o.d).isSome
  require (!bound) .illegal
  let old ← look fun s => s.cur.getV o.d
  let es ← vecB o fun s j x y =>
    let a := decodeVal f (tabA s f) x
    let b := decodeVal f (tabB s f) y
    let c := decodeVal f (tabA s f) (elemAt old (fmtWidth f) j)
    floatElem s f j [a, b, c] fun rm =>
      let p := mulVal a b
      addVal (rdnOf rm) (if neg then negVal p else p) c
  commit f o.d es

/-- The operand an extremum takes: the other one beside an absent one, zeros by R93. Of two equal values with different codes,
such as two infinite codes of one table, R225 does not say which is written; the model takes x (log 49). True for y. -/
def takesY (larger : Bool) (x y : Val) : Bool :=
  if valIsAbsent x then true
  else if valIsAbsent y then false
  else if valLt x y then larger
  else if valLt y x then !larger
  else match x, y with
    | .num nx 0 _, .num ny 0 _ => if larger then nx && !ny else !nx && ny
    | _, _ => false

/-- A code taken from V[b], G or a constant, as the destination holds it: re-encoded for .t8 through another table (R212). -/
def fromB (s : State) (f : Nat) (rm : Rm) (y : Nat) : Elem :=
  if f = fmtT8 ∧ placeIn s.cur.fa ≠ placeIn s.cur.fb then
    rounded f (tabA s f) rm (decodeVal f (tabB s f) y)
  else plain y

/-- VMAX and VMIN. -/
def extremum (larger : Bool) (f : Nat) (s : State) (j x y : Nat) : Elem :=
  let a := decodeVal f (tabA s f) x
  let b := decodeVal f (tabB s f) y
  let rm := rmOf s s.me j
  let e :=
    if valIsAbsent a && valIsAbsent b then plain (absentCode f)
    else if valIsNan a || valIsNan b then rounded f (tabA s f) rm .nan
    else if takesY larger a b then { fromB s f rm y with sr := false }
    else plain x
  if valIsAbsent a || valIsAbsent b then { e with st := e.st.or sawAbsent } else e

def vext (larger : Bool) (o : V2) : Exec Unit := do
  let es ← vec2 o (extremum larger (fc o.fmt))
  commit (fc o.fmt) o.d es

def vcps (o : VB) : Exec Unit := do
  let es ← vecB o (float2 (fc o.fmt) cpsF)
  commit (fc o.fmt) o.d es

def vdiv (o : V2) : Exec Unit := do
  let es ← vec2 o (float2 (fc o.fmt) divF)
  commitLate (.vdiv o) (fc o.fmt) o.d es

def execVadd (o : V2) (s : State) : Out := retire (.vadd o) (vfloat2 addF o) s
def execVsub (o : V2) (s : State) : Out := retire (.vsub o) (vfloat2 subF o) s
def execVmul (o : V2) (s : State) : Out := retire (.vmul o) (vfloat2 mulF o) s
def execVfma (o : VB) (s : State) : Out := retire (.vfma o) (fused false o) s
def execVfms (o : VB) (s : State) : Out := retire (.vfms o) (fused true o) s
def execVdiv (o : V2) (s : State) : Out := retire (.vdiv o) (vdiv o) s
def execVmax (o : V2) (s : State) : Out := retire (.vmax o) (vext true o) s
def execVmin (o : V2) (s : State) : Out := retire (.vmin o) (vext false o) s
def execVabs (o : V1) (s : State) : Out := retire (.vabs o) (vfloat1 absVal o) s
def execVneg (o : V1) (s : State) : Out := retire (.vneg o) (vfloat1 negVal o) s
def execVcps (o : VB) (s : State) : Out := retire (.vcps o) (vcps o) s

/-! ## Special functions (R226): they park (R214) -/

def vspecial (i : Instr) (g : Val → Val) (o : V1) : Exec Unit := do
  let es ← vec1 o (float1 (fc o.fmt) g)
  commitLate i (fc o.fmt) o.d es

def execVrcp (o : V1) (s : State) : Out := retire (.vrcp o) (vspecial (.vrcp o) rcpVal o) s
def execVrsq (o : V1) (s : State) : Out := retire (.vrsq o) (vspecial (.vrsq o) rsqVal o) s
def execVsqrt (o : V1) (s : State) : Out := retire (.vsqrt o) (vspecial (.vsqrt o) sqrtOf o) s
def execVexp2 (o : V1) (s : State) : Out := retire (.vexp2 o) (vspecial (.vexp2 o) exp2Val o) s
def execVlog2 (o : V1) (s : State) : Out := retire (.vlog2 o) (vspecial (.vlog2 o) log2Val o) s
def execVsin (o : V1) (s : State) : Out := retire (.vsin o) (vspecial (.vsin o) sinVal o) s
def execVcos (o : V1) (s : State) : Out := retire (.vcos o) (vspecial (.vcos o) cosVal o) s
def execVtanh (o : V1) (s : State) : Out := retire (.vtanh o) (vspecial (.vtanh o) tanhVal o) s
def execVerf (o : V1) (s : State) : Out := retire (.verf o) (vspecial (.verf o) erfVal o) s

/-! ## Integer and bit arithmetic (R227, R228) -/

/-- VIADD, VISUB, VIMUL: exact, then R74; b formats modulo 2^w. -/
def intElem (f : Nat) (g : Int → Int → Int) (s : State) (_ x y : Nat) : Elem :=
  match decodeInt f x, decodeInt f y with
  | some a, some b =>
    let r := encodeInt f (rmSat s.cur.rmode) (g a b)
    ⟨r.1, r.2, false⟩
  | _, _ => absentElem f

/-- VIMAX, VIMIN: an absent operand is skipped. -/
def intExt (larger : Bool) (f : Nat) (_ : State) (_ x y : Nat) : Elem :=
  match decodeInt f x, decodeInt f y with
  | some a, some b => plain (if decide (a < b) == larger then y else x)
  | some _, none => ⟨x, sawAbsent, false⟩
  | none, some _ => ⟨y, sawAbsent, false⟩
  | none, none => absentElem f

/-- An operation on bits of width w. -/
def bitElem (f : Nat) (g : Nat → Nat → Nat → Nat) (_ : State) (_ x y : Nat) : Elem := plain (g (fmtWidth f) x y)

def vint2 (g : Nat → State → Nat → Nat → Nat → Elem) (o : V2) : Exec Unit := do
  let es ← vec2 o (g (fc o.fmt))
  commit (fc o.fmt) o.d es

def andBits (_ x y : Nat) : Nat := x &&& y
def orBits (_ x y : Nat) : Nat := x ||| y
def xorBits (_ x y : Nat) : Nat := x ^^^ y
def shlBits (w x n : Nat) : Nat := (shlFn false w x n).1
def shrBits (w x n : Nat) : Nat := (shrFn false w x n).1
def sarBits (w x n : Nat) : Nat := (sarFn true w x n).1

/-- A shift: the count of an immediate is taken as 64 bits (R228). -/
def vshift (g : Nat → Nat → Nat → Nat) (o : V2) : Exec Unit := do
  let f := fc o.fmt
  match o.src with
  | .ri imm =>
    let es ← vec1 ⟨o.fmt, o.pm, o.d, o.a⟩ fun _ _ x => plain (g (fmtWidth f) x (sext64 imm).toNat)
    commit f o.d es
  | _ =>
    let es ← vec2 o (bitElem f g)
    commit f o.d es

def vbit1 (g : Nat → Nat → Nat) (o : V1) : Exec Unit := do
  let f := fc o.fmt
  let es ← vec1 o fun _ _ x => plain (g (fmtWidth f) x)
  commit f o.d es

def execViadd (o : V2) (s : State) : Out := retire (.viadd o) (vint2 (fun f => intElem f (· + ·)) o) s
def execVisub (o : V2) (s : State) : Out := retire (.visub o) (vint2 (fun f => intElem f (· - ·)) o) s
def execVimul (o : V2) (s : State) : Out := retire (.vimul o) (vint2 (fun f => intElem f (· * ·)) o) s
def execVimax (o : V2) (s : State) : Out := retire (.vimax o) (vint2 (intExt true) o) s
def execVimin (o : V2) (s : State) : Out := retire (.vimin o) (vint2 (intExt false) o) s
def execVand (o : V2) (s : State) : Out := retire (.vand o) (vint2 (fun f => bitElem f andBits) o) s
def execVor (o : V2) (s : State) : Out := retire (.vor o) (vint2 (fun f => bitElem f orBits) o) s
def execVxor (o : V2) (s : State) : Out := retire (.vxor o) (vint2 (fun f => bitElem f xorBits) o) s
def execVshl (o : V2) (s : State) : Out := retire (.vshl o) (vshift shlBits o) s
def execVshr (o : V2) (s : State) : Out := retire (.vshr o) (vshift shrBits o) s
def execVsar (o : V2) (s : State) : Out := retire (.vsar o) (vshift sarBits o) s
def execVclz (o : V1) (s : State) : Out := retire (.vclz o) (vbit1 clzOf o) s
def execVctz (o : V1) (s : State) : Out := retire (.vctz o) (vbit1 ctzOf o) s
def execVpopc (o : V1) (s : State) : Out := retire (.vpopc o) (vbit1 popcOf o) s

/-! ## Compare, select, classify (R229-R233) -/

/-- The predicates of R229. -/
def predHolds (pr : Nat) (x y : Val) : Bool :=
  let un := valIsAbsent x || valIsNan x || valIsAbsent y || valIsNan y
  match pr with
  | 0 => !un && valEq x y
  | 1 => un || !valEq x y
  | 2 => !un && valLt x y
  | 3 => !un && !valLt y x
  | 4 => !un && valLt y x
  | 5 => !un && !valLt x y
  | 6 => un
  | _ => !un

/-- A mask from its bits. -/
def maskOf (bs : List Bool) : Word := BitVec.ofNat 64 (pack 1 (bs.map b2n))

/-- VCMP sets FLAGS.A only, whatever a constant's conversion would set (R229; log 50). -/
def vcmp (pr : BitVec 4) (fmt : BitVec 5) (d : PReg) (a : VReg) (src : Src) : Exec Unit := do
  let f := fc fmt
  require (decide (pr.toNat < 8)) .illegal
  sourcesOk f (a :: srcRegs src)
  let ta ← tableA f
  let tb ← tableB f
  let (x, y, _) ← vecOperands f a src everyElem
  let js := List.range (fmtElems f)
  let saw := js.any fun j => valIsAbsent (decodeVal f ta (x j)) || valIsAbsent (decodeVal f tb (y j))
  modMe fun z => z.setP d (maskOf (js.map fun j => predHolds pr.toNat (decodeVal f ta (x j)) (decodeVal f tb (y j))))
  setSticky ⟨saw, false, false⟩

/-- VSEL reads an inactive element of V[a] only where V[b], whose inactive elements it writes, is the same register (R210, R230). -/
def vsel (o : VB) : Exec Unit := do
  let f := fc o.fmt
  sourcesOk f [o.a, o.b]
  destOk f o.d
  let act ← mask o.pm (fmtElems f)
  let x ← readV f o.a (if o.a = o.b then everyElem else act)
  let y ← if o.a = o.b then pure x else readV f o.b everyElem
  writeV f o.d ((List.range (fmtElems f)).map fun j => some (elemAt (if act j then x else y) (fmtWidth f) j))

/-- Class of a nonzero finite number of a binary format; T8 entries and integers count as normal (R231). -/
def subnormal (f x : Nat) : Bool :=
  fmtIsF f && f != fmtT8 && decide (x % 2 ^ (fmtWidth f - 1) / 2 ^ (fpOf f).mb = 0)

def classOf (f : Nat) (t : Table) (x : Nat) : Nat :=
  match decodeVal f t x with
  | .absent => 0
  | .nan => 1
  | .inf neg => if neg then 2 else 9
  | .num neg n _ =>
    if n = 0 then (if neg then 5 else 6)
    else if subnormal f x then (if neg then 4 else 7)
    else (if neg then 3 else 8)

def vclass (o : V1) : Exec Unit := do
  let f := fc o.fmt
  let es ← vec1 o fun s _ x =>
    let c := classOf f (tabA s f) x
    ⟨c, ⟨c == 0, false, false⟩, false⟩
  commit f o.d es

/-- An element is present: not the absent code of its format, a T8 code by its table entry. -/
def present (f : Nat) (t : Table) (x : Nat) : Bool := !valIsAbsent (decodeVal f t x)

def vpres (fmt : BitVec 5) (d : PReg) (a : VReg) : Exec Unit := do
  let f := fc fmt
  sourcesOk f [a]
  let t ← tableA f
  let x ← readV f a everyElem
  let bs := (List.range (fmtElems f)).map fun j => present f t (elemAt x (fmtWidth f) j)
  modMe fun z => z.setP d (maskOf bs)
  setSticky ⟨bs.any (!·), false, false⟩

def vfilla (o : V1) : Exec Unit := do
  let f := fc o.fmt
  sourcesOk f [o.a]
  destOk f o.d
  let act ← mask o.pm (fmtElems f)
  let x ← readV f o.a act
  writeV f o.d ((List.range (fmtElems f)).map fun j => some (if act j then elemAt x (fmtWidth f) j else absentCode f))

def execVcmp (pr : BitVec 4) (f : BitVec 5) (d : PReg) (a : VReg) (src : Src) (s : State) : Out :=
  retire (.vcmp pr f d a src) (vcmp pr f d a src) s
def execVsel (o : VB) (s : State) : Out := retire (.vsel o) (vsel o) s
def execVclass (o : V1) (s : State) : Out := retire (.vclass o) (vclass o) s
def execVpres (f : BitVec 5) (d : PReg) (a : VReg) (s : State) : Out := retire (.vpres f d a) (vpres f d a) s
def execVfilla (o : V1) (s : State) : Out := retire (.vfilla o) (vfilla o) s

end Sys2Proof.Machine
end

