-- ==== Sys2Proof/Machine/Select.lean ====
section
/-! DEFINITION. Vector instructions: conversions and block scales, reductions and scans, permutes, sort, top-k and merge,
threshold selection, compaction, random draws and the seed registry (R234-R249, R442). -/

namespace Sys2Proof.Machine

/-! ## Conversions (R234, R235) -/

/-- The format of a conversion code. -/
def cvtFmt (c : Nat) : Nat := [12, 13, 14, 15, 16, 17, 18, 19, 0, 1, 2, 3, 4, 5, 6, 7].getD c 12

/-- One converted element; `j` is its index in the result. Integer to integer follows R74, everything else R87. -/
def convert (df sf : Nat) (s : State) (j x : Nat) : Elem :=
  if fmtIn sf && fmtIn df then
    match decodeInt sf x with
    | some v =>
      let r := encodeInt df (rmSat s.cur.rmode) v
      ⟨r.1, r.2, false⟩
    | none => absentElem df
  else
    let v := decodeVal sf (tabA s sf) x
    if valIsAbsent v then absentElem df else rounded df (tabB s df) (rmOf s s.me j) v

/-- The source of a conversion, and the state its elements are computed in. -/
def cvtSource (o : Cvt) : Exec (BitVec 512 × State) := do
  let sf := cvtFmt o.sf.toNat
  sourcesOk sf [o.a]
  destOk (cvtFmt o.df.toNat) o.d
  let s ← look id
  let x ← readV sf o.a everyElem
  return (x, s)

/-- A conversion whose element `j` comes from source element `g j`, or is unchanged. -/
def cvtWith (o : Cvt) (g : Nat → Option Nat) : Exec Unit := do
  let sf := cvtFmt o.sf.toNat
  let df := cvtFmt o.df.toNat
  let (x, s) ← cvtSource o
  commit df o.d ((List.range (fmtElems df)).map fun j => (g j).map fun i => convert df sf s j (elemAt x (fmtWidth sf) i))

def vcvt (o : Cvt) : Exec Unit := do
  require (o.part == 0 && decide (fmtWidth (cvtFmt o.sf.toNat) = fmtWidth (cvtFmt o.df.toNat))) .illegal
  cvtWith o some

def vpack (o : Cvt) : Exec Unit := do
  let es := fmtElems (cvtFmt o.sf.toNat)
  let r := fmtWidth (cvtFmt o.sf.toNat) / fmtWidth (cvtFmt o.df.toNat)
  require (decide (2 ≤ r) && decide (o.part.toNat < r)) .illegal
  cvtWith o fun j => if o.part.toNat * es ≤ j ∧ j < (o.part.toNat + 1) * es then some (j - o.part.toNat * es) else none

def vunpk (o : Cvt) : Exec Unit := do
  let ed := fmtElems (cvtFmt o.df.toNat)
  let r := fmtWidth (cvtFmt o.df.toNat) / fmtWidth (cvtFmt o.sf.toNat)
  require (decide (2 ≤ r) && decide (o.part.toNat < r)) .illegal
  cvtWith o fun j => some (o.part.toNat * ed + j)

def execVcvt (o : Cvt) (s : State) : Out := retire (.vcvt o) (vcvt o) s
def execVpack (o : Cvt) (s : State) : Out := retire (.vpack o) (vpack o) s
def execVunpk (o : Cvt) (s : State) : Out := retire (.vunpk o) (vunpk o) s

/-- A block scale byte: E5M3, or a code of the table FS names (R77, R82, R236). -/
def scaleVal (s : State) (r : SlotRef) (x : Nat) : Val :=
  let fs := (s.slot r).fs
  if bitOf fs 3 then decodeEntry (tableEntry (tableOf s r (placeIn fs)) x) else decodeE5M3 x

def vscale (inv : Bool) (fm : BitVec 4) (d a : VReg) (b : Reg) : Exec Unit := do
  let f := cvtFmt fm.toNat
  sourcesOk f [a]
  destOk f d
  let g ← readG b
  let s ← look id
  let x ← readV f a everyElem
  let es := (List.range (fmtElems f)).map fun j =>
    let v := decodeVal f (tabA s f) (elemAt x (fmtWidth f) j)
    let sc := scaleVal s s.me (g.toNat / 2 ^ (8 * (j / 32)) % 256)
    some (floatElem s f j [v, sc] fun _ => if inv then divVal v sc else mulVal v sc)
  commit f d es

def execVscale (inv : Bool) (f : BitVec 4) (d a : VReg) (b : Reg) (s : State) : Out :=
  retire (.vscale inv f d a b) (vscale inv f d a b) s

/-! ## Reductions and scans (R237, R238) -/

/-- The exact sum of present values that are not NaN, with the sign of an exact zero by R237. -/
def sumVals (rdn : Bool) (vs : List Val) : Val :=
  let minusZero (v : Val) : Bool := match v with | .num true 0 _ => true | _ => false
  let plusZero (v : Val) : Bool := match v with | .num false 0 _ => true | _ => false
  match vs.foldl (addVal false) (.num false 0 1) with
  | .num neg n d =>
    if n = 0 then .num (vs.all minusZero || (rdn && vs.any fun v => !plusZero v)) 0 1 else .num neg n d
  | v => v

def prodVals (vs : List Val) : Val := vs.foldl mulVal (.num false 1 1)

/-- The code an extremum of present inputs takes. -/
def pickCode (larger : Bool) (vs : List (Val × Nat)) : Nat :=
  match vs with
  | [] => 0
  | x :: t => (t.foldl (fun a b => if takesY larger a.1 b.1 then b else a) x).2

/-- The reduction of inputs by R237; `j` is the element it is written to. -/
def reduce (f op : Nat) (s : State) (j : Nat) (xs : List Nat) : Elem :=
  if fmtIsF f then
    let all := xs.map fun x => (decodeVal f (tabA s f) x, x)
    let vs := all.filter fun v => !valIsAbsent v.1
    let rm := rmOf s s.me j
    let e :=
      if vs = [] then plain (absentCode f)
      else if vs.any fun v => valIsNan v.1 then rounded f (tabA s f) rm .nan
      else match op with
        | 0 => rounded f (tabA s f) rm (sumVals (rdnOf rm) (vs.map Prod.fst))
        | 3 => rounded f (tabA s f) rm (prodVals (vs.map Prod.fst))
        | k => plain (pickCode (k == 1) vs)
    if vs.length < all.length then { e with st := e.st.or sawAbsent } else e
  else
    let vs := xs.filterMap (decodeInt f)
    let st := if vs.length < xs.length then sawAbsent else Sticky.none
    match vs with
    | [] => ⟨absentCode f, st, false⟩
    | v :: t =>
      let r := match op with
        | 0 => encodeInt f (rmSat s.cur.rmode) (t.foldl (· + ·) v)
        | 1 => (intPattern f (t.foldl max v), Sticky.none)
        | 2 => (intPattern f (t.foldl min v), Sticky.none)
        | _ => encodeInt f (rmSat s.cur.rmode) (t.foldl (· * ·) v)
      ⟨r.1, r.2.or st, false⟩

/-- The active elements of a register below a bound, in order. -/
def activeCodes (f : Nat) (act : Nat → Bool) (x : BitVec 512) (n : Nat) : List Nat :=
  ((List.range n).filter act).map (elemAt x (fmtWidth f))

def vred (o : Red) : Exec Unit := do
  let f := fc o.fmt
  require (decide (o.op.toNat < 4)) .illegal
  sourcesOk f [o.a]
  destOk f o.d
  let act ← mask o.pm (fmtElems f)
  let s ← look id
  let x ← readV f o.a act
  let e := reduce f o.op.toNat s 0 (activeCodes f act x (fmtElems f))
  commit f o.d ((List.range (fmtElems f)).map fun j => if j = 0 then some e else none)

def vscan (o : Red) : Exec Unit := do
  let f := fc o.fmt
  require (decide (o.op.toNat < 4)) .illegal
  sourcesOk f [o.a]
  destOk f o.d
  let act ← mask o.pm (fmtElems f)
  let s ← look id
  let x ← readV f o.a act
  commit f o.d ((List.range (fmtElems f)).map fun j => some (reduce f o.op.toNat s j (activeCodes f act x (j + 1))))

def execVred (o : Red) (s : State) : Out := retire (.vred o) (vred o) s
def execVscan (o : Red) (s : State) : Out := retire (.vscan o) (vscan o) s

/-! ## Permutes (R239) -/

/-- The elements of a source that active elements of the result take, with the active ones (R210). -/
def takenBy (e : Nat) (act : Nat → Bool) (from_ : Nat → Nat) (k : Nat) : Bool :=
  act k || (List.range e).any fun j => act j && decide (from_ j % e = k)

/-- A register as it reads under a mask, its stream left in place. -/
def peekV (f : Nat) (r : VReg) (want : Nat → Bool) : Exec (BitVec 512) := fun s =>
  match readV f r want s with
  | .ok (x, _) => .ok (x, s)
  | .error e => .error e

/-- VPERM reads its indices of active elements, then the elements they name. -/
def vperm (o : VB) : Exec Unit := do
  let f := fc o.fmt
  sourcesOk f [o.a, o.b]
  destOk f o.d
  let act ← mask o.pm (fmtElems f)
  let i ← peekV f o.b act
  let x ← readV f o.a (takenBy (fmtElems f) act fun j => elemAt i (fmtWidth f) j)
  let y ← if o.a = o.b then pure x else readV f o.b act
  writeV f o.d ((List.range (fmtElems f)).map fun j =>
    if act j then some (elemAt x (fmtWidth f) (elemAt y (fmtWidth f) j % fmtElems f)) else none)

def vrot (o : V2) : Exec Unit := do
  let f := fc o.fmt
  sourcesOk f [o.a]
  destOk f o.d
  let act ← mask o.pm (fmtElems f)
  let n ← match o.src with
    | .rr b => do
      let g ← readG b
      pure (g.toNat % fmtElems f)
    | .ri imm => pure ((imm.toInt % (fmtElems f : Int)).toNat)
    | _ => trap .illegal
  let x ← readV f o.a (takenBy (fmtElems f) act fun j => j + n)
  writeV f o.d ((List.range (fmtElems f)).map fun j =>
    if act j then some (elemAt x (fmtWidth f) ((j + n) % fmtElems f)) else none)

/-- An instruction that writes every element of D from two registers, `g` naming each by register and number. -/
def zipWith' (o : Zip) (g : Nat → Nat → Bool × Nat) : Exec Unit := do
  let f := fc o.fmt
  sourcesOk f [o.a, o.b]
  destOk f o.d
  let (x, y) ← readV2 f o.a o.b everyElem
  writeV f o.d ((List.range (fmtElems f)).map fun j =>
    let p := g (fmtElems f) j
    some (elemAt (if p.1 then y else x) (fmtWidth f) p.2))

def vzip (o : Zip) : Exec Unit := zipWith' o fun e j => (j % 2 == 1, b2n o.sel * (e / 2) + j / 2)
def vuzp (o : Zip) : Exec Unit := zipWith' o fun e j =>
  (decide (e ≤ 2 * j + b2n o.sel), (2 * j + b2n o.sel) % e)

def execVperm (o : VB) (s : State) : Out := retire (.vperm o) (vperm o) s
def execVrot (o : V2) (s : State) : Out := retire (.vrot o) (vrot o) s
def execVzip (o : Zip) (s : State) : Out := retire (.vzip o) (vzip o) s
def execVuzp (o : Zip) (s : State) : Out := retire (.vuzp o) (vuzp o) s

/-! ## Sort, top-k and merge (R240-R244) -/

/-- An entry: its decoded value, the code it is written with, its index and its position. -/
structure Entry where
  val : Val
  code : Elem
  idx : Nat
  pos : Nat
  deriving DecidableEq, Repr

/-- The rank of R241. -/
def ranksBefore (asc : Bool) (x y : Entry) : Bool :=
  let ax := valIsAbsent x.val
  let ay := valIsAbsent y.val
  if ax != ay then ay
  else if !ax && valLt x.val y.val then asc
  else if !ax && valLt y.val x.val then !asc
  else decide (x.idx < y.idx) || (decide (x.idx = y.idx) && decide (x.pos < y.pos))

/-- The entries of a pair (V[v], V[v + 1]). -/
def entriesOf (f : Nat) (t : Table) (code : Nat → Elem) (x i : BitVec 512) (from_ : Nat) : List Entry :=
  (List.range (fmtElems f)).map fun j =>
    let c := elemAt x (fmtWidth f) j
    ⟨decodeVal f t c, code c, elemAt i (fmtWidth f) j, from_ + j⟩

def absentIdx (f : Nat) : Nat := 2 ^ fmtWidth f - 1

/-- Write entries to a pair, absent entries after them. -/
def writePairV (f : Nat) (d : VReg) (es : List Entry) : Exec Unit := do
  let n := fmtElems f
  writeV f d ((List.range n).map fun j => some (match es[j]? with | some e => e.code.bits | none => absentCode f))
  writeV f (d + 1) ((List.range n).map fun j => some (match es[j]? with | some e => e.idx | none => absentIdx f))

/-- FLAGS.A when an absent value is among the inputs, FLAGS.NAN when a value written is NaN, and what re-encoding a written
value sets (R89, R213, R241). -/
def entryFlags (es out : List Entry) : Sticky :=
  out.foldl (fun a e => a.or e.code.st) ⟨es.any fun e => valIsAbsent e.val, false, out.any fun e => valIsNan e.val⟩

/-- Read a pair. -/
def readPair (f : Nat) (v : VReg) : Exec (BitVec 512 × BitVec 512) := do
  let x ← readV f v everyElem
  let i ← readV f (v + 1) everyElem
  return (x, i)

/-- Entry registers are even. -/
def evenRegs (rs : List VReg) : Exec Unit := require (rs.all fun r => decide (r.toNat % 2 = 0)) .illegal

def vsort (asc : Bool) (fmt : BitVec 5) (d a : VReg) : Exec Unit := do
  let f := fc fmt
  evenRegs [d, a]
  sourcesOk f [a, a + 1]
  destOk f d
  destOk f (d + 1)
  let t ← tableA f
  let (x, i) ← readPair f a
  let es := entriesOf f t plain x i 0
  let out := sortBy (ranksBefore asc) es
  writePairV f d out
  setSticky (entryFlags es out)

/-- k and the count register of VTOPK (R243). -/
def topkArgs (src : Src) : Exec (Nat × Reg) :=
  match src with
  | .rr b => do
    let g ← readG b
    return (g.toNat, b)
  | .ri imm => return (bitsOf imm 7 0, imm.extractLsb' 8 4)
  | _ => trap .illegal

def vtopk (asc : Bool) (fmt : BitVec 5) (d a : VReg) (src : Src) : Exec Unit := do
  let f := fc fmt
  evenRegs [d, a]
  let (k, c) ← topkArgs src
  require (decide (1 ≤ k) && decide (k ≤ fmtElems f)) .illegal
  sourcesOk f [a, a + 1]
  destOk f d
  destOk f (d + 1)
  let t ← tableA f
  let (x, i) ← readPair f a
  let es := entriesOf f t plain x i 0
  let some_ := es.filter fun e => !valIsAbsent e.val
  let m := min k some_.length
  let out := (sortBy (ranksBefore asc) some_).take m
  writePairV f d out
  writeG c (BitVec.ofNat 64 m)
  setSticky (entryFlags es out)

/-- The canonical code of a value: +0 for a zero, the canonical NaN for a NaN (R244). -/
def canonical (f : Nat) (v : Val) (e : Elem) : Elem :=
  match v with
  | .num _ 0 _ => { e with bits := e.bits % 2 ^ (fmtWidth f - 1) }
  | .nan => { e with bits := if f = fmtT8 then 0x7F else nanCode (fpOf f) }
  | _ => e

/-- Keep one of the entries equal in canonical value and in index. -/
def dropTwins : List Entry → List Entry
  | [] => []
  | e :: t => if t.any fun x => valEq x.val e.val && decide (x.idx = e.idx) then dropTwins t else e :: dropTwins t

/-- VMRGK. Where a .t8 entry of V[b] is encoded anew, what is dropped as equal is judged on the decoded value, so a value that encodes to -0
through FA is written as that code; the rules do not say which comes first (R83, R244; log 60). -/
def vmrgk (asc : Bool) (fmt : BitVec 5) (d a b : VReg) : Exec Unit := do
  let f := fc fmt
  evenRegs [d, a, b]
  sourcesOk f [a, a + 1, b, b + 1]
  destOk f d
  destOk f (d + 1)
  let s ← look id
  let (x, i) ← readPair f a
  let (y, k) ← if a = b then pure (x, i) else readPair f b
  let es := entriesOf f (tabA s f) plain x i 0 ++
    entriesOf f (tabB s f) (fromB s f (rmOf s s.me 0)) y k (fmtElems f)
  let live := (es.filter fun e => !valIsAbsent e.val).map fun e => { e with code := canonical f e.val e.code }
  let out := (sortBy (ranksBefore asc) (dropTwins live)).take (fmtElems f)
  writePairV f d out
  setSticky (entryFlags es out)

def execVsort (asc : Bool) (f : BitVec 5) (d a : VReg) (s : State) : Out := retire (.vsort asc f d a) (vsort asc f d a) s
def execVtopk (asc : Bool) (f : BitVec 5) (d a : VReg) (src : Src) (s : State) : Out :=
  retire (.vtopk asc f d a src) (vtopk asc f d a src) s
def execVmrgk (asc : Bool) (f : BitVec 5) (d a b : VReg) (s : State) : Out :=
  retire (.vmrgk asc f d a b) (vmrgk asc f d a b) s

/-! ## Threshold selection and compaction (R245, R246) -/

/-- Codes at the low elements, a filler above. -/
def packed (f fill : Nat) (cs : List Nat) : List (Option Nat) :=
  (List.range (fmtElems f)).map fun j => some (cs.getD j fill)

/-- The y of VSELGT and VSELGE: G[b] in RR form, else a constant. -/
def threshold (f : Nat) (src : Src) : Exec (Nat × Sticky) :=
  match src with
  | .rr b => do
    let g ← readG b
    return (g.toNat % 2 ^ fmtWidth f, Sticky.none)
  | src => vecConst f src

/-- VSELGT and VSELGE. An absent y sets FLAGS.A also where no element is active: R245 speaks of meeting an absent element only
(log 60). -/
def vselect (pr : Nat) (o : V2) : Exec Unit := do
  let f := fc o.fmt
  sourcesOk f [o.a]
  destOk f o.d
  let act ← mask o.pm (fmtElems f)
  let ta ← tableA f
  let tb ← tableB f
  let (y, st) ← threshold f o.src
  let x ← readV f o.a act
  let cs := activeCodes f act x (fmtElems f)
  let v := decodeVal f tb y
  writeV f o.d (packed f (absentCode f) (cs.filter fun c => predHolds pr (decodeVal f ta c) v))
  setSticky (st.or ⟨valIsAbsent v || cs.any (fun c => valIsAbsent (decodeVal f ta c)), false, false⟩)

def vcompr (o : V1) : Exec Unit := do
  let f := fc o.fmt
  sourcesOk f [o.a]
  destOk f o.d
  let act ← mask o.pm (fmtElems f)
  let t ← tableA f
  let x ← readV f o.a act
  let cs := activeCodes f act x (fmtElems f)
  writeV f o.d (packed f (absentCode f) (cs.filter (present f t)))
  setSticky ⟨cs.any fun c => !present f t c, false, cs.any fun c => valIsNan (decodeVal f t c)⟩

def execVselgt (o : V2) (s : State) : Out := retire (.vselgt o) (vselect 4 o) s
def execVselge (o : V2) (s : State) : Out := retire (.vselge o) (vselect 5 o) s
def execVcompr (o : V1) (s : State) : Out := retire (.vcompr o) (vcompr o) s

/-! ## Random draws and the seed registry (R247-R249, R442) -/

/-- The element a draw gives: uniform for float formats, its high bits for b formats. -/
def drawElem (f : Nat) (d : Word) : Nat := if fmtIsF f then uniform f d else d.toNat / 2 ^ (64 - fmtWidth f)

def vrand (fmt : BitVec 5) (pm : PReg) (d : VReg) (a : Reg) : Exec Unit := do
  let f := fc fmt
  destOk f d
  let act ← mask pm (fmtElems f)
  let g ← readG a
  let seed ← look fun s => seedOf s s.cur.launch
  writeV f d ((List.range (fmtElems f)).map fun j =>
    if act j then some (drawElem f (hcm64 seed (g + BitVec.ofNat 64 j))) else none)

def rand (d a : Reg) : Exec Unit := do
  let g ← readG a
  let seed ← look fun s => seedOf s s.cur.launch
  writeG d (hcm64 seed g)

/-- RNGREG sends its range to the registry and parks on nothing. -/
def rngreg (a b : Reg) : Exec Unit := do
  let base ← readG a
  let len ← readG b
  require (decide (base.toNat + len.toNat ≤ 2 ^ 64)) .illegal
  modify' fun s =>
    if len = 0 then s
    else s.post s.me.die granaryDie (.seedRegistryRequest ⟨s.me.die, s.cur.launch, seedOf s s.cur.launch, base, len⟩)

def execVrand (f : BitVec 5) (pm : PReg) (d : VReg) (a : Reg) (s : State) : Out := retire (.vrand f pm d a) (vrand f pm d a) s
def execRand (d a : Reg) (s : State) : Out := retire (.rand d a) (rand d a) s
def execRngreg (a b : Reg) (s : State) : Out := retire (.rngreg a b) (rngreg a b) s

/-- A live entry of the registry that shares a counter value with a request of equal seed. -/
def sharesCounter (q : SeedReq) (e : Seed) : Bool :=
  decide (e.seed = q.seed) && decide (e.base.toNat < q.base.toNat + q.len.toNat) &&
  decide (q.base.toNat < e.base.toNat + e.len.toNat)

/-- The registry takes a request in a free entry, which of them is free (log 45); the die writes an event record for each live entry it
meets, or one with an argument of all ones when no entry is free (R249, R442). A request that comes after its launch has completed is
taken too, and its entry stays (log 45). -/
def execSeedRegistryRequest (q : SeedReq) (s : State) : Out :=
  let at_ (k : Nat) : Option Seed := SMap.get s.seeds none k
  let event (s : State) (arg : Nat) : State :=
    s.record q.die (recordFor q.launch 1 .rngOverlap none none (BitVec.ofNat 64 arg))
  let free := (List.range 64).filter fun k => (at_ k).isNone
  match free[Config.seedEntry s.draws % free.length]? with
  | none => .next (event s (2 ^ 64 - 1))
  | some k =>
    let hits := (List.range 64).filterMap fun j => (at_ j).filter (sharesCounter q)
    let t := { s with seeds := SMap.put s.seeds k (some ⟨q.seed, q.base, q.len, q.launch⟩), draws := s.draws + 1 }
    .next (hits.foldl (fun s e => event s e.launch) t)

end Sys2Proof.Machine
end

