-- ==== Sys2Proof/Machine/Budget.lean ====
section
/-! DEFINITION. The energy budget of a core (R386-R390). -/

namespace Sys2Proof.Machine

/-- Launches with a task or a matrix operation on a core (R386). -/
def launchesOn (s : State) (core : Nat) : List Nat :=
  (((List.range 8).map fun j => s.slot (refOf core j)).filter Slot.occupied).map Slot.launch

/-- The smallest EBUD of those launches, 0 being no limit; none where there is no limit (R386). -/
def leastEbud (s : State) (core : Nat) : Option Nat :=
  let es := (launchesOn s core).map fun n => match s.launch n with | some l => l.ebud | none => 0
  match es.filter (fun e => e ≠ 0) with
  | [] => none
  | e :: t => some (t.foldl min e)

/-- The refill amount A: lowered on a hot die, which also limits a core that no launch limits (R386, R468). -/
def refillAmount (s : State) (core : Nat) : Option Nat :=
  if (s.die (dieOfCore core)).hot then some ((leastEbud s core).elim 32768 fun a => max 64 (a / 2))
  else leastEbud s core

/-- The matrix unit among the claimants (R389). -/
def unitClaim : Nat := 8

/-- The counter with the refills of every 1,024 cycles up to now (R386): it rises by A each time, or is held at its cap
where no limit applies. -/
def refilled (s : State) (core : Nat) : Core :=
  let c := s.core core
  let due := s.cycle / 1024 - c.refills
  { c with
    refills := max c.refills (s.cycle / 1024)
    budget := if due = 0 then c.budget else match refillAmount s core with | some a => min 65535 (c.budget + a * due) | none => 65535 }

/-- With no launch that limits the core, the counter is held at its cap (R386). -/
def settleBudget (s : State) (core : Nat) : State :=
  match refillAmount s core with
  | none => s.modCore core fun c => { c with budget := 65535 }
  | some _ => s

/-- Charge a claimant: granted, or turned into a claim that keeps its place (R389). -/
def charge (s : State) (core who n : Nat) : Bool × State :=
  let c := refilled s core
  let rest := c.claims.filter fun x => x.1 ≠ who
  if n = 0 then (true, s)
  else match refillAmount s core with
  | none => (true, s.setCore core { c with claims := rest, budget := 65535 })
  | some _ =>
    let first : Bool := match c.claims with | [] => true | x :: _ => decide (x.1 = who)
    if first ∧ n ≤ c.budget then (true, s.setCore core { c with claims := rest, budget := c.budget - n })
    else if c.claims.any (fun x => decide (x.1 = who)) then (false, s)
    else (false, s.setCore core { c with claims := c.claims ++ [(who, n)] })

/-- Clear a claim: its claimant is halted, in fault hold or gone (R390). -/
def unclaim (s : State) (core who : Nat) : State :=
  let c := s.core core
  if c.claims.any (fun x => decide (x.1 = who)) then s.setCore core { c with claims := c.claims.filter fun x => x.1 ≠ who }
  else s

/-- Row of R388 for an element width: up to 16 bits, 32, 64. -/
def byWidth (w a b c : Nat) : Nat := if w ≤ 16 then a else if w ≤ 32 then b else c

def floatCharge (w : Nat) : Nat := byWidth w 3 4 6
def fusedCharge (w : Nat) : Nat := byWidth w 4 6 10
def specialCharge (w : Nat) : Nat := byWidth w 12 16 24
/-- Compares, classes, selections, reductions and scans: by float or integer format. -/
def mixedCharge (f : Nat) : Nat := if fmtIsF f then floatCharge (fmtWidth f) else 2

def fmtN (f : BitVec 5) : Nat := fmtWidth f.toNat
/-- Formats of a conversion by their codes (R234); the wider counts. -/
def cvtCharge (a b : BitVec 4) : Nat :=
  floatCharge (max (fmtWidth (cvtFmt a.toNat)) (fmtWidth (cvtFmt b.toNat)))

/-- The charge of an instruction at its issue (R388): class S is charged nothing. -/
def issueCharge (i : Instr) : Nat :=
  match i with
  | .vld _ => 1
  | .vst _ => 1
  | .vlds _ => 1
  | .vsts _ => 1
  | .vbcast _ _ _ _ => 1
  | .vmovgToG _ _ _ _ => 1
  | .vmovgToV _ _ _ _ => 1
  | .vand _ => 1
  | .vor _ => 1
  | .vxor _ => 1
  | .vshl _ => 1
  | .vshr _ => 1
  | .vsar _ => 1
  | .vclz _ => 1
  | .vctz _ => 1
  | .vpopc _ => 1
  | .vsel _ => 1
  | .vpres _ _ _ => 1
  | .vfilla _ => 1
  | .vperm _ => 1
  | .vrot _ => 1
  | .vzip _ => 1
  | .vuzp _ => 1
  | .vcompr _ => 1
  | .vgath _ => 4
  | .vscat _ => 4
  | .viadd _ => 2
  | .visub _ => 2
  | .vimax _ => 2
  | .vimin _ => 2
  | .vimul _ => 3
  | .vcmp _ f _ _ _ => mixedCharge f.toNat
  | .vclass o => mixedCharge o.fmt.toNat
  | .vselgt o => mixedCharge o.fmt.toNat
  | .vselge o => mixedCharge o.fmt.toNat
  | .vred o => mixedCharge o.fmt.toNat
  | .vscan o => mixedCharge o.fmt.toNat
  | .vadd o => floatCharge (fmtN o.fmt)
  | .vsub o => floatCharge (fmtN o.fmt)
  | .vmul o => floatCharge (fmtN o.fmt)
  | .vmax o => floatCharge (fmtN o.fmt)
  | .vmin o => floatCharge (fmtN o.fmt)
  | .vabs o => floatCharge (fmtN o.fmt)
  | .vneg o => floatCharge (fmtN o.fmt)
  | .vcps o => floatCharge (fmtN o.fmt)
  | .vcvt o => cvtCharge o.df o.sf
  | .vpack o => cvtCharge o.df o.sf
  | .vunpk o => cvtCharge o.df o.sf
  | .vscale _ f _ _ _ => cvtCharge f f
  | .vfma o => fusedCharge (fmtN o.fmt)
  | .vfms o => fusedCharge (fmtN o.fmt)
  | .vdiv o => specialCharge (fmtN o.fmt)
  | .vrcp o => specialCharge (fmtN o.fmt)
  | .vrsq o => specialCharge (fmtN o.fmt)
  | .vsqrt o => specialCharge (fmtN o.fmt)
  | .vexp2 o => specialCharge (fmtN o.fmt)
  | .vlog2 o => specialCharge (fmtN o.fmt)
  | .vsin o => specialCharge (fmtN o.fmt)
  | .vcos o => specialCharge (fmtN o.fmt)
  | .vtanh o => specialCharge (fmtN o.fmt)
  | .verf o => specialCharge (fmtN o.fmt)
  | .vsort _ _ _ _ => 8
  | .vtopk _ _ _ _ _ => 8
  | .vmrgk _ _ _ _ _ => 8
  | .vrand _ _ _ _ => 8
  | .mzero _ => 1
  | .mma _ => 1
  | .mmah _ => 1
  | .mhoop _ _ _ _ => 1
  | .mdrain _ _ _ _ => 1
  | .mdrainp _ _ _ => 1
  | .macc _ _ _ => 1
  | .mpri _ => 1
  | _ => 0

/-- The charge of a bundle: that of its V-class half (R388). -/
def bundleCharge (b : Bundle) : Nat := max (issueCharge b.first) ((b.second.map issueCharge).getD 0)

end Sys2Proof.Machine
end

