-- ==== Sys2Proof/Machine/Fetch.lean ====
section
/-! DEFINITION. Code lines, bundles and fetch (R135-R146, R185, R186). -/

namespace Sys2Proof.Machine

/-- A line of code: its heads with their tails. -/
abbrev Line := List (BitVec 16 × BitVec 128)

/-- Place tails from byte `end_` downward, in head order (R138). -/
def tailsFrom (bs : List Byte) : Nat → List (BitVec 16) → Line
  | _, [] => []
  | end_, h :: t =>
    let n := tailBytes (headTL h)
    (h, BitVec.ofNat 128 (fieldOf bs (end_ - n) n)) :: tailsFrom bs (end_ - n) t

/-- The heads of a line, none when it is malformed (R138, R139). -/
def parseLine (bs : List Byte) : Option Line :=
  let hdr := fieldOf bs 0 2
  let h := hdr / 2 ^ 11
  let heads := (List.range h).map fun i => BitVec.ofNat 16 (fieldOf bs (2 + 2 * i) 2)
  let used := (heads.map fun x => tailBytes (headTL x)).sum
  if h = 0 ∨ hdr % 2 ^ 11 ≠ 0 then none
  else if 64 < used + 2 + 2 * h then none
  else if (heads.getLast?.map headP).getD false then none
  else some (tailsFrom bs 64 heads)

def headBit (l : Line) (i : Nat) : Bool := match l[i]? with | some x => headP x.1 | none => false

/-- The head a PC names, if it may be fetched (R144). -/
def targetHead (l : Line) (t : Nat) : Option Nat :=
  let i := (t % 64 - 2) / 2
  if t % 64 < 2 ∨ t % 2 = 1 ∨ l.length ≤ i then none
  else if 0 < i ∧ headBit l (i - 1) then none
  else some i

/-- Sequential successor of a bundle whose last head is `j` (R145). -/
def successor (l : Line) (line j : Nat) : Word :=
  if j + 1 < l.length then BitVec.ofNat 64 (line + 2 + 2 * (j + 1)) else BitVec.ofNat 64 (line + 64 + 2)

/-- General registers an instruction names as destinations (R141, R188, R190, R224, R243, R270, R341). -/
def gDests (i : Instr) : List Reg :=
  match i with
  | .add o => [o.d]
  | .sub o => [o.d]
  | .mul o => [o.d]
  | .mulh o => [o.d]
  | .div o => [o.d]
  | .rem o => [o.d]
  | .neg o => [o.d]
  | .abs o => [o.d]
  | .min o => [o.d]
  | .max o => [o.d]
  | .and o => [o.d]
  | .or o => [o.d]
  | .xor o => [o.d]
  | .andn o => [o.d]
  | .not o => [o.d]
  | .shl o => [o.d]
  | .shr o => [o.d]
  | .sar o => [o.d]
  | .rol o => [o.d]
  | .ror o => [o.d]
  | .clz o => [o.d]
  | .ctz o => [o.d]
  | .ffs o => [o.d]
  | .popc o => [o.d]
  | .brev o => [o.d]
  | .ext o => [o.d]
  | .ins o => [o.d]
  | .sext o => [o.d]
  | .zext o => [o.d]
  | .setc _ o => [o.d]
  | .sel _ d _ _ => [d]
  | .mov d _ => [d]
  | .movi _ d _ => [d]
  | .movl _ d _ => [d]
  | .lea d _ => [d]
  | .loop d _ => [d]
  | .call _ => [15]
  | .ld o => [o.d]
  | .ldTake o => [o.d]
  | .ldp d _ => [d, d + 1]
  | .movc d _ => [d]
  | .segrd _ d _ => [d]
  | .vmovgToG _ d _ _ => [d]
  | .vtopk _ _ _ _ (.rr b) => [b]
  | .vtopk _ _ _ _ (.ri imm) => [imm.extractLsb' 8 4]
  | .rand d _ => [d]
  | .joinf _ d _ _ => [d]
  | .lth o => if o.kind = 5 then [o.d, o.d + 1] else [o.d]
  | .ldf o => [o.d]
  | .waitany d _ => [d]
  | .waitall d _ => [d]
  | .fready d _ => [d]
  | .freadyCode d _ => [d]
  | .capnew d _ => [d]
  | .caprd d _ => [d]
  | .grecv d _ => [d, d + 1]
  | .gstat d _ => [d]
  | _ => []

/-- The shapes of R141 that are no bundle: one class twice, or a shared destination. SDON and SDOFF name V6 or V7 in D without
writing its bits; R141 does not say whether that is a destination shared with the V-class half, and the model lets such a
bundle issue (log 49). -/
def pairOk (x y : Instr) : Bool := (x.isV != y.isV) && !((gDests x).any fun d => (gDests y).contains d)

/-- The bundle whose first head is `i`; none when an encoding is not an instruction (R141, R153). -/
def bundleOf (l : Line) (line i : Nat) : Option Bundle :=
  let pc := BitVec.ofNat 64 (line + 2 + 2 * i)
  match l[i]? with
  | none => none
  | some (h, t) =>
    if !headP h then (decodeWord h t).map fun x => ⟨pc, successor l line i, x, none⟩
    else if headBit l (i + 1) then none
    else match decodeWord h t, l[i + 1]?.bind (fun y => decodeWord y.1 y.2) with
      | some x, some y => if pairOk x y then some ⟨pc, successor l line (i + 1), x, some y⟩ else none
      | _, _ => none

/-- A line as it stood at one time since the task was posted (R186; log 20). -/
def lineBytes (s : State) (k : Nat) : List Byte := s.loadsAt (s.seen s.cur.since k) k 64

/-- Read the line at an address: S0 first, then the line (R144, R185, R186). -/
def fetchLine (line : Nat) : Exec Line := do
  let s0 ← look fun s => s.cur.getS 0
  if !(segEx s0 && decide (0 < segLimit s0) && decide (segBase s0 ≤ line) && decide (line - segBase s0 + 64 ≤ segLimit s0)) then
    trap .seg
  let bs ← if segSpace s0 then do
      let ps ← translate [(line, 64)] rightsRd none
      let k := (ps.head?.map Prod.fst).getD 0
      let bad ← look fun s => s.hasUe k 64
      match bad with
      | some j => do
        let ga ← look fun s => gaOf s j
        stop (.trap .memUe ⟨0, none, some ga, 0⟩)
      | none => look fun s => lineBytes s k
    else do
      let _ ← loadNear line 64
      look fun s => lineBytes s (nearKey s line)
  match parseLine bs with
  | some l => return l
  | none => trap .line

/-- Fetch the bundle at a PC (R144). -/
def fetchBundle (pc : Word) : Exec Bundle := do
  let line := pc.toNat / 64 * 64
  let l ← fetchLine line
  match targetHead l pc.toNat with
  | none => trap .badTarget
  | some i =>
    match bundleOf l line i with
    | some b => return b
    | none => trap .illegal

/-- Instructions that no body bundle may hold (R253). -/
def barredInBody (i : Instr) : Bool :=
  match i with
  | .b _ => true
  | .bc _ _ => true
  | .bz _ _ => true
  | .bnz _ _ => true
  | .loop _ _ => true
  | .call _ => true
  | .ret => true
  | .jmp _ => true
  | .rep _ => true
  | .repx _ _ => true
  | .tend => true
  | _ => false

/-- The bundle that the repetition buffer holds for the slot. -/
def Rep.held (r : Rep) : Option Bundle := if r.act then r.body[r.pos]? else none

/-- The next bundle of the slot: from the repetition buffer when it holds it, else fetched, and held from then on while a body
runs (R251, R253). -/
def nextBundle : Exec Bundle := do
  let x ← look fun s => s.cur
  let b ← match x.rep.held with
    | some b => pure b
    | none => do
      let b ← fetchBundle x.pc
      if x.rep.act then modMe fun x => { x with rep := { x.rep with body := x.rep.body ++ [b] } }
      pure b
  require (!(x.rep.act && (barredInBody b.first || (b.second.map barredInBody).getD false))) .illegal
  return b

/-- A slot that may issue: it holds a task that is not parked, halted or ending (R49). -/
def canIssue (x : Slot) : Bool := x.occupied && x.parks.isEmpty && decide (x.halt = .no) && !x.ending

/-- FETCH: the slot's next bundle comes into hand, or its fetch faults or parks (R144, R146, R185). -/
def execFetch (r : SlotRef) (s : State) : Out :=
  if !canIssue (s.slot r) then .next s
  else
  let pc := (s.slot r).pc
  let s := { s with focus := ⟨r, pc, pc, .done, none⟩ }
  match nextBundle s with
  | .ok (b, t) => .next { t with focus := { t.focus with next := b.succ, bundle := some b } }
  | .error (.trap c d) => .next (takeFault s c d)
  | .error (.reissue c w) => .next (s.reissue (.fetch r) c w)

/-- The address `n` bundles on in sequential order; the lines crossed are checked (R251). -/
def skipBundles : Nat → Word → Exec Word
  | 0, pc => return pc
  | n + 1, pc => do
    let line := pc.toNat / 64 * 64
    let l ← fetchLine line
    let i := (pc.toNat % 64 - 2) / 2
    skipBundles n (successor l line (if headBit l i then i + 1 else i))

end Sys2Proof.Machine
end

