-- ==== Sys2Proof/Machine/Streams.lean ====
section
/-! DEFINITION. Stream descriptors, the repetition buffer and format tables (R218-R222, R250-R255, R81). -/

namespace Sys2Proof.Machine

/-! ## Streams (R219, R220) -/

/-- An image that SDSET accepts. -/
def streamOk (i : BitVec 256) : Bool :=
  decide (bitsOf i 255 192 = 0) && decide (bitsOf i 62 59 = 0) && decide (bitsOf i 50 48 = 0) &&
  decide (sdBound0 i ≠ 0) && decide (sdBound1 i ≠ 0) && decide (sdFmt i < 20) && decide (sdFmt i ≠ fmtE2M1)

def sdsetWith (d : BitVec 2) (bs : List Byte) : Exec Unit := do
  let i := BitVec.ofNat 256 (natOf bs)
  require (streamOk i) .illegal
  modMe fun x => x.setSd d ⟨i, 0⟩

def sdset (d : BitVec 2) (m : Mem) : Exec Unit := do
  let ea ← look fun s => s.cur.ea m
  match ← privateMem m 32 true false with
  | .near off => do
    let bs ← loadNear off 32
    sdsetWith d bs
  | .far ps => do
    let vas ← look fun s => s.cur.range m 32
    loadFar (.sdset d m) vas ps ea

/-- Bind or unbind V6 or V7. -/
def Slot.setBinding (x : Slot) (r : BitVec 4) (b : Option Binding) : Slot :=
  if r = 6 then { x with bind6 := b } else { x with bind7 := b }

def sdon (write : Bool) (d : BitVec 4) (a : BitVec 2) : Exec Unit := do
  require (d == 6 || d == 7) .illegal
  let x ← look fun s => s.cur
  let i := (x.getSd a).image
  let other := if d = 6 then x.bind7 else x.bind6
  require (sdValid i && !((other.map fun b => b.desc == a).getD false)) .illegal
  require (!(segSpace (x.getS (sdSeg i)))) .prot
  modMe fun x => x.setBinding d (some ⟨write, a⟩)

def sdoff (d : BitVec 4) : Exec Unit := do
  require (d == 6 || d == 7) .illegal
  modMe fun x => x.setBinding d none

def execSdset (d : BitVec 2) (m : Mem) (s : State) : Out := retire (.sdset d m) (sdset d m) s
def execSdon (w : Bool) (d : BitVec 4) (a : BitVec 2) (s : State) : Out := retire (.sdon w d a) (sdon w d a) s
def execSdoff (d : BitVec 4) (s : State) : Out := retire (.sdoff d) (sdoff d) s

/-! ## The repetition buffer (R250-R252) -/

/-- Start a body of `len` bundles for `count` passes, or go past it. -/
def repeat' (count len : Nat) : Exec Unit := do
  require (decide (0 < len)) .illegal
  if count = 0 then do
    let next ← look fun s => s.focus.next
    let t ← skipBundles len next
    branchTo t
  else modMe fun x => { x with rep := ⟨true, len, 0, count - 1, [], false⟩ }

def repx (len : BitVec 5) (a : Reg) : Exec Unit := do
  let g ← readG a
  repeat' (bitsOf g 31 0) len.toNat

def execRep (imm : BitVec 20) (s : State) : Out := retire (.rep imm) (repeat' (imm.toNat / 32) (imm.toNat % 32)) s
def execRepx (len : BitVec 5) (a : Reg) (s : State) : Out := retire (.repx len a) (repx len a) s

/-- REPST after a body bundle completes, and the address the slot goes on at (R252). After the last one only ACT changes. -/
def repStep (r : Rep) (next : Word) : Rep × Word :=
  let r := { r with due := false }
  if r.pos + 1 < r.len then ({ r with pos := r.pos + 1 }, next)
  else if r.left = 0 then ({ r with act := false }, next)
  else ({ r with pos := 0, left := r.left - 1 }, (r.body.head?.map Bundle.pc).getD next)

/-- A slot whose body bundle has completed goes on in the body (R252, R253). -/
def Slot.repNext (x : Slot) : Slot :=
  let (q, pc) := repStep x.rep x.pc
  { x with rep := q, pc := pc }

/-- When the last park of a bundle is done, a TEND beside it ends the task (R294), and in a body REPST moves on (R253). -/
def wakeSlot (r : SlotRef) (s : State) : State :=
  let x := s.slot r
  if x.parks ≠ [] then s
  else if x.tending then endTask s r false
  else if x.rep.due then s.setSlot r x.repNext
  else s

/-! ## Format tables (R81, R254, R255) -/

/-- Entry words compared by value among finite entries. -/
def entryLess (x y : BitVec 32) : Bool :=
  match decodeEntry x, decodeEntry y with
  | .num _ a b, .num _ c d => decide (a * d < c * b)
  | _, _ => false

/-- Conditions 3 and 4 on the codes 0x00-0x7E, each with the one before it. -/
def tableStep (t : Table) (k : Nat) : Bool :=
  let e := tableEntry t k
  let m := tableEntry t (k + 128)
  let shape :=
    if bitsOf e 21 20 = 0 then decide (bitsOf e 17 10 ≤ 254)
    else decide (bitsOf e 21 20 = 1) && decide (bitsOf e 17 0 = 0)
  let order :=
    if k = 0 then decide (bitsOf e 21 20 = 0)
    else
      let p := tableEntry t (k - 1)
      if bitsOf e 21 20 = 0 then decide (bitsOf p 21 20 = 0) && entryLess p e else true
  shape && order && !bitOf e 18 && decide (m = e ||| 0x40000#32)

/-- R81. -/
def tableOk (t : Table) : Bool :=
  t.all (fun e => decide (bitsOf e 31 22 = 0) && !bitOf e 19) &&
  decide (tableEntry t 0x7F = 0x200000#32) && decide (tableEntry t 0xFF = 0x300000#32) &&
  (List.range 127).all (tableStep t)

/-- A table from its 1,024 bytes (R79). -/
def tableBytes (bs : List Byte) : Table := (List.range 256).map fun k => BitVec.ofNat 32 (fieldOf bs (4 * k) 4)

def fmtldWith (place : BitVec 3) (bs : List Byte) : Exec Unit := do
  require (tableOk (tableBytes bs)) .formatTable
  modify' fun s => s.stores (localKey s.me.coreKey (tableOff s.me.slot place.toNat)) bs

def fmtld (place : BitVec 3) (m : Mem) : Exec Unit := do
  require (decide (3 ≤ place.toNat)) .formatTable
  let seg ← look fun s => s.cur.getS m.seg
  let ea ← look fun s => s.cur.ea m
  match ← privateAt seg ea.toNat 1024 64 true false with
  | .near off => do
    let bs ← loadNear off 1024
    fmtldWith place bs
  | .far ps => loadFar (.fmtld place m) [(segAddr seg ea.toNat, 1024)] ps ea

def fmtsel (d : BitVec 2) (src : RegImm) : Exec Unit := do
  let v ← regImmVal src
  let w : Word := BitVec.ofNat 64 (bitsOf v 3 0)
  modMe fun x => match d.toNat with
    | 0 => { x with fa := w &&& 7 }
    | 1 => { x with fb := w &&& 7 }
    | _ => { x with fs := w }

def execFmtld (p : BitVec 3) (m : Mem) (s : State) : Out := retire (.fmtld p m) (fmtld p m) s
def execFmtsel (d : BitVec 2) (src : RegImm) (s : State) : Out := retire (.fmtsel d src) (fmtsel d src) s

end Sys2Proof.Machine
end

