-- ==== Sys2Proof/Machine/Matrix.lean ====
section
/-! DEFINITION. The matrix unit of a core, its queue, the Hoop and split-K partials (R94-R98, R307-R330). -/

namespace Sys2Proof.Machine

/-! ## Accumulator elements (R94) -/

structure AccElem where
  imode : Bool
  csat : Bool
  inx : Bool
  ov : Bool
  mi : Bool
  pi : Bool
  ns : Bool
  count : Nat
  value : Nat
  deriving DecidableEq, Repr

def accOf (x : BitVec 128) : AccElem where
  imode := bitOf x 126
  csat := bitOf x 125
  inx := bitOf x 124
  ov := bitOf x 123
  mi := bitOf x 122
  pi := bitOf x 121
  ns := bitOf x 120
  count := bitsOf x 119 96
  value := bitsOf x 95 0

def AccElem.bits (e : AccElem) : BitVec 128 := BitVec.ofNat 128
  (b2n e.imode * 2 ^ 126 + b2n e.csat * 2 ^ 125 + b2n e.inx * 2 ^ 124 + b2n e.ov * 2 ^ 123 + b2n e.mi * 2 ^ 122 +
   b2n e.pi * 2 ^ 121 + b2n e.ns * 2 ^ 120 + e.count * 2 ^ 96 + e.value)

/-- The float form of VALUE: no infinity, NaN or absent code. -/
def accFp : FP := ⟨96, 80, 16383, 2 ^ 95 - 1, none, none, 2 ^ 96⟩

def AccElem.val (e : AccElem) : Val :=
  if e.imode then
    let v := signed 96 e.value
    .num (decide (v < 0)) v.natAbs 1
  else decodeFp accFp e.value

/-- A signed number of a value that is one. -/
def valInt (v : Val) : Int := match v with | .num neg n d => sgn neg (n / d) | _ => 0

/-- VALUE plus an exact sum: one rounding with INX and OV, or exact with the clamp of integer mode (R97). INX records
that the rounding to 80 fraction bits dropped something. -/
def AccElem.add (e : AccElem) (x : Val) : AccElem :=
  if e.imode then
    let v := signed 96 e.value + valInt x
    let hi : Int := 2 ^ 95 - 1
    let c := max (-(2 ^ 95)) (min hi v)
    { e with value := wrap 96 c, ov := e.ov || decide (c ≠ v) }
  else
    match addVal false e.val x with
    | .num neg n d =>
      if n = 0 then { e with value := 0 }
      else
        let m := ratMag n d
        let r := roundMag accFp ⟨0, true, 0⟩ neg m
        { e with value := r.1, inx := e.inx || (m.fl (80 - max m.lg (-16382))).2, ov := e.ov || r.2.ovf }
    | _ => e

def countMax : Nat := 0xFFFFFF

/-- More present contributors (R316, R326). -/
def AccElem.more (e : AccElem) (n : Nat) : AccElem :=
  { e with count := min (e.count + n) countMax, csat := e.csat || decide (countMax < e.count + n) }

/-! ## A k-step (R95, R96, R316) -/

/-- Element format of MF (R309). -/
def mfFmt (mf : Nat) : Nat := [14, 15, 17, 16, 19, 0, 18].getD mf 14
/-- k per k-step. -/
def mfKs (mf : Nat) : Nat := [8, 8, 16, 16, 16, 16, 32].getD mf 8

/-- Element `i` of packed bytes of width `w`; two E2M1 elements share a byte (R69). -/
def elemIn (bs : List Byte) (w i : Nat) : Nat :=
  if w = 4 then fieldOf bs (i / 2) 1 / 16 ^ (i % 2) % 16 else fieldOf bs (i * (w / 8)) (w / 8)

/-- The products of one element: how many are present, what the special ones set, and the exact sum of the others. -/
structure Products where
  n : Nat
  ns : Bool
  pi : Bool
  mi : Bool
  sum : Val
  deriving DecidableEq, Repr

def Products.step (t : Products) (p : Val) : Products :=
  match p with
  | .absent => t
  | .nan => { t with n := t.n + 1, ns := true }
  | .inf false => { t with n := t.n + 1, pi := true }
  | .inf true => { t with n := t.n + 1, mi := true }
  | v => { t with n := t.n + 1, sum := addVal false t.sum v }

def products (ps : List Val) : Products := ps.foldl Products.step ⟨0, false, false, false, .num false 0 1⟩

/-- One element after a k-step. -/
def AccElem.kstep (e : AccElem) (t : Products) : AccElem :=
  let e := e.more t.n
  ({ e with ns := e.ns || t.ns, pi := e.pi || t.pi, mi := e.mi || t.mi } : AccElem).add t.sum

/-- A block scale through the sampled table, which is empty for E5M3 (R77, R82). -/
def scaleOf (t : Table) (x : Nat) : Val := if t = [] then decodeE5M3 x else decodeEntry (tableEntry t x)

def one : Val := .num false 1 1

/-! ## The tile (R314, R315) -/

def Slot.imode (x : Slot) (c : Acc) : Bool := bitOf (x.getC c 0) 126
def Slot.isStarted (x : Slot) (c : Acc) : Bool := x.started[c.toNat]'(c.isLt)

/-- Set every element of a tile. -/
def Slot.setTile (x : Slot) (c : Acc) (es : List AccElem) : Slot :=
  (es.zipIdx).foldl (fun x e => x.setC c e.2 e.1.bits) x

/-- A tile as its elements. -/
def Slot.tile (x : Slot) (c : Acc) : List AccElem := (List.range 256).map fun n => accOf (x.getC c n)

/-- Start an unstarted tile in a mode. -/
def startTile (x : Slot) (c : Acc) (mode : Bool) : Slot :=
  if x.isStarted c then x
  else
    { x.setTile c ((x.tile c).map fun e => { e with imode := mode }) with started := x.started.set c.toNat true c.isLt }

def mzero (c : Acc) : Exec Unit := modMe fun x =>
  { x with c := x.c.filter (fun e => decide (e.1 / 256 ≠ c.toNat)), started := x.started.set c.toNat false c.isLt }

/-! ## Issue (R308-R313) -/

/-- R313 on ranges of a segment: offset, bytes and alignment. -/
def matrixRanges (seg : BitVec 128) (wr : Bool) (rs : List (Nat × Nat × Nat)) : Exec Unit := do
  if segSpace seg then trapSeg .prot seg ((rs.head?.map Prod.fst).getD 0)
  match rs.find? fun r => !segOk seg r.1 r.2.1 (!wr) wr with
  | some r => trapSeg .seg seg r.1
  | none => pure ()
  match rs.find? fun r => decide (r.1 % r.2.2 ≠ 0) with
  | some r => trapSeg .align seg r.1
  | none => pure ()

/-- The operation's mode agrees with the tile (R314). -/
def modeAgrees (c : Acc) (mode : Bool) : Exec Unit := do
  let x ← look fun s => s.cur
  require (!x.isStarted c || x.imode c == mode) .illegal

def MatOp.new (kind : MatKind) (tile : Acc) (total : Nat) : MatOp where
  kind := kind
  slot := 0
  tile := tile
  mf := 0
  sc := false
  a := 0
  b := 0
  asc := 0
  bsc := 0
  gas := []
  mask := 0
  code := 0
  norm := false
  rmode := 0
  keepRm := false
  stored := false
  before := []
  step := 0
  total := total
  base := 0
  entered := 0
  waited := 0
  since := 0
  overtaken := 0
  rank := 0
  tables := none
  sending := false
  waitXid := none
  answer := none
  claimed := false

/-- Enter the core's matrix queue and park (R308). -/
def matrixQueue (i : Instr) (o : MatOp) : Exec Unit := do
  let n ← freshX
  modify' fun s => s.modCore s.me.coreKey fun c => { c with queue := c.queue ++ [{ o with
    slot := s.me.slot, base := s.cur.prio.toNat, entered := n, since := s.cycle, rmode := s.cur.rmode }] }
  parkOn i .matrix 0

/-- NK and the register fields of MMA and MMAH: AOFF, ASOFF, BOFF, BSOFF (R311, R320). -/
def mmaFields (o : MmaOp) (hoop : Bool) : Exec (Nat × Nat × Nat × Nat × Nat) := do
  let x ← readG o.a
  match o.src with
  | .reg b => do
    let y ← readG b
    return (if hoop then bitsOf y 11 0 else bitsOf y 63 52, bitsOf x 18 0, bitsOf x 50 32, bitsOf y 18 0, bitsOf y 50 32)
  | .imm v => return (v.toNat, bitsOf x 18 0, 0, bitsOf x 50 32, 0)

def mma (o : MmaOp) : Exec Unit := do
  let (nk, ao, aso, bo, bso) ← mmaFields o false
  let mf := o.mf.toNat
  let k := nk * mfKs mf
  require (decide (nk ≠ 0) && (!o.sc || decide (k % 32 = 0))) .illegal
  let seg ← look fun s => s.cur.getS o.seg
  let bytes := 16 * k * fmtWidth (mfFmt mf) / 8
  let scales := if o.sc then [(aso, k / 2, 16), (bso, k / 2, 16)] else []
  matrixRanges seg false ([(ao, bytes, 64), (bo, bytes, 64)] ++ scales)
  modeAgrees o.d (mf == 5)
  matrixQueue (.mma o) { MatOp.new .mma o.d nk with
    mf := mf, sc := o.sc, a := segAddr seg ao, b := segAddr seg bo, asc := segAddr seg aso, bsc := segAddr seg bso }

/-- The latch has a MASK and this format, and the task has issued MHOOP since its bind (R320; log 23). -/
def hoopReady (s : State) (mf : Nat) : Bool :=
  let h := (s.core s.me.coreKey).hoop
  s.cur.hooped && h.owner.isSome && decide (h.mf = mf)

def mmah (o : MmaOp) : Exec Unit := do
  let (nk, ao, _, _, _) ← mmaFields o true
  let mf := o.mf.toNat
  let ready ← look fun s => hoopReady s mf
  require (decide (nk ≠ 0) && ready) .illegal
  let seg ← look fun s => s.cur.getS o.seg
  matrixRanges seg false [(ao, 16 * nk * mfKs mf * fmtWidth (mfFmt mf) / 8, 64)]
  modeAgrees o.d (mf == 5)
  matrixQueue (.mmah o) { MatOp.new .mmah o.d nk with mf := mf, a := segAddr seg ao }

def mhoop (seg : SReg) (mf : BitVec 3) (a b : Reg) : Exec Unit := do
  let x ← readG a
  let y ← readG b
  let m : BitVec 16 := y.extractLsb' 0 16
  let r ← look fun s => s.me
  require (m.getLsbD r.core) .illegal
  let ok ← look fun s => match s.myLaunch with
    | some l => (List.range 16).all fun c => !m.getLsbD c || l.binds s (r.clusterKey * 16 + c)
    | none => false
  require ok .prot
  let g ← look fun s => s.cur.getS seg
  let ao := bitsOf x 18 0
  matrixRanges g false [(ao, 256, 64)]
  modMe fun x => { x with hooped := true }
  matrixQueue (.mhoop seg mf a b) { MatOp.new .mhoop 0 1 with mf := mf.toNat, a := segAddr g ao, mask := m }

/-- Drain codes admitted for a tile (R323). -/
def drainCodeOk (integer : Bool) (code : Nat) : Bool :=
  if integer then [1, 8, 10].contains code else [1, 2, 3, 4, 5, 7].contains code

def mdrain (norm : Bool) (code : BitVec 4) (c : Acc) (m : Mem) : Exec Unit := do
  let f := cvtFmt code.toNat
  let seg ← look fun s => s.cur.getS m.seg
  let ea ← look fun s => (s.cur.ea m).toNat
  matrixRanges seg true [(ea, 256 * (fmtWidth f / 8), 64)]
  let x ← look fun s => s.cur
  require (drainCodeOk (x.isStarted c && x.imode c) code.toNat) .illegal
  matrixQueue (.mdrain norm code c m) { MatOp.new .mdrain c 1 with
    a := segAddr seg ea, code := f, norm := norm }

/-- The 4 KiB image of a tile (R325). -/
def tileImage (x : Slot) (c : Acc) : List Byte := (List.range 256).flatMap fun n => bytesOf 16 (x.getC c n).toNat

def mdrainp (c : Acc) (b : Reg) (m : MemR) : Exec Unit := do
  let n ← readG b
  require (decide (n.toNat ≤ 4095)) .illegal
  let seg ← look fun s => s.cur.getS m.seg
  let ea ← look fun s => s.cur.eaR m + n * 4096
  let ps ← latticeAt seg ea.toNat 4096 4096 false true
  let bs ← look fun s => tileImage s.cur c
  sendFill (firstKey ps) 12 0x0B none bs

/-- Register at the home of the next slot of a MACC; the answer comes back to the core (R54, R326). -/
def maccAsk (s : State) (q : Requester) (o : MatOp) : MatOp × State :=
  match o.gas[o.step]? with
  | none => (o, s)
  | some ga =>
    let (x, s) := s.fresh
    ({ o with waitXid := some x, answer := none },
      s.post q.slot.die (s.homeDie (gaKey ga)) (.thresholdRegistration ⟨q, x, ga, .macc⟩))

def macc (c : Acc) (b : Reg) (m : MemR) : Exec Unit := do
  let n ← readG b
  require (decide (1 ≤ n.toNat) && decide (n.toNat ≤ 4096)) .illegal
  let ps ← latticeMemR m (4096 * n.toNat) 4096 true false
  let gas ← look fun s => (plotKeys ps).map (gaOf s)
  let o ← fun s => .ok (maccAsk s s.asker { MatOp.new .macc c n.toNat with gas := gas })
  matrixQueue (.macc c b m) o

def mpri (p : BitVec 2) : Exec Unit := modMe fun x => { x with prio := p }

def execMzero (c : Acc) (s : State) : Out := retire (.mzero c) (mzero c) s
def execMma (o : MmaOp) (s : State) : Out := retire (.mma o) (mma o) s
def execMmah (o : MmaOp) (s : State) : Out := retire (.mmah o) (mmah o) s
def execMhoop (seg : SReg) (mf : BitVec 3) (a b : Reg) (s : State) : Out :=
  retire (.mhoop seg mf a b) (mhoop seg mf a b) s
def execMdrain (norm : Bool) (code : BitVec 4) (c : Acc) (m : Mem) (s : State) : Out :=
  retire (.mdrain norm code c m) (mdrain norm code c m) s
def execMdrainp (c : Acc) (b : Reg) (m : MemR) (s : State) : Out := retire (.mdrainp c b m) (mdrainp c b m) s
def execMacc (c : Acc) (b : Reg) (m : MemR) (s : State) : Out := retire (.macc c b m) (macc c b m) s
def execMpri (p : BitVec 2) (s : State) : Out := retire (.mpri p) (mpri p) s

/-! ## Steps of the unit -/

/-- A fault of an operation at a step: its location, none when the location has no address to name. -/
abbrev StepOut := Except (FaultCode × Option Word) State

/-- Bytes of local memory as an operation reads them: its task's stores before it are seen, and one after it in its bundle is not
(R142, R194). -/
def opBytes (s : State) (core : Nat) (o : MatOp) (off n : Nat) : List Byte :=
  (s.seenAs (s.slot (refOf core o.slot)).task o.entered (localKey core off) n).zipIdx.map fun b =>
    (o.before.lookup (off + b.2)).getD b.1

/-- Read them, or give the address of an uncorrectable error (R317). -/
def readLocal (s : State) (core : Nat) (o : MatOp) (off n : Nat) : Except (FaultCode × Option Word) (List Byte) :=
  match s.hasUe (localKey core off) n with
  | some k => .error (.memUe, some (gaOf s k))
  | none => .ok (opBytes s core o off n)

/-- The bytes a k-step reads: the rows of A, B, and the scales of A and B. -/
structure StepBytes where
  rows : List (List Byte)
  b : List Byte
  sa : List Byte
  sb : List Byte

def stepBytes (s : State) (core : Nat) (o : MatOp) (chunk : Option (List Byte)) : Except (FaultCode × Option Word) StepBytes := do
  let ks := mfKs o.mf
  let w := fmtWidth (mfFmt o.mf)
  let k := o.total * ks
  let kb := o.step * ks / 32
  let rows ← (List.range 16).mapM fun i => readLocal s core o (o.a + (i * k + o.step * ks) * w / 8) (ks * w / 8)
  let b ← match chunk with
    | some c => pure c
    | none => readLocal s core o (o.b + o.step * 256) 256
  if o.sc then
    let sa ← (List.range 16).mapM fun i => readLocal s core o (o.asc + i * (k / 32) + kb) 1
    let sb ← readLocal s core o (o.bsc + 16 * kb) 16
    return ⟨rows, b, sa.flatten, sb⟩
  else return ⟨rows, b, [], []⟩

/-- The products of element (i, j) in ascending k (R316). -/
def elemProducts (o : MatOp) (d : StepBytes) (i j : Nat) : List Val :=
  let f := mfFmt o.mf
  let w := fmtWidth f
  let (ta, tb, ts) := o.tables.getD ([], [], [])
  let sa := if o.sc then scaleOf ts (fieldOf d.sa i 1) else one
  let sb := if o.sc then scaleOf ts (fieldOf d.sb j 1) else one
  (List.range (mfKs o.mf)).map fun k =>
    let a := decodeVal f ta (elemIn (d.rows.getD i []) w k)
    let b := decodeVal f tb (elemIn d.b w (16 * k + j))
    mulVal (mulVal a sa) (mulVal b sb)

/-- k-step `o.step` of MMA or MMAH on the tile of its slot. -/
def kStep (s : State) (core : Nat) (o : MatOp) (chunk : Option (List Byte)) : StepOut := do
  let d ← stepBytes s core o chunk
  return s.modSlot (refOf core o.slot) fun x =>
    let x := startTile x o.tile (o.mf == 5)
    x.setTile o.tile ((x.tile o.tile).zipIdx.map fun e => e.1.kstep (products (elemProducts o d (e.2 / 16) (e.2 % 16))))

/-- MHOOP loads its chunk (R319). -/
def hoopLoad (s : State) (core : Nat) (o : MatOp) : StepOut := do
  let bs ← readLocal s core o o.a 256
  return s.modCore core fun c => { c with hoop :=
    { c.hoop with chunk := bs, full := true, infull := false, mask := o.mask, mf := o.mf, t := 0,
                  owner := some (s.slot (refOf core o.slot)).task } }

/-! ### Drains (R98, R324) -/

/-- A magnitude beyond every format, for an overflow. -/
def beyond (neg : Bool) : Val := .num neg (2 ^ 20000) 1

/-- The value a drain converts; a count-normalised one divides. -/
def drainVal (norm : Bool) (e : AccElem) : Val :=
  if norm then divVal e.val (.num false (if e.csat then countMax else e.count) 1) else e.val

def accNeg (e : AccElem) : Bool := match e.val with | .num n _ _ => n | _ => false

/-- A value into a drain target: an integer target rounds in MODE, SR as RNE, and takes R74. -/
def drainTo (f : Nat) (t : Table) (rm : Rm) (v : Val) : Elem :=
  if fmtIn f then
    match v with
    | .num neg n d =>
      let r := encodeInt f rm.sat (roundToInt ⟨if rm.mode = 5 then 0 else rm.mode, rm.sat, 0⟩ neg n d)
      ⟨r.1, r.2, false⟩
    | v =>
      let r := valToInt f rm v
      ⟨r.1, r.2, false⟩
  else rounded f t rm v

/-- One element drained (R98). -/
def drainElem (norm : Bool) (f : Nat) (t : Table) (rm : Rm) (e : AccElem) : Elem :=
  if e.count = 0 then absentElem f
  else if e.ns ∨ (e.pi ∧ e.mi) then
    let r := encodeVal f t rm .nan
    ⟨r.1, r.2, false⟩
  else if e.pi ∨ e.mi then
    let r := encodeVal f t rm (.inf e.mi)
    ⟨r.1, r.2, false⟩
  else if e.ov then
    let r := encodeVal f t rm (beyond (accNeg e))
    ⟨r.1, r.2, !fmtIn f && countsForSr f (beyond false)⟩
  else drainTo f t rm (drainVal norm e)

/-- The elements a drain converts its tile to. -/
def drainElems (s : State) (core : Nat) (o : MatOp) : List Elem :=
  let r := refOf core o.slot
  let t := (o.tables.getD ([], [], [])).2.1
  ((s.slot r).tile o.tile).zipIdx.map fun e => drainElem o.norm o.code t (rmFrom s r o.rmode e.2) e.1

/-- A drain's stores, in the order of its task's private stores (R194, R324). -/
def drainStores (s : State) (core : Nat) (o : MatOp) : State :=
  let r := refOf core o.slot
  let bs := (drainElems s core o).flatMap fun e => bytesOf (fmtWidth o.code / 8) e.bits
  (overtake s r (s.slot r).task o.entered [(localKey core o.a, bs.length)]).stores (localKey core o.a) bs

/-- MDRAIN's step: rounding and draws are those of RMODE at issue; SRN advances unless the other half of the bundle wrote RMODE,
whose value then stands (R86, R142, R324). -/
def drainStep (s : State) (core : Nat) (o : MatOp) : State :=
  let es := drainElems s core o
  let st := es.foldl (fun a e => a.or e.st) Sticky.none
  (if o.stored then s else drainStores s core o).modSlot (refOf core o.slot) fun x => { x with
    flags := withSticky x.flags st
    rmode := if !o.keepRm ∧ rmMode o.rmode = 5 ∧ es.any (fun e => e.sr) then bumpSrn x.rmode else x.rmode }

/-! ### Partials (R326) -/

def emptyElem (q : AccElem) : Bool :=
  decide (q.count = 0) && !(q.csat || q.inx || q.ov || q.mi || q.pi || q.ns)

/-- Add one partial element. -/
def AccElem.merge (e q : AccElem) : AccElem :=
  if emptyElem q then e
  else
    let e := e.more q.count
    ({ e with csat := e.csat || q.csat, inx := e.inx || q.inx, ov := e.ov || q.ov, mi := e.mi || q.mi, pi := e.pi || q.pi,
              ns := e.ns || q.ns } : AccElem).add q.val

def maccStep (s : State) (core : Nat) (o : MatOp) : StepOut :=
  let a := o.answer.getD ⟨0, none, 0, 0, 0, []⟩
  match a.code with
  | some c => .error (c, some a.ga)
  | none =>
    let qs := (List.range 256).map fun n => accOf (BitVec.ofNat 128 (fieldOf a.bytes (16 * n) 16))
    let r := refOf core o.slot
    let x := s.slot r
    match qs.filter fun q => !emptyElem q with
    | [] => .ok s
    | q :: t =>
      if !(t.all fun p => p.imode == q.imode) then .error (.kindMismatch, some a.ga)
      else
        let x := startTile x o.tile q.imode
        if x.imode o.tile ≠ q.imode then .error (.kindMismatch, some a.ga)
        else .ok (s.setSlot r (x.setTile o.tile (List.zipWith AccElem.merge (x.tile o.tile) qs)))

/-- The step in the unit. -/
def unitStep (s : State) (core : Nat) (o : MatOp) : StepOut :=
  match o.kind with
  | .mma => kStep s core o none
  | .mmah => kStep s core o (some (s.core core).hoop.chunk)
  | .mhoop => hoopLoad s core o
  | .mdrain => .ok (drainStep s core o)
  | .macc => maccStep s core o

/-! ## The queue (R321, R328, R329) -/

def setRunning (s : State) (core : Nat) (o : Option MatOp) : State := s.modCore core fun c => { c with running := o }

/-- Effective priority of a waiting operation (R328). -/
def effective (now : Nat) (o : MatOp) : Nat := min 3 (o.base + (o.waited + (now - o.since)) / 4096)

/-- An operation that may run its next step (R321); a halted launch's runs no step (R330). -/
def eligible (s : State) (core : Nat) (o : MatOp) : Bool :=
  decide ((s.slot (refOf core o.slot)).halt ≠ .preempt) &&
  match o.kind with
  | .mmah => !o.sending && (s.core core).hoop.full
  | .macc => o.answer.isSome
  | _ => true

/-- The order of R328: overtaken twice, then priority, then entry. -/
def firstBy (now : Nat) (x y : MatOp) : Bool :=
  let tx := decide (2 ≤ x.overtaken)
  let ty := decide (2 ≤ y.overtaken)
  let ex := effective now x
  let ey := effective now y
  if tx ≠ ty then tx else if ex ≠ ey then decide (ey < ex) else decide (x.entered < y.entered)

def chooseOp (now : Nat) (l : List MatOp) : Option MatOp :=
  l.foldl (fun a o => match a with | some x => if firstBy now o x then some o else a | none => some o) none

/-- The charge of a step (R388). -/
def stepCharge (o : MatOp) : Nat := match o.kind with | .mma => 48 | .mmah => 48 | _ => 16

/-- Put an operation back in the queue; its W keeps its value. -/
def requeue (s : State) (core : Nat) (o : MatOp) : State :=
  s.modCore core fun c => { c with queue := c.queue ++ [{ o with since := s.cycle }], running := none }

/-- Begin a step: the charge is granted and the step takes 16 cycles, or it becomes a claim and the unit stays idle
(R316, R389). In fault hold the operation stays at its boundary (R410). -/
def beginStep (s : State) (core : Nat) (o : MatOp) : State :=
  if (s.die (dieOfCore core)).hold then setRunning (unclaim s core unitClaim) core (some { o with claimed := true })
  else
    let (ok, s) := charge s core unitClaim (stepCharge o)
    setRunning s core (some { o with since := s.cycle, claimed := !ok })

/-- Copies of the tables that an operation's slot names for A, B and the scales (R82, R316). -/
def opTables (s : State) (core : Nat) (o : MatOp) : Table × Table × Table :=
  let r := refOf core o.slot
  let x := s.slot r
  let at_ (on : Bool) (f : Word) : Table := if on then tableOf s r (placeIn f) else []
  match o.kind with
  | .mma => (at_ (o.mf == 4) x.fa, at_ (o.mf == 4) x.fb, at_ (o.sc && bitOf x.fs 3) x.fs)
  | .mmah => (at_ (o.mf == 4) x.fa, at_ (o.mf == 4) x.fb, [])
  | .mdrain => ([], at_ (o.code == fmtT8) x.fb, [])
  | _ => ([], [], [])

/-- Take an operation from the queue into the unit: it starts or resumes with its rank (R329), and it copies its tables when it
first starts (R316). -/
def startOp (s : State) (core : Nat) (o : MatOp) : State :=
  let s := s.modCore core fun c => { c with queue := c.queue.filter fun y => y.slot ≠ o.slot }
  beginStep s core { o with
    waited := o.waited + (s.cycle - o.since), rank := effective s.cycle o, claimed := false
    tables := some (o.tables.getD (opTables s core o)) }

/-- The free unit takes the next eligible operation (R328). -/
def unitNext (s : State) (core : Nat) : State :=
  match chooseOp s.cycle ((s.core core).queue.filter (eligible s core)) with
  | some o => startOp s core o
  | none => setRunning s core none

/-- The k-step boundary of the running operation: it yields, is overtaken, or goes on (R321, R329). -/
def unitBoundary (s : State) (core : Nat) (o : MatOp) : State :=
  if !eligible s core o then unitNext (requeue s core o) core
  else
    let faster := (s.core core).queue.filter fun y => eligible s core y && decide (o.rank + 2 ≤ effective s.cycle y)
    match if o.overtaken < 2 then chooseOp s.cycle faster else none with
    | some y => startOp (requeue s core { o with overtaken := o.overtaken + 1 }) core y
    | none => beginStep s core o

/-- The operation completes: its task may issue again (R308). -/
def unparkMatrix (s : State) (core : Nat) (slot : Nat) : State :=
  let r := refOf core slot
  wakeSlot r ((countParked r s).modSlot r fun x => { x with parks := x.parks.filter fun p => p.cond ≠ .matrix })

/-- First head of the bundle of a slot's matrix operation. -/
def matrixPc (x : Slot) : Word := ((x.parks.find? fun p => p.cond = .matrix).map Park.pc).getD x.pc

/-- What follows a step done: another, the send of MMAH's chunk, the next registration of MACC, or completion. -/
def afterStep (s : State) (core : Nat) (o : MatOp) : State :=
  let s := s.modCore core fun c => { c with snap := { c.snap with ksteps := c.snap.ksteps + 1 } }
  match o.kind with
  | .mmah => unitNext (requeue s core { o with sending := true }) core
  | _ =>
    let o := { o with step := o.step + 1 }
    if o.step = o.total then unitNext (unparkMatrix (setRunning s core none) core o.slot) core
    else if o.kind = .macc then
      let (o, s) := maccAsk s (requesterOf s (refOf core o.slot)) o
      unitBoundary s core o
    else unitBoundary s core o

/-- The unit may act: an idle unit with an eligible operation, a retried claim, or a step whose 16 cycles are over. -/
def unitReady (s : State) (core : Nat) : Bool :=
  match (s.core core).running with
  | none => (s.core core).queue.any (eligible s core)
  | some o => if o.claimed then !(s.die (dieOfCore core)).hold else decide (o.since + 16 ≤ s.cycle)

/-- MATRIX_KSTEP: the unit completes a step and picks or keeps the next operation at the boundary. -/
def execMatrixKstep (core : Nat) (s : State) : Out :=
  if !unitReady s core then .next s
  else match (s.core core).running with
  | none => .next (unitNext s core)
  | some o =>
    if o.claimed then .next (beginStep s core o)
    else match unitStep s core o with
    | .ok t => .next (afterStep t core o)
    | .error (c, ga) =>
      let r := refOf core o.slot
      let s := setRunning s core none
      .next (unitNext (faultTask s r c ⟨matrixPc (s.slot r), none, ga, BitVec.ofNat 64 o.step⟩) core)

/-! ## The Hoop (R318-R320) -/

/-- The member after core `c` of a cluster in a ring. -/
def nextMember (mask : BitVec 16) (c : Nat) : Nat :=
  ((List.range 16).map fun k => (c + 1 + k) % 16).find? (fun k => mask.getLsbD k) |>.getD c

/-- HOOP_LATCH_MOVE: the inbound chunk becomes the chunk. -/
def execHoopLatchMove (core : Nat) (s : State) : Out :=
  let h := (s.core core).hoop
  if !h.full && h.infull then
    .next (s.modCore core fun c => { c with hoop := { h with chunk := h.inbox, full := true, infull := false, t := h.t + 1 } })
  else .next s

/-- The operation of a core whose chunk waits to be sent. -/
def senderOp (s : State) (core : Nat) : Option MatOp :=
  (s.core core).queue.find? fun o => o.sending && decide ((s.slot (refOf core o.slot)).halt ≠ .preempt)

/-- The core a chunk goes to. -/
def hoopTarget (s : State) (core : Nat) : Nat := core / 16 * 16 + nextMember (s.core core).hoop.mask (core % 16)

/-- HOOP_CHUNK_SEND: the chunk goes to the empty INBOX of the next member; the last one completes the MMAH. -/
def execHoopChunkSend (core : Nat) (s : State) : Out :=
  match senderOp s core with
  | none => .next s
  | some o =>
    let h := (s.core core).hoop
    let dst := hoopTarget s core
    if (s.core dst).hoop.infull then .next s
    else
      let s := s.modCore core fun c => { c with hoop := { c.hoop with full := false } }
      let s := s.modCore dst fun c => { c with hoop := { c.hoop with inbox := h.chunk, infull := true } }
      if o.step + 1 = o.total then
        .next (unparkMatrix (s.modCore core fun c => { c with queue := c.queue.filter fun y => y.slot ≠ o.slot }) core o.slot)
      else
        .next (s.modCore core fun c => { c with queue := c.queue.map fun y =>
          if y.slot = o.slot then { y with step := y.step + 1, sending := false } else y })

/-- An answer for a MACC that waits for it. -/
def giveSlot (a : Answer) (o : MatOp) : MatOp :=
  if o.waitXid = some a.xid then { o with answer := some a, waitXid := none } else o

/-- MACC_SLOT_READY: the next slot is filled, frozen, NEVER or at TOP; an operation saved with its context takes it there
(R321, R417). -/
def execMaccSlotReady (core : Nat) (a : Answer) (s : State) : Out :=
  let s := s.modCore core fun c => { c with queue := c.queue.map (giveSlot a), running := c.running.map (giveSlot a) }
  .next { s with launches := s.launches.map fun (k, l) => (k, l.map fun l =>
    { l with saved := l.saved.map fun c => { c with op := c.op.map (giveSlot a) } }) }

end Sys2Proof.Machine
end

