-- ==== Sys2Proof/Machine/Press.lean ====
section
/-! DEFINITION. THRESH and the Press instructions as a task issues them, and the steps of the Press (R331, R334-R344,
R423-R431). -/

namespace Sys2Proof.Machine

/-! ## THRESH (R331) -/

/-- GRAN of the plot at an offset of a segment, as its home has it. -/
def granAt (seg : BitVec 128) (ea : Nat) : Exec Nat := do
  let ps ← latticeAt seg ea 1 1 false true
  look fun s => (s.plot (firstKey ps)).gran

/-- Bytes of an output of `n` bytes in whole tiles. -/
def wholeTiles (n g : Nat) : Nat := (n + 2 ^ g - 1) / 2 ^ g * 2 ^ g

def thresh (tag : Tag) (k : SReg) (b c e : Reg) (opts : BitVec 64) (m : MemR) : Exec Unit := do
  let n := bitsOf opts 19 0 + 1
  let kb := bitsOf opts 24 20
  let pw := if bitOf opts 25 then 8 else 4
  require (decide (bitsOf opts 63 26 = 0) && decide (1 ≤ kb) && decide (kb ≤ 16)) .illegal
  tagStart tag
  let x ← look fun s => s.cur
  let out := x.getS m.seg
  let src := x.getS k
  let keys ← latticeAt src (x.getG c).toNat (2 * n) 2 true false
  let pays ← latticeAt src (x.getG e).toNat (n * pw) pw true false
  let g ← granAt out (x.eaR m).toNat
  let payOut ← latticeAt out (x.eaR m).toNat (wholeTiles (n * pw) g) (2 ^ g) false true
  let h ← granAt out (x.getG b).toNat
  let tabOut ← latticeAt out (x.getG b).toNat (wholeTiles ((2 ^ kb + 1) * 8) h) (2 ^ h) false true
  let q ← look State.asker
  placeCopy (.thresh tag k b c e opts m) ⟨tag.toNat, q, .sort keys pays payOut tabOut n kb pw, out, src, 0, none⟩

def execThresh (t : Tag) (k : SReg) (b c e : Reg) (opts : BitVec 64) (m : MemR) (s : State) : Out :=
  retire (.thresh t k b c e opts m) (thresh t k b c e opts m) s

/-! ## Handles and membership (R334-R336) -/

def handleId (h : Word) : Nat := bitsOf h 11 0
def handleGen (h : Word) : Nat := bitsOf h 15 12

/-- An identifier allotted to the issuer's launch, or PROT. -/
def allotted (s : State) (g : Nat) : Bool :=
  match s.myLaunch with
  | some l => decide (l.grp0 ≤ g) && decide (g < l.grp0 + l.ngrp)
  | none => false

def groupHandle (h : RegImm) : Exec Word := do
  let v ← regImmVal h
  let ok ← look fun s => allotted s (handleId v)
  require ok .prot
  return v

/-- The issuer is a member of the group a handle names: by joining, or for its lane in the root group (R48). -/
def isMember (s : State) (h : Word) : Bool :=
  let x := s.group (handleId h)
  decide (x.phase = 1) && decide (x.gen = handleGen h) &&
  (x.root || x.members.any fun q => decide (q.task = s.cur.task))

/-- Every node on the path of a join has an entry of the group, or a place for one (R335). The rule says so of a join that creates the
group; the model has the same of one that adds to it (log 58). -/
def hasPlaces (s : State) (g : Nat) : Bool :=
  s.fits g (joinPath s g s.me.coreKey)

def gjoin (h : RegImm) : Exec Unit := do
  let v ← groupHandle h
  let g := handleId v
  let x ← look fun s => s.group g
  require (!x.root) .illegal
  require (decide (x.gen = handleGen v) && decide (x.phase ≠ 2)) .groupNotMember
  let member ← look fun s => isMember s v
  if member then return ()
  let room ← look fun s => hasPlaces s g
  require room .illegal
  modify' fun s =>
    let y := { x with phase := 1, launch := s.cur.launch, members := x.members ++ [s.asker] }
    let s := (reservePath s g s.me.coreKey).setGroup g y
    if y.roundOf.isEmpty then rebuild s g else s

def gleave (h : RegImm) : Exec Unit := do
  let v ← groupHandle h
  let x ← look fun s => s.group (handleId v)
  require (!x.root) .illegal
  let member ← look fun s => isMember s v
  if member then modify' fun s => leaveGroup s s.asker (handleId v)

/-! ## Contributions (R337-R339) -/

/-- A contribution of a value: present or not, exact (R338, R339). -/
def pressPart (op fmt : Nat) (t : Table) (x : Nat) (p : PressPkt) : PressPkt :=
  if op ≤ 4 then
    match decodeInt fmt x with
    | some v => { p with part := v, count := 1 }
    | none => p
  else
    match decodeVal fmt t x with
    | .absent => p
    | .nan => { p with count := 1, nan := true, zpos := false }
    | .inf neg => { p with count := 1, pinf := !neg, minf := neg, zpos := false }
    | .num neg n d => { p with count := 1, part := sgn neg (n * 2 ^ 160 / d), negz := neg && decide (n = 0),
                               zpos := !neg && decide (n = 0) }

/-- The contribution of the task that issues: it goes alone, or for its lane (R425). -/
def pressNew (s : State) (g gen op fmt : Nat) (bar : Bool) : PressPkt :=
  { emptyPkt g gen with
    op := op, fmt := fmt, bar := bar
    sat := if bar then false else rmSat s.cur.rmode
    mode := if bar then 0 else rmMode s.cur.rmode
    lanes := b2n (s.group g).root
    members := [s.asker] }

/-- Note a contribution whose result the task has not taken. -/
def noteOut (g gen round : Nat) (bar : Bool) (x : Slot) : Slot := { x with outs := x.outs ++ [⟨g, gen, round, bar, none, false⟩] }

/-- In reproducible mode a lane makes one contribution to a round of the root group (R48). -/
def laneTwice (s : State) (g : Nat) : Bool :=
  let x := s.group g
  x.root && s.mine && x.arrived.contains s.asker.llane.toNat

/-- Faults of a contribution (R337, R342). -/
def contributes (v : Word) (limit : Bool) : Exec Unit := do
  let member ← look fun s => isMember s v
  require member .groupNotMember
  let outs ← look fun s => s.cur.outs
  let twice ← look fun s => laneTwice s (handleId v)
  require (!(outs.any fun o => o.gid == handleId v) && !(limit && decide (16 ≤ outs.length)) && !twice) .illegal

def gcon (op : BitVec 4) (f : BitVec 5) (a b : Reg) : Exec Unit := do
  let v ← groupHandle (.reg a)
  contributes v true
  let x ← readG b
  let g := handleId v
  modify' fun s =>
    let f := f.toNat
    let p := pressPart op.toNat f (tabA s f) (low (fmtWidth f) x) (pressNew s g (handleGen v) op.toNat f false)
    pressContribute (s.modCur (noteOut g (handleGen v) (pressRound s s.asker g) false)) s.asker p

/-- GBAR's operator number (R342). -/
def barrierOp : Nat := 9

def gbar (h : RegImm) : Exec Unit := do
  let v ← groupHandle h
  contributes v false
  let g := handleId v
  modify' fun s =>
    pressContribute (s.modCur (noteOut g (handleGen v) (pressRound s s.asker g) true)) s.asker (pressNew s g (handleGen v) barrierOp 0 true)
  parkOn (.gbar h) (.press g) 0

/-! ## Results (R338-R341) -/

/-- The exact value of a float round (R339). -/
def pressVal (p : PressPkt) : Val :=
  if p.count = 0 then .absent
  else if p.nan ∨ (p.op = 5 ∧ p.pinf ∧ p.minf) then .nan
  else if p.pinf then .inf false
  else if p.minf then .inf true
  else if p.part = 0 then .num (p.negz || (decide (p.op = 5) && decide (p.mode = 3) && !p.zpos)) 0 1
  else .num (decide (p.part < 0)) p.part.natAbs (2 ^ 160)

/-- The result of a round as a receiver gets it, a T8 one through its own table: code and flags. -/
def pressResult (t : Table) (p : PressPkt) : Nat × Sticky :=
  if p.op = 8 then (p.count, Sticky.none)
  else if p.op ≤ 4 then
    if p.count = 0 then (absentCode p.fmt, Sticky.none)
    else if p.op = 0 then encodeInt p.fmt p.sat p.part
    else (intPattern p.fmt p.part, Sticky.none)
  else encodeVal p.fmt t ⟨if p.mode = 5 then 0 else p.mode, p.sat, 0⟩ (pressVal p)

/-- The result as its register takes it. -/
def pressWord (p : PressPkt) (r : Nat) : Word :=
  if p.op ≠ 8 ∧ fmtIsI p.fmt then extendTo true (fmtWidth p.fmt) r else BitVec.ofNat 64 r

/-- The outstanding contribution of a slot to a group. -/
def outOf (x : Slot) (g : Nat) : Option Outst := x.outs.find? fun o => o.gid = g
def dropOut (x : Slot) (g : Nat) : Slot := { x with outs := x.outs.filter fun o => decide (o.gid ≠ g) }

/-- Take the result of a contribution: ILLEGAL for an inconsistent round (R340), LINK_LOST for one that can no longer
complete (R345). -/
def takeResult (g : Nat) : Exec (Option PressPkt) := do
  let x ← look fun s => s.cur
  match outOf x g with
  | some o =>
    if o.lost then trap .linkLost
    match o.result with
    | some p => do
      require (!p.bad) .illegal
      modMe fun x => dropOut x g
      return some p
    | none => return none
  | none => return none

/-- GRECV writes a result (R341). -/
def grecvWith (d : Reg) (p : PressPkt) : Exec Unit := do
  let t ← look fun s => tabA s p.fmt
  let r := pressResult t p
  writeG d (pressWord p r.1)
  writeG (d + 1) (BitVec.ofNat 64 p.count)
  setSticky (r.2.or ⟨decide (p.count = 0), false, false⟩)

def grecv (d a : Reg) : Exec Unit := do
  require (decide (d.toNat % 2 = 0)) .illegal
  let v ← groupHandle (.reg a)
  let g := handleId v
  let owed ← look fun s => isMember s v && ((outOf s.cur g).map fun o => !o.bar).getD false
  require owed .groupNotMember
  match ← takeResult g with
  | some p => grecvWith d p
  | none => parkOn (.grecv d a) (.press g) 0

/-- GSTAT reads the issuing core's leaf (R344, R429). -/
def gstat (d a : Reg) : Exec Unit := do
  let v ← groupHandle (.reg a)
  let g := handleId v
  let w ← look fun s =>
    let x := s.group g
    let stale := SMap.get (s.pnode (pressId 1 s.me.coreKey)).stale 0 g
    let mem := isMember s (BitVec.ofNat 64 (g + x.gen * 2 ^ 12))
    BitVec.ofNat 64 (x.gen * 2 ^ 32 + stale * 2 ^ 16 + min 15 s.cur.outs.length * 4 + b2n (x.phase == 2) * 2 + b2n mem)
  writeG d w

def execGjoin (h : RegImm) (s : State) : Out := retire (.gjoin h) (gjoin h) s
def execGleave (h : RegImm) (s : State) : Out := retire (.gleave h) (gleave h) s
def execGbar (h : RegImm) (s : State) : Out := retire (.gbar h) (gbar h) s
def execGcon (op : BitVec 4) (f : BitVec 5) (a b : Reg) (s : State) : Out := retire (.gcon op f a b) (gcon op f a b) s
def execGrecv (d a : Reg) (s : State) : Out := retire (.grecv d a) (grecv d a) s
def execGstat (d a : Reg) (s : State) : Out := retire (.gstat d a) (gstat d a) s

/-! ## Steps of the Press (R428-R430, R343) -/

/-- PRESS_PACKET: a contribution on its way up, or a result on its way down. -/
def execPressPacket (p : PressPkt) (s : State) : Out := .next (if p.up then pressUp s p else pressDown s p)

/-- PRESS_DRAIN_TOKEN: every token is back at the root, behind every packet of the group (R430). -/
def execPressDrainToken (g : Nat) (s : State) : Out :=
  if (s.group g).phase = 2 ∧ !s.pressBusy g then .next (pressDrained s g) else .next s

/-- Undelivered records of the package that pause a group (R343). -/
def watchPaused (s : State) (g : Nat) : Bool :=
  let pauses (r : FaultRec) : Bool := r.pauses.contains g && r.launch == (s.group g).launch
  s.dies.any fun d => d.2.faults.any pauses || d.2.faultWait.any fun w => pauses w.record

/-- The watchdog's count (R343): cycles since the GBAR round began, without those paused. -/
def watchCount (s : State) (g : Nat) : Nat :=
  let x := s.group g
  match x.barStart with
  | some c => s.cycle - c - x.paused
  | none => 0

/-- The launch whose bound a group's count has reached (R343). -/
def watchDue (s : State) (g : Nat) : Option Launch :=
  let x := s.group g
  match s.launch x.launch with
  | none => none
  | some l =>
    if x.barStart.isSome ∧ l.wdog ≠ 0 ∧ l.wdog ≤ watchCount s g ∧ !x.fired ∧ !watchPaused s g ∧ s.hasRoom l.die then some l
    else none

/-- WATCHDOG: the count has reached the launch's bound (R343). -/
def execWatchdog (g : Nat) (s : State) : Out :=
  match watchDue s g with
  | none => .next s
  | some l =>
    let x := s.group g
    .next ((s.setGroup g { x with fired := true }).record l.die
      (recordFor x.launch 0 .watchdog none none (BitVec.ofNat 64 (g + x.gen * 2 ^ 12))))

/-- Time passes: counts that are paused do not advance. -/
def watchTick (n : Nat) (s : State) : State :=
  { s with groups := s.groups.map fun (g, x) =>
      if x.barStart.isSome ∧ watchPaused s g then (g, { x with paused := x.paused + n }) else (g, x) }

end Sys2Proof.Machine
end

