-- ==== Sys2Proof/Machine/Finish.lean ====
section
/-! DEFINITION. How a parked instruction completes when what it waits for has come (R51-R53), and the ends of divides,
special functions and walks. -/

namespace Sys2Proof.Machine

/-- The answer of a transaction, if it has come. -/
def answerOf (x : Slot) (n : Nat) : Option Answer := x.answers.find? fun a => a.xid = n

/-- The transactions a park waits for; 0 is its walk. -/
def awaited (c : ParkCond) : List Nat :=
  match c with
  | .answers xs => xs
  | .loads w => w.reqs.map Prod.fst
  | .again _ walk => if walk then [0] else []
  | .mailbox _ n => [n]
  | .berth n => [n]
  | .translation => [0]
  | _ => []

/-- What a park waits for holds (R51). Long operations and matrix operations end by their own steps. -/
def parkMet (s : State) (x : Slot) (p : Park) : Bool :=
  (awaited p.cond).all (fun n => (answerOf x n).isSome) &&
  match p.cond with
  | .tags m all => tagsMet x m all
  | .fence top => fenceMet x top
  | .late _ => false
  | .matrix => false
  | .spawn r => (postRecord s r).isSome
  | .press g => match outOf x g with | some o => o.lost || o.result.isSome | none => true
  | .copyPlace _ => decide (x.mailbox.length < 4)
  | _ => true

/-- The bytes of the answers, in order. -/
def answerBytes (as : List Answer) : List Byte := as.flatMap Answer.bytes

/-- Loaded elements of a vector load, one after another (R215). -/
def loadedElems (z : Nat) (bs : List Byte) (n : Nat) : List Nat := (List.range n).map fun k => fieldOf bs (k * z) z

/-- Where the elements of a parked vector load go. -/
def loadTo (c : ParkCond) : PushTo := match c with | .loads w => w.dst | _ => none

/-- A load that kept its bytes completes with them (R142). -/
def withHeld (c : ParkCond) (as : List Answer) : List Answer :=
  match c with
  | .loads ⟨_, _, _, some bs⟩ => [⟨0, none, 0, 0, 0, bs⟩]
  | _ => as

/-- The load of a restored task is issued again: its ranges are translated anew (R191, R195). -/
def reload (i : Instr) (w : LoadWait) (ea : Word) : Exec Unit := do
  let ps ← translate w.vas rightsRd (some false)
  let xs ← fun s => let (xs, s) := sendLoads (byHome s ps) s; .ok (xs, s)
  parkOn i (.loads { w with reqs := xs }) ea

/-- A vector load writes the elements that were active when it issued: its mask is kept in the park (R142). -/
def finishVector (p : Park) (o : VMem) (as : List Answer) : Exec Unit :=
  let js := activeOf o p.ea
  writeLoaded (loadTo p.cond) o js (loadedElems (fmtBytes (fc o.fmt)) (answerBytes as) js.length)

/-- LDT writes its tile or absent codes and CAUSE (R277). -/
def finishTile (off : Word) (a : Answer) : Exec Unit := do
  storeNear off.toNat a.bytes
  modMe fun x => { x with cause := a.a }

/-- NPUB's name is resolved: its source is read and the fill sent (R276, R278). `a` of the answer is the name, `b` the
format in [4:0] and the size above. -/
def finishNpub (off : Word) (a : Answer) : Exec Unit := do
  let gran := bitsOf a.b 12 8
  let bs ← loadNear off.toNat (2 ^ gran)
  sendFill (gaKey a.ga) gran (bitsOf a.b 4 0) (some a.a) bs

/-- LDF's value as its register takes it (R271). -/
def ldfValue (f : Nat) (a : Word) : Word :=
  if fmtIsI f then extendTo true (fmtWidth f) (low (fmtWidth f) a) else a

/-- The word a take brings (R193). -/
def takenWord (o : LdSt) (a : Word) : Word := loaded o (bytesOf 8 a.toNat)

/-- A faulting answer names its location, where the instruction asked a home of memory for one, or a walk has found it (R413). -/
def answerGa (i : Instr) (c : ParkCond) (a : Answer) : Option Word :=
  match c, i with
  | .translation, _ => if a.code = some .page ∨ a.code = some .linkLost then none else some a.ga
  | .again _ _, _ => if a.code = some .page ∨ a.code = some .linkLost then none else some a.ga
  | _, .npub _ => none
  | _, .nclose _ _ => none
  | _, .ldt _ _ _ => if a.code = some .memUe then some a.ga else none
  | _, _ => some a.ga

/-- Its virtual address: that of the page, or of the lowest rejected plot (R273, R403). -/
def answerVa (i : Instr) (p : Park) (n : Nat) (a : Answer) : Option Word :=
  match p.cond, i with
  | .translation, _ => some a.a
  | .again _ _, _ => some a.a
  | _, .plot _ _ => some (p.ea + BitVec.ofNat 64 (4096 * n))
  | _, .freeze _ _ => some (p.ea + BitVec.ofNat 64 (4096 * n))
  | _, _ => none

/-- Completion by instruction, on answers that carry no fault. -/
def finishWith (p : Park) (as : List Answer) : Exec Unit := do
  let a := as.headD ⟨0, none, 0, 0, 0, []⟩
  match p.instr with
  | .ld o => writeG o.d (loaded o (answerBytes as))
  | .ldp d _ => writePair d (answerBytes as)
  | .segld d _ => segldWith d (BitVec.ofNat 128 (natOf (answerBytes as)))
  | .vld o => finishVector p o as
  | .vlds o => finishVector p o as
  | .vgath o => finishVector p o as
  | .sdset d _ => sdsetWith d (answerBytes as)
  | .fmtld k _ => fmtldWith k (answerBytes as)
  | .ldTake o => writeG o.d (takenWord o a.a)
  | .joinf _ d _ _ => writeG d a.a
  | .lth o => do
    writeG o.d a.a
    if o.kind = 5 then writeG (o.d + 1) a.b
  | .ldf o => writeG o.d (ldfValue (jtFmt o.jt) a.a)
  | .ldt _ _ _ => finishTile p.ea a
  | .ldtAddr _ _ _ _ => finishTile p.ea a
  | .npub _ => finishNpub p.ea a
  | .ntensCreate _ _ => if a.bytes ≠ [] then ntensWith p.instr p.ea (answerBytes as) else pure ()
  | .ntensDelete _ _ => if a.bytes ≠ [] then ntensWith p.instr p.ea (answerBytes as) else pure ()
  | .copyt t _ => copytWith p.instr t (answerBytes as)
  | .copyd t _ => copydWith p.instr t (answerBytes as)
  | .copya t _ _ v _ => copyaWith p.instr t v p.ea (answerBytes as)
  | .spawn m => spawnWith m (answerBytes as)
  | .capnew d _ => capnewAt d p.ea.toNat (a.a.extractLsb' 0 2)
  | _ => pure ()

/-- Completion by condition: waits without answers, then those with answers (R51). -/
def finish (p : Park) (as : List Answer) : Exec Unit := do
  match p.cond with
  | .tags m all => do
    let x ← look fun s => s.cur
    match p.instr with
    | .waitany d _ => writeG d (tagsResult x m all)
    | .waitall d _ => writeG d (tagsResult x m all)
    | _ => pure ()
  | .fence top => modMe (fenceEnd top)
  | .spawn r => modify' fun s => (postRecord s r).getD s
  | .copyPlace c => modMe fun x => { x with mailbox := x.mailbox ++ [c] }
  | .press g => do
    match ← takeResult g with
    | some r => match p.instr with
      | .grecv d _ => grecvWith d r
      | _ => pure ()
    | none => pure ()
  | .translation => pure ()
  | .again w _ => reload p.instr w p.ea
  | .constants far ws => fetchConsts far ws
  | _ => finishWith p (withHeld p.cond as)

/-- The first faulting answer, else completion. -/
def conclude (p : Park) (as : List Answer) : Exec Unit := do
  match as.zipIdx.find? (fun a => a.1.code.isSome) with
  | some (a, n) =>
    match a.code with
    | some c => stop (.trap c ⟨0, answerVa p.instr p n a, answerGa p.instr p.cond a, 0⟩)
    | none => pure ()
  | none => finish p as

/-- The first park of a slot that may complete. -/
def readyPark (s : State) (r : SlotRef) : Option Park :=
  let x := s.slot r
  if x.occupied ∧ x.halt ≠ .preempt ∧ !x.ending then x.parks.find? (parkMet s x) else none

/-- Take one park away, with the answers it consumes. -/
def dropPark (x : Slot) (p : Park) : Slot :=
  { x with parks := x.parks.erase p, answers := x.answers.filter fun a => !(awaited p.cond).contains a.xid }

def isSegld (i : Instr) : Bool := match i with | .segld _ _ => true | _ => false

/-- The core notes the cycle and the slot of a SEGLD whose reply is written (R199). -/
def noteSegld (i : Instr) (r : SlotRef) (s : State) : State :=
  if isSegld i then s.modCore r.coreKey fun c => { c with segldAt := (s.cycle, r.slot) } else s

/-- A load that is issued again and misses waits for its walk (R52, R402). -/
def walkAgain (p : Park) (r : SlotRef) (ws : List WalkReq) (s : State) : State :=
  match p.cond with
  | .again w _ => { s.modSlot r (fun x => { x with parks := x.parks ++ [{ p with cond := .again w true }] }) with
      agenda := s.agenda ++ ws.map Instr.translationWalk }
  | _ => s

/-- WAKE_ACCEPT: a parked instruction whose condition holds completes, or takes the fault its answer carries. -/
def execWakeAccept (r : SlotRef) (s : State) : Out :=
  match readyPark s r with
  | none => .next s
  | some p =>
    let as := (awaited p.cond).filterMap (answerOf (s.slot r))
    let s := { (countParked r (noteSegld p.instr r s)).modSlot r (fun x => dropPark x p) with focus := ⟨r, p.pc, p.pc, .done, none⟩ }
    match conclude p as s with
    | .ok (_, t) => .next (wakeSlot r t)
    | .error (.trap c d) => .next (takeFault s c d)
    | .error (.reissue _ ws) => .next (walkAgain p r ws s)

/-! ## Long operations (R173, R214) -/

/-- The first park of a slot on a late result that `want` selects; it ends also while the task is being saved (R416). -/
def endLate (want : Late → Bool) (r : SlotRef) (s : State) : State :=
  let hit (p : Park) : Option Late := match p.cond with | .late l => if want l then some l else none | _ => none
  match (s.slot r).parks.find? fun p => (hit p).isSome with
  | some p => match hit p with
    | some l => wakeSlot r ((countParked r s).modSlot r fun x => { writeLate l x with parks := x.parks.erase p })
    | none => s
  | none => s

def isScalarLate (l : Late) : Bool := match l with | .g _ _ _ => true | .v _ _ _ => false

/-- DIVIDE_RESULT: a divide or remainder is done (R173). -/
def execDivideResult (r : SlotRef) (s : State) : Out := .next (endLate isScalarLate r s)

/-- SPECIAL_FUNCTION_RESULT: a special function or VDIV is done (R214). -/
def execSpecialFunctionResult (r : SlotRef) (s : State) : Out := .next (endLate (fun l => !isScalarLate l) r s)

end Sys2Proof.Machine
end

