-- ==== Sys2Proof/Machine/Homes.lean ====
section
/-! DEFINITION. The homes of memory: loads and stores (R349, R350), joins, fills, thresholds, exact reads, plots, freezes
and value-returning counts (R104-R118, R264-R275), and the acknowledgements and wakes that go back (R107, R53-R55). -/

namespace Sys2Proof.Machine

/-! ## Stored elements -/

/-- Absent codes of a format over `n` bytes, zero for b formats (R105). -/
def absentBytes (f n : Nat) : List Byte :=
  if fmtIsB f then List.replicate n 0
  else if f = fmtE2M1 then List.replicate n 0x88
  else (List.replicate (n / (fmtWidth f / 8)) (bytesOf (fmtWidth f / 8) (absentCode f))).flatten

/-- The bottom of a plot, over its 4 KiB (R104). -/
def bottomBytes (kind f n : Nat) : List Byte :=
  if kind = kindCount ∨ kind = kindUnion then List.replicate n 0
  else if kind = kindIsect then List.replicate n 0xFF
  else absentBytes f n

/-- The key of the plot that holds the fill state of a byte: that of its tile's first plot (R105). -/
def unitPlot (s : State) (k : Nat) : Nat :=
  let g := (s.plot k).gran
  if 12 < g then k - k % 2 ^ g else k

/-- Number of a fill unit in the plot that holds its state. -/
def unitNum (p : Plot) (k : Nat) : Nat :=
  if p.gran = 0 then k % 4096 / (fmtWidth (plotFmt p.attr) / 8)
  else if 12 < p.gran then 0
  else k % 4096 / 2 ^ p.gran

/-- First key and bytes of the fill unit at a byte. -/
def unitRange (p : Plot) (k : Nat) : Nat × Nat :=
  let n := if p.gran = 0 then fmtWidth (plotFmt p.attr) / 8 else 2 ^ p.gran
  (k - k % n, n)

/-- State of the fill unit at a byte: 0 unfilled, 1 filled, 2 TOP, 3 NEVER. -/
def fillState (s : State) (k : Nat) : Nat :=
  let p := s.plot (unitPlot s k)
  SMap.get p.fill 0 (unitNum p k)

def setFillState (s : State) (k v : Nat) : State :=
  let u := unitPlot s k
  let p := s.plot u
  s.setPlot u { p with fill := SMap.set p.fill 0 (unitNum p k) v }

/-! ## Checks at the home (R108) -/

/-- The frame is retired (R396, R102). -/
def retiredAt (s : State) (k : Nat) : Bool := s.isRetired k || bitOf (s.plot k).attr 61

/-- Retirement, then validity with kind, format and the request's own conditions, then freezing. -/
def homeCheck (s : State) (k : Nat) (ok frozenBad : Bool) : Option FaultCode :=
  if retiredAt s k then some .memUe
  else if !(plotValid (s.plot k).attr && ok) then some .kindMismatch
  else if frozenBad && plotFrozen (s.plot k).attr then some .afterFreeze
  else none

/-! ## Threshold waits (R110-R112, R270, R277, R287, R326) -/

/-- What a home answers: a fault, two words, bytes. -/
structure Outcome where
  code : Option FaultCode
  a : Word
  b : Word
  bytes : List Byte
  deriving DecidableEq, Repr

def bad (c : FaultCode) : Outcome := ⟨some c, 0, 0, []⟩
def index (n : Nat) : Outcome := ⟨none, BitVec.ofNat 64 n, 0, []⟩

/-- Whether a value passes the single trigger of a kind (R110). -/
def passes (kind f v t : Nat) : Bool :=
  if kind = kindUnion then v &&& t = t
  else if kind = kindIsect then v &&& (2 ^ fmtWidth f - 1 - t) = 0
  else if kind = kindCount then decide (t ≤ v)
  else
    let x := decodeVal f [] v
    let y := decodeVal f [] t
    if valIsAbsent x then false
    else valIsNan x || (if kind = kindMax then !valLt x y else !valLt y x)

/-- An absent trigger where none is admitted (R111, R270). -/
def absentTrigger (kind f t : Nat) : Bool :=
  (kind = kindMax || kind = kindMin || kind = kindCount) && !fmtIsB f && decide (t = absentCode f)

/-- The element of the plot's format at a key. -/
def elemOfPlot (s : State) (k : Nat) : Nat := s.loadNat k (fmtWidth (plotFmt (s.plot k).attr) / 8)

/-- LTH at its home: an answer, or a wait. -/
def lthOutcome (s : State) (k kind w : Nat) (filled : Bool) (ts : List Word) : Option Outcome :=
  let p := s.plot k
  let f := plotFmt p.attr
  let ok := decide (plotKind p.attr = kind) && decide (fmtWidth f = w) && decide (p.gran = 0) && !plotNamed p.attr
  match homeCheck s k ok false with
  | some c => some (bad c)
  | none =>
    let v := elemOfPlot s k
    if ts.any fun t => absentTrigger kind f t.toNat then some (bad .triggerCompat)
    else if kind = kindFill then
      match fillState s k with
      | 1 =>
        let hit := if filled then some 0 else ts.findIdx? fun t => t.toNat = v
        match hit with
        | some n => some { index n with b := BitVec.ofNat 64 v }
        | none => if plotFrozen p.attr then some (index 14) else none
      | 2 => some (index 15)
      | 3 => some (index 14)
      | _ => if plotFrozen p.attr then some (index 14) else none
    else if passes kind f v (ts.headD 0).toNat then some (index 0)
    else if plotFrozen p.attr then some (index 14)
    else none

/-- An address-based LDT, or a MACC slot, at its home. -/
def tileOutcome (s : State) (k gran : Nat) (ok : Bool) (top never : List Byte → Outcome) : Option Outcome :=
  let p := s.plot k
  match homeCheck s k (decide (plotKind p.attr = kindFill) && decide (p.gran = gran) && ok) false with
  | some c => some (bad c)
  | none =>
    let none_ := absentBytes (plotFmt p.attr) (2 ^ gran)
    match fillState s k with
    | 1 => some ⟨none, 0, 0, s.loads k (2 ^ gran)⟩
    | 2 => some (top none_)
    | 3 => some (never none_)
    | _ => if plotFrozen p.attr then some (never none_) else none

/-- An arm at its trigger's home (R287). -/
def armOutcome (s : State) (k : Nat) (t : Word) : Option Outcome :=
  let p := s.plot k
  match homeCheck s k (decide (plotKind p.attr = kindCount) && decide (plotFmt p.attr = 7)) false with
  | some c => some (bad c)
  | none =>
    if t.toNat ≤ s.loadNat k 8 then some (index 0)
    else if plotFrozen p.attr then some (bad .neverProduced)
    else none

/-- What the home answers a registration now; none while it waits. -/
def waitOutcome (s : State) (p : RegPkt) : Option Outcome :=
  let k := gaKey p.ga
  match p.wait with
  | .lth kind w filled ts => lthOutcome s k kind w filled ts
  | .ldtAddr gran =>
    tileOutcome s k gran (!plotNamed (s.plot k).attr)
      (fun bs => ⟨none, BitVec.ofNat 64 (codeNum .latticeTop), 0, bs⟩)
      (fun bs => ⟨none, BitVec.ofNat 64 (codeNum .neverProduced), 0, bs⟩)
  | .macc =>
    tileOutcome s k 12 (decide (plotFmt (s.plot k).attr = 0x0B)) (fun _ => bad .latticeTop) (fun _ => bad .neverProduced)
  | .arm _ _ t => armOutcome s k t

/-- Send an answer where the registration came from: to a task, to a core's matrix unit, to a carter. -/
def sendOutcome (s : State) (p : RegPkt) (o : Outcome) : State :=
  let home := s.homeDie (gaKey p.ga)
  let a : Answer := ⟨p.xid, o.code, p.ga, o.a, o.b, o.bytes⟩
  match p.wait with
  | .macc =>
    let r := placeOf s p.req
    s.post home r.die (.maccSlotReady r.coreKey a)
  | .arm core job _ => s.post home (dieOfCore core) (.armFire core job o.code)
  | _ => s.reply home p.req a

/-- Answer the waiters that `sel` selects and that need wait no longer. -/
def serveWaiters (s : State) (sel : RegPkt → Bool) : State :=
  s.waiters.foldl (fun s p =>
    if sel p then
      match waitOutcome s p with
      | some o => sendOutcome { s with waiters := s.waiters.erase p } p o
      | none => s
    else s) s

/-- A location of this fill unit or element has changed. -/
def touched (s : State) (k n : Nat) : State :=
  serveWaiters s fun p => decide (k ≤ gaKey p.ga) && decide (gaKey p.ga < k + n)

/-- Waiters held in the structure of a home die (R54). -/
def waitersAt (s : State) (die : Nat) : Nat := (s.waiters.filter fun p => s.homeDie (gaKey p.ga) = die).length
def waiterRoom (s : State) (die : Nat) : Bool := decide (waitersAt s die < Config.waiterPlaces die)

/-- Packets that a waiting store holds (R449). -/
def storePlaces (die : Nat) : Nat := if die < 16 then 16777216 else 134217728

/-- The waiting store of a die: the Granary's, or a compute die's (R28, R449). A home on a host I/O die has none by R28; the model
gives it the Granary's, which lies in the Cellar (log 55). A packet that finds its store full waits in its slot buffer (`arrive`), or under way when it came over no link. -/
def setAside (s : State) (die : Nat) (m : Instr) : State :=
  if storePlaces die ≤ (if die < 16 then (s.die die).store.length else s.gstore.length) then s.again m
  else if die < 16 then s.modDie die fun d => { d with store := d.store ++ [m] } else { s with gstore := s.gstore ++ [m] }

/-- A slot buffer of channel 1 is free, and its credit goes back (R449). -/
def giveBack (s : State) (e : LinkEnd) : State :=
  let l := s.link e
  s.setLink e { l with give := l.give.setIfInBounds 1 (l.give.getD 1 0 + 1), due := true }

/-- Take the packets that `f` selects out of the waiting stores and the slot buffers that hold packets for them. -/
def takeAside (s : State) (f : Instr → Bool) : List Instr × State :=
  let held := s.stuck.filter fun x => f x.2.2
  let t := { s with
    gstore := s.gstore.filter fun m => !f m
    dies := s.dies.map fun (k, (d : Die)) => (k, { d with store := d.store.filter fun m => !f m })
    stuck := s.stuck.filter fun x => !f x.2.2 }
  (s.gstore.filter f ++ s.dies.flatMap (fun d => d.2.store.filter f) ++ held.map fun x => x.2.2,
    held.foldl (fun s x => giveBack s x.2.1) t)

/-- THRESHOLD_REGISTRATION: the home answers at once, registers the waiter, or sets it aside (R53, R54). -/
def execThresholdRegistration (p : RegPkt) (s : State) : Out :=
  match waitOutcome s p with
  | some o => .next (sendOutcome s p o)
  | none =>
    let die := s.homeDie (gaKey p.ga)
    if waiterRoom s die then .next { s with waiters := s.waiters ++ [p] }
    else .next (setAside s die (.thresholdRegistration p))

/-! ## Joins (R104, R105) -/

/-- Where a fill of bytes leads: the code of its acknowledgement, and the state (R105). -/
def fillUnit (s : State) (k f : Nat) (bs : List Byte) (word : Bool) : Option FaultCode × State :=
  let n := bs.length
  let absentWord := word && !fmtIsB f && decide (natOf bs = absentCode f)
  match fillState s k with
  | 0 =>
    if absentWord then (none, s) else (none, touched (setFillState (s.stores k bs) k 1) k n)
  | 1 =>
    if s.loads k n = bs then (none, s)
    else (some .latticeTop, touched (setFillState (s.stores k (absentBytes f n)) k 2) k n)
  | 2 => (some .latticeTop, s)
  | _ => (some .afterFreeze, s)

/-- The pattern MAX and MIN store for a value: the canonical NaN, +0 for a zero. -/
def latticeCode (f x : Nat) : Nat :=
  if fmtIsF f then
    match decodeVal f [] x with
    | .nan => nanCode (fpOf f)
    | .num _ 0 _ => 0
    | _ => x
  else x

/-- Join of stored a and arriving b (R104). -/
def joinCode (kind f a b : Nat) : Nat :=
  if kind = kindUnion then a ||| b
  else if kind = kindIsect then a &&& b
  else if kind = kindCount then (if b = absentCode f then a else min (a + b) (2 ^ fmtWidth f - 2))
  else
    let x := decodeVal f [] a
    let y := decodeVal f [] b
    if valIsAbsent y then a
    else if valIsAbsent x then latticeCode f b
    else if valIsNan x ∨ valIsNan y then nanCode (fpOf f)
    else if kind = kindMax then latticeCode f (if valLt x y then b else a)
    else latticeCode f (if valLt y x then b else a)

/-- Perform an admitted join. -/
def performJoin (s : State) (k kind f v : Nat) : Option FaultCode × State :=
  let n := fmtWidth f / 8
  if kind = kindFill then fillUnit s k f (bytesOf n v) true
  else (none, touched (s.storeNat k n (joinCode kind f (s.loadNat k n) v)) k n)

/-- JOIN_PACKET: the home performs a join or rejects it, and acknowledges it (R107, R108, R264). -/
def execJoinPacket (p : JoinPkt) (s : State) : Out :=
  let k := gaKey p.ga
  let a := s.plot k
  let ok := decide (plotKind a.attr = p.kind) && decide (plotFmt a.attr = p.fmt) && decide (a.gran = 0) && !plotNamed a.attr
  let r := match homeCheck s k ok true with
    | some c => (some c, s)
    | none => performJoin s k p.kind p.fmt p.value.toNat
  .next (r.2.ack (s.homeDie k) p.req p.xid p.ack k r.1)

/-! ## Value-returning counts (R115-R118) -/

/-- Answer one count request. -/
def countReply (s : State) (p : CountPkt) (code : Option FaultCode) (pre : Nat) : State :=
  s.reply (s.homeDie (gaKey p.ga)) p.req ⟨p.xid, code, p.ga, BitVec.ofNat 64 pre, 0, []⟩

/-- Lanes of the group a plot names, at its generation, if it is active (R116, R118). -/
def groupLanesOf (s : State) (a : Word) : Option (List Nat) :=
  let g := s.group (plotGroup a)
  if g.phase = 1 ∧ g.gen = plotGen a then
    some (if g.root then List.range (groupLanes s (plotGroup a)) else g.members.map fun q => q.llane.toNat)
  else none

/-- Location number in its plot. -/
def locNum (k : Nat) : Nat := k % 4096
/-- Lowest unanswered round of a location (R118). -/
def lowRound (s : State) (k : Nat) : Nat := SMap.get (s.plot k).low 0 (locNum k)

def roundOf (s : State) (k n : Nat) : Option CountRound := s.rounds.find? fun r => gaKey r.ga = k ∧ r.round = n
def dropRound (s : State) (r : CountRound) : State :=
  { s with rounds := s.rounds.filter fun x => ¬ (x.ga = r.ga ∧ x.round = r.round) }

/-- A request further ahead than the window waits aside (R118). -/
def beyondWindow (s : State) (k n : Nat) : Bool := decide (lowRound s k + 15 < n)

/-- A request of a round within the window: faults of R118, or its place in the round. Where the first request of a round has been set
aside beyond the window, the spec does not say whether the participants are those of its arrival or of its release: the model takes
them at the release (log 55). -/
def enterRound (s : State) (p : CountPkt) (lanes : List Nat) : State :=
  let k := gaKey p.ga
  let r := (roundOf s k p.round).getD ⟨p.ga, p.round, lanes, [], []⟩
  if !(r.members.contains p.lane) ∨ r.left.contains p.lane then countReply s p (some .groupNotMember) 0
  else if r.reqs.any (fun q => q.lane = p.lane) then countReply s p (some .illegal) 0
  else
    let s := dropRound s r
    { s with rounds := s.rounds ++ [{ r with reqs := r.reqs ++ [p] }] }

/-- VALUE_COUNT_REQUEST: answered in arrival order, or collected by round (R115, R116, R265). A request that names a round already
answered takes ILLEGAL also when its lane is no participant, where R118 gives two codes (log 55). -/
def execValueCountRequest (p : CountPkt) (s : State) : Out :=
  let k := gaKey p.ga
  let a := s.plot k
  let ok := decide (plotKind a.attr = kindCount) && decide (plotFmt a.attr = p.fmt)
  match homeCheck s k ok true with
  | some c => .next (countReply s p (some c) 0)
  | none =>
    if !(isRepro s p.req.launch && plotGv a.attr) then
      let n := fmtWidth p.fmt / 8
      let pre := s.loadNat k n
      .next (countReply (touched (s.storeNat k n (joinCode kindCount p.fmt pre p.inc.toNat)) k n) p none pre)
    else match groupLanesOf s a.attr with
    | none => .next (countReply s p (some .groupNotMember) 0)
    | some lanes =>
      if p.round < lowRound s k then .next (countReply s p (some .illegal) 0)
      else if beyondWindow s k p.round then .next (setAside s (s.homeDie k) (.valueCountRequest p))
      else .next (enterRound s p lanes)

/-- Every participant has requested or left (R116, R118). -/
def roundWhole (r : CountRound) : Bool :=
  r.members.all fun l => r.left.contains l || r.reqs.any fun q => q.lane = l

/-- Replies of a round in ascending lane, with the value after them. -/
def answerRound (s : State) (f v : Nat) : List CountPkt → Nat × State
  | [] => (v, s)
  | q :: t => answerRound (countReply s q none v) f (joinCode kindCount f v q.inc.toNat) t

/-- The lowest unanswered round of a location, when it can be answered. -/
def nextRound (s : State) (k : Nat) : Option CountRound :=
  match roundOf s k (lowRound s k) with
  | some r => if roundWhole r then some r else none
  | none => none

/-- COUNT_ROUND_ANSWER: the home answers the lowest round by prefix sum in lane order (R116). -/
def execCountRoundAnswer (ga : Word) (s : State) : Out :=
  let k := gaKey ga
  match nextRound s k with
  | none => .next s
  | some r =>
    let f := plotFmt (s.plot k).attr
    let n := fmtWidth f / 8
    let reqs := sortBy (fun x y => decide (x.lane < y.lane)) r.reqs
    let (v, s) := answerRound (dropRound s r) f (s.loadNat k n) reqs
    let p := s.plot k
    let s := s.setPlot k { p with low := SMap.set p.low 0 (locNum k) (r.round + 1) }
    .next (touched (s.storeNat k n v) k n)

/-! ## Exact reads (R114, R271) -/

/-- EXACT_READ. -/
def execExactRead (p : ExactPkt) (s : State) : Out :=
  let k := gaKey p.ga
  let a := s.plot k
  let w := fmtWidth (plotFmt a.attr)
  let o : Outcome :=
    match homeCheck s k (decide (plotKind a.attr = p.kind) && decide (w = fmtWidth p.fmt)) false with
    | some c => bad c
    | none =>
      if !plotFrozen a.attr then bad .unfrozenRead
      else if p.kind = kindFill ∧ fillState s k = 2 then bad .latticeTop
      else if p.kind = kindFill ∧ fillState s k ≠ 1 then
        ⟨none, BitVec.ofNat 64 (natOf (absentBytes (plotFmt a.attr) (w / 8))), 0, []⟩
      else ⟨none, BitVec.ofNat 64 (s.loadNat k (w / 8)), 0, []⟩
  .next (s.reply (s.homeDie k) p.req ⟨p.xid, o.code, p.ga, o.a, o.b, []⟩)

/-! ## Plots (R106, R273, R274) -/

/-- Formats a kind admits (R104). -/
def kindAdmits (kind f gran : Nat) : Bool :=
  match kind with
  | 0 => decide (f < 8) || (decide (12 ≤ f) && decide (f ≤ 17))
  | 1 => decide (f < 8) || (decide (12 ≤ f) && decide (f ≤ 17))
  | 2 => fmtIsB f
  | 3 => fmtIsB f
  | 4 => decide (f = 6) || decide (f = 7)
  | 5 => decide (f < 20) && (decide (f ≠ fmtE2M1) || decide (gran ≠ 0))
  | _ => false

/-- A plot descriptor that PLOT can form (R106, R272, R273). A GRAN of 17 to 31 is rejected as KIND_MISMATCH, which the rules do not say
(log 60). -/
def descAdmits (v : Word) : Bool :=
  let kind := bitsOf v 15 13
  let gran := bitsOf v 4 0
  kindAdmits kind (bitsOf v 12 8) gran && (decide (gran = 0) || (decide (kind = 5) && decide (8 ≤ gran) && decide (gran ≤ 16))) &&
  (!bitOf v 48 || decide (kind = 4))

/-- An attribute entry (R102). -/
def plotAttr (kind f gran : Nat) (gv : Bool) (group : Nat) (named : Bool) (tensor : Nat) : Word :=
  BitVec.ofNat 64 (2 ^ 63 + kind * 2 ^ 58 + f * 2 ^ 53 + gran % 16 * 2 ^ 49 + b2n gv * 2 ^ 48 + group * 2 ^ 32 +
    b2n named * 2 ^ 31 + tensor)

/-- Form a plot: its entry, every element at the bottom, every unit unfilled. -/
def formPlot (s : State) (k : Nat) (attr : Word) (gran : Nat) : State :=
  (s.stores k (bottomBytes (plotKind attr) (plotFmt attr) 4096)).setPlot k { attr := attr, gran := gran, fill := [], low := [] }

/-- Every cached copy of a plot's frozen data is gone: the lines and constants that cores hold, and its tiles in ricks (R106, R114). -/
def uncache (s : State) (k : Nat) : State :=
  let here (a : Nat) : Bool := decide (a / 4096 = k / 4096)
  { s with
    past := s.past.filter fun x => !here x.2.1
    cores := s.cores.map fun (n, c) => (n, { c with consts := c.consts.filter fun w => !here w.key }) }

/-- PLOT on one plot: a fault, or the plot formed; a frozen one once no copy of its data is left (R106). -/
def plotOne (s : State) (k : Nat) (v : Word) : Option FaultCode × State :=
  let a := (s.plot k).attr
  if retiredAt s k then (some .memUe, s)
  else if (plotValid a && !plotFrozen a) || plotNamed a || !descAdmits v then (some .kindMismatch, s)
  else
    let t := formPlot s k (plotAttr (bitsOf v 15 13) (bitsOf v 12 8) (bitsOf v 4 0) (bitOf v 48) (bitsOf v 47 32) false 0) (bitsOf v 4 0)
    (none, if plotFrozen a then uncache t k else t)

/-- PLOT_REQUEST. -/
def execPlotRequest (p : PlotPkt) (s : State) : Out :=
  let k := gaKey p.ga
  let (c, s) := plotOne s k p.desc
  .next (s.reply (s.homeDie k) p.req ⟨p.xid, c, p.ga, 0, 0, []⟩)

/-- Requests of unanswered rounds in a plot, held or set aside, fail when it freezes (R118). -/
def failRounds (s : State) (k : Nat) : State :=
  let here (ga : Word) : Bool := decide (gaKey ga / 4096 = k / 4096)
  let held := (s.rounds.filter fun r => here r.ga).flatMap CountRound.reqs
  let pick (m : Instr) : Option CountPkt := match m with | .valueCountRequest p => if here p.ga then some p else none | _ => none
  let a := takeAside { s with rounds := s.rounds.filter fun r => !here r.ga } fun m => (pick m).isSome
  (held ++ a.1.filterMap pick).foldl (fun s p => countReply s p (some .afterFreeze) 0) a.2

/-- FREEZE on one plot (R113, R274). -/
def freezeOne (s : State) (k : Nat) : Option FaultCode × State :=
  let p := s.plot k
  if retiredAt s k then (some .memUe, s)
  else if !plotValid p.attr ∨ plotNamed p.attr then (some .kindMismatch, s)
  else if plotFrozen p.attr then (none, s)
  else
    let s := s.setPlot k { p with attr := p.attr ||| (1#64 <<< 62) }
    (none, touched (failRounds s k) (k - k % 4096) 4096)

/-- FREEZE_REQUEST. -/
def execFreezeRequest (p : PlotPkt) (s : State) : Out :=
  let k := gaKey p.ga
  let (c, s) := freezeOne s k
  .next (s.reply (s.homeDie k) p.req ⟨p.xid, c, p.ga, 0, 0, []⟩)

/-! ## Loads and stores (R191, R192, R194, R350) -/

/-- The first part of a request that meets an uncorrectable error or a retired frame. -/
def badPart (s : State) (parts : List (Nat × Nat)) : Option Nat :=
  (parts.find? fun p => s.isRetired p.1 || (s.hasUe p.1 p.2).isSome).map fun p => (s.hasUe p.1 p.2).getD p.1

/-- LOAD_REQUEST: the home reads the parts and replies; the task's earlier stores that are still on their way are seen (R194). -/
def execLoadRequest (p : LoadPkt) (s : State) : Out :=
  let k := (p.parts.head?.map Prod.fst).getD 0
  let a : Answer := match badPart s p.parts with
    | some b => ⟨p.xid, some .memUe, gaOf s b, 0, 0, []⟩
    | none => ⟨p.xid, none, gaOf s k, 0, 0, p.parts.flatMap fun x => s.seenAs p.req.task p.xid x.1 x.2⟩
  .next (s.post (s.homeDie k) (placeOf s p.req).die (.loadReply ⟨p.req, a⟩))

/-- STORE_DATA: the home writes the parts and acknowledges. -/
def execStoreData (p : StorePkt) (s : State) : Out :=
  let k := (p.parts.head?.map Prod.fst).getD 0
  match badPart s (p.parts.map fun x => (x.1, x.2.length)) with
  | some b => .next (s.ack (s.homeDie k) p.req p.xid p.ack b (some .memUe))
  | none =>
    let t := overtake s p.req.slot p.req.task p.xid (p.parts.map fun x => (x.1, x.2.length))
    .next ((p.parts.foldl (fun s x => s.stores x.1 x.2) t).ack (s.homeDie k) p.req p.xid p.ack k none)

/-! ## Answers (R52-R55, R107, R406) -/

/-- An answer reaches its task, also one that is saved: its pending wake (R55). -/
def deliverAnswer (p : WakePkt) (s : State) : State := wakeTask s p.req fun x => { x with answers := x.answers ++ [p.answer] }

/-- LOAD_REPLY: the reply of a load is at the task's core. -/
def execLoadReply (p : WakePkt) (s : State) : Out := .next (deliverAnswer p s)

/-- WAKE: an answer or wake is at the gleaner of the task's core. -/
def execWake (p : WakePkt) (s : State) : Out := .next (deliverAnswer p s)

def setJob (s : State) (core : Nat) (j : Job) : State :=
  s.modCore core fun c => { c with jobs := c.jobs.map fun x => if x.id = j.id then j else x }
def jobOf (s : State) (core id : Nat) : Option Job := (s.core core).jobs.find? fun j => j.id = id

/-- An acknowledgement for a carter job: of a chunk of a copy (transaction 0), or of a notify-join or sort fill. -/
def jobAck (s : State) (core id : Nat) (p : AckPkt) : State :=
  match jobOf s core id with
  | none => s
  | some j =>
    setJob s core (if p.xid = 0 then { j with flying := j.flying - 1, code := j.code.or p.code }
      else { j with notifies := j.notifies - 1, note := j.note.or p.code })

/-- An acknowledgement at a slot's counter (R107). -/
def scopeAck (s : State) (n : Nat) (p : AckPkt) : State :=
  (onTask s p.req fun x => { x with
    unack := x.unack.setIfInBounds n (x.unack.getD n 0 - 1)
    faultPending := if p.code.isSome then x.faultPending ||| (1#8 <<< n) else x.faultPending }).paid p.req.launch 1

def ackTake (s : State) (p : AckPkt) : State :=
  match p.ack with
  | .scope n => scopeAck s n p
  | .job n => jobAck s p.req.slot.coreKey n p

/-- A fault that an acknowledgement reports: every one but a further fault of the parts of a copy that has stopped (R261, R289). -/
def ackNews (s : State) (p : AckPkt) : Bool :=
  match p.ack with
  | .scope _ => true
  | .job n => match jobOf s p.req.slot.coreKey n with | some j => j.code.isNone || decide (p.xid ≠ 0) | none => false

/-- ACKNOWLEDGEMENT: the counter of its scope falls, or a carter job learns of it; a fault writes a record, marks the launch
and sets the fault-pending bit, and waits for room in the buffer (R107, R288, R406, R410). -/
def execAcknowledgement (p : AckPkt) (s : State) : Out :=
  let die := ackDie s p.req p.ack
  match p.code with
  | some c =>
    if !ackNews s p then .next (ackTake s p)
    else if !s.hasRoom die then .next (s.again (.acknowledgement p))
    else .next (ackTake (asyncFault s die p.req c none (some p.ga)) p)
  | none => .next (ackTake s p)

end Sys2Proof.Machine
end

