-- ==== Sys2Proof/Machine/Names.lean ====
section
/-! DEFINITION. Named tiles: the tensor table, NTENS, NCLOSE and NPUB at it, tile fills, and the interests and ricks of the
cluster routers (R119-R128, R275-R281). -/

namespace Sys2Proof.Machine

/-! ## The tensor table (R119-R122) -/

def nameTensor (n : Word) : Nat := bitsOf n 63 48
def nameIter (n : Word) : Nat := bitsOf n 47 32
def nameTile (n : Word) : Nat := bitsOf n 31 0
def mkName (t i x : Nat) : Word := BitVec.ofNat 64 (t * 2 ^ 48 + i % 2 ^ 16 * 2 ^ 32 + x)

/-! Fields of an entry (R120). -/
def tValid (bs : List Byte) : Bool := decide (fieldOf bs 0 2 % 2 = 1)
def tRows (bs : List Byte) : Nat := fieldOf bs 2 2
def tCols (bs : List Byte) : Nat := fieldOf bs 4 2
def tFmt (bs : List Byte) : Nat := fieldOf bs 6 1
def tLog (bs : List Byte) : Nat := fieldOf bs 7 1
def tPolicy (bs : List Byte) : Nat := fieldOf bs 8 1
def tRing (bs : List Byte) : Nat := fieldOf bs 9 1
def tNext (bs : List Byte) : Nat := fieldOf bs 10 2
def tTiles (bs : List Byte) : Nat := fieldOf bs 12 4
def tDie0 (bs : List Byte) : Nat := fieldOf bs 16 1
def tNdie (bs : List Byte) : Nat := fieldOf bs 17 1
def tSlice0 (bs : List Byte) : Nat := fieldOf bs 18 2
def tBase (bs : List Byte) : Nat := fieldOf bs 20 4
def tSize (bs : List Byte) : Nat := 2 ^ tLog bs

/-- Homes a tensor is spread over (R121). -/
def tHomes (bs : List Byte) : Nat := if tPolicy bs = 0 then 512 else tNdie bs * 512

/-- Key of byte `off` of home number `h`. -/
def homeAt (bs : List Byte) (h off : Nat) : Nat :=
  if tPolicy bs = 0 then granaryKey ((tSlice0 bs + h) % 512) off
  else storeKey ((tDie0 bs + h % tNdie bs) * 512 + h / tNdie bs % 512) off

/-- The home of tile `x` in iteration `i` (R121). -/
def tileKey (bs : List Byte) (i x : Nat) : Nat :=
  homeAt bs (x % tHomes bs) (tBase bs + (x / tHomes bs * tRing bs + i % tRing bs) * tSize bs)

/-- Bytes of the ring area of home number `h`. -/
def ringBytes (bs : List Byte) (h : Nat) : Nat :=
  if h < tTiles bs then (tTiles bs - h + tHomes bs - 1) / tHomes bs * tRing bs * tSize bs else 0

/-- State of an iteration: 0 open, 1 future, 2 closed (R122). -/
def iterState (bs : List Byte) (i : Nat) : Nat :=
  let d := (i + 2 ^ 16 - tNext bs) % 2 ^ 16
  if d < tRing bs then 0 else if d < 2 ^ 15 then 1 else 2

/-- The entry a name resolves to (R119). -/
def resolve (s : State) (name : Word) : Option (List Byte) :=
  let t := nameTensor name
  let bs := s.tensor t
  if t < 4096 ∧ tValid bs ∧ nameTile name < tTiles bs then some bs else none

/-- Absent codes over a tile of a tensor. -/
def absentTile (bs : List Byte) : List Byte := absentBytes (tFmt bs) (tSize bs)

/-! ## Interests and deliveries (R124-R128) -/

/-- Faults that leave the destination unchanged (R277). -/
def leavesDest (c : FaultCode) : Bool := c ≠ .latticeTop && c ≠ .neverProduced

/-- A delivery that writes a record for this requester: a closed iteration, or a fault on a tag (R277, R279). -/
def writesRecord (p : InterestPkt) (d : DeliverPkt) : Bool :=
  d.latecomer || (p.tag.isSome && (d.code.map leavesDest).getD false)

/-- The location of a named tile. -/
def tileGa (s : State) (name : Word) : Option Word :=
  (resolve s name).map fun bs => gaOf s (tileKey bs (nameIter name) (nameTile name))

/-- A delivery as an interest takes it: bytes of another size than its own, of a tensor that NTENS has put in the place of the one it named,
are KIND_MISMATCH (R277, R279). -/
def fitted (p : InterestPkt) (d : DeliverPkt) : DeliverPkt :=
  if !(d.code.map leavesDest).getD false && decide (d.bytes.length ≠ 2 ^ p.n) then { d with code := some .kindMismatch, latecomer := false }
  else d

/-- Complete an interest at its core: LDT through an answer, NWANT through its tag (R277, R279). -/
def completeInterest (s : State) (p : InterestPkt) (d : DeliverPkt) : State :=
  let d := fitted p d
  let die := p.req.slot.die
  let ga := if d.code = some .memUe then tileGa s p.name else none
  let s := match d.code with
    | some c => if writesRecord p d then asyncFault s die p.req c none ga else s
    | none => s
  let status := (d.code.map codeNum).getD 0
  let keep := (d.code.map leavesDest).getD false
  match p.tag with
  | none =>
    let a : Answer := if keep then ⟨p.xid, d.code, ga.getD 0, 0, 0, []⟩ else ⟨p.xid, none, 0, BitVec.ofNat 64 status, 0, d.bytes⟩
    deliverAnswer ⟨p.req, a⟩ s
  | some t =>
    let s := if keep then s else s.stores (localKey p.req.slot.coreKey p.dst.toNat) d.bytes
    wakeTask s p.req (tagDone t status)

/-- Send a delivery or an answer to a router. -/
def sendDelivery (s : State) (src router : Nat) (d : DeliverPkt) : State :=
  s.post src (router / 512) (if d.code.isSome then .neverAnswer router d else .tileDelivery router d)

/-- Answer an interest to where it came from: the router's own core, or a child router. -/
def answerChild (s : State) (src router child : Nat) (p : InterestPkt) (d : DeliverPkt) : State :=
  if child = router then completeInterest s p d else sendDelivery s src child d

/-- Router number that stands for the home itself. -/
def homeRouter : Nat := 8192

/-- The next place of an interest toward its home: the router of a cluster store's cluster, or the home (log 9). -/
def nextPlace (router k : Nat) : Nat :=
  let c := keyOff k / 2 ^ 37
  if keyRegion k = 1 ∧ c ≠ router then c else homeRouter

/-- Die of a place on the way to a key. -/
def placeDie (s : State) (place k : Nat) : Nat := if place = homeRouter then s.homeDie k else place / 512

/-- Entries of an interest table (R125). -/
def interestPlaces : Nat := 256

/-- The home answers an interest or keeps it (R122, R124, R127). -/
def homeInterest (s : State) (child : Nat) (p : InterestPkt) : State :=
  let go (src : Nat) (d : DeliverPkt) : State := sendDelivery s src child d
  match resolve s p.name with
  | none => go granaryDie ⟨p.name, some .nameUnknown, false, []⟩
  | some bs =>
    let k := tileKey bs (nameIter p.name) (nameTile p.name)
    let h := s.homeDie k
    let wait := { s with wants := s.wants ++ [(p.name, child)] }
    if retiredAt s k then go h ⟨p.name, some .memUe, false, []⟩
    else match iterState bs (nameIter p.name) with
    | 2 => go h ⟨p.name, some .neverProduced, true, absentTile bs⟩
    | 1 => wait
    | _ =>
      match fillState s k with
      | 1 => go h ⟨p.name, none, false, s.loads k (tSize bs)⟩
      | 2 => go h ⟨p.name, some .latticeTop, false, absentTile bs⟩
      | _ => wait

/-- What a router's rick holds of a name; never a tile of a closed iteration (R127). -/
def rickHit (s : State) (router : Nat) (name : Word) : Option (List Byte) :=
  match resolve s name with
  | some bs =>
    if iterState bs (nameIter name) = 2 then none
    else ((s.router router).rick.find? fun e => e.1 = name).map Prod.snd
  | none => none

/-- INTEREST at a router: a rick hit, a merge, a new entry and its way on, or the waiting store (R124, R125). -/
def routeInterest (s : State) (router child : Nat) (p : InterestPkt) : State :=
  let die := router / 512
  let r := s.router router
  match resolve s p.name with
  | none => answerChild s die router child p ⟨p.name, some .nameUnknown, false, []⟩
  | some bs =>
    if child = router ∧ tLog bs ≠ p.n then answerChild s die router child p ⟨p.name, some .kindMismatch, false, []⟩
    else match rickHit s router p.name with
    | some t => answerChild s die router child p ⟨p.name, none, false, t⟩
    | none =>
      let add (e : Interest) : Interest :=
        if child = router then { e with own := e.own ++ [p] }
        else if e.ports.contains child then e else { e with ports := e.ports ++ [child] }
      if r.table.any fun e => e.name = p.name then
        s.setRouter router { r with table := r.table.map fun e => if e.name = p.name then add e else e }
      else if r.table.length < interestPlaces then
        let k := tileKey bs (nameIter p.name) (nameTile p.name)
        let next := nextPlace router k
        (s.setRouter router { r with table := r.table ++ [add ⟨p.name, [], []⟩] }).post
          die (placeDie s next k) (.interest next router p)
      else setAside s die (.interest router child p)

/-- INTEREST (R124). -/
def execInterest (router child : Nat) (p : InterestPkt) (s : State) : Out :=
  .next (if router = homeRouter then homeInterest s child p else routeInterest s router child p)

/-- Serve the entry of a name at a router, then free it (R124). -/
def serveEntry (s : State) (router : Nat) (d : DeliverPkt) : State :=
  let r := s.router router
  match r.table.find? fun e => e.name = d.name with
  | none => s
  | some e =>
    let s := s.setRouter router { r with table := r.table.filter fun x => x.name ≠ d.name }
    let s := e.ports.foldl (fun s c => sendDelivery s (router / 512) c d) s
    e.own.foldl (fun s p => completeInterest s p d) s

/-- The records a delivery writes have room (R410). -/
def recordsFit (s : State) (router : Nat) (d : DeliverPkt) : Bool :=
  let own := ((s.router router).table.filter fun e => e.name = d.name).flatMap Interest.own
  !(own.any fun p => writesRecord p (fitted p d)) || s.hasRoom (router / 512)

/-- A delivery is that of a tile that is filled now: its tensor and its iteration are still there (R127). -/
def tileCurrent (s : State) (p : DeliverPkt) : Bool :=
  match resolve s p.name with
  | some bs =>
    let k := tileKey bs (nameIter p.name) (nameTile p.name)
    decide (iterState bs (nameIter p.name) = 0) && decide (fillState s k = 1) && s.loads k (tSize bs) == p.bytes
  | none => false

/-- Bytes of a rick (R14). -/
def rickBytes : Nat := 262144

/-- Make room for `n` bytes in a rick; which tiles go is free (R127; log 12). -/
def evictTiles (draw n : Nat) : Nat → List (Word × List Byte) → List (Word × List Byte)
  | 0, l => l
  | i + 1, l =>
    if (l.map fun e => e.2.length).sum + n ≤ rickBytes then l
    else evictTiles draw n i (l.eraseIdx (Config.victim (draw + i) % l.length))

/-- TILE_DELIVERY: every child is served, and the rick may keep the tile (R124, R127). -/
def execTileDelivery (router : Nat) (p : DeliverPkt) (s : State) : Out :=
  let s := serveEntry s router p
  let r := s.router router
  let rest := r.rick.filter fun e => e.1 ≠ p.name
  .next { s.setRouter router (if Config.rickKeeps s.draws && tileCurrent s p then
      { r with rick := (p.name, p.bytes) :: evictTiles s.draws p.bytes.length rest.length rest } else r)
    with draws := s.draws + 1 }

/-- NEVER_ANSWER: NEVER, TOP or a fault goes the way of a delivery, and no rick keeps it (R123, R127). -/
def execNeverAnswer (router : Nat) (p : DeliverPkt) (s : State) : Out :=
  if recordsFit s router p then .next (serveEntry s router p) else .next (s.again (.neverAnswer router p))

def inRange (tensor lo hi : Nat) (name : Word) : Bool :=
  decide (nameTensor name = tensor) && decide ((nameIter name + 2 ^ 16 - lo) % 2 ^ 16 ≤ (hi + 2 ^ 16 - lo) % 2 ^ 16)

/-- PURGE: a rick gives up the tiles of a range of iterations of a tensor (R123). -/
def execPurge (router tensor lo hi : Nat) (s : State) : Out :=
  let r := s.router router
  .next (s.setRouter router { r with rick := r.rick.filter fun e => !inRange tensor lo hi e.1 })

/-- Cycles after which an interest raises its event (R126). -/
def stallCycles : Nat := 2 ^ 24

/-- Requests of a router's own cores that are set aside since its table is full (R125). -/
def asideInterests (s : State) (router : Nat) : List InterestPkt :=
  (s.die (router / 512)).store.filterMap fun m => match m with
    | .interest a b p => if a = router ∧ b = router then some p else none
    | _ => none

/-- A request of a router's own cores for a name that is due an INTEREST_STALL event, in its table or set aside. -/
def stallDue (s : State) (router : Nat) (name : Word) : Option InterestPkt :=
  (((s.router router).table.flatMap Interest.own) ++ asideInterests s router).find? fun p =>
    decide (p.name = name) && !p.stalled && decide (p.born + stallCycles ≤ s.cycle)

/-- The request has raised its event. -/
def markStalled (s : State) (router : Nat) (p : InterestPkt) : State :=
  let mark (q : InterestPkt) : InterestPkt := if q.req.task = p.req.task ∧ q.xid = p.xid then { q with stalled := true } else q
  let r := s.router router
  (s.setRouter router { r with table := r.table.map fun (e : Interest) => { e with own := e.own.map mark } }).modDie (router / 512) fun d =>
    { d with store := d.store.map fun m => match m with
        | .interest a b q => if a = router ∧ b = router then .interest a b (mark q) else m
        | _ => m }

/-- INTEREST_STALL: one event for an old interest, with the tile's name in ARG (R126). -/
def execInterestStall (router : Nat) (name : Word) (s : State) : Out :=
  match stallDue s router name with
  | some p =>
    if s.hasRoom (router / 512) then
      .next ((markStalled s router p).record (router / 512) (recordOf s p.req 1 false .interestStall ⟨0, none, none, name⟩))
    else .next s
  | none => .next s

/-! ## Fills (R105, R275, R278) -/

/-- Answer every interest that waits at the home for a tile. -/
def serveWants (s : State) (src : Nat) (d : DeliverPkt) : State :=
  (s.wants.filter fun w => w.1 = d.name).foldl (fun s w => sendDelivery s src w.2 d)
    { s with wants := s.wants.filter fun w => w.1 ≠ d.name }

/-- No rick holds a tile of a name any more. -/
def unrick (s : State) (name : Word) : State :=
  { s with routers := s.routers.map fun (c, (r : Router)) => (c, { r with rick := r.rick.filter fun e => e.1 ≠ name }) }

/-- What the interests of a named tile learn when it fills or becomes TOP; no rick holds a TOP tile (R127). -/
def tellWants (s : State) (name : Word) (k gran f : Nat) : State :=
  match fillState s k with
  | 1 => serveWants s (s.homeDie k) ⟨name, none, false, s.loads k (2 ^ gran)⟩
  | 2 => serveWants (unrick s name) (s.homeDie k) ⟨name, some .latticeTop, false, absentBytes f (2 ^ gran)⟩
  | _ => s

/-- A fill at the home of its tile: by address, or of a named tile whose iteration is still open (R105, R122, R275). -/
def performFill (s : State) (p : FillPkt) : Option FaultCode × State :=
  let k := gaKey p.ga
  let a := s.plot k
  let same := decide (plotKind a.attr = kindFill) && decide (a.gran = p.gran) && decide (plotFmt a.attr = p.fmt)
  match p.named with
  | none =>
    match homeCheck s k (same && !plotNamed a.attr) true with
    | some c => (some c, s)
    | none => fillUnit s k p.fmt p.bytes false
  | some name =>
    match homeCheck s k (same && plotNamed a.attr && decide (plotTensor a.attr = nameTensor name)) true with
    | some c => (some c, s)
    | none =>
      match resolve s name with
      | some bs =>
        if iterState bs (nameIter name) = 2 then (some .afterFreeze, s)
        else
          let r := fillUnit s k p.fmt p.bytes false
          (r.1, tellWants r.2 name k p.gran p.fmt)
      | none => (some .kindMismatch, s)

/-- TILE_FILL. -/
def execTileFill (p : FillPkt) (s : State) : Out :=
  let r := performFill s p
  .next (r.2.ack (s.homeDie (gaKey p.ga)) p.req p.xid p.ack (gaKey p.ga) r.1)

/-! ## Requests at the table -/

/-- A message of some kind is under way. -/
def underWay (s : State) (f : Instr → Bool) : Bool := s.agenda.any f || s.transits.any fun t => f t.msg

def tableReply (s : State) (q : Requester) (xid : Nat) (code : Option FaultCode) : State :=
  s.reply granaryDie q ⟨xid, code, 0, 0, 0, []⟩

/-- NPUB resolved: its tile's home, its name, format and size (R278). -/
def namerReply (s : State) (p : NamePkt) (bs : List Byte) : State :=
  let k := tileKey bs (nameIter p.name) (nameTile p.name)
  s.reply granaryDie p.req ⟨p.xid, none, gaOf s k, p.name, BitVec.ofNat 64 (tFmt bs + tLog bs * 2 ^ 8), []⟩

/-- NAME_RESOLUTION (R119, R122, R278). -/
def execNameResolution (p : NamePkt) (s : State) : Out :=
  match resolve s p.name with
  | none => .next (tableReply s p.req p.xid (some .nameUnknown))
  | some bs =>
    if tLog bs ≠ p.n then .next (tableReply s p.req p.xid (some .kindMismatch))
    else if iterState bs (nameIter p.name) = 1 then .next { s with namers := s.namers ++ [p] }
    else .next (namerReply s p bs)

/-- Producers whose iteration has opened go on (R122). -/
def wakeNamers (s : State) (t : Nat) : State :=
  s.namers.foldl (fun s p =>
    match resolve s p.name with
    | some bs =>
      if nameTensor p.name = t ∧ iterState bs (nameIter p.name) ≠ 1 then
        namerReply { s with namers := s.namers.erase p } p bs
      else s
    | none => s) s

/-- Make a tile's unit unfilled, its bytes the absent codes (R105). -/
def clearTile (bs : List Byte) (s : State) (k : Nat) : State := setFillState (s.stores k (absentTile bs)) k 0

/-- Close one tile: interests on an unfilled one are answered NEVER, and its slot serves the next iteration (R123). -/
def closeTile (t : Nat) (bs : List Byte) (i : Nat) (s : State) (x : Nat) : State :=
  let k := tileKey bs i x
  let s := if fillState s k = 0 then serveWants s (s.homeDie k) ⟨mkName t i x, some .neverProduced, false, absentTile bs⟩ else s
  clearTile bs s k

/-- Send a purge to every router whose rick holds a tile of the range. -/
def sendPurges (s : State) (t lo hi : Nat) : State :=
  (s.routers.filter fun r => r.2.rick.any fun e => inRange t lo hi e.1).foldl
    (fun s r => s.post granaryDie (r.1 / 512) (.purge r.1 t lo hi)) s

/-- Close iterations NEXT to `i` of a tensor (R123). -/
def closeTensor (s : State) (t : Nat) (bs : List Byte) (i : Nat) : State :=
  let n := (i + 2 ^ 16 - tNext bs) % 2 ^ 16 + 1
  let s := (List.range n).foldl (fun s j =>
    (List.range (tTiles bs)).foldl (closeTile t bs ((tNext bs + j) % 2 ^ 16)) s) s
  let s := s.setTensor t (patch bs 10 (bytesOf 2 (i + 1)))
  wakeNamers (sendPurges s t (tNext bs) i) t

/-- Purges or NEVER answers of a tensor under way. -/
def closing (s : State) (t : Nat) : Bool := underWay s fun m =>
  match m with
  | .purge _ n _ _ => decide (n = t)
  | .neverAnswer _ p => decide (nameTensor p.name = t)
  | _ => false

/-- The answer to NCLOSE goes once every purge and NEVER answer of the tensor has arrived (R123). -/
def answerClose (p : ClosePkt) (s : State) : State :=
  if closing s p.tensor then s.again (.closeRequest { p with done := true }) else tableReply s p.req p.xid none

/-- CLOSE_REQUEST: the iterations close once, as the table stands when the request comes (R123, R280). -/
def execCloseRequest (p : ClosePkt) (s : State) : Out :=
  let bs := s.tensor p.tensor
  .next (
    if p.done then answerClose p s
    else if ¬ (p.tensor < 4096 ∧ tValid bs) then tableReply s p.req p.xid (some .nameUnknown)
    else match iterState bs p.iter with
    | 0 => (closeTensor s p.tensor bs p.iter).again (.closeRequest { p with done := true })
    | 1 => tableReply s p.req p.xid (some .illegal)
    | _ => answerClose p s)

/-! ### NTENS (R121, R281) -/

/-- Bytes of a home's region (R23). -/
def regionBytes (bs : List Byte) : Nat := if tPolicy bs = 0 then 0x180000 else 2 ^ 22

/-- Fields of an image that NTENS may write. -/
def tensorOk (bs : List Byte) : Bool :=
  let w := fmtWidth (tFmt bs)
  decide (1 ≤ tRows bs) && decide (tRows bs ≤ 256) && decide (1 ≤ tCols bs) && decide (tCols bs ≤ 256) &&
  decide (tFmt bs < 20) && decide (8 ≤ tLog bs) && decide (tLog bs ≤ 16) &&
  decide (tRows bs * tCols bs * w = 8 * tSize bs) && decide (tPolicy bs ≤ 1) &&
  decide (1 ≤ tRing bs) && decide (tRing bs ≤ 16) && decide (1 ≤ tTiles bs) &&
  (if tPolicy bs = 0 then decide (tSlice0 bs ≤ 511)
   else decide (1 ≤ tNdie bs) && decide (tNdie bs ≤ 16) && decide (tDie0 bs + tNdie bs ≤ 16)) &&
  decide (tBase bs % tSize bs = 0) && decide (tBase bs + ringBytes bs 0 ≤ regionBytes bs)

/-- Reserved bytes and bits are zero, and NEXT is 0 (R120, R281). -/
def imageClean (bs : List Byte) : Bool :=
  decide (fieldOf bs 0 2 < 2) && decide (fieldOf bs 24 40 = 0) && decide (tNext bs = 0)

/-- Home number and offset of a key in a tensor's homes. -/
def homeOfKey (bs : List Byte) (k : Nat) : Option (Nat × Nat) :=
  if tPolicy bs = 0 ∧ keyRegion k = 2 then some ((keyOff k / 2 ^ 41 + 512 - tSlice0 bs) % 512, keyOff k % 2 ^ 41)
  else if tPolicy bs = 1 ∧ keyRegion k = 1 then
    let c := keyOff k / 2 ^ 37
    if tDie0 bs ≤ c / 512 ∧ c / 512 < tDie0 bs + tNdie bs then
      some (c % 512 * tNdie bs + (c / 512 - tDie0 bs), keyOff k % 2 ^ 37)
    else none
  else none

/-- The plot at a key shares a byte with the ring area of a home. -/
def inRing (bs : List Byte) (k : Nat) : Bool :=
  match homeOfKey bs k with
  | some (h, off) => decide (0 < ringBytes bs h) && decide (off < tBase bs + ringBytes bs h) && decide (tBase bs < off + 4096)
  | none => false

/-- A valid plot overlaps the ring (R121). -/
def ringTaken (s : State) (bs : List Byte) : Bool := s.plots.any fun p => plotValid p.2.attr && inRing bs (p.1 * 4096)

/-- Keys of the ring plots of a tensor. -/
def ringPlots (bs : List Byte) : List Nat :=
  (List.range (min (tHomes bs) (tTiles bs))).flatMap fun h =>
    let lo := tBase bs / 4096
    let hi := (tBase bs + ringBytes bs h + 4095) / 4096
    (List.range (hi - lo)).map fun j => homeAt bs h (4096 * (lo + j))

/-- Write an entry and form its ring plots (R121). -/
def createTensor (s : State) (t : Nat) (bs : List Byte) : State :=
  (ringPlots bs).foldl (fun s k => formPlot s k (plotAttr kindFill (tFmt bs) (tLog bs) false 0 true t) (tLog bs)) (s.setTensor t bs)

/-- Take the tiles of a tensor out of every rick. -/
def purgeAll (s : State) (t : Nat) : State :=
  { s with routers := s.routers.map fun (c, r) => (c, { r with rick := r.rick.filter fun e => decide (nameTensor e.1 ≠ t) }) }

/-- An interest in a tile of a tensor, with the router or home it goes to and where it comes from. -/
def interestIn (t : Nat) (m : Instr) : Option (Nat × Nat × InterestPkt) :=
  match m with
  | .interest router child p => if nameTensor p.name = t then some (router, child, p) else none
  | _ => none

/-- Interests in a tensor that are on their way, set aside or in a slot buffer are answered NEVER where they come from (R281). -/
def answerTravelling (s : State) (t : Nat) (bs : List Byte) : State :=
  let is := interestIn t
  let a := takeAside s fun m => (is m).isSome
  let ms := s.agenda ++ s.transits.map Transit.msg ++ a.1
  let s := { a.2 with
    agenda := a.2.agenda.filter fun m => (is m).isNone
    transits := a.2.transits.filter fun x => (is x.msg).isNone }
  (ms.filterMap is).foldl (fun s x =>
    let d : DeliverPkt := ⟨x.2.2.name, some .neverProduced, false, absentTile bs⟩
    if x.1 = homeRouter ∨ x.2.1 ≠ x.1 then sendDelivery s granaryDie x.2.1 d else completeInterest s x.2.2 d) s

/-- Delete a tensor: parked NPUBs, waiting interests, ricks, ring plots and the entry (R281). -/
def deleteTensor (s : State) (t : Nat) (bs : List Byte) : State :=
  let mine := s.namers.filter fun p => nameTensor p.name = t
  let s := { s with namers := s.namers.filter fun p => decide (nameTensor p.name ≠ t) }
  let s := mine.foldl (fun s p => tableReply s p.req p.xid (some .nameUnknown)) s
  let names := ((s.wants.map Prod.fst).filter fun n => nameTensor n = t).dedup
  let s := names.foldl (fun s n => serveWants s granaryDie ⟨n, some .neverProduced, false, absentTile bs⟩) s
  let s := answerTravelling s t bs
  let s := purgeAll s t
  let s := (ringPlots bs).foldl (fun s k => s.setPlot k Plot.reset) s
  s.setTensor t []

/-- Fills of a tensor that an NPUB has resolved: sent, or about to be sent by a task whose answer is on its way (R281). -/
def fillsFlying (s : State) (t : Nat) : Bool :=
  underWay s (fun m => match m with
    | .tileFill p => match p.named with | some n => decide (nameTensor n = t) | none => false
    | _ => false)

/-- NPUBs of a tensor whose names are resolved and that have not sent their fills yet. -/
def namersResolved (s : State) (t : Nat) : Bool :=
  let has (q : Requester) (a : Answer) : Bool := match taskOf s q with
    | some x => x.parks.any fun p => (match p.instr with | .npub _ => true | _ => false) &&
        (awaited p.cond).contains a.xid && a.code.isNone && decide (nameTensor a.a = t)
    | none => false
  let holds (x : Slot) : Bool := x.answers.any fun a => x.parks.any fun p =>
    (match p.instr with | .npub _ => true | _ => false) && (awaited p.cond).contains a.xid && a.code.isNone &&
    decide (nameTensor a.a = t)
  underWay s (fun m => match m with | .wake p => has p.req p.answer | _ => false) ||
  (s.slots.any fun x => x.2.occupied && holds x.2) || s.live.any fun l => l.saved.any fun c => holds c.slot

/-- What NTENS does with an image: a fault, or the new state. -/
def tensorWrite (s : State) (num : Word) (bs : List Byte) : Option FaultCode × State :=
  let t := num.toNat
  let old := s.tensor t
  if 4096 ≤ t ∨ !imageClean bs then (some .illegal, s)
  else if tValid bs then
    if tValid old ∨ !tensorOk bs ∨ ringTaken s bs then (some .illegal, s) else (none, createTensor s t bs)
  else if tValid old then (none, deleteTensor s t old)
  else (some .nameUnknown, s)

/-- A deletion waits for fills already resolved. -/
def deletionWaits (s : State) (num : Word) (bs : List Byte) : Bool :=
  decide (num.toNat < 4096) && imageClean bs && !tValid bs && tValid (s.tensor num.toNat) &&
  (fillsFlying s num.toNat || namersResolved s num.toNat)

/-- TENSOR_TABLE_WRITE (R281). -/
def execTensorTableWrite (p : TensorPkt) (s : State) : Out :=
  if deletionWaits s p.num p.image then .next (s.again (.tensorTableWrite p))
  else
    let r := tensorWrite s p.num p.image
    .next (tableReply r.2 p.req p.xid r.1)

/-! ## The waiting store (R449) -/

/-- The packet waits for the same resource as another. -/
def sameResource (s : State) (a b : Instr) : Bool :=
  match a, b with
  | .thresholdRegistration p, .thresholdRegistration q => s.homeDie (gaKey p.ga) == s.homeDie (gaKey q.ga)
  | .interest r _ _, .interest t _ _ => r == t
  | .valueCountRequest p, .valueCountRequest q => p.ga == q.ga && p.round == q.round
  | _, _ => false

/-- The resource a set-aside packet waits for is free. -/
def mayLeave (s : State) (m : Instr) : Bool :=
  match m with
  | .thresholdRegistration p => (waitOutcome s p).isSome || waiterRoom s (s.homeDie (gaKey p.ga))
  | .interest r _ p =>
    decide ((s.router r).table.length < interestPlaces) || (s.router r).table.any (fun e => e.name == p.name) ||
    (rickHit s r p.name).isSome || (resolve s p.name).isNone
  | .valueCountRequest p => !beyondWindow s (gaKey p.ga) p.round
  | _ => true

def storeOf (s : State) (die : Nat) : List Instr := if die < 16 then (s.die die).store else s.gstore

/-- The packet at a place of a store may leave: its resource is free and none for it waits before. -/
def releasable (s : State) (die idx : Nat) : Option Instr :=
  let l := storeOf s die
  match l[idx]? with
  | some m => if mayLeave s m ∧ !((l.take idx).any (sameResource s m)) then some m else none
  | none => none

/-- A store has no place for a packet that has to wait: it stays in its slot buffer (R449). -/
def holdsBack (s : State) (die : Nat) (m : Instr) : Bool := decide (storePlaces die ≤ (storeOf s die).length) && !mayLeave s m

/-- The first packet that a slot buffer holds for a store and that has a place there now, or need not wait any more (R449). -/
def unstuck (s : State) (die : Nat) : Option (Nat × LinkEnd × Instr) :=
  s.stuck.find? fun x => decide (x.1 = die) && !holdsBack s die x.2.2

/-- Number of the release of a slot buffer, after those of the places of the store. -/
def bufferIdx (s : State) (die : Nat) : Nat := (storeOf s die).length

/-- WAITING_STORE_RELEASE: a set-aside packet is taken (R54, R118, R125), or a packet leaves its slot buffer and its credit goes back (R449). -/
def execWaitingStoreRelease (die idx : Nat) (s : State) : Out :=
  match releasable s die idx with
  | some m =>
    let l := (storeOf s die).eraseIdx idx
    let s := if die < 16 then s.modDie die fun d => { d with store := l } else { s with gstore := l }
    .next (s.again m)
  | none =>
    match if idx = bufferIdx s die then unstuck s die else none with
    | some x => .next ((giveBack { s with stuck := s.stuck.erase x } x.2.1).again x.2.2)
    | none => .next s

end Sys2Proof.Machine
end

