-- ==== Sys2Proof/Machine/Carter.lean ====
section
/-! DEFINITION. The carter's work: taking mailbox entries, copying, notify-joins, tags, armed copies (R282-R289), and the
Thresher's sort (R331-R333). -/

namespace Sys2Proof.Machine

/-! ## Taking an entry (R282, R287) -/

/-- Arms a core holds at most (R287). -/
def armPlaces : Nat := 256
def armsHeld (c : Core) : Nat := (c.jobs.filter Job.armed).length

def isArm (k : CopyKind) : Bool := match k with | .arm _ _ _ _ _ => true | _ => false

/-- The first entry of a slot's mailbox, if the carter may take it: none of a halted task, and no arm beyond the places. -/
def takeable (s : State) (core j : Nat) : Option CopyReq :=
  let x := s.slot (refOf core j)
  match x.mailbox with
  | e :: _ => if x.halt = .preempt ∨ (isArm e.kind ∧ armPlaces ≤ armsHeld (s.core core)) then none else some e
  | [] => none

/-- The next entry, from the slot after the one last served; none while a record of the carter waits for room (R410). -/
def nextEntry (s : State) (core : Nat) : Option (Nat × CopyReq) :=
  let last := (s.core core).lastServed
  if (s.core core).jobs.any fun j => j.fault.isSome then none
  else ((List.range 8).map fun i => (last + 1 + i) % 8).findSome? fun j => (takeable s core j).map fun e => (j, e)

/-- Register an arm at its trigger's home (R287). -/
def armRegister (s : State) (core id : Nat) (e : CopyReq) : State :=
  match e.kind with
  | .arm _ _ _ loc t =>
    let (x, s) := s.fresh
    s.post (dieOfCore core) (s.homeDie (gaKey loc)) (.thresholdRegistration ⟨e.req, x, loc, .arm core id t⟩)
  | _ => s

/-- Send a sort to the Thresher (R331). -/
def sortRequest (s : State) (core id : Nat) (e : CopyReq) : State :=
  match e.kind with
  | .sort keys pays payOut tabOut n kb pw =>
    s.post (dieOfCore core) granaryDie (.thresherSort ⟨e.req, id, keys, pays, payOut, tabOut, n, kb, pw⟩)
  | _ => s

def isSort (k : CopyKind) : Bool := match k with | .sort _ _ _ _ _ _ _ => true | _ => false

/-- MAILBOX_TAKE: the carter takes the next entry and starts its copy, arm or sort; it counts for its launch (R288). -/
def execMailboxTake (core : Nat) (s : State) : Out :=
  match nextEntry s core with
  | none => .next s
  | some (j, e) =>
    let r := refOf core j
    let e := { e with req := { e.req with slot := r } }
    let (id, s) := s.fresh
    let job : Job := ⟨id, e, 0, 0, [], 0, 0, b2n (isSort e.kind), none, none, none, isArm e.kind, false⟩
    let s := s.modSlot r fun x => { x with mailbox := x.mailbox.tail }
    let s := s.modCore core fun c => { c with jobs := c.jobs ++ [job], lastServed := j }
    .next (sortRequest (armRegister (s.owe e.req.launch 1) core id e) core id e)

/-- A launch whose tasks run, with the task of an arm restored if it was saved (R305). -/
def armMayFire (s : State) (q : Requester) : Bool :=
  match s.launch q.launch with
  | some l => decide (l.phase = .tearing) || (decide (l.phase = .running) && !l.saved.any fun c => decide (c.slot.task = q.task))
  | none => false

/-- The core where a copy stands now, of an arm that has moved with its task. -/
def jobCore (s : State) (id : Nat) : Option Nat := (s.cores.find? fun c => c.2.jobs.any fun j => decide (j.id = id)).map Prod.fst

/-- COPY_FAULT: the copy stops with a status and a record; without room for the record the carter stops before its next item
(R289, R410). -/
def copyFault (s : State) (core : Nat) (j : Job) (code : FaultCode) (va ga : Option Word) : State :=
  if s.hasRoom (dieOfCore core) then
    asyncFault (setJob s core { j with code := some code, fault := none }) (dieOfCore core) j.copy.req code va ga
  else setJob s core { j with code := some code, fault := some (code, va, ga) }

/-- A record of the carter waits for room: it takes no further item (R410). -/
def carterStopped (s : State) (core : Nat) : Bool := (s.core core).jobs.any fun j => j.fault.isSome

/-- ARM_FIRE: the home wakes the arm, which is then copied, or answers it; an arm of a halted launch waits (R287, R305). A status
other than KIND_MISMATCH and MEM_UE writes no record (R287, R306, R406). -/
def execArmFire (core id : Nat) (code : Option FaultCode) (s : State) : Out :=
  match jobOf s core id with
  | none => match jobCore s id with
    | some k => .next (s.post (dieOfCore core) (dieOfCore k) (.armFire k id code))
    | none => .next s
  | some j =>
    if !armMayFire s j.copy.req then .next (s.again (.armFire core id code))
    else
      let j := { j with armed := false }
      match code, j.copy.kind with
      | some c, .arm _ _ _ loc _ =>
        .next (if c = .kindMismatch ∨ c = .memUe then copyFault s core j c none (some loc) else setJob s core { j with code := some c })
      | _, _ => .next (setJob s core { j with code := code })

/-! ## The bytes of a copy (R285, R286) -/

def descBytes (d : BitVec 512) : List Byte := bytesOf 64 d.toNat

/-- Destination ranges of a copy: offsets and bytes. -/
def runsOf (k : CopyKind) : List (Nat × Nat) :=
  match k with
  | .plain _ dst len => [(dst, len)]
  | .arm _ dst len _ _ => [(dst, len)]
  | .tile d =>
    let bs := descBytes d
    (List.range (fieldOf bs 32 2)).map fun row =>
      (fieldOf bs 48 8 + row * fieldOf bs 56 4, fieldOf bs 34 2 * (fmtWidth (byteAt bs 36) / 8))
  | .deal d =>
    let bs := descBytes d
    (List.range (dealDests bs)).map fun i => (dealDst bs i, dealBlocks bs i * fieldOf bs 24 4)
  | .sort _ _ _ _ _ _ _ => []

/-- A tensor's row that a tile row reads (R285). -/
def tileRow (bs : List Byte) (row : Nat) : Option Int :=
  let tr := signedField bs 24 4 + row
  if 0 ≤ tr ∧ tr < fieldOf bs 16 4 then some tr else none

/-- The source byte of byte `o` of a destination range; none outside the tensor of a tile copy (R285, R286). -/
def sourceAt (k : CopyKind) (run o : Nat) : Option Nat :=
  match k with
  | .plain src _ _ => some (src + o)
  | .arm src _ _ _ _ => some (src + o)
  | .tile d =>
    let bs := descBytes d
    let w := fmtWidth (byteAt bs 36) / 8
    let tc := signedField bs 28 4 + (o / w : Nat)
    match tileRow bs run with
    | some tr => if 0 ≤ tc ∧ tc < fieldOf bs 20 4 then
        some (wrap 64 ((fieldOf bs 0 8 : Int) + tr * signedField bs 8 8 + tc * w) + o % w) else none
    | none => none
  | .deal d =>
    let bs := descBytes d
    let block := fieldOf bs 24 4
    some (fieldOf bs 0 8 + (o / block * byteAt bs 32 + run) * block + o % block)
  | .sort _ _ _ _ _ _ _ => none

/-- The copy reads a source byte. -/
def reads (k : CopyKind) (x : Nat) : Bool :=
  match k with
  | .plain src _ len => decide (src ≤ x) && decide (x < src + len)
  | .arm src _ len _ _ => decide (src ≤ x) && decide (x < src + len)
  | .tile d =>
    let bs := descBytes d
    let w := fmtWidth (byteAt bs 36) / 8
    let org := signedField bs 28 4
    let lo := max 0 org
    let hi := min (fieldOf bs 20 4 : Int) (org + fieldOf bs 34 2)
    (List.range (fieldOf bs 32 2)).any fun row => match tileRow bs row with
      | some tr => decide ((wrap 64 ((x : Int) - (fieldOf bs 0 8 + tr * signedField bs 8 8 + lo * w)) : Int) < (hi - lo) * w)
      | none => false
  | .deal d =>
    let bs := descBytes d
    decide (fieldOf bs 0 8 ≤ x) && decide (x < fieldOf bs 0 8 + fieldOf bs 24 4 * fieldOf bs 28 4)
  | .sort _ _ _ _ _ _ _ => false

/-- The source ranges of a copy: offsets and bytes (R285, R286). -/
def sourceRuns (k : CopyKind) : List (Nat × Nat) :=
  match k with
  | .plain src _ len => [(src, len)]
  | .arm src _ len _ _ => [(src, len)]
  | .tile d =>
    let bs := descBytes d
    let w := fmtWidth (byteAt bs 36) / 8
    let org := signedField bs 28 4
    let lo := max 0 org
    let hi := min (fieldOf bs 20 4 : Int) (org + fieldOf bs 34 2)
    (List.range (fieldOf bs 32 2)).filterMap fun row => (tileRow bs row).bind fun tr =>
      if lo < hi then some (wrap 64 ((fieldOf bs 0 8 : Int) + tr * signedField bs 8 8 + lo * w), ((hi - lo) * w).toNat) else none
  | .deal d => [(fieldOf (descBytes d) 0 8, fieldOf (descBytes d) 24 4 * fieldOf (descBytes d) 28 4)]
  | .sort _ _ _ _ _ _ _ => []

/-- What a tile copy writes outside the tensor: the absent code, byte `o` of the row. -/
def absentOf (k : CopyKind) (o : Nat) : Byte :=
  match k with
  | .tile d =>
    let f := byteAt (descBytes d) 36
    (absentBytes f (fmtWidth f / 8)).getD (o % (fmtWidth f / 8)) 0
  | _ => 0

/-! A copy is made of the parts that lie in one aligned 64 bytes: each is read, and each is written, in one step (R360, R364). -/

/-- The aligned 64 bytes that hold an offset of a segment. -/
def unitOf (seg : BitVec 128) (off : Nat) : Nat := (segBase seg + off) / 64

/-- Offsets of a segment within aligned 64 bytes. -/
def unitOffs (seg : BitVec 128) (u : Nat) : List Nat :=
  (List.range 64).filterMap fun i => if segBase seg ≤ 64 * u + i then some (64 * u + i - segBase seg) else none

/-- The places among the destination ranges of an offset: range and byte of it. -/
def takers (k : CopyKind) (off : Nat) : List (Nat × Nat) :=
  (runsOf k).zipIdx.filterMap fun r => if r.1.1 ≤ off ∧ off < r.1.1 + r.1.2 then some (r.2, off - r.1.1) else none

/-- The bytes that a copy writes in aligned 64 bytes: offset, range and byte of it. -/
def cellsOf (j : Job) (u : Nat) : List (Nat × Nat × Nat) :=
  (unitOffs j.copy.dseg u).filterMap fun off =>
    let ts := takers j.copy.kind off
    (ts[Config.dealt (j.id * 2 ^ 64 + u) % ts.length]?).map fun t => (off, t)

/-- A source byte that a copy still has to read for those. -/
def missingFor (j : Job) (cells : List (Nat × Nat × Nat)) : Option Nat :=
  (cells.filterMap fun c => sourceAt j.copy.kind c.2.1 c.2.2).find? fun x => !(j.got.any fun g => g.1 = x)

/-- A written byte. -/
def cellByte (j : Job) (c : Nat × Nat × Nat) : Byte :=
  match sourceAt j.copy.kind c.2.1 c.2.2 with
  | some x => ((j.got.find? fun g => g.1 = x).map Prod.snd).getD 0
  | none => absentOf j.copy.kind c.2.2

/-- The copy moves on by `n` bytes of its range. Bytes that a plain copy has passed are dropped. -/
def Job.move (j : Job) (n : Nat) : Job :=
  let len := ((runsOf j.copy.kind)[j.run]?.map Prod.snd).getD 0
  let j := if len ≤ j.pos + n then { j with run := j.run + 1, pos := 0 } else { j with pos := j.pos + n }
  match j.copy.kind with
  | .plain src _ _ => { j with got := j.got.filter fun g => decide (src + j.pos ≤ g.1) }
  | .arm src _ _ _ _ => { j with got := j.got.filter fun g => decide (src + j.pos ≤ g.1) }
  | _ => j

/-- Notify locations and the bytes written to their destinations (R286, R288). -/
def notifiesOf (c : CopyReq) : List (Nat × Nat) :=
  match c.notify with
  | none => []
  | some n => match c.kind with
    | .plain _ _ len => [(n, len)]
    | .arm _ _ len _ _ => if len = 0 then [] else [(n, len)]
    | .tile d =>
      let bs := descBytes d
      [(n, fieldOf bs 32 2 * fieldOf bs 34 2 * (fmtWidth (byteAt bs 36) / 8))]
    | .deal d =>
      let bs := descBytes d
      (List.range (dealDests bs)).map fun i => (dealNote bs i, dealBlocks bs i * fieldOf bs 24 4)
    | .sort _ _ _ _ _ _ _ => []

/-! ## Where a copy reads and writes (R289) -/

/-- What the carter finds at a range: keys and sizes, a walk it must wait for, or a fault with its addresses. -/
inductive Reach where
  | at (parts : List (Nat × Nat))
  | miss (va : Nat)
  | fault (code : FaultCode) (va ga : Option Word)
  deriving DecidableEq, Repr

/-- A GA a copy reaches: valid, its frame as the leaf expects, its home alive. -/
def copyGa (s : State) (e : Leaf) (va : Nat) : Option FaultCode :=
  let ga : Word := BitVec.ofNat 64 (leafGa e va)
  if !gaValid s ga then some .prot
  else if retiredAt s (gaKey ga) then some .memUe
  else if s.isLattice (gaKey ga) ≠ e.lat then some .mapAttr
  else if s.dead (s.homeDie (gaKey ga)) then some .linkLost
  else none

/-- Translate the pieces of a range for the carter, lowest first. -/
def reachPieces (s : State) (core launch need : Nat) : List (Nat × Nat) → Reach
  | [] => .at []
  | p :: t =>
    match s.lookup (clusterOfCore core) launch p.1 with
    | none => .miss p.1
    | some e =>
      if !rightsOk need e.rights then .miss p.1
      else match copyGa s e p.1 with
        | some c => .fault c (some (BitVec.ofNat 64 p.1)) (some (BitVec.ofNat 64 (leafGa e p.1)))
        | none => match reachPieces s core launch need t with
          | .at ps => .at ((gaKey (BitVec.ofNat 64 (leafGa e p.1)), p.2) :: ps)
          | x => x

/-- A range of a copy's segment. -/
def reach (s : State) (core launch : Nat) (seg : BitVec 128) (off n need : Nat) : Reach :=
  let a := segAddr seg off
  if segSpace seg then reachPieces s core launch need (pieces a n)
  else .at [(localKey core a, n)]

/-- A lattice byte that no frozen plot holds. -/
def unfrozenIn (s : State) (parts : List (Nat × Nat)) : Option Nat :=
  let frozen (k : Nat) : Bool := !s.isLattice k || (plotValid (s.plot k).attr && plotFrozen (s.plot k).attr)
  parts.findSome? fun p => if !frozen p.1 then some p.1 else if !frozen (p.1 + p.2 - 1) then some (p.1 + p.2 - 1) else none

/-- Read the aligned 64 bytes of the source that hold a byte, as far as the copy reads them: offsets and values. -/
def readUnit (s : State) (core : Nat) (j : Job) (x : Nat) : Reach × List (Nat × Byte) :=
  let c := j.copy
  let xs := (unitOffs c.sseg (unitOf c.sseg x)).filter (reads c.kind)
  let x0 := xs.headD x
  let tile := match c.kind with | .tile _ => true | _ => false
  match if tile then xs.find? fun y => !segOk c.sseg y 1 true false else none with
  | some y => (.fault .seg (some (BitVec.ofNat 64 (segAddr c.sseg y))) none, [])
  | none =>
    match reach s core c.req.launch c.sseg x0 1 rightsRd with
    | .at ps =>
      let key (y : Nat) : Nat := firstKey ps + (y - x0)
      match unfrozenIn s ps, xs.findSome? (fun y => s.hasUe (key y) 1) with
      | some k, _ => (.fault .unfrozenRead none (some (gaOf s k)), [])
      | none, some k => (.fault .memUe none (some (gaOf s k)), [])
      | none, none => (.at ps, xs.map fun y => (y, s.load (key y)))
    | r => (r, [])

/-- Where a part is written: never a lattice frame. -/
def destination (s : State) (core : Nat) (c : CopyReq) (off : Nat) : Reach :=
  match reach s core c.req.launch c.dseg off 1 rightsWr with
  | .at ps => match ps.find? fun p => s.isLattice p.1 with
    | some p => .fault .prot none (some (gaOf s p.1))
    | none => .at ps
  | x => x

/-! ## Performing it (R288, R289) -/

/-- A miss parks the carter's work on this copy until the walk ends. -/
def jobWalk (s : State) (core : Nat) (j : Job) (va need : Nat) (space : Option Bool) : State :=
  let s := setJob s core { j with waiting := true }
  { s with agenda := s.agenda ++ [.translationWalk
      ⟨clusterOfCore core, j.copy.req.launch, BitVec.ofNat 64 (va / 2 ^ 16 * 2 ^ 16), need, space, .job core j.id, [], []⟩] }

/-- Read the next source bytes of a copy. -/
def readPart (s : State) (core : Nat) (j : Job) (x : Nat) : State :=
  match readUnit s core j x with
  | (.miss va, _) => jobWalk s core j va rightsRd none
  | (.fault f va ga, _) => copyFault s core j f va ga
  | (.at _, bs) => setJob s core { j with got := j.got ++ bs }

/-- Send the bytes of aligned 64 bytes to their home, and move on by `n` bytes of the range. -/
def writePart (s : State) (core : Nat) (j : Job) (cells : List (Nat × Nat × Nat)) (n : Nat) : State :=
  let first := (cells.head?.map Prod.fst).getD 0
  let last := (cells.getLast?.map Prod.fst).getD 0
  match destination s core j.copy first with
  | .miss va => jobWalk s core j va rightsWr none
  | .fault f va ga => copyFault s core j f va ga
  | .at ps =>
    let k := firstKey ps
    let bytes := (List.range (last + 1 - first)).map fun i => (cells.find? fun c => c.1 = first + i).map (cellByte j)
    (setJob s core ({ j with flying := j.flying + 1 }.move n)).post (dieOfCore core) (s.homeDie k) (.copyData core j.id (gaOf s k) bytes)

/-- NOTIFY_JOIN: the bytes written are visible, and a COUNT n64 join says so (R288). -/
def sendNotify (s : State) (core : Nat) (j : Job) (off bytes : Nat) : State :=
  match reach s core j.copy.req.launch j.copy.nseg off 8 rightsWr with
  | .miss va => jobWalk s core j va rightsWr (some true)
  | .fault f va ga => copyFault s core j f va ga
  | .at ps =>
    let k := firstKey ps
    if !s.isLattice k then copyFault s core j .mapAttr none (some (gaOf s k))
    else
      let (x, s) := s.fresh
      let s := setJob s core { j with sent := j.sent + 1, notifies := j.notifies + 1 }
      s.post (dieOfCore core) (s.homeDie k)
        (.joinPacket ⟨j.copy.req, x, .job j.id, gaOf s k, kindCount, 7, BitVec.ofNat 64 bytes⟩)

/-- The tag completes and the copy is gone; the tag of a task that has ended is discarded (R288, R294). -/
def endCopy (s : State) (core : Nat) (j : Job) : State :=
  let s := s.modCore core fun c => { c with jobs := c.jobs.filter fun x => x.id ≠ j.id }
  (wakeTask s j.copy.req (tagDone j.copy.tag (((j.code.or j.note).map codeNum).getD 0))).paid j.copy.req.launch 1

/-- What the carter can do for a copy now. -/
inductive CopyTurn where
  | wait
  /-- write the record of its fault -/
  | report (code : FaultCode) (va ga : Option Word)
  | read (x : Nat)
  | write (cells : List (Nat × Nat × Nat)) (n : Nat)
  /-- the bytes stand in aligned 64 bytes that an earlier range has brought -/
  | pass (n : Nat)
  | notify (off bytes : Nat)
  | finish
  deriving DecidableEq, Repr

def copyTurn (j : Job) : CopyTurn :=
  if j.armed ∨ j.waiting then .wait
  else match j.fault with
  | some f => .report f.1 f.2.1 f.2.2
  | none =>
    if j.code.isSome then (if j.flying = 0 ∧ j.notifies = 0 then .finish else .wait)
    else match (runsOf j.copy.kind)[j.run]? with
    | some r =>
      let off := r.1 + j.pos
      let n := min (r.2 - j.pos) (64 - (segBase j.copy.dseg + off) % 64)
      let cells := cellsOf j (unitOf j.copy.dseg off)
      let seen := cells.any fun c => (takers j.copy.kind c.1).any fun t => decide (t.1 < j.run)
      if n = 0 ∨ seen then .pass n
      else match missingFor j cells with
        | some x => .read x
        | none => .write cells n
    | none =>
      if j.flying ≠ 0 then .wait
      else match (notifiesOf j.copy)[j.sent]? with
        | some n => .notify n.1 n.2
        | none => if j.notifies = 0 then .finish else .wait

/-- The carter can go on with a copy: no record of it waits for room, unless this is the record that has room now (R410). -/
def copyGoes (s : State) (core : Nat) (j : Job) : Bool :=
  match copyTurn j with
  | .wait => false
  | .report _ _ _ => s.hasRoom (dieOfCore core)
  | _ => !carterStopped s core

/-- COPY_COMPLETE: the carter reads or writes the next bytes of a copy, sends its next notify-join, or completes its tag. -/
def execCopyComplete (core id : Nat) (s : State) : Out :=
  match jobOf s core id with
  | none => .next s
  | some j =>
    if !copyGoes s core j then .next s
    else match copyTurn j with
    | .wait => .next s
    | .report c va ga => .next (copyFault s core j c va ga)
    | .read x => .next (readPart s core j x)
    | .write cells n => .next (writePart s core j cells n)
    | .pass n => .next (setJob s core (j.move n))
    | .notify off n => .next (sendNotify s core j off n)
    | .finish => .next (endCopy s core j)

/-- Store the bytes of a part; those between them stay. -/
def State.storePart (s : State) (k : Nat) : List (Option Byte) → State
  | [] => s
  | none :: t => s.storePart (k + 1) t
  | some b :: t => (s.store k b).storePart (k + 1) t

/-- COPY_DATA: bytes of a copy are written at their home, and the carter learns that they are visible. -/
def execCopyData (core id : Nat) (ga : Word) (bytes : List (Option Byte)) (s : State) : Out :=
  let k := gaKey ga
  match jobOf s core id with
  | none => .next s
  | some j =>
    let code : Option FaultCode := if s.isRetired k then some .memUe else none
    let s := if code.isSome then s else s.storePart k bytes
    .next (s.post (s.homeDie k) (dieOfCore core) (.acknowledgement ⟨j.copy.req, 0, .job id, ga, code⟩))

/-! ## The Thresher (R331-R333) -/

/-- Key of byte `off` of a range of pieces. -/
def keyIn : List (Nat × Nat) → Nat → Nat
  | [], _ => 0
  | p :: t, off => if off < p.2 then p.1 + off else keyIn t (off - p.2)

def readPieces (s : State) (ps : List (Nat × Nat)) : List Byte := ps.flatMap fun p => s.loads p.1 p.2

/-- Elements of `n` bytes. -/
def elemsOf (n : Nat) (bs : List Byte) (count : Nat) : List Nat := (List.range count).map fun i => fieldOf bs (i * n) n

/-- A key that is present (R332). -/
def keyPresent (k : Nat) : Bool := decide (k ≠ 0xFFFF)

/-- Keys with their payloads: ascending keys, ties in source order, absent keys last. -/
def sortPairs (ks ps : List Nat) : List (Nat × Nat) := sortBy (fun a b => decide (a.1 ≤ b.1)) (ks.zip ps)

/-- Bytes over whole tiles of `2 ^ g` bytes, padded with ones. -/
def padTiles (g : Nat) (bs : List Byte) : List (List Byte) :=
  let n := (bs.length + 2 ^ g - 1) / 2 ^ g
  let all := bs ++ List.replicate (n * 2 ^ g - bs.length) 0xFF
  (List.range n).map fun i => (all.drop (i * 2 ^ g)).take (2 ^ g)

/-- The table of a sort: for each value the number of present keys below it and equal to it; last the absent segment. -/
def sortTable (kb : Nat) (ks : List Nat) : List Byte :=
  let present := ks.filter keyPresent
  ((List.range (2 ^ kb)).flatMap fun v =>
    bytesOf 4 (present.filter fun k => decide (k < v)).length ++ bytesOf 4 (present.filter fun k => decide (k = v)).length) ++
  bytesOf 4 present.length ++ bytesOf 4 (ks.length - present.length)

/-- Send the fills of one output. -/
def sortFills (s : State) (q : SortReq) (out : List (Nat × Nat)) (fmt : Nat) (bs : List Byte) : State :=
  let g := (s.plot (keyIn out 0)).gran
  (padTiles g bs).zipIdx.foldl (fun s t =>
    let k := keyIn out (t.2 * 2 ^ g)
    let (x, s) := s.fresh
    s.post granaryDie (s.homeDie k) (.tileFill ⟨q.req, x, .job q.job, gaOf s k, g, fmt, none, t.1⟩)) s

/-- Tiles a sort fills. -/
def sortTiles (s : State) (q : SortReq) : Nat :=
  let tiles (out : List (Nat × Nat)) (n : Nat) : Nat :=
    let g := (s.plot (keyIn out 0)).gran
    (n + 2 ^ g - 1) / 2 ^ g
  tiles q.payOut (q.n * q.pw) + tiles q.tabOut ((2 ^ q.kb + 1) * 8)

/-- A frozen plot holds every source byte. -/
def sourceUnfrozen (s : State) (ps : List (Nat × Nat)) : Option Nat :=
  let frozen (k : Nat) : Bool := plotValid (s.plot k).attr && plotFrozen (s.plot k).attr
  (ps.flatMap fun p => (List.range ((p.1 % 4096 + p.2 + 4095) / 4096)).map fun i => p.1 - p.1 % 4096 + 4096 * i).find? fun k => !frozen k

/-- Faults the Thresher finds before any fill, with their place. -/
def sortFault (s : State) (q : SortReq) : Option (FaultCode × Nat) :=
  let src := q.keys ++ q.pays
  let out := [keyIn q.payOut 0, keyIn q.tabOut 0]
  let spoilt (p : Nat × Nat) : Option Nat := if retiredAt s p.1 then some p.1 else s.hasUe p.1 p.2
  match src.find? (fun p => s.dead (s.homeDie p.1)), src.findSome? spoilt, sourceUnfrozen s src,
    (elemsOf 2 (readPieces s q.keys) q.n).find? (fun k => keyPresent k && decide (2 ^ q.kb ≤ k)),
    out.find? (fun k => decide ((s.plot k).gran < 8)) with
  | some p, _, _, _, _ => some (.linkLost, p.1)
  | none, some k, _, _, _ => some (.memUe, k)
  | none, none, some k, _, _ => some (.unfrozenRead, k)
  | none, none, none, some _, _ => some (.illegal, keyIn q.keys 0)
  | none, none, none, none, some k => some (.kindMismatch, k)
  | none, none, none, none, none => none

/-- THRESHER_SORT: a stable sort by key; every output tile is filled whole, and each fill is acknowledged to the carter, also when a
die reset of the issuer has discarded the copy that waits for it (R333). -/
def execThresherSort (q : SortReq) (s : State) : Out :=
  let core := q.req.slot.coreKey
  match sortFault s q with
  | some (c, k) => .next (s.post granaryDie (dieOfCore core) (.acknowledgement ⟨q.req, 1, .job q.job, gaOf s k, some c⟩))
  | none =>
    let ks := elemsOf 2 (readPieces s q.keys) q.n
    let ps := elemsOf q.pw (readPieces s q.pays) q.n
    let pay := (sortPairs ks ps).flatMap fun x => bytesOf q.pw x.2
    let s := match jobOf s core q.job with
      | some j => setJob s core { j with notifies := sortTiles s q }
      | none => s
    let s := sortFills s q q.payOut (if q.pw = 8 then 7 else 6) pay
    .next (sortFills s q q.tabOut 6 (sortTable q.kb ks))

end Sys2Proof.Machine
end

