-- ==== Sys2Proof/Machine/Gleaner.lean ====
section
/-! DEFINITION. Binding records and capsules to slots (R36, R375, R381-R384, R45), reservations and moves of capsules
(R132, R134), spilled records (R39), the budget refill (R386), and channel changes from other cores (R43). -/

namespace Sys2Proof.Machine

/-! ## The state of a slot at bind (R36) -/

/-- S1: the task frame (R56). -/
def frameSeg (slot frame : Nat) : BitVec 128 := mkSeg frame false false true true (0x20000 + 0x8000 * slot)

/-- S7: the lane store of a slot or lane, or the launch's default (R57). -/
def laneSeg (s : State) (l : Launch) (r : SlotRef) (lane : Nat) : BitVec 128 :=
  if l.lsbytes = 0 then l.seg 5
  else
    let n := if !l.lsspace then r.slot else if l.repro then lane else l.indexOf s r
    mkSeg l.lsbytes l.lsspace false true true (l.lsbase + n * l.lsbytes)

/-- Write the launch's copies of places 3-7 for a slot (R80). -/
def bindTables (s : State) (l : Launch) (r : SlotRef) : State :=
  (List.range 5).foldl (fun s k =>
    s.stores (localKey r.coreKey (tableOff r.slot (3 + k))) (l.tables.getD k (List.replicate 1024 0))) s

/-- The visible state of a fresh task, before its arguments. The slot keeps copies that an earlier task placed. -/
def freshTask (s : State) (l : Launch) (r : SlotRef) (lane : Nat) : Slot :=
  { Slot.empty with
    occupied := true
    task := s.nextTask
    launch := l.num
    lane := lane
    s := #v[l.seg 0, frameSeg r.slot l.frame, 0, l.seg 1, l.seg 2, l.seg 3, l.seg 4, laneSeg s l r lane]
    rmode := BitVec.ofNat 64 (l.rm % 16)
    fa := BitVec.ofNat 64 (l.fab 0 % 8)
    fb := BitVec.ofNat 64 (l.fab 1 % 8)
    fs := BitVec.ofNat 64 (l.fab 2 % 16)
    cw := Vector.ofFn fun k => l.windows.getD k.val 0
    frame := l.frame
    mailbox := (s.slot r).mailbox
    readyAt := s.cycle + 8
    since := l.since }

/-- Default segments that overlap another slot's fault the task before its first fetch (R199). -/
def bindOverlap (s : State) (r : SlotRef) : Bool :=
  let x := s.slot r
  isRepro s x.launch && ([x.s[4], x.s[5], x.s[6], x.s[7]].any fun g =>
    segWr g && !segSpace g && overlapHit s r (segBase g) (segLimit g))

/-- A sleeping cluster wakes; its structures are emptied before its next translation (R401). -/
def wakePort (s : State) (c : Nat) : State :=
  let p := s.port c
  if p.asleep then s.setPort c { p with asleep := false, stale := true } else s

/-- Bind a task to a slot. -/
def bindTask (s : State) (l : Launch) (r : SlotRef) (lane : Nat) (f : Slot → Slot) : State :=
  let s := settleBudget (wakePort s r.clusterKey) r.coreKey
  let s := bindTables { s.setSlot r (f (freshTask s l r lane)) with nextTask := s.nextTask + 1 } l r
  if bindOverlap s r then faultTask s r .segOverlap { Detail.zero with pc := (s.slot r).pc } else s

def setArgs (x : Slot) (args : List Word) : Slot := { x with g := Vector.ofFn fun k => args.getD k.val 0 }

/-- The arguments of a record. -/
def recordTask (c : Record) (x : Slot) : Slot :=
  setArgs { x with pc := c.entry, key := c.key, since := c.since } [c.arg0, c.arg1, c.arg2, c.arg3, c.data, c.key]

/-! ## Which slots a launch may take (R375, R381, R383) -/

/-- A launch whose work binds: running, with every saved context restored (R418), on a die that takes part (R422). -/
def mayBind (s : State) (l : Launch) (r : SlotRef) : Bool :=
  decide (l.phase = .running) && l.saved.isEmpty && !s.absent r.die && !(s.slot r).occupied

/-- A free slot that a capsule of a launch may take; its lane. -/
def capsuleSlot (s : State) (l : Launch) (core : Nat) : Option (SlotRef × Nat) :=
  ((List.range 8).map (refOf core)).findSome? fun r =>
    if !(mayBind s l r && l.binds s core) then none
    else if l.repro then (l.slotLane s r).map fun lane => (r, lane)
    else if s.reservedTo r = none then some (r, 0)
    else none

/-- Ready capsules of a core that can bind now, in arrival order, with their launch. -/
def bindable (s : State) (core : Nat) : List (BitVec 2 × Launch × SlotRef × Nat) :=
  ((s.core core).arrivals.filter fun b => decide ((s.core core).berth b = .ready)).filterMap fun b =>
    match s.launch (capField s core b 24 2) with
    | some l => (capsuleSlot s l core).map fun x => (b, l, x.1, x.2)
    | none => none

def capPri (s : State) (core : Nat) (b : BitVec 2) : Nat := chanPri (s.chan core (capChannel s core b))

/-- The ready capsule of highest PRI; among equals the first to arrive (R45). -/
def nextCapsule (s : State) (core : Nat) : Option (BitVec 2 × Launch × SlotRef × Nat) :=
  match bindable s core with
  | [] => none
  | x :: t => some (t.foldl (fun m y => if capPri s core m.1 < capPri s core y.1 then y else m) x)

/-- Start the task of a capsule (R36, R300): CURSOR moves past the step, S2 is the berth, the base priority is the
channel's. -/
def bindCapsule (s : State) (core : Nat) (b : BitVec 2) (l : Launch) (r : SlotRef) (lane : Nat) : State :=
  let k := capField s core b 26 1
  let step := capStepAt s core b k
  let tb := capField s core b 4 4
  let id := BitVec.ofNat 64 (capField s core b 16 8)
  let e := s.chan core (capChannel s core b)
  let s := setCapField s core b 26 1 (k + 1)
  let s := s.modCore core fun c => { c.setBerth b .held with arrivals := c.arrivals.filter (· ≠ b) }
  bindTask s l r lane fun x =>
    { (setArgs { x with pc := BitVec.ofNat 64 (chanEntry e) }
        [BitVec.ofNat 64 (bitsOf step 15 0), BitVec.ofNat 64 k, id, BitVec.ofNat 64 tb]).setS 2 (berthSeg b tb) with
      capsule := some b, capStep := some k, prio := BitVec.ofNat 2 (chanPri e) }

/-- Examine one arrival (R44): back to its origin, held, bound at once to a free slot, or ready. -/
def examine (s : State) (core : Nat) (b : BitVec 2) : State :=
  let e := s.chan core (capChannel s core b)
  if !chanValid e ∨ chanLaunch e ≠ capField s core b 24 2 then turnBack .capsuleChannel core s b
  else if chanBlk e then s.modCore core fun c => c.setBerth b .pending
  else match s.launch (capField s core b 24 2) with
    | none => s.modCore core fun c => c.setBerth b .ready
    | some l => match capsuleSlot s l core with
      | some x => bindCapsule s core b l x.1 x.2
      | none => s.modCore core fun c => c.setBerth b .ready

/-- The earliest arrival not yet examined. -/
def nextArrival (s : State) (core : Nat) : Option (BitVec 2) :=
  (s.core core).arrivals.find? fun b => decide ((s.core core).berth b = .arrived)

/-- GLEANER_BIND: the gleaner binds a ready capsule for which a slot has become free (R45), or else examines the next arrival
(R44). -/
def execGleanerBind (core : Nat) (s : State) : Out :=
  match nextCapsule s core with
  | some (b, l, r, lane) => .next (bindCapsule s core b l r lane)
  | none => match nextArrival s core with
    | some b => .next (examine s core b)
    | none => .next s

/-! ## Records (R381, R382) -/

/-- A free slot that a throughput record may take: unreserved, and no ready capsule of the core can take it. -/
def recordSlotOk (s : State) (l : Launch) (r : SlotRef) : Bool :=
  mayBind s l r && l.binds s r.coreKey && decide (s.reservedTo r = none) && (bindable s r.coreKey).isEmpty

/-- Cores of a cluster in search order (R382). -/
def coreOrder (s : State) (cluster : Nat) : List Nat :=
  let start := match SMap.get s.lastCore none cluster with | some k => k + 1 | none => 0
  (List.range 16).map fun i => cluster * 16 + (start + i) % 16

/-- The slot a record can bind to now. -/
def recordSlot (s : State) (cluster : Nat) (c : Record) : Option (Launch × SlotRef) :=
  match s.launch c.launch with
  | none => none
  | some l =>
    if l.repro then
      match l.laneSlot s c.lane with
      | some r =>
        let waits := (s.core r.coreKey).arrivals.any fun b =>
          decide ((s.core r.coreKey).berth b = .ready) && decide (capField s r.coreKey b 24 2 = c.launch)
        if mayBind s l r && !waits then some (l, r) else none
      | none => none
    else ((coreOrder s cluster).flatMap fun k => (List.range 8).map (refOf k)).findSome? fun r =>
      if recordSlotOk s l r then some (l, r) else none

/-- The oldest record of a queue that can bind, with its place; one in a cycle (R381). -/
def nextRecord (s : State) (cluster : Nat) : Option (Nat × Record × Launch × SlotRef) :=
  if SMap.get s.boundAt none cluster = some s.cycle then none
  else (s.queue cluster).zipIdx.findSome? fun x => (recordSlot s cluster x.1).map fun y => (x.2, x.1, y.1, y.2)

/-- RECORD_BIND. -/
def execRecordBind (cluster : Nat) (s : State) : Out :=
  match nextRecord s cluster with
  | none => .next s
  | some (i, c, l, r) =>
    let s := s.setQueue cluster ((s.queue cluster).eraseIdx i)
    let s := { s with lastCore := SMap.put s.lastCore cluster (some r.core), boundAt := SMap.put s.boundAt cluster (some s.cycle) }
    .next (bindTask s l r c.lane (recordTask c))

/-- The first spilled record of a die whose queue has room (R39). -/
def nextSpilled (s : State) (die : Nat) : Option (Nat × Nat × Record) :=
  (s.die die).spill.zipIdx.findSome? fun x =>
    if (s.queue x.1.1).length < 256 ∧ !s.absent (x.1.1 / 512) then some (x.2, x.1.1, x.1.2.1) else none

/-- A launch that has not been torn down. -/
def standing (s : State) (n : Nat) : Bool :=
  match s.launch n with | some l => decide (l.phase ≠ .tearing) | none => false

/-- SPILL_RETURN: a spilled record goes back to its cluster queue; one of a launch that is gone is discarded (R391). -/
def execSpillReturn (die : Nat) (s : State) : Out :=
  match nextSpilled s die with
  | none => .next s
  | some (i, cluster, c) =>
    let s := s.modDie die fun d => { d with spill := d.spill.eraseIdx i }
    if standing s c.launch then .next (s.setQueue cluster (s.queue cluster ++ [c])) else .next s

/-- A core whose budget is due a refill (R386). -/
def refillDue (s : State) (core : Nat) : Bool := decide ((s.core core).refills < s.cycle / 1024)

/-- A refill changes what the core can charge: its counter is below the cap, or a claim waits. -/
def refillMatters (s : State) (core : Nat) : Bool :=
  let c := s.core core
  !s.dead (dieOfCore core) && (!c.claims.isEmpty || decide (c.budget < 65535))

/-- BUDGET_REFILL: the counter rises by A, or is held at its cap where no limit applies (R386, R468). -/
def execBudgetRefill (core : Nat) (s : State) : Out :=
  .next (if refillDue s core then s.setCore core (refilled s core) else s)

/-! ## Reservations (R132, R134) -/

/-- A step whose place names a present package, die, cluster and core that takes capsules. An ANY step to a cluster none of whose
cores takes capsules would wait for ever by R132 and names a core that takes none by R134: the model turns it back (log 35). -/
def placeOk (s : State) (step : Word) : Bool :=
  decide (bitsOf step 29 16 = 0) && decide (bitsOf step 63 54 = s.pkgid) &&
  (if stepAny step then (List.range 16).any fun k => s.takesCapsules (stepCluster step * 16 + k)
   else s.takesCapsules (stepCore step))

/-- The least-numbered core of a cluster that has a free berth and takes capsules. -/
def anyCore (s : State) (cluster : Nat) : Option Nat :=
  ((List.range 16).map fun k => cluster * 16 + k).find? fun c => s.takesCapsules c && (s.core c).freeBerth.isSome

/-- A capsule that still waits in its berth to leave. -/
def leaving (s : State) (core berth : Nat) : Bool := decide ((s.core core).berth (BitVec.ofNat 2 berth) = .leaving)

/-- Turn a capsule back where it waits. -/
def refuse (s : State) (p : ReservePkt) (code : FaultCode) : State :=
  if leaving s p.src p.berth then returnCapsule s p.src (BitVec.ofNat 2 p.berth) code none else s

/-- BERTH_RESERVATION: granted, kept until a berth frees, or refused. `born` numbers the requests by the time they begin to wait. -/
def execBerthReservation (p : ReservePkt) (s : State) : Out :=
  let p := { p with born := s.xid }
  if s.absent (bitsOf p.step 53 50) ∧ bitsOf p.step 63 54 = s.pkgid then .next (refuse s p .capsuleReset)
  else if !placeOk s p.step then .next (refuse s p .capsulePlace)
  else if stepAny p.step then
    match anyCore s (stepCluster p.step) with
    | some c => match (s.core c).freeBerth with
      | some b => .next (grantTo s c b (.capsule p))
      | none => .next s
    | none => .next { s with anyAsks := s.anyAsks ++ [p], xid := s.xid + 1 }
  else
    let c := stepCore p.step
    .next (grantBerths c 1 (s.modCore c fun x => { x with asks := x.asks ++ [.capsule p] }))

/-- BERTH_GRANT: the capsule leaves for its reserved berth and frees its own; a grant for a capsule that is gone frees the
reserved berth. -/
def execBerthGrant (p : GrantPkt) (s : State) : Out :=
  if leaving s p.src p.berth then
    let b := BitVec.ofNat 2 p.berth
    let bytes := s.loads (berthKey p.src p.berth) 16640
    let s := s.post (dieOfCore p.src) (dieOfCore p.dst) (.capsuleTransfer ⟨p.src, p.dst, p.dstBerth, bytes⟩)
    .next (freeBerth s p.src b)
  else .next (freeBerth s p.dst (BitVec.ofNat 2 p.dstBerth))

/-- CAPSULE_TRANSFER: the capsule stands in its berth and joins the arrivals of its core; one of a launch that is gone is
discarded (R44, R370). -/
def execCapsuleTransfer (p : CapsulePkt) (s : State) : Out :=
  let b := BitVec.ofNat 2 p.dstBerth
  if !standing s (fieldOf p.bytes 24 2) then .next (freeBerth s p.dst b)
  else
    let s := s.stores (berthKey p.dst p.dstBerth) p.bytes
    .next (s.modCore p.dst fun c => { c.setBerth b .arrived with arrivals := c.arrivals ++ [b] })

/-- Entries of the capsule fault queue (R134). -/
def cfqPlaces : Nat := 1024
def cfqKey (die k : Nat) : Nat := hbmKey die (0xBC4000000 + 16640 * k)

/-- The image as the queue holds it (R134, R405): RETURNED set, FAULT the code and the step. -/
def returnedImage (p : ReturnPkt) : List Byte :=
  if p.req.isSome then p.bytes
  else patch (patch p.bytes 2 (bytesOf 2 1)) 28 (bytesOf 4 (codeNum p.code + 256 * fieldOf p.bytes 26 1))

/-- The record that names a queue entry (R134, R405); SYNC is that of the fault it follows, which R405 does not give (log 60). -/
def returnRecord (s : State) (p : ReturnPkt) (k : Nat) : FaultRec :=
  let r := match p.req with
    | some q => recordOf s q 0 true p.code { Detail.zero with arg := BitVec.ofNat 64 k }
    | none => recordFor p.launch 0 p.code none none (BitVec.ofNat 64 k)
  { r with flags := r.flags + 8 }

/-- The berth that a return has held is free. -/
def freeSource (s : State) (p : ReturnPkt) : State :=
  match p.src with
  | some (core, b) => freeBerth s core (BitVec.ofNat 2 b)
  | none => s

/-- Write a return to the queue of a die. -/
def writeReturn (s : State) (die : Nat) (p : ReturnPkt) : State :=
  let d := s.die die
  let k := (d.cfqHead + d.cfqHeld) % cfqPlaces
  let s := s.stores (cfqKey die k) (returnedImage p)
  let s := s.setDie die { d with cfqHeld := d.cfqHeld + 1 }
  freeSource (s.record die (returnRecord s p k)) p

/-- The die whose queue takes a capsule: its origin, or when that was reset the lowest surviving die of its launch (R421). -/
def returnDie (s : State) (p : ReturnPkt) : Option Nat :=
  let origin := fieldOf p.bytes 8 8 / 2 ^ 49 % 16
  if !s.dead origin then some origin
  else match s.launch p.launch with
    | some l => (List.range 16).find? fun d => decide (l.dies / 2 ^ d % 2 = 1) && !s.dead d
    | none => none

/-- CAPSULE_RETURN: the capsule enters the fault queue with a record; a full queue holds it in its berth and puts the die
in fault hold, and so does a record without room hold it (R134, R410). One of a launch that was torn down is discarded (R370). -/
def execCapsuleReturn (p : ReturnPkt) (s : State) : Out :=
  if !standing s p.launch then .next (freeSource s p)
  else match returnDie s p with
    | none => .next (freeSource s p)
    | some die =>
      if (s.die die).cfqHeld < cfqPlaces ∧ s.hasRoom die ∧ (s.die die).returns = [] then .next (writeReturn s die p)
      else
        let t := s.modDie die fun d => { d with returns := d.returns ++ [p] }
        .next (if (s.die die).cfqHeld < cfqPlaces then t else t.enterHold die)

/-- Returns waiting for a queue that has room again (R410, R412). -/
def drainReturns (die : Nat) : Nat → State → State
  | 0, s => s
  | n + 1, s =>
    match (s.die die).returns with
    | [] => s
    | p :: t =>
      if (s.die die).cfqHeld < cfqPlaces ∧ s.hasRoom die then
        drainReturns die n (writeReturn (s.modDie die fun d => { d with returns := t }) die p)
      else s

/-! ## Channel changes (R43) -/

/-- CHANNEL_CHANGE: the change takes effect at the gleaner and is acknowledged (R295-R297). -/
def execChannelChange (p : ChanPkt) (s : State) : Out :=
  let r := applyChan s p.req.launch p.core p.chan p.op
  match p.ack with
  | some a => .next (r.2.ack (dieOfCore p.core) p.req p.xid a (localKey p.core 0) r.1)
  | none => .next r.2

end Sys2Proof.Machine
end

