-- ==== Sys2Proof/Machine/Translate.lean ====
section
/-! DEFINITION. The port walker, page requests, shoot-downs and sleeping clusters (R393-R404). -/

namespace Sys2Proof.Machine

/-! ## Translation entries (R394, R395) -/

def pteV (e : Word) : Bool := bitOf e 0
def pteLeaf (e : Word) : Bool := bitOf e 1
/-- {RD, WR, EX} in bits 0-2. -/
def pteRights (e : Word) : Nat := bitsOf e 4 2
def pteLat (e : Word) : Bool := bitOf e 8
def ptePolicy (e : Word) : Nat := bitsOf e 10 9
def pteFrame (e : Word) : Word := e &&& ~~~(0xFFFF : Word)

/-- Bits of a table's index at a level. -/
def walkIndex (lvl va : Nat) : Nat :=
  match lvl with
  | 0 => va / 2 ^ 42 % 2 ^ 14
  | 1 => va / 2 ^ 29 % 2 ^ 13
  | _ => va / 2 ^ 16 % 2 ^ 13

/-- Control units that exist (R23). -/
def unitExists (u : Nat) : Bool :=
  decide (u ≤ 0x10) || (decide (0x18 ≤ u) && decide (u ≤ 0x21)) || decide (u = 0x3F)

/-- A GA that R22-R24 and R28 allow an entry to name; a control unit is no fault of the entry (R24). -/
def frameOk (s : State) (ga : Word) : Bool :=
  let k := gaKey ga
  decide (gaPkg ga = s.pkgid) && !reservedKey k &&
  (coordsOk (keyRegion k) (keyOff k) ||
    (decide (keyRegion k = 6) && unitExists (keyOff k / 2 ^ 42) && decide (keyOff k / 2 ^ 24 % 2 ^ 18 = 0)))

/-- R395. -/
def malformed (s : State) (e : Word) (lvl : Nat) : Bool :=
  let f := pteFrame e
  decide (bitsOf e 15 11 ≠ 0) || decide (bitsOf e 7 5 ≠ 0) || decide (2 ≤ ptePolicy e) ||
  (pteLat e && decide (ptePolicy e ≠ 0)) || (!pteLeaf e && decide (lvl = 2)) ||
  (pteLeaf e && decide (lvl = 0) && decide (bitsOf f 41 16 ≠ 0)) ||
  (pteLeaf e && decide (lvl = 1) && decide (bitsOf f 28 16 ≠ 0)) ||
  !frameOk s f || (!pteLeaf e && s.isLattice (gaKey f))

/-! ## The walk -/

/-- Causes of a page request (R402). -/
def causeNotPresent : Nat := 0
def causeRights : Nat := 1
def causeMalformed : Nat := 2

/-- How a walk ends: a leaf, a page request, or a fault of the table's home. -/
inductive WalkEnd where
  | leaf (e : Word) (lvl : Nat)
  | page (cause : Nat)
  | lost (ga : Word)
  /-- a table word with an uncorrectable error (R395) -/
  | spoilt (key : Nat)
  deriving DecidableEq, Repr

/-- Walk from table `t` of level `lvl`; the tables passed come back with their levels. R395 does not say what a walk does whose table
lies in the reserved local memory of a core (R25) or in a control unit of region 6 (R24): the model takes no fault and reads the
bytes of memory there, which are zero in region 6 and so an entry that is not present (log 51). -/
def walkFrom (s : State) (need va : Nat) : Nat → Nat → Word → WalkEnd × List (Nat × Word)
  | 0, _, _ => (.page causeMalformed, [])
  | n + 1, lvl, t =>
    let k := gaKey t + 8 * walkIndex lvl va
    if !frameOk s (gaOf s k) ∨ gaPkg t ≠ s.pkgid then (.page causeMalformed, [])
    else if s.dead (s.homeDie k) then (.lost (gaOf s k), [])
    else if s.isRetired k ∨ (s.hasUe k 8).isSome then (.spoilt k, [])
    else
      let e := s.loadWord k
      if !pteV e then (.page causeNotPresent, [])
      else if malformed s e lvl then (.page causeMalformed, [])
      else if pteLeaf e then (if rightsOk need (pteRights e) then .leaf e lvl else .page causeRights, [])
      else
        let r := walkFrom s need va n (lvl + 1) (pteFrame e)
        (r.1, (lvl, pteFrame e) :: r.2)

/-- A whole walk from the root of a launch. -/
def walkRoot (s : State) (troot : Word) (need va : Nat) : WalkEnd × List (Nat × Word) := walkFrom s need va 3 0 troot

/-- The leaf of a translation entry. -/
def leafOf (launch va : Nat) (e : Word) (lvl : Nat) : Leaf where
  launch := launch
  level := lvl
  va := va / 2 ^ pageBits lvl * 2 ^ pageBits lvl
  rights := pteRights e
  frame := (pteFrame e).toNat
  lat := pteLat e
  policy := ptePolicy e

/-- R397, on the frame that holds an address. A GA that no task reaches is judged with the whole access at step 4 of R392; one that a
lattice instruction may not name takes its PROT here where the leaf disagrees with the frame, which keeps it out of the TLB (R398), and
at step 4 otherwise. -/
def frameFault (s : State) (l : Leaf) (va : Nat) (space : Option Bool) : Option FaultCode :=
  let ga : Word := BitVec.ofNat 64 (leafGa l va)
  let k := gaKey ga
  let fault (c : FaultCode) : Option FaultCode := some (if gaBarred s space ga then .prot else c)
  if !gaValid s ga then none
  else if s.isRetired k then fault .memUe
  else if s.isLattice k ≠ l.lat ∨ bitsOf (s.attr k) 2 1 ≠ l.policy then fault .mapAttr
  else if l.policy = 1 ∧ l.rights / 2 % 2 = 1 then fault .mapAttr
  else if gaBarred s space ga then none
  else if space = some (!s.isLattice k) then some .mapAttr
  else none

/-! ## The port's structures (R398, R401) -/

/-- Add an entry to a structure of `places`; a full one gives up one of its own (log 12). -/
def putVictim {α : Type} (places draw : Nat) (l : List α) (x : α) : List α :=
  if l.length < places then l ++ [x] else l.eraseIdx (Config.victim draw % l.length) ++ [x]

def tlbPlaces : Nat := 512
def walkPlaces : Nat := 64

/-- A port with another list of leaves; those that leave it may have been used by accesses under way (R400). -/
def Port.withTlb (p : Port) (l : List Leaf) : Port :=
  { p with tlb := l, past := (p.past ++ p.tlb.filter fun e => !l.contains e).dedup }

/-- Fill the TLB, replacing a leaf for the same page. -/
def fillTlb (s : State) (c : Nat) (e : Leaf) : State :=
  let p := s.port c
  let rest := p.tlb.filter fun x => ¬ (x.launch = e.launch ∧ x.level = e.level ∧ x.va = e.va)
  { s.setPort c (p.withTlb (putVictim tlbPlaces s.draws rest e)) with draws := s.draws + 1 }

/-- Keep the tables a walk passed. -/
def fillWalks (s : State) (c launch va : Nat) (ts : List (Nat × Word)) : State :=
  ts.foldl (fun s t =>
    let p := s.port c
    let e : NonLeaf := ⟨launch, t.1, va / 2 ^ pageBits t.1 * 2 ^ pageBits t.1, t.2.toNat⟩
    if p.walks.contains e then s
    else { s.setPort c { p with walks := putVictim walkPlaces s.draws p.walks e } with draws := s.draws + 1 }) s

/-- The deepest table of a walk that the walk cache holds. -/
def cachedTable (p : Port) (launch va : Nat) : Option (Nat × Word) :=
  ([1, 0] : List Nat).findSome? fun lvl =>
    (p.walks.find? fun e => e.launch = launch ∧ e.level = lvl ∧ va / 2 ^ pageBits lvl = e.va / 2 ^ pageBits lvl).map
      fun e => (lvl + 1, BitVec.ofNat 64 e.table)

/-- A cluster that has slept empties its structures before its first translation (R401). -/
def freshPort (p : Port) : Port := if p.stale then Port.reset else p

/-! ## Answers of a walk -/

/-- The walk of a task ends: an answer with transaction 0, for a parked or saved task (R402, R417). -/
def walkAnswer (s : State) (r : SlotRef) (task launch : Nat) (code : Option FaultCode) (ga va : Word) : State :=
  wakeTask s ⟨r, task, launch, 0, 0⟩ fun x => { x with answers := x.answers ++ [⟨0, code, ga, va, 0, []⟩] }

/-- Go on, or stop with a fault. -/
def walkDone (s : State) (q : WalkReq) (code : Option FaultCode) (ga : Word) : State :=
  match q.who with
  | .task r task => walkAnswer s r task q.launch code ga q.va
  | .job core id =>
    match jobOf s core id with
    | none => s
    | some j =>
      match code with
      | none => setJob s core { j with waiting := false }
      | some c =>
        if j.code.isSome then setJob s core { j with waiting := false }
        else copyFault s core { j with waiting := false } c (some q.va) (some ga)

/-! ## Page requests (R402, R403) -/

def pagePlaces : Nat := 256

/-- The party of a walk as its record names it. -/
def walkParty (s : State) (q : WalkReq) : Requester × Word :=
  match q.who with
  | .task r task =>
    match taskOf s ⟨r, task, q.launch, 0, 0⟩ with
    | some x => (⟨r, task, q.launch, x.key, if isRepro s q.launch then BitVec.ofNat 32 x.lane else BitVec.allOnes 32⟩,
        (x.parks.head?.map Park.pc).getD x.pc)
    | none => (⟨r, task, q.launch, 0, BitVec.allOnes 32⟩, 0)
  | .job core id =>
    match jobOf s core id with
    | some j => (j.copy.req, 0)
    | none => (⟨refOf core 0, 0, q.launch, 0, BitVec.allOnes 32⟩, 0)

/-- The record of a page request: CLASS 2, the cause and the rights needed in ARG. -/
def pageRecord (s : State) (q : WalkReq) (cause : Nat) : FaultRec :=
  let p := walkParty s q
  recordOf s p.1 2 false .page ⟨p.2, some q.va, none, BitVec.ofNat 64 (cause + 4 * q.need)⟩

/-- PAGE_REQUEST: join the entry of the page, take a free one with its record, or wait for a place. -/
def pageRequest (s : State) (die : Nat) (q : WalkReq) (cause : Nat) : State :=
  let d := s.die die
  if d.pages.any fun e => e.page = q.va then
    s.setDie die { d with pages := d.pages.map fun e => if e.page = q.va then { e with who := e.who ++ [q] } else e }
  else if d.pages.length < pagePlaces ∧ s.hasRoom die then
    (s.setDie die { d with pages := d.pages ++ [⟨d.nextSeq, q.launch, q.va, cause, q.need, [q]⟩] }).record die (pageRecord s q cause)
  else s.setDie die { d with pageWait := d.pageWait ++ [⟨0, q.launch, q.va, cause, q.need, [q]⟩] }

/-- Requests that found no place try again. -/
def retryPages (s : State) (die : Nat) : State :=
  let waiting := (s.die die).pageWait
  let s := s.modDie die fun d => { d with pageWait := [] }
  waiting.foldl (fun s e => e.who.foldl (fun s q => pageRequest s die q e.cause) s) s

/-- Retire the frame of a key: its attribute word and every plot entry of the frame (R413). -/
def retireFrame (s : State) (k : Nat) : State :=
  let f := k / 2 ^ 16
  if keyRegion k = 0 ∨ keyRegion k = 5 then s
  else
    let s := { s with frameAttr := SMap.set s.frameAttr 0 f (SMap.get s.frameAttr 0 f ||| 8) }
    (List.range 16).foldl (fun s i =>
      let j := f * 16 + i
      let p := SMap.get s.plots Plot.reset j
      { s with plots := SMap.put s.plots j { p with attr := p.attr ||| (1#64 <<< 61) } }) s

/-- Whether a walk's party still waits for it. -/
def walkWanted (s : State) (q : WalkReq) : Bool :=
  match q.who with
  | .task r task => (taskOf s ⟨r, task, q.launch, 0, 0⟩).isSome
  | .job core id => (jobOf s core id).isSome

/-- Faults of step 4 on the pages of an access, in their order: those a walk found, and those of pages in the TLB. -/
def pageFaults (s : State) (q : WalkReq) : List (FaultCode × Nat × Word) :=
  q.pages.filterMap fun p =>
    match q.bad.find? fun x => x.2.1 = p.toNat with
    | some x => some x
    | none => (s.xlate1 q.cluster q.launch p.toNat q.need).bind fun ga => (gaFault s q.space ga).map fun c => (c, p.toNat, ga)

/-- A page of the access whose walk is still to be made. -/
def nextPage (s : State) (q : WalkReq) : Option Word :=
  q.pages.find? fun p => !(q.bad.any fun x => x.2.1 = p.toNat) && (s.xlate1 q.cluster q.launch p.toNat q.need).isNone

/-- A page has failed at step 4 of R392: that fault is taken once every page of the access is translated. -/
def walkBad (s : State) (q : WalkReq) : State :=
  match nextPage s q with
  | some p => { s with agenda := s.agenda ++ [.translationWalk { q with va := p }] }
  | none => match worstOf (pageFaults s q ++ q.bad) with
    | some (c, va, ga) => walkDone s { q with va := BitVec.ofNat 64 va } (some c) ga
    | none => walkDone s q none 0

/-- TRANSLATION_WALK: the walk fills the port's structures and wakes its party, finds a fault of R397, or makes a page
request (R395, R397, R402). -/
def execTranslationWalk (q : WalkReq) (s : State) : Out :=
  match s.launch q.launch with
  | none => .next s
  | some l =>
    if !walkWanted s q then .next s
    else
      let die := q.cluster / 512
      let va := q.va.toNat
      let s := s.setPort q.cluster (freshPort (s.port q.cluster))
      let r := match cachedTable (s.port q.cluster) q.launch va with
        | some (lvl, t) => walkFrom s q.need va (3 - lvl) lvl t
        | none => walkRoot s (BitVec.ofNat 64 l.troot) q.need va
      let s := fillWalks s q.cluster q.launch va r.2
      match r.1 with
      | .page cause => .next (pageRequest s die q cause)
      | .spoilt k => .next (pageRequest (retireFrame s k) die q causeMalformed)
      | .lost ga => .next (walkDone s q (some .linkLost) ga)
      | .leaf e lvl =>
        let f := leafOf q.launch va e lvl
        match frameFault s f va q.space with
        | some c => .next (walkBad s { q with bad := q.bad ++ [(c, va, BitVec.ofNat 64 (leafGa f va))] })
        | none =>
          let s := fillTlb s q.cluster f
          if q.bad = [] then .next (walkDone s q none 0) else .next (walkBad s q)

/-- The open entry that a SEQ names. -/
def pageOf (s : State) (die seq : Nat) : Option PageReq := (s.die die).pages.find? fun e => e.seq = seq

/-- LERR[1]: a command or write was refused (R367). -/
def refuseWrite (s : State) (die : Nat) : State := s.modDie die fun d => { d with lerr := d.lerr ||| 2 }

/-- Free an entry and let waiting requests in. -/
def closePage (s : State) (die seq : Nat) : State :=
  retryPages (s.modDie die fun d => { d with pages := d.pages.filter fun e => e.seq ≠ seq }) die

/-- The page leaves the TLB of a requesting cluster (R403). -/
def dropPage (s : State) (q : WalkReq) : State :=
  let p := s.port q.cluster
  s.setPort q.cluster (p.withTlb (p.tlb.filter fun e =>
    ¬ (e.launch = q.launch ∧ q.va.toNat / 2 ^ pageBits e.level = e.va / 2 ^ pageBits e.level)))

/-- PRESP action 1: every task of the entry is woken and its bundle reissued. -/
def execPrespRetry (die seq : Nat) (s : State) : Out :=
  match pageOf s die seq with
  | none => .next (refuseWrite s die)
  | some e => .next (closePage (e.who.foldl (fun s q => walkDone (dropPage s q) q none 0) s) die seq)

/-- A denied job stops when its record has room. -/
def denyOne (s : State) (q : WalkReq) : State :=
  match q.who with
  | .task r task => walkAnswer s r task q.launch (some .page) 0 q.va
  | .job core id =>
    match jobOf s core id with
    | none => s
    | some j => copyFault s core { j with waiting := false } .page (some q.va) none

/-- PRESP action 2: every task of the entry takes PAGE; a copy stops with status PAGE. -/
def execPrespDeny (die seq : Nat) (s : State) : Out :=
  match pageOf s die seq with
  | none => .next (refuseWrite s die)
  | some e => .next (closePage (e.who.foldl denyOne s) die seq)

/-! ## Shoot-downs (R399-R401) -/

/-- Clusters of a die with an entry, and those that may have one. -/
def awake (s : State) (c : Nat) : Bool := !(s.port c).asleep

/-- Pages that TSVA and TSLEN name: first byte and bytes; none for all. -/
def shootRange (d : Die) : Option (Nat × Nat) :=
  let n := bitsOf d.tslen 31 0
  if n = 0 then none else some (d.tsva.toNat, n * 2 ^ 16)

def shootLaunch (d : Die) (launch : Nat) : Bool :=
  let l := bitsOf d.tslen 47 32
  decide (l = 0) || decide (l = launch)

/-- A leaf that a shoot-down names. -/
def shootHit (d : Die) (e : Leaf) : Bool :=
  let hit := match shootRange d with
    | none => true
    | some (va, n) => decide (va < e.va + 2 ^ pageBits e.level) && decide (e.va < va + n)
  shootLaunch d e.launch && hit

/-- Remove the named leaves and every walk-cache entry of each named launch. -/
def shootPort (d : Die) (p : Port) : Port :=
  { p with
    tlb := p.tlb.filter fun e => !shootHit d e
    past := p.past.filter fun e => !shootHit d e
    walks := p.walks.filter fun e => !shootLaunch d e.launch }

def tsAwaits (d : Die) (c : Nat) : Bool := d.tsWait.any fun x => decide (x.1 = c)

/-- TSGO: the shoot-down goes to every awake cluster of the die. -/
def execTsgo (die : Nat) (s : State) : Out :=
  let d := s.die die
  if d.tsBusy then .next (refuseWrite s die)
  else
    let cs := ((List.range 512).map fun c => die * 512 + c).filter (awake s)
    if cs.isEmpty then .next (s.setDie die { d with tsCount := inc32 d.tsCount })
    else
      let s := s.setDie die { d with tsBusy := true, tsWait := cs.map fun c => (c, 0, []) }
      .next { s with agenda := s.agenda ++ cs.map fun c => .shootDown die c }

/-- SHOOT_DOWN at a cluster: the entries go, and its acknowledgement begins its wait for the accesses that used them, or a named
leaf that had left the TLB before. -/
def execShootDown (die c : Nat) (s : State) : Out :=
  let d := s.die die
  if !tsAwaits d c then .next s
  else
    let gone := ((s.port c).tlb ++ (s.port c).past).filter (shootHit d)
    let s := s.setPort c (shootPort d (s.port c))
    let s := s.setDie die { d with tsWait := d.tsWait.map fun x => if x.1 = c then (c, s.xid, gone) else x }
    .next { s with agenda := s.agenda ++ [.shootDownAck die c] }

/-- A memory access under way: its requester, its transaction and the keys it touches. -/
def accessOf (m : Instr) : Option (Requester × Nat × List Nat) :=
  match m with
  | .storeData p => some (p.req, p.xid, p.parts.map Prod.fst)
  | .loadRequest p => some (p.req, p.xid, p.parts.map Prod.fst)
  | .loadReply p => some (p.req, p.answer.xid, [gaKey p.answer.ga])
  | .joinPacket p => some (p.req, p.xid, [gaKey p.ga])
  | .valueCountRequest p => some (p.req, p.xid, [gaKey p.ga])
  | .thresholdRegistration p => some (p.req, p.xid, [gaKey p.ga])
  | .exactRead p => some (p.req, p.xid, [gaKey p.ga])
  | .plotRequest p => some (p.req, p.xid, [gaKey p.ga])
  | .freezeRequest p => some (p.req, p.xid, [gaKey p.ga])
  | .tileFill p => some (p.req, p.xid, [gaKey p.ga])
  | .acknowledgement p => some (p.req, p.xid, [gaKey p.ga])
  | .wake p => some (p.req, p.answer.xid, [gaKey p.answer.ga])
  | .thresherSort q => some (q.req, 0, (q.keys ++ q.pays ++ q.payOut ++ q.tabOut).map Prod.fst)
  | .copyData core _ ga _ => some (⟨refOf core 0, 0, 0, 0, 0⟩, 0, [gaKey ga])
  | _ => none

/-- An access of a cluster that used a removed leaf and is not complete (R349, R400). -/
def usesLeaf (c bound : Nat) (gone : List Leaf) (a : Requester × Nat × List Nat) : Bool :=
  decide (a.1.slot.clusterKey = c) && decide (a.2.1 < bound) &&
  a.2.2.any fun k => gone.any fun e =>
    decide (e.frame % 2 ^ 54 ≤ k) && decide (k < e.frame % 2 ^ 54 + 2 ^ pageBits e.level)

/-- Addresses that a copy command translates when it issues: those of THRESH, and the trigger of COPYA (R287, R331). -/
def copyKeys (k : CopyKind) : List Nat :=
  match k with
  | .sort a b c d _ _ _ => (a ++ b ++ c ++ d).map Prod.fst
  | .arm _ _ _ loc _ => [gaKey loc]
  | _ => []

/-- Addresses that a park keeps translated: of a copy that waits for its mailbox, and of constants that are being fetched. -/
def parkKeys (p : Park) : List Nat :=
  match p.cond with
  | .copyPlace e => copyKeys e.kind
  | .constants true ws => ws.map Prod.snd
  | _ => []

/-- Accesses that a slot or a core holds translated and has still to make: copies in a mailbox or parked before it, and jobs of the
carter; an arm that has fired needs its trigger no more. -/
def slotHeld (x : Slot) : List (List Nat) := (x.mailbox.map fun e => copyKeys e.kind) ++ x.parks.map parkKeys
def jobHeld (j : Job) : List Nat := match j.copy.kind with | .arm _ _ _ loc _ => if j.armed then [gaKey loc] else [] | k => copyKeys k

/-- The slots that a MACC has still to add, with its transaction (R326). -/
def opHeld (o : MatOp) : Nat × List Nat := (o.entered, (o.gas.drop o.step).map gaKey)

/-- Accesses of a cluster that are translated and not yet made, each with a bound on its transaction. -/
def heldOpen (s : State) (c : Nat) : List (Nat × List Nat) :=
  (List.range 16).flatMap fun k =>
    let core := c * 16 + k
    ((List.range 8).flatMap fun j => (slotHeld (s.slot (refOf core j))).map fun ks => (0, ks)) ++
    ((s.core core).jobs.map fun j => (0, jobHeld j)) ++
    ((s.core core).queue ++ (s.core core).running.toList).map opHeld

/-- Some access that used a removed leaf is not complete: still to be made, under way, waiting at its home, or set aside there. -/
def accessesOpen (s : State) (c bound : Nat) (gone : List Leaf) : Bool :=
  let hit (m : Instr) : Bool := match accessOf m with | some a => usesLeaf c bound gone a | none => false
  ((heldOpen s c).any fun x => usesLeaf c bound gone (⟨refOf (c * 16) 0, 0, 0, 0, 0⟩, x.1, x.2)) ||
  underWay s hit || s.gstore.any hit || (s.dies.any fun d => d.2.store.any hit) ||
  (s.waiters.any fun p => usesLeaf c bound gone (p.req, p.xid, [gaKey p.ga])) ||
  (s.rounds.any fun r => r.reqs.any fun p => usesLeaf c bound gone (p.req, p.xid, [gaKey p.ga]))

/-- SHOOT_DOWN_ACK: once every such access is complete the cluster's acknowledgement is at the root; with every one, BUSY
clears and the count rises. -/
def execShootDownAck (die c : Nat) (s : State) : Out :=
  let d := s.die die
  match d.tsWait.find? fun x => decide (x.1 = c) with
  | none => .next s
  | some (_, bound, gone) =>
    if accessesOpen s c bound gone then .next (s.again (.shootDownAck die c))
    else
      let rest := d.tsWait.filter fun x => x.1 ≠ c
      if rest.isEmpty then .next (s.setDie die { d with tsWait := [], tsBusy := false, tsCount := inc32 d.tsCount })
      else .next (s.setDie die { d with tsWait := rest })

/-- A cluster whose task slots, carter and gleaner are idle (R401). -/
def clusterIdle (s : State) (c : Nat) : Bool :=
  ((List.range 16).all fun k =>
    let core := c * 16 + k
    ((List.range 8).all fun j => !(s.slot (refOf core j)).occupied && (s.slot (refOf core j)).mailbox.isEmpty) &&
    (s.core core).jobs.isEmpty && (s.core core).arrivals.isEmpty) &&
  !tsAwaits (s.die (c / 512)) c

/-- CLUSTER_SLEEP: an idle cluster is put to sleep. -/
def execClusterSleep (c : Nat) (s : State) : Out :=
  if awake s c ∧ clusterIdle s c then .next (s.setPort c { s.port c with asleep := true }) else .next s

/-- CLUSTER_WAKE: it empties its structures before its first translation. -/
def execClusterWake (c : Nat) (s : State) : Out :=
  .next (wakePort s c)

end Sys2Proof.Machine
end

