-- ==== Sys2Proof/Machine/Launches.lean ====
section
/-! DEFINITION. Submissions, expansion, completion, tear-down and release of launches (R41, R366-R377). -/

namespace Sys2Proof.Machine

/-! ## The launch plot and LSTAT (R366, R368) -/

def launchSlots : Nat := 64
def slotPlotKey (die slot : Nat) : Nat := hbmKey die (0xBFFF00000 + 4096 * slot)
def lcountKey (die : Nat) : Nat := hbmKey die 0xBFFF40000

/-- STATE values. -/
def stFree : Nat := 0
def stSubmitted : Nat := 1
def stExpanding : Nat := 2
def stRunning : Nat := 3
def stHalted : Nat := 4
def stComplete : Nat := 5
def stFaulty : Nat := 6
def stRefused : Nat := 7

/-- STATE and CODE of a launch slot. -/
def lstatOf (s : State) (die slot : Nat) : Nat × Nat := SMap.get (s.die die).lstat (0, 0) slot
def setLstat (s : State) (die slot : Nat) (x : Nat × Nat) : State :=
  s.modDie die fun d => { d with lstat := SMap.set d.lstat (0, 0) slot x }
def setLaunchState (s : State) (die slot st : Nat) : State := setLstat s die slot (st, (lstatOf s die slot).2)

/-- Bytes of LWIN s. -/
def windowBytes (d : Die) (slot : Nat) : List Byte := (List.range 4096).map fun i => SMap.get d.lwin 0 (4096 * slot + i)

/-- LSUBMIT (R369): refused with LERR[0], or accepted with a copy of the window. -/
def execLsubmit (die : Nat) (s : State) : Out :=
  if s.dead die then .next s
  else
    let d := s.die die
    let slot := d.lnext % launchSlots
    if (lstatOf s die slot).1 ≠ stFree then .next (s.setDie die { d with lerr := d.lerr ||| 1 })
    else
      let s := s.setDie die { d with lnext := d.lnext + 1, subs := d.subs ++ [(d.lnext, 0, windowBytes d slot)] }
      .next (setLstat s die slot (stSubmitted, 0))

/-- The submission whose next step is a fill or a join: one at a time, in order (R369). -/
def pendingSub (d : Die) : Option (Nat × Nat × List Byte) := d.subs.find? fun x => decide (x.2.1 % 4 < 2)
/-- Advance a submission. -/
def advanceSub (d : Die) (n : Nat) : Die := { d with subs := d.subs.map fun x => if x.1 = n then (x.1, x.2.1 + 1, x.2.2) else x }

/-- SUBMISSION_FILL: the slot plot is filled with the copy, as by FILLT. -/
def execSubmissionFill (die : Nat) (s : State) : Out :=
  match pendingSub (s.die die) with
  | some (n, p, bytes) =>
    if p % 4 = 0 then
      .next ((fillUnit s (slotPlotKey die (n % launchSlots)) 0x0B bytes false).2.modDie die fun d => advanceSub d n)
    else .next s
  | none => .next s

/-- LCOUNT_JOIN: 1 is joined to LCOUNT. -/
def execLcountJoin (die : Nat) (s : State) : Out :=
  match pendingSub (s.die die) with
  | some (n, p, _) =>
    if p % 4 = 1 then
      .next ((performJoin s (lcountKey die) kindCount 7 1).2.modDie die fun d => { advanceSub d n with lcount := d.lcount + 1 })
    else .next s
  | none => .next s

/-! ## Reading through a launch's tables (R372) -/

/-- Why a launch is refused: the code, and the address of a failed read. -/
abbrev Refused := FaultCode × Option Word

/-- Read within one page. -/
def readPage (s : State) (troot : Word) (va n : Nat) : Except Refused (List Byte) :=
  match (walkRoot s troot rightsRd va).1 with
  | .leaf e lvl =>
    let f := leafOf 0 va e lvl
    let ga : Word := BitVec.ofNat 64 (leafGa f va)
    match frameFault s f va none with
    | some .memUe => .error (.memUe, some (BitVec.ofNat 64 va))
    | some _ => .error (.page, some (BitVec.ofNat 64 va))
    | none =>
      if !gaValid s ga ∨ s.dead (s.homeDie (gaKey ga)) then .error (.page, some (BitVec.ofNat 64 va))
      else if (s.hasUe (gaKey ga) n).isSome then .error (.memUe, some (BitVec.ofNat 64 va))
      else .ok (s.loads (gaKey ga) n)
  | .spoilt _ => .error (.memUe, some (BitVec.ofNat 64 va))
  | _ => .error (.page, some (BitVec.ofNat 64 va))

def readPages (s : State) (troot : Word) : List (Nat × Nat) → Except Refused (List Byte)
  | [] => .ok []
  | p :: t => do
    let a ← readPage s troot p.1 p.2
    let b ← readPages s troot t
    return a ++ b

def readVirt (s : State) (troot : Word) (va n : Nat) : Except Refused (List Byte) :=
  if n = 0 then .ok [] else readPages s troot (pieces va n)

def refuseIf (b : Bool) : Except Refused Unit := if b then .error (.illegal, none) else .ok ()

/-! ## The record (R371, R372) -/

/-- A default image: R157, and within its space as SEGLD has it (R189, R198). -/
def imageOk (g : BitVec 128) : Bool :=
  !segReserved g && !(segEx g && segWr g) &&
  decide (segBase g + segLimit g ≤ if segSpace g then 2 ^ 56 else 0x60000)

/-- A core-local lane store lies in the task area and meets no frame of a bound slot. -/
def laneStoreOk (l : Launch) : Bool :=
  l.lsspace || decide (l.lsbytes = 0) ||
  (decide (l.lsbase + 8 * l.lsbytes ≤ 0x60000) &&
    (List.range 8).all fun j => !overlaps l.lsbase (8 * l.lsbytes) (0x20000 + 0x8000 * j) l.frame)

/-- The fields of a record keep R371, R33 and R168. -/
def recordFieldsOk (s : State) (l : Launch) : Bool :=
  let b := l.bytes
  decide (l.troot % 2 ^ 17 = 0) && frameOk s (BitVec.ofNat 64 l.troot) && decide (1 ≤ l.num) &&
  decide (fieldOf b 18 1 < 8) && decide (l.rm < 16) && decide (l.rm % 8 < 6) &&
  decide (1 ≤ l.lanes) && decide (l.lanes ≤ 2 ^ 30) && decide (l.clo ≤ l.chi) && decide (l.chi ≤ 511) &&
  decide (1 ≤ fieldOf b 30 2) && decide (fieldOf b 30 2 ≤ 512) && (decide (l.ebud = 0) || decide (64 ≤ l.ebud)) &&
  decide (1 ≤ l.ngrp) && decide (l.ngrp ≤ 1024) && decide (l.grp0 + l.ngrp ≤ 4096) &&
  decide (fieldOf b 42 6 = 0) && decide (fieldOf b 267 5 = 0) && decide (fieldOf b 285 3811 = 0) &&
  (List.range 6).all (fun k => imageOk (l.seg k)) &&
  (List.range 8).all (fun k => decide (bitsOf (wordOf b (160 + 8 * k)) 62 56 = 0) && decide (bitsOf (wordOf b (160 + 8 * k)) 1 0 = 0)) &&
  (List.range 3).all (fun k => decide (l.fab k < 16)) &&
  decide (l.lsbytes % 64 = 0) && decide (fieldOf b 284 1 < 2)

/-- Bound dies. -/
def Launch.boundDies (l : Launch) : List Nat := (List.range 16).filter fun d => decide (l.dies / 2 ^ d % 2 = 1)

/-- The conditions of R372, R422 and R461 on dies, numbers, groups and slots. -/
def recordPlaceOk (s : State) (l : Launch) : Bool :=
  decide (l.boundDies ≠ []) &&
  l.boundDies.all (fun d => !s.dead d && decide ((s.die d).tdisp = .run)) &&
  (s.live.all fun m => decide (m.num ≠ l.num) && (decide (l.grp0 + l.ngrp ≤ m.grp0) || decide (m.grp0 + m.ngrp ≤ l.grp0))) &&
  (!l.repro || decide (l.lanes ≤ l.ns s)) && laneStoreOk l

/-! ## The object (R168, R373) -/

/-- A section: type, index, virtual address, bytes. -/
structure Section where
  kind : Nat
  index : Nat
  va : Nat
  size : Nat
  deriving DecidableEq, Repr

/-- A section entry of the object at `obj`. -/
def sectionOf (obj : Nat) (e : List Byte) : Section := ⟨fieldOf e 0 1, fieldOf e 1 1, obj + fieldOf e 8 4, fieldOf e 12 4⟩

def sectionOk (e : List Byte) : Bool :=
  let k := fieldOf e 0 1
  let i := fieldOf e 1 1
  decide (1 ≤ k) && decide (k ≤ 8) && decide (fieldOf e 2 6 = 0) && decide (fieldOf e 8 4 % 64 = 0) &&
  (if k = 3 then decide (i < 8) else if k = 4 then decide (3 ≤ i) && decide (i < 8) else decide (i = 0)) &&
  (decide (k ≠ 1) || decide (fieldOf e 12 4 % 64 = 0)) &&
  (decide (k ≠ 5 ∧ k ≠ 7) || decide (fieldOf e 12 4 % 16 = 0)) && (decide (k ≠ 6) || decide (fieldOf e 12 4 % 128 = 0))

def groupsOf (n : Nat) (bs : List Byte) : List (List Byte) := (List.range (bs.length / n)).map fun i => (bs.drop (n * i)).take n

def readObject (s : State) (troot : Word) (obj : Nat) : Except Refused (List Section) := do
  let h ← readVirt s troot obj 32
  let n := fieldOf h 6 2
  refuseIf (decide (fieldOf h 0 4 ≠ 0x44464445) || decide (fieldOf h 4 2 ≠ 1) || decide (n = 0) || decide (64 < n) ||
    decide (fieldOf h 8 24 ≠ 0))
  let es ← readVirt s troot (obj + 32) (16 * n)
  refuseIf (!(groupsOf 16 es).all sectionOk)
  return (groupsOf 16 es).map (sectionOf obj)

/-- The records of every section of a type. -/
def readRecords (s : State) (troot : Word) (size : Nat) : List Section → Except Refused (List (List Byte))
  | [] => .ok []
  | x :: t => do
    let a ← readVirt s troot x.va x.size
    let b ← readRecords s troot size t
    return groupsOf size a ++ b

def plotRecordOk (r : List Byte) : Bool := plotDescOk (wordOf r 8) (fieldOf r 0 8)
def tensorRecordOk (r : List Byte) : Bool := decide (fieldOf r 2 62 = 0) && tValid (r.drop 64)
/-- R42 has an ENTRY of 56 bits in the 8 bytes that R373 gives it: the model refuses a record whose top byte is not zero (log 60). -/
def channelRecordOk (r : List Byte) : Bool :=
  decide (fieldOf r 0 1 < 64) && decide (fieldOf r 1 1 < 4) && decide (fieldOf r 2 6 = 0) && decide (fieldOf r 15 1 = 0)

/-- Read and check the table of a place: zero entries where the launch names none (R80, R81). -/
def readTable (s : State) (troot : Word) (va : Option Nat) : Except Refused (List Byte) :=
  match va with
  | none => .ok (List.replicate 1024 0)
  | some va => do
    let bs ← readVirt s troot va 1024
    if tableOk (tableBytes bs) then return bs else .error (.formatTable, none)

def readTables (s : State) (troot : Word) : List (Option Nat) → Except Refused (List (List Byte))
  | [] => .ok []
  | va :: t => do
    let a ← readTable s troot va
    let b ← readTables s troot t
    return a :: b

/-- The section of a type and index. Where an object has two, neither R80 nor R373 says which one counts: the model takes the first (log 45). -/
def sectionAt (ss : List Section) (kind i : Nat) : Option Section := ss.find? fun x => decide (x.kind = kind ∧ x.index = i)

/-- A constant window: the record's, or the object's (R373). -/
def windowOf (l : Launch) (ss : List Section) (k : Nat) : Word :=
  let w := wordOf l.bytes (160 + 8 * k)
  if w ≠ 0 then w
  else match sectionAt ss 3 k with
    | some x => BitVec.ofNat 64 (2 ^ 63 + x.va % 2 ^ 56 / 4 * 4)
    | none => 0

/-- The address of a place's table: the record's, or the object's, if either names one (R80, R373). -/
def tableAt (l : Launch) (ss : List Section) (p : Nat) : Option Nat :=
  let t := fieldOf l.bytes (224 + 8 * p) 8
  if t ≠ 0 then some t else (sectionAt ss 4 (3 + p)).map Section.va

/-- What step 1 of R374 brings: the launch with its tables and windows, and the records of its object. -/
structure Plan where
  launch : Launch
  plots : List (List Byte)
  tensors : List (List Byte)
  channels : List (List Byte)
  deriving DecidableEq, Repr

/-- A launch as its record gives it. -/
def launchOf (bytes : List Byte) (die slot : Nat) : Launch where
  bytes := bytes
  die := die
  plotSlot := slot
  phase := .running
  count := 0
  faulted := false
  code := 0
  outstanding := 0
  saved := []
  laneStores := []
  laneGiven := []
  check := 0
  areaLen := 0
  plots := []
  tensors := []
  tables := []
  windows := []
  repair := false
  lostDie := false
  made := []
  posted := 0
  since := 0

/-- Every node over the bound cores has a place for the root group; the model refuses the launch where one has none (R335, R426;
log 58). -/
def rootFits (s : State) (l : Launch) : Bool :=
  let cores := l.cores s
  s.fits l.grp0 (treeNodes (((pressTop none cores).map pressLevel).getD 1) cores)

/-- Step 1 of R374. -/
def planOf (s : State) (die slot : Nat) (bytes : List Byte) : Except Refused Plan := do
  let l := launchOf bytes die slot
  refuseIf (!(recordFieldsOk s l && recordPlaceOk s l))
  let troot : Word := BitVec.ofNat 64 l.troot
  let ss ← readObject s troot (fieldOf bytes 0 8)
  let tables ← readTables s troot ((List.range 5).map (tableAt l ss))
  let _ ← readTables s troot ((ss.filter fun x => x.kind = 4).map fun x => some x.va)
  let plots ← readRecords s troot 16 (ss.filter fun x => x.kind = 5)
  let tensors ← readRecords s troot 128 (ss.filter fun x => x.kind = 6)
  let channels ← readRecords s troot 16 (ss.filter fun x => x.kind = 7)
  refuseIf (!(plots.all plotRecordOk && tensors.all tensorRecordOk && channels.all channelRecordOk && rootFits s l))
  return ⟨{ l with tables := tables, windows := (List.range 8).map (windowOf l ss) }, plots, tensors, channels⟩

/-! ## Forming plots and tensors (step 3 of R374) -/

/-- The GA of a plot through the launch's tables with WR rights, and its fault of step 4, as PLOT checks it (R259, R392). -/
def plotPlace (s : State) (l : Launch) (va : Nat) : Except Refused (Word × Option FaultCode) :=
  match (walkRoot s (BitVec.ofNat 64 l.troot) rightsWr va).1 with
  | .leaf e lvl =>
    let f := leafOf l.num va e lvl
    let ga : Word := BitVec.ofNat 64 (leafGa f va)
    .ok (ga, (frameFault s f va (some true)).orElse fun _ => gaFault s (some true) ga)
  | .lost _ => .error (.linkLost, none)
  | _ => .error (.page, none)

/-- The plots of a range, checked before any of them is asked for (R259, R404). -/
def plotRange (s : State) (l : Launch) (vas : List Nat) : Except Refused (List Nat) := do
  if vas.any fun va => decide (va % 4096 ≠ 0) then .error (.align, none) else
  let gas ← vas.mapM (plotPlace s l)
  let ps := vas.zip gas
  match worstOf (ps.filterMap fun p => p.2.2.map fun c => (c, p.1, p.2.1)) with
  | some (c, _) => .error (c, none)
  | none => .ok (gas.map fun p => gaKey p.1)

/-- What the home of a plot answers: it forms the plot or rejects it, and the fault of the lowest that is rejected is kept (R273). -/
def formOne (v : Word) (x : Option Refused × State × List Nat) (k : Nat) : Option Refused × State × List Nat :=
  let (e, s, ks) := x
  let (c, t) := if s.dead (s.homeDie k) then (some .linkLost, s) else plotOne s k v
  match c with
  | some c => (e.orElse fun _ => some (c, none), s, ks)
  | none => (e, t, ks ++ [k])

/-- Virtual addresses of the plots that a record of type 5 names. -/
def recordPlots (r : List Byte) : List Nat :=
  (List.range (bitsOf (wordOf r 8) 31 16 + 1)).map fun i => fieldOf r 0 8 + 4096 * i

/-- PLOT for the records in order; the first that faults ends it, with the plots formed so far (R273, R374). -/
def formPlots (l : Launch) : List (List Byte) → State × List Nat → Except Refused Unit × State × List Nat
  | [], x => (.ok (), x)
  | r :: t, (s, ks) =>
    match plotRange s l (recordPlots r) with
    | .error e => (.error e, s, ks)
    | .ok ps => match ps.foldl (formOne (wordOf r 8)) (none, s, ks) with
      | (some e, x) => (.error e, x)
      | (none, x) => formPlots l t x

def formTensors (rs : List (List Byte)) (s : State) : Except Refused Unit × State × List Nat :=
  rs.foldl (fun x r =>
    match x with
    | (.error e, s, ts) => (.error e, s, ts)
    | (.ok _, s, ts) =>
      let t := fieldOf r 0 2
      match tensorWrite s (BitVec.ofNat 64 t) (r.drop 64) with
      | (some c, _) => (.error (c, none), s, ts)
      | (none, s') => (.ok (), s', ts ++ [t])) (.ok (), s, [])

/-- Freeze plots that are not frozen, as at completion (R377). -/
def freezePlots (s : State) (ks : List Nat) : State := ks.foldl (fun s k => (freezeOne s k).2) s

/-- Delete tensors whose entries are valid, as NTENS with VALID = 0 does (R281, R377). -/
def deleteTensors (s : State) (ts : List Nat) : State :=
  ts.foldl (fun s t => if tValid (s.tensor t) then deleteTensor s t (s.tensor t) else s) s

/-! ## Allotting (steps 2, 4 and 5 of R374) -/

/-- A word of core-local memory that the launch's segments S4-S7, frames or lane stores cover (R193). A word that such a range covers
in part counts as covered, and so does one of a lane store whose slot no lane is given in reproducible mode (log 55). -/
def clearsWord (l : Launch) (off : Nat) : Bool :=
  ([2, 3, 4, 5] : List Nat).any (fun k =>
    let g := l.seg k
    !segSpace g && decide (0 < segLimit g) && decide (segBase g < off + 8) && decide (off < segBase g + segLimit g)) ||
  (List.range 8).any (fun j => decide (0x20000 + 0x8000 * j ≤ off) && decide (off < 0x20000 + 0x8000 * j + l.frame)) ||
  (!l.lsspace && decide (0 < l.lsbytes) && decide (l.lsbase < off + 8) && decide (off < l.lsbase + 8 * l.lsbytes))

/-- Full/empty bits of the launch's words are set empty on every bound core; the earliest put that waits at such a word completes
(R193). -/
def clearBits (s : State) (l : Launch) : State :=
  let puts (c : Core) : List Nat := ((c.banks.filter fun w => !w.take && clearsWord l w.off).map BankWait.off).dedup
  (s.cores.filter fun c => l.binds s c.1).foldl (fun s c => (puts c.2).foldl (fun s off => afterEmpty s c.1 off) s)
    { s with fe := s.fe.filter fun x => !(l.binds s (x.1 / 65536) && clearsWord l (x.1 % 65536 * 8)) }

/-- The constant caches hold no word of a launch when it starts (R151). -/
def clearConsts (s : State) (n : Nat) : State :=
  { s with cores := s.cores.map fun (k, c) => (k, { c with consts := c.consts.filter fun w => w.launch ≠ n }) }

/-- A byte of a core-local lane store of the launch (R57). -/
def inLaneStore (s : State) (l : Launch) (k : Nat) : Bool :=
  let core := localCore k
  let off := localOff k
  decide (keyRegion k = 0) && !l.lsspace && l.binds s core && decide (l.lsbase ≤ off) && decide (off < l.lsbase + 8 * l.lsbytes) &&
  (!l.repro || (l.slotLane s (refOf core ((off - l.lsbase) / l.lsbytes))).isSome)

/-- Zero the mapped pages of a global lane store (log 17). -/
def zeroVirt (s : State) (l : Launch) : List (Nat × Nat) → State
  | [] => s
  | p :: t =>
    match (walkRoot s (BitVec.ofNat 64 l.troot) 0 p.1).1 with
    | .leaf e lvl =>
      let f := leafOf l.num p.1 e lvl
      let ga : Word := BitVec.ofNat 64 (leafGa f p.1)
      if gaValid s ga && !s.isLattice (gaKey ga) then zeroVirt { s with mem := zeroBytes s.mem (gaKey ga) p.2 } l t
      else zeroVirt s l t
    | _ => zeroVirt s l t

/-- The lane stores read as zero at the start of a launch (R57). -/
def zeroLanes (s : State) (l : Launch) : State :=
  if l.lsbytes = 0 then s
  else if l.lsspace then zeroVirt s l (pieces l.lsbase (l.lsbytes * if l.repro then l.lanes else l.ns s))
  else { s with mem := s.mem.filter fun x => !inLaneStore s l x.1 }

/-- A channel entry from a record of type 7 (R42, R373). -/
def channelEntry (l : Launch) (r : List Byte) : BitVec 128 :=
  BitVec.ofNat 128 (l.num * 2 ^ 64 + 2 ^ 63 + fieldOf r 1 1 * 2 ^ 60 + fieldOf r 8 7)

def setChannels (s : State) (l : Launch) (rs : List (List Byte)) : State :=
  (l.cores s).foldl (fun s core => rs.foldl (fun s r => s.setChan core (fieldOf r 0 1) (channelEntry l r)) s) s

/-- Identifiers allotted to a launch. -/
def Launch.owns (l : Launch) (g : Nat) : Bool := decide (l.grp0 ≤ g) && decide (g < l.grp0 + l.ngrp)

/-- The root group, at its identifier's generation and with an entry in each node over the bound cores, and STALE counts from zero
(R48, R344, R426). -/
def makeRootGroup (s : State) (l : Launch) : State :=
  let s := { s with press := s.press.map fun (x : Nat × PressNode) =>
    (x.1, { x.2 with stale := x.2.stale.filter fun y => !l.owns y.1 }) }
  let old := s.group l.grp0
  let cores := l.cores s
  let x : Group := { Group.reset with
    phase := 1, gen := old.gen, launch := l.num, root := true, round := old.round + 1, top := pressTop none cores }
  let slots := cores.flatMap fun k => (List.range 8).map (refOf k)
  slots.foldl (addPath l.grp0 x.gen ((x.top.map pressLevel).getD 1)) (s.setGroup l.grp0 x)

/-! ## Initial records (R376) -/

def initialRecord (l : Launch) (lane : Nat) : Record :=
  ⟨l.entry, BitVec.ofNat 64 lane, 0, 0, 0, 0, 0, l.num, if l.repro then lane else 0, l.since⟩

/-- The queue of an initial record: its lane's slot, or the clusters in turn. -/
def initialCluster (s : State) (l : Launch) (cs : List Nat) (lane : Nat) : Nat :=
  if l.repro then match l.laneSlot s lane with | some r => r.clusterKey | none => 0
  else nthOr cs lane 0

/-- Post the initial records from a lane on, as far as there is room. -/
def postInitial (l : Launch) (cs : List Nat) : Nat → Nat → State → Nat × State
  | 0, lane, s => (lane, s)
  | n + 1, lane, s =>
    match placeRecord s (initialCluster s l cs lane) (initialRecord l lane) with
    | some t => postInitial l cs n (lane + 1) t
    | none => (lane, s)

/-! ## Expansion (R374) -/

/-- The first submission leaves the list. -/
def popSub (s : State) (die : Nat) : State := s.modDie die fun d => { d with subs := d.subs.tail, expanded := d.expanded + 1 }

/-- LAUNCH_REFUSAL: STATE 7 with the code, and one record that marks no live launch (R372). -/
def refuseLaunch (s : State) (die slot launch : Nat) (e : Refused) : State :=
  let s := setLstat s die slot (stRefused, codeNum e.1)
  s.record die { recordFor launch 0 e.1 e.2 none 0 with quiet := true }

/-- Step 6: post initial records; with the last of them STATE is 3, unless a repair has halted the launch meanwhile. -/
def goOn (s : State) (die slot : Nat) (l : Launch) : State :=
  let (posted, s) := postInitial l (l.clusters s) (l.lanes - l.posted) l.posted s
  let s := s.modLaunch l.num fun x => { x with posted := posted }
  if posted = l.lanes then popSub (if l.phase = .running then setLaunchState s die slot stRunning else s) die else s

/-- Steps 2-6 on a checked plan. -/
def expandPlan (s : State) (die slot : Nat) (p : Plan) : State :=
  let l := p.launch
  match formPlots l p.plots (s, []) with
  | (.error e, t, ks) => popSub (refuseLaunch (freezePlots t ks) die slot l.num e) die
  | (.ok _, t, ks) =>
    match formTensors p.tensors t with
    | (.error e, t, ts) => popSub (refuseLaunch (deleteTensors (freezePlots t ks) ts) die slot l.num e) die
    | (.ok _, t, ts) =>
      let l := { l with plots := ks.map (gaOf t), tensors := ts, since := t.draws + 1 }
      let t := zeroLanes (clearBits (clearConsts (t.setLaunch l.num l) l.num) l) l
      goOn (makeRootGroup (setChannels t l p.channels) l) die slot l

/-- LAUNCH_EXPANSION: the system core expands the first counted submission, or goes on posting its records. -/
def execLaunchExpansion (die : Nat) (s : State) : Out :=
  if s.dead die then .next s
  else match (s.die die).subs with
  | [] => .next s
  | (n, p, bytes) :: _ =>
    let slot := n % launchSlots
    if p = 6 then .next (popSub (setLstat s die slot (stFaulty, 0)) die)
    else if p = 2 then
      let s := setLstat s die slot (stExpanding, 0)
      let s := s.modDie die fun d => { d with subs := d.subs.modify 0 fun x => (x.1, 3, x.2.2) }
      match planOf s die slot bytes with
      | .error e => .next (popSub (refuseLaunch s die slot (fieldOf bytes 16 2) e) die)
      | .ok plan => .next (expandPlan s die slot plan)
    else if p = 3 then
      match s.launch (fieldOf bytes 16 2) with
      | some l =>
        if l.phase = .tearing ∨ l.die ≠ die ∨ l.plotSlot ≠ slot then .next (popSub s die) else .next (goOn s die slot l)
      | none => .next (popSub s die)
    else .next s

/-! ## Completion (R41, R377) -/

def berthWaits (b : Berth) : Bool := match b with | .free => false | .reserved => false | _ => true

/-- A capsule of a launch in some berth. -/
def capsuleHeld (s : State) (n : Nat) : Bool :=
  s.cores.any fun c => ([0, 1, 2, 3] : List (BitVec 2)).any fun b =>
    berthWaits (c.2.berth b) && decide (capField s c.1 b 24 2 = n)

/-- A capsule of a launch between berths. -/
def capsuleFlying (s : State) (n : Nat) : Bool :=
  underWay s (fun m => match m with
    | .capsuleTransfer p => decide (fieldOf p.bytes 24 2 = n)
    | .capsuleReturn p => decide (p.launch = n)
    | _ => false) || s.dies.any fun d => d.2.returns.any fun p => decide (p.launch = n)

/-- Records of a launch queued or spilled. -/
def recordsLeft (s : State) (n : Nat) : Bool :=
  (s.queues.any fun q => q.2.any fun r => decide (r.launch = n)) ||
  (s.dies.any fun d => d.2.spill.any fun x => decide (x.2.1.launch = n))

/-- Tasks, and copies not yet taken. -/
def tasksLeft (s : State) (n : Nat) : Bool :=
  s.slots.any fun x => (x.2.occupied && decide (x.2.launch = n)) || x.2.mailbox.any fun e => decide (e.req.launch = n)

/-- A group of the launch whose drain tokens are out. -/
def groupsDraining (s : State) (l : Launch) : Bool := s.groups.any fun g => l.owns g.1 && decide (g.2.phase = 2)

/-- A JOINF of a launch is on its way to its home (R107, R370). -/
def joinFlying (s : State) (n : Nat) : Bool :=
  underWay s fun m => match m with | .valueCountRequest p => decide (p.req.launch = n) | _ => false

/-- R41; a launch torn down waits for its joins alone (R370). -/
def isComplete (s : State) (l : Launch) : Bool :=
  decide (l.outstanding = 0) && !groupsDraining s l &&
  ((decide (l.phase = .tearing) && !joinFlying s l.num) ||
    (decide (l.phase = .running) && decide (l.posted = l.lanes) && l.saved.isEmpty && !tasksLeft s l.num &&
      !recordsLeft s l.num && !capsuleHeld s l.num && !capsuleFlying s l.num))

/-- Clear the channels a launch owns (R43). -/
def clearChannels (s : State) (n : Nat) : State :=
  { s with cores := s.cores.map fun (k, c) => (k, { c with channels := c.channels.filter fun e => chanLaunch e.2 ≠ n }) }

/-- Release the launch's identifiers, which keep their generations (log 30); a packet of one of their rounds joins no later round
(R430). -/
def releaseGroups (s : State) (l : Launch) : State :=
  let free (nd : PressNode) : PressNode := { nd with entries := nd.entries.map fun (g, e) => if l.owns g then (g, none) else (g, e) }
  { s with
    press := s.press.map fun (n, x) => (n, free x)
    groups := s.groups.map fun (g, x) => if l.owns g then (g, { Group.reset with gen := x.gen, round := x.round + 1 }) else (g, x) }

/-- Free the launch's entries of the seed registry (R249). -/
def releaseSeeds (s : State) (n : Nat) : State :=
  { s with seeds := s.seeds.map fun (i, e) => (i, e.filter fun x => x.launch ≠ n) }

/-- LAUNCH_COMPLETION: the steps of R377. -/
def execLaunchCompletion (n : Nat) (s : State) : Out :=
  match s.launch n with
  | none => .next s
  | some l =>
    if !isComplete s l then .next s
    else
      let s := releaseSeeds (releaseGroups (clearChannels s n) l) n
      let s := deleteTensors (freezePlots s (l.plots.map gaKey)) l.tensors
      let s := { s with launches := SMap.put s.launches n none }
      .next (setLaunchState s l.die l.plotSlot (if l.faulted ∨ l.phase = .tearing then stFaulty else stComplete))

/-! ## Tear-down and release (R370) -/

/-- A message that a tear-down discards: the launch's waits, its interests before a router has merged them with those of others
(R125), and its requests for places. -/
def tornMessage (n : Nat) (m : Instr) : Bool :=
  match m with
  | .thresholdRegistration p => decide (p.req.launch = n)
  | .interest router child p => decide (router = child ∧ p.req.launch = n)
  | .exactRead p => decide (p.req.launch = n)
  | .nameResolution p => decide (p.req.launch = n)
  | .loadRequest p => decide (p.req.launch = n)
  | .loadReply p => decide (p.req.launch = n)
  | .wake p => decide (p.req.launch = n)
  | .berthReservation p => decide (p.launch = n)
  | .translationWalk p => decide (p.launch = n) && (match p.who with | .task _ _ => true | .job _ _ => false)
  | _ => false

/-- Drop such messages wherever they are. -/
def dropMessages (s : State) (f : Instr → Bool) : State :=
  let t := (takeAside s f).2
  { t with agenda := t.agenda.filter fun m => !f m, transits := t.transits.filter fun x => !f x.msg }

/-- The launch's interests at routers. -/
def dropInterests (s : State) (n : Nat) : State :=
  { s with routers := s.routers.map fun (k, r) => (k, { r with table := r.table.map fun e =>
      { e with own := e.own.filter fun p => p.req.launch ≠ n } }) }

/-- End one task: its groups, its berth and its slot, with nothing sent. -/
def killTask (s : State) (r : SlotRef) : State :=
  let s := endTask s r false
  s.modSlot r fun x => { x with mailbox := [] }

/-- Discard a capsule in a berth. -/
def dropCapsules (s : State) (n : Nat) : State :=
  (s.cores.map Prod.fst).foldl (fun s k =>
    ([0, 1, 2, 3] : List (BitVec 2)).foldl (fun s b =>
      if berthWaits ((s.core k).berth b) ∧ capField s k b 24 2 = n then
        freeBerth (s.modCore k fun c => { c with arrivals := c.arrivals.filter (· ≠ b) }) k b
      else s) s) s

/-- A capsule of a launch that is under way, or a grant under way to one: the berth it holds (R370). -/
def flyingBerth (s : State) (n : Nat) (m : Instr) : Option (Nat × Nat) :=
  match m with
  | .capsuleTransfer p => if fieldOf p.bytes 24 2 = n then some (p.dst, p.dstBerth) else none
  | .capsuleReturn p => if p.launch = n then p.src else none
  | .berthGrant p =>
    if leaving s p.src p.berth ∧ capField s p.src (BitVec.ofNat 2 p.berth) 24 2 = n then some (p.dst, p.dstBerth) else none
  | _ => none

/-- A message under way that goes with the launch's capsules. -/
def capsuleMessage (s : State) (n : Nat) (m : Instr) : Bool :=
  match m with
  | .capsuleReturn p => decide (p.launch = n)
  | _ => (flyingBerth s n m).isSome

/-- The launch's capsules in flight are discarded and their berths freed (R370), also the berths that its saved tasks' capsules were
to move to (R305). -/
def dropFlying (s : State) (n : Nat) : State :=
  let ms := s.agenda ++ s.transits.map Transit.msg
  let moves := match s.launch n with
    | some l => l.saved.filterMap fun c => match c.move with | some (k, some b) => some (k, b.toNat) | _ => none
    | none => []
  let gone := ms.filterMap (flyingBerth s n) ++ moves
  let s := { s with
    agenda := s.agenda.filter fun m => !capsuleMessage s n m
    transits := s.transits.filter fun t => !capsuleMessage s n t.msg
    cores := s.cores.map fun (k, c) => (k, { c with
      asks := c.asks.filter fun a => match a with
        | .capsule p => decide (p.launch ≠ n)
        | .local _ _ _ _ => true
        | .move m _ _ => decide (m ≠ n) }) }
  gone.foldl (fun s x => freeBerth s x.1 (BitVec.ofNat 2 x.2)) s

/-- Entries of the capsule fault queue that a launch wrote become void (R412). -/
def voidEntries (s : State) (n : Nat) : State :=
  { s with dies := s.dies.map fun (k, d) =>
      (k, { d with cfqVoid := d.cfqVoid ++ (((List.range d.cfqHeld).map fun i => (d.cfqHead + i) % cfqPlaces).filter fun e =>
        decide (s.loadNat (cfqKey k e + 24) 2 = n)) }) }

/-- The home of an arm has fired it, and the wake is under way. -/
def firing (s : State) (j : Job) : Bool :=
  underWay s fun m => match m with | .armFire _ id none => decide (id = j.id) | _ => false

/-- Arms that have not fired are discarded; copies under way go on, and so does an arm that its home has fired while the launch ran (R370,
R436). -/
def dropArms (s : State) (ran : Bool) (n : Nat) : State :=
  let goes (j : Job) : Bool := j.armed && decide (j.copy.req.launch = n) && !(ran && firing s j)
  (s.cores.map Prod.fst).foldl (fun t k =>
    let gone := (t.core k).jobs.filter goes
    (t.modCore k fun c => { c with jobs := c.jobs.filter fun j => !goes j }).paid n gone.length) s

/-- Everything of a launch but the joins already sent is discarded. -/
def tearDown (s : State) (n : Nat) : State :=
  let ran := (s.launch n).any fun l => decide (l.phase = .running)
  let s := dropFlying s n
  let s := s.modLaunch n fun l => { l with phase := .tearing, faulted := true, saved := [], laneStores := [] }
  let rs := (s.slots.filter fun x => x.2.occupied && decide (x.2.launch = n)).map fun x => refOf (x.1 / 8) (x.1 % 8)
  let s := rs.foldl killTask s
  let s := { s with
    slots := s.slots.map fun (k, x) => (k, { x with mailbox := x.mailbox.filter fun e => e.req.launch ≠ n })
    queues := s.queues.map fun (k, q) => (k, q.filter fun r => r.launch ≠ n)
    waiters := s.waiters.filter fun p => p.req.launch ≠ n
    namers := s.namers.filter fun p => p.req.launch ≠ n
    rounds := s.rounds.map fun r => { r with
      left := ((r.reqs.filter fun p => p.req.launch = n).map CountPkt.lane) ++ r.left
      reqs := r.reqs.filter fun p => p.req.launch ≠ n }
    anyAsks := s.anyAsks.filter fun p => p.launch ≠ n
    cores := s.cores.map fun (k, c) => (k, { c with banks := c.banks.filter fun w => w.req.launch ≠ n })
    dies := s.dies.map fun (k, d) => (k, { d with
      returns := d.returns.filter fun p => p.launch ≠ n
      spill := d.spill.map fun x => (x.1, if x.2.1.launch = n then { x.2.1 with launch := 0 } else x.2.1, x.2.2) }) }
  let s := dropMessages (dropInterests s n) (tornMessage n)
  voidEntries (dropArms (dropCapsules s n) ran n) n

/-- The live launch of a launch slot. -/
def launchAt (s : State) (die slot : Nat) : Option Launch := s.live.find? fun l => decide (l.die = die ∧ l.plotSlot = slot)

/-- LCMD tear-down: STATE 1-4. A submission not yet expanded is never started, and its STATE is 6 when its turn comes. -/
def execLcmdTearDown (die slot : Nat) (s : State) : Out :=
  let st := (lstatOf s die slot).1
  if st = 0 ∨ stHalted < st then .next (refuseWrite s die)
  else match launchAt s die slot with
    | some l => if l.phase = .tearing then .next s else .next (tearDown s l.num)
    | none => .next (s.modDie die fun d => { d with subs := d.subs.map fun x =>
        if x.1 % launchSlots = slot ∧ x.2.1 < 3 then (x.1, x.2.1 + 4, x.2.2) else x })

/-- LCMD release: the slot plot is frozen and re-formed, and STATE is 0. -/
def execLcmdRelease (die slot : Nat) (s : State) : Out :=
  if (lstatOf s die slot).1 < stComplete then .next (refuseWrite s die)
  else
    let k := slotPlotKey die slot
    let s := formPlot (freezeOne s k).2 k (plotAttr kindFill 0x0B 12 false 0 false 0) 12
    .next (setLstat s die slot (stFree, 0))

end Sys2Proof.Machine
end

