-- ==== Sys2Proof/Machine/Faults.lean ====
section
/-! DEFINITION. The fault buffer, the host's event queue, the capsule fault queue, uncorrectable errors and BRK's release
(R203, R409-R413). -/

namespace Sys2Proof.Machine

/-! ## The fault buffer (R409, R410) -/

/-- A task that waited for its record ends, if it is still there. -/
def endWaiting (s : State) (r : FaultRec) (x : SlotRef × FaultCode) : State :=
  if (s.slot x.1).ending ∧ (s.slot x.1).task = r.task then endFaulted s x.1 x.2 else s

/-- Records that wait enter the buffer in order while it has room. -/
def placeWaiting (die : Nat) : Nat → State → State
  | 0, s => s
  | n + 1, s =>
    match (s.die die).faultWait with
    | [] => s
    | w :: t =>
      if (s.die die).faults.length < 64 then
        let s := (s.modDie die fun d => { d with faultWait := [] }).record die w.record
        let s := s.modDie die fun d => { d with faultWait := t ++ d.faultWait }
        placeWaiting die n (match w.ends with | some x => endWaiting s w.record x | none => s)
      else s

/-- Room in the buffer: waiting records enter, then those of capsule returns; fault hold may end, page requests may take an entry. -/
def bufferDrained (s : State) (die : Nat) : State :=
  let s := placeWaiting die (s.die die).faultWait.length s
  retryPages ((drainReturns die (s.die die).returns.length s).leaveHold die) die

/-! ## The event queue (R411) -/

def eqLog (v : Word) : Nat := bitsOf v 4 0
/-- The queue is enabled. -/
def eqOn (v : Word) : Bool := decide (6 ≤ eqLog v) && decide (eqLog v ≤ 16)

/-- A disabled queue counts as full. -/
def eqFull (d : Die) : Bool := !eqOn d.eqsize || decide ((d.eqtail - d.eqhead).toNat = 2 ^ eqLog d.eqsize)

/-- Records held in the buffer, the first of which the queue takes. -/
def deliverRecord (s : State) (die : Nat) : State :=
  let d := s.die die
  match d.faults with
  | [] => s
  | r :: t =>
    let s := s.stores (hostKey (d.eqbase.toNat + 64 * (d.eqtail.toNat % 2 ^ eqLog d.eqsize))) r.bytes
    let s := s.setDie die { d with faults := t, eqtail := d.eqtail + 1, blocked := false }
    bufferDrained { s with msix := s.msix ++ [(die, 0)] } die

/-- Offer the first record: taken, or kept for 4,096 cycles. -/
def offerRecord (s : State) (die : Nat) : State :=
  if (s.die die).faults = [] then s
  else if eqFull (s.die die) then s.modDie die fun d => { d with blocked := true, lastOffer := s.cycle }
  else deliverRecord s die

/-- A record that has not been turned away can be offered. -/
def drainReady (s : State) (die : Nat) : Bool := !(s.die die).blocked && !(s.die die).faults.isEmpty && !s.dead die

/-- A record that was turned away is due again. -/
def offerDue (s : State) (die : Nat) : Bool :=
  (s.die die).blocked && decide ((s.die die).lastOffer + 4096 ≤ s.cycle) && !s.dead die

/-- FAULT_RECORD_DRAIN: a record moves to the event queue in SEQ order and vector 0 is raised. -/
def execFaultRecordDrain (die : Nat) (s : State) : Out := .next (if drainReady s die then offerRecord s die else s)

/-- FAULT_RECORD_OFFER: a record that found the queue full is offered again. -/
def execFaultRecordOffer (die : Nat) (s : State) : Out := .next (if offerDue s die then offerRecord s die else s)

/-- A ring that reaches past the host addresses of the device (R26, R411). -/
def ringBeyond (base size : Word) : Bool := eqOn size && decide (2 ^ 50 < base.toNat + 64 * 2 ^ eqLog size)

/-- A write to a queue register: refused unless `ok`. -/
def eqWrite (s : State) (die : Nat) (ok : Bool) (f : Die → Die) : Out :=
  .next (if s.dead die then s else if ok then s.modDie die f else refuseWrite s die)

def eqEmpty (d : Die) : Bool := decide (d.eqtail = d.eqhead)

def execEqbase (die : Nat) (v : Word) (s : State) : Out :=
  let d := s.die die
  eqWrite s die (decide (bitsOf v 11 0 = 0) && eqEmpty d && !ringBeyond v d.eqsize) fun d => { d with eqbase := v }

def execEqsize (die : Nat) (v : Word) (s : State) : Out :=
  let d := s.die die
  eqWrite s die (decide (bitsOf v 63 5 = 0) && eqEmpty d && !ringBeyond d.eqbase v) fun d => { d with eqsize := v }

def execEqhead (die : Nat) (v : Word) (s : State) : Out :=
  eqWrite s die (decide (bitsOf v 63 32 = 0)) fun d => { d with eqhead := v.extractLsb' 0 32 }

/-! ## The capsule fault queue (R412) -/

/-- CFQPOP: the oldest entries are released; returns that waited are written, and fault hold may end. -/
def execCfqpop (die : Nat) (v : Word) (s : State) : Out :=
  let d := s.die die
  let n := v.toNat
  if s.dead die then .next s
  else if n = 0 ∨ d.cfqHeld < n then .next (refuseWrite s die)
  else
    let gone := (List.range n).map fun i => (d.cfqHead + i) % cfqPlaces
    let s := s.setDie die { d with
      cfqHead := (d.cfqHead + n) % cfqPlaces, cfqHeld := d.cfqHeld - n, cfqVoid := d.cfqVoid.filter fun e => !gone.contains e }
    .next ((drainReturns die d.returns.length s).leaveHold die)

/-- LERR as the host reads it: bits of the two errors, then cleared (R367). -/
def execLerrRead (die : Nat) (s : State) : Out :=
  .next { s.modDie die (fun d => { d with lerr := 0 }) with hostReply := some (bytesOf 8 (s.die die).lerr.toNat) }

/-! ## BRK's release (R203) -/

/-- The slot that DBGSEL selects. -/
def debugSlot (s : State) (die : Nat) : SlotRef :=
  let v := (s.die die).dbgsel
  ⟨die, bitsOf v 8 0, bitsOf v 15 12, bitsOf v 18 16⟩

/-- HALTED: the selected slot is halted by BRK. -/
def debugHalted (s : State) (die : Nat) : Bool :=
  let x := s.slot (debugSlot s die)
  x.occupied && decide (x.halt = .debug)

/-- DBGGO: the slot issues again, unless its launch is being halted. -/
def execDbggo (die : Nat) (s : State) : Out :=
  if s.dead die then .next s
  else if !debugHalted s die then .next (refuseWrite s die)
  else
    let r := debugSlot s die
    let halting : Bool := match s.launch (s.slot r).launch with | some l => decide (l.phase = .halting) | none => false
    .next (s.modSlot r fun x => { x with halt := if halting then .preempt else .no, readyAt := max x.readyAt (s.cycle + 1) })

/-! ## Uncorrectable errors (R413) -/

def sameFrame (a b : Nat) : Bool := decide (a / 2 ^ 16 = b / 2 ^ 16)

/-- Interests that wait for a tile of a retired frame. -/
def spoilWants (s : State) (k : Nat) : State :=
  let hit (w : Word × Nat) : Bool := match resolve s w.1 with
    | some bs => sameFrame k (tileKey bs (nameIter w.1) (nameTile w.1))
    | none => false
  let names := ((s.wants.filter hit).map Prod.fst).dedup
  names.foldl (fun s n => serveWants s (s.homeDie k) ⟨n, some .memUe, false, []⟩) s

/-- Value-returning counts parked on a retired frame. -/
def spoilRounds (s : State) (k : Nat) : State :=
  let hit (ga : Word) : Bool := sameFrame k (gaKey ga)
  let reqs := (s.rounds.filter fun r => hit r.ga).flatMap CountRound.reqs
  reqs.foldl (fun s p => countReply s p (some .memUe) 0) { s with rounds := s.rounds.filter fun r => !hit r.ga }

/-- Registrations and counts for a retired frame that are set aside. -/
def spoilStore (s : State) (k : Nat) : State :=
  let hit (m : Instr) : Bool := match m with
    | .thresholdRegistration p => sameFrame k (gaKey p.ga)
    | .valueCountRequest p => sameFrame k (gaKey p.ga)
    | _ => false
  let a := takeAside s hit
  a.1.foldl (fun s m => match m with
    | .thresholdRegistration p => sendOutcome s p (bad .memUe)
    | .valueCountRequest p => countReply s p (some .memUe) 0
    | _ => s) a.2

/-- Takes and puts parked at a word of local memory that is bad. -/
def spoilBank (s : State) (k : Nat) : State :=
  let core := localCore k
  let hit (w : BankWait) : Bool := decide (w.off / 8 = localOff k / 8)
  let gone := (s.core core).banks.filter hit
  let s := if gone = [] then s else s.modCore core fun c => { c with banks := c.banks.filter fun w => !hit w }
  gone.foldl (fun s w => wakeTask s w.req fun x => { x with answers := x.answers ++ [⟨w.xid, some .memUe, gaOf s k, 0, 0, []⟩] }) s

/-- Retire the frame of a location; every request parked on it completes with MEM_UE. Core local memory has no frame attributes: there
the requests parked on the word itself complete. -/
def spoil (s : State) (k : Nat) : State :=
  let s := retireFrame { s with ue := SMap.set s.ue false k true } k
  if keyRegion k = 0 then spoilBank s k
  else if keyRegion k = 5 then s
  else spoilStore (spoilRounds (spoilWants (serveWaiters s fun p => sameFrame k (gaKey p.ga)) k) k) k

/-- UNCORRECTABLE_ERROR: the frame is retired. The task whose access to its core's memory met the error takes MEM_UE; so
does a writer, asynchronously, whose store elsewhere met it. Requests still under way meet the retired frame at its home. -/
def execUncorrectableError (ga : Word) (who : Option Requester) (s : State) : Out :=
  let k := gaKey ga
  let s := spoil s k
  match who with
  | none => .next s
  | some q =>
    if !isHere s q then .next s
    else if keyRegion k = 0 ∧ localCore k = q.slot.coreKey then
      .next (faultTask s q.slot .memUe ⟨(s.slot q.slot).pc, none, some (gaOf s k), 0⟩)
    else
      let s := asyncFault s q.slot.die q .memUe none (some (gaOf s k))
      .next (s.modSlot q.slot fun x => { x with faultPending := x.faultPending ||| (1#8 <<< scopeOf s.sliceMoved q.slot k) })

/-- SCRUB: correctable errors are corrected in place, so nothing changes (R413, R469). -/
def execScrub (s : State) : Out := .next s

end Sys2Proof.Machine
end

