-- ==== Sys2Proof/Machine/Reset.lean ====
section
/-! DEFINITION. The loss of a die: messages that it can no longer take, launches it leaves, and its function-level reset
(R306, R345, R419-R422, R461). -/

namespace Sys2Proof.Machine

/-! ## Messages to a lost die (R306, R421) -/

/-- The die of a task; none for a saved one, which an answer reaches in its record (R417). -/
def taskDie (s : State) (q : Requester) : Option Nat :=
  if (taskSlot s q).isNone && (taskOf s q).isSome then none else some (placeOf s q).die

/-- The die that takes a message; none for those that every die handles, or that find out for themselves. -/
def destDie (s : State) (m : Instr) : Option Nat :=
  match m with
  | .storeData p => some (s.homeDie ((p.parts.head?.map Prod.fst).getD 0))
  | .loadRequest p => some (s.homeDie ((p.parts.head?.map Prod.fst).getD 0))
  | .loadReply p => taskDie s p.req
  | .joinPacket p => some (s.homeDie (gaKey p.ga))
  | .valueCountRequest p => some (s.homeDie (gaKey p.ga))
  | .thresholdRegistration p => some (s.homeDie (gaKey p.ga))
  | .exactRead p => some (s.homeDie (gaKey p.ga))
  | .plotRequest p => some (s.homeDie (gaKey p.ga))
  | .freezeRequest p => some (s.homeDie (gaKey p.ga))
  | .tileFill p => some (s.homeDie (gaKey p.ga))
  | .interest router _ p =>
    if router = homeRouter then (resolve s p.name).map fun bs => s.homeDie (tileKey bs (nameIter p.name) (nameTile p.name))
    else some (router / 512)
  | .tileDelivery router _ => some (router / 512)
  | .neverAnswer router _ => some (router / 512)
  | .purge router _ _ _ => some (router / 512)
  | .copyData _ _ ga _ => some (s.homeDie (gaKey ga))
  | .acknowledgement p => match p.ack with
    | .scope _ => taskDie s p.req
    | .job _ => some (ackDie s p.req p.ack)
  | .wake p => taskDie s p.req
  | .capsuleTransfer p => some (dieOfCore p.dst)
  | .channelChange p => some (dieOfCore p.core)
  | .pressPacket p => some (s.pressAt p.node)
  | .shootDown die _ => some die
  | .shootDownAck die _ => some die
  | .translationWalk q => some (q.cluster / 512)
  | .maccSlotReady core a =>
    if s.live.any fun l => l.saved.any fun c => (c.op.bind MatOp.waitXid) == some a.xid then none else some (dieOfCore core)
  | .armFire core id _ => match (jobCore s id).bind fun k => jobOf s k id with
    | some j => taskDie s j.copy.req
    | none => some (dieOfCore core)
  | .preemptTriggerArrival die _ => some die
  | _ => none

/-- LINK_LOST for a parked request. -/
def lostReply (s : State) (q : Requester) (xid : Nat) (ga : Word) : State :=
  s.reply granaryDie q ⟨xid, some .linkLost, ga, 0, 0, []⟩

/-- LINK_LOST for an acknowledgement. -/
def lostAck (s : State) (q : Requester) (xid : Nat) (dest : AckTo) (k : Nat) : State :=
  s.ack granaryDie q xid dest k (some .linkLost)

/-- A message whose die is lost: its requester learns LINK_LOST, a capsule returns, anything else is discarded. An
acknowledgement discarded counts as come for its launch. -/
def lostMessage (s : State) (m : Instr) : State :=
  match m with
  | .storeData p => lostAck s p.req p.xid p.ack ((p.parts.head?.map Prod.fst).getD 0)
  | .joinPacket p => lostAck s p.req p.xid p.ack (gaKey p.ga)
  | .tileFill p => lostAck s p.req p.xid p.ack (gaKey p.ga)
  | .channelChange p => match p.ack with | some a => lostAck s p.req p.xid a (localKey p.core 0) | none => s
  | .copyData core id ga _ => match jobOf s core id with | some j => lostAck s j.copy.req 0 (.job id) (gaKey ga) | none => s
  | .loadRequest p => lostReply s p.req p.xid (gaOf s ((p.parts.head?.map Prod.fst).getD 0))
  | .valueCountRequest p => lostReply s p.req p.xid p.ga
  | .exactRead p => lostReply s p.req p.xid p.ga
  | .plotRequest p => lostReply s p.req p.xid p.ga
  | .freezeRequest p => lostReply s p.req p.xid p.ga
  | .thresholdRegistration p => sendOutcome s p (bad .linkLost)
  | .interest router child p =>
    if child = router then completeInterest s p ⟨p.name, some .linkLost, false, []⟩
    else sendDelivery s granaryDie child ⟨p.name, some .linkLost, false, []⟩
  | .capsuleTransfer p =>
    s.post granaryDie (fieldOf p.bytes 8 8 / 2 ^ 49 % 16) (.capsuleReturn ⟨none, fieldOf p.bytes 24 2, .capsuleReset, p.bytes, none⟩)
  | .acknowledgement p => match p.ack with | .scope _ => s.paid p.req.launch 1 | .job _ => s
  | .translationWalk q => walkDone s q none 0
  | _ => s

/-- The message's die takes no traffic. -/
def isLost (s : State) (m : Instr) : Bool := match destDie s m with | some d => s.dead d | none => false

/-- A message that a die had sent and that had not left it when it was lost: what its homes had answered comes as LINK_LOST, a capsule to
which it had granted a berth goes back, and a request of its own tasks counts as answered for its launch (R134, R306, R421, R436). -/
def strand (s : State) (m : Instr) : State :=
  match m with
  | .storeData p => match p.ack with | .scope _ => s.paid p.req.launch 1 | .job _ => s
  | .joinPacket p => match p.ack with | .scope _ => s.paid p.req.launch 1 | .job _ => s
  | .tileFill p => match p.ack with | .scope _ => s.paid p.req.launch 1 | .job _ => s
  | .channelChange p => match p.ack with | some (.scope _) => s.paid p.req.launch 1 | _ => s
  | .acknowledgement p =>
    s.post granaryDie (ackDie s p.req p.ack) (.acknowledgement { p with code := some (p.code.getD .linkLost) })
  | .wake p => lostReply s p.req p.answer.xid p.answer.ga
  | .loadReply p => s.post granaryDie (placeOf s p.req).die (.loadReply { p with answer := { p.answer with code := some .linkLost } })
  | .maccSlotReady core a => s.post granaryDie (dieOfCore core) (.maccSlotReady core { a with code := some .linkLost })
  | .armFire core id _ => s.post granaryDie (dieOfCore core) (.armFire core id (some .linkLost))
  | .tileDelivery child p => sendDelivery s granaryDie child ⟨p.name, some .linkLost, false, []⟩
  | .neverAnswer child p => sendDelivery s granaryDie child ⟨p.name, some .linkLost, false, []⟩
  | .berthGrant p =>
    if leaving s p.src p.berth then returnCapsule s p.src (BitVec.ofNat 2 p.berth) .capsuleReset none else s
  | .capsuleTransfer p => freeBerth s p.dst (BitVec.ofNat 2 p.dstBerth)
  | _ => s

/-! ## What the loss leaves behind -/

/-- The partials of a group within a die: in its nodes, and in packets going up in it or still leaving it. -/
def pressParts (s : State) (d g : Nat) : List PressPkt :=
  let up (m : Instr) : Option PressPkt := match m with
    | .pressPacket p => if p.up ∧ p.gid = g then some p else none
    | _ => none
  let within (p : PressPkt) : Bool := decide (pressDie p.node = d)
  ((s.press.filter fun x => decide (pressDie x.1 = d)).filterMap fun x => (SMap.get x.2.entries none g).bind PressEntry.part) ++
  (s.agenda.filterMap up).filter within ++
  (s.transits.filter fun t => match t.hops with | e :: _ => !e.granary && (portsOf d).contains e.port | [] => false).filterMap fun t => up t.msg

/-- The child port of a die at its level-7 node, which the round in progress of a group still waits for. -/
def pressAwaits (s : State) (d g : Nat) : Bool :=
  let n := pressId 8 (d * 8192)
  let bit : BitVec 8 := 1#8 <<< pressPort (pressId 7 (d * 8192))
  let coming (m : Instr) : Bool := match m with
    | .pressPacket p => p.up && decide (p.gid = g) && decide (p.node = n) && decide (p.child = pressPort (pressId 7 (d * 8192)))
    | _ => false
  match s.pentry n g with
  | some e => decide (e.child &&& bit ≠ 0) && decide (e.arrived &&& bit = 0) && decide (e.owed &&& bit = 0) &&
      !(s.group g).roundOf.isEmpty && !s.agenda.any coming
  | none => false

/-- End a round that cannot complete: its contributors fault LINK_LOST, its packets are dropped and a new round can begin. -/
def loseRound (s : State) (g : Nat) : State :=
  let n := (s.group g).round
  let mark := markLost g n
  let keep (i : Instr) : Bool := match i with | .pressPacket p => decide (p.gid ≠ g ∨ p.round ≠ n) | _ => true
  let clear (nd : PressNode) : PressNode := { nd with entries := nd.entries.map fun (k, e) =>
    if k = g then (k, e.map fun (y : PressEntry) =>
      if y.rip ∧ y.round = n then { y with rip := false, arrived := 0, owed := 0, part := none } else y) else (k, e) }
  let s := { s with
    slots := s.slots.map fun (k, x) => (k, mark x)
    launches := s.launches.map fun (k, l) => (k, l.map fun (l : Launch) =>
      { l with saved := l.saved.map fun (c : Context) => { c with slot := mark c.slot } })
    agenda := s.agenda.filter keep
    transits := s.transits.filter fun t => keep t.msg
    press := s.press.map fun (k, nd) => (k, clear nd) }
  pressBoundary s g

/-- The memberships of the die's tasks end as by GLEAVE (R336, R345, R421): a round for which a contribution is lost with the die ends,
and in any other that waits for the die its tasks count as contributing nothing. A round of a root group loses what had not left the die,
and ends where it lacks a lane of the die; in throughput mode other tasks can still make it whole (R48; log 40). -/
def leaveDie (s : State) (d g : Nat) : State :=
  let x := s.group g
  if x.root then
    let gone := ((pressParts s d g).filter fun p => decide (p.round = x.round)).flatMap PressPkt.members
    let left := (gone.map fun q => q.llane.toNat).foldl List.erase x.arrived
    let t := s.setGroup g { x with arrived := left }
    if pressStuck t g ∧ left ≠ [] then loseRound t g else pressHeld (t.setGroup g { x with arrived := left, held := [] }) g x.held
  else
    let here (q : Requester) : Bool := decide ((placeOf s q).die = d) && (taskSlot s q).isSome
    let awaits := pressAwaits s d g
    let lost := (pressParts s d g).any fun p => !p.members.isEmpty
    let s := (x.members.filter here).foldl (fun s q => leaveRounds s q g) s
    let s := s.setGroup g { x with
      members := x.members.filter fun q => !here q
      held := x.held.filter fun h => !here h.1 }
    let s := if awaits ∧ !lost then
        s.again (.pressPacket { emptyPkt g x.gen with
          node := pressId 8 (d * 8192), child := pressPort (pressId 7 (d * 8192)), round := x.round })
      else s
    if x.phase = 1 ∧ (s.group g).members.isEmpty then dissolve s g
    else if awaits ∧ lost then loseRound s g
    else if x.members.any here ∧ x.roundOf.isEmpty then rebuild s g
    else s

/-- Waits at homes on the die complete with LINK_LOST. -/
def loseHomes (s : State) (d : Nat) : State :=
  let atHome (ga : Word) : Bool := decide (s.homeDie (gaKey ga) = d)
  let ws := s.waiters.filter fun p => atHome p.ga
  let rs := (s.rounds.filter fun r => atHome r.ga).flatMap CountRound.reqs
  let ns := ((s.wants.filter fun w => match resolve s w.1 with
    | some bs => decide (s.homeDie (tileKey bs (nameIter w.1) (nameTile w.1)) = d)
    | none => false).map Prod.fst).dedup
  let s := { s with
    waiters := s.waiters.filter fun p => !atHome p.ga
    rounds := s.rounds.filter fun r => !atHome r.ga }
  let s := ws.foldl (fun s p => sendOutcome s p (bad .linkLost)) s
  let s := rs.foldl (fun s p => lostReply s p.req p.xid p.ga) s
  ns.foldl (fun s n => serveWants s granaryDie ⟨n, some .linkLost, false, []⟩) s

/-- Interests: children toward the die are cleared elsewhere; children of its routers elsewhere learn LINK_LOST. -/
def loseRouters (s : State) (d : Nat) : State :=
  let on (c : Nat) : Bool := decide (c / 512 = d)
  let out := (s.routers.filter fun r => on r.1).flatMap fun r => r.2.table.flatMap fun e =>
    (e.ports.filter fun c => !on c).map fun c => (e.name, c)
  let s := { s with
    wants := s.wants.filter fun w => !on w.2
    routers := (s.routers.filter fun r => !on r.1).map fun (k, (r : Router)) =>
      (k, { r with table := r.table.map fun (e : Interest) => { e with ports := e.ports.filter fun c => !on c } }) }
  out.foldl (fun s x => sendDelivery s granaryDie x.2 ⟨x.1, some .linkLost, false, []⟩) s

/-- Saved contexts that asked for a berth on cores that are gone ask again elsewhere (R305). -/
def unmove (gone : Nat → Bool) (s : State) : State :=
  { s with launches := s.launches.map fun (k, l) => (k, l.map fun (l : Launch) =>
      { l with saved := l.saved.map fun (c : Context) => match c.move with
        | some (core, _) => if gone core then { c with move := none } else c
        | none => c }) }

/-- Reservations held at the die are refused with CAPSULE_RESET. -/
def loseAsks (s : State) (d : Nat) : State :=
  let own := (s.cores.filter fun c => decide (dieOfCore c.1 = d)).flatMap fun c => c.2.asks.filterMap fun a =>
    match a with | .capsule p => some p | _ => none
  let any := s.anyAsks.filter fun p => decide (bitsOf p.step 53 50 = d)
  let s := { s with anyAsks := s.anyAsks.filter fun p => decide (bitsOf p.step 53 50 ≠ d) }
  ((own ++ any).filter fun p => dieOfCore p.src ≠ d).foldl (fun s p => refuse s p .capsuleReset) (unmove (fun c => decide (dieOfCore c = d)) s)

/-- A halted launch whose save area lay on the die cannot be resumed (R420). -/
def loseArea (d : Nat) (s : State) (l : Launch) : State :=
  s.modLaunch l.num fun x => { x with
    lostDie := x.lostDie || (decide (x.phase ≠ .running) && decide (s.homeDie (saveKey s l) = d)) }

/-- A launch submitted on a die that is reset keeps no launch slot there (R419, R420). -/
def leaveLaunch (d : Nat) (s : State) (l : Launch) : State :=
  (loseArea d s l).modLaunch l.num fun x => { x with plotSlot := if x.die = d then launchSlots else x.plotSlot }

/-- Mark the launches of the die; the lowest surviving bound die writes LINK_LOST for each (R420). -/
def loseLaunch (d : Nat) (s : State) (l : Launch) : State :=
  let s := leaveLaunch d s l
  if l.boundDies.contains d then
    match l.boundDies.find? fun e => decide (e ≠ d) && !s.dead e with
    | some e => s.record e (recordFor l.num 0 .linkLost none none 0)
    | none => s.markFaulted l.num (codeNum .linkLost)
  else s

/-- The work of the die is gone. Its jobs and the messages inside it count as answered for their launches. -/
def dropWork (s : State) (d : Nat) : State :=
  let jobs := (s.cores.filter fun c => decide (dieOfCore c.1 = d)).flatMap fun c => c.2.jobs
  let s := jobs.foldl (fun s j => s.paid j.copy.req.launch 1) s
  let kept (c : Core) : Core := { Core.reset with fenced := c.fenced, spare := c.spare, refills := s.cycle / 1024 }
  { s with
    slots := s.slots.filter fun x => decide (x.1 / 65536 ≠ d)
    cores := s.cores.map fun (k, c) => if dieOfCore k = d then (k, kept c) else (k, c)
    ports := s.ports.filter fun x => decide (x.1 / 512 ≠ d)
    queues := s.queues.filter fun x => decide (x.1 / 512 ≠ d)
    lastCore := s.lastCore.filter fun x => decide (x.1 / 512 ≠ d)
    press := s.press.filter fun x => decide (pressDie x.1 ≠ d) }

/-- A berth grant of the die for a capsule of another: the berth it names is gone (R421). -/
def grantOf (d : Nat) (m : Instr) : Bool :=
  match m with
  | .berthGrant p => decide (dieOfCore p.dst = d)
  | _ => false

/-- Messages on their way when the die is lost: those toward it are answered, and those still inside a die in reset end there; the
ports of a die that repair fences go on until they are empty (R466). -/
def loseMessages (s : State) (d : Nat) : State :=
  let inside (t : Transit) : Bool :=
    (s.die d).inReset && match t.hops with | e :: _ => !e.granary && decide ((portsOf d).contains e.port) | [] => false
  let toward (m : Instr) : Bool := destDie s m = some d
  let cut (t : Transit) : Bool := inside t || grantOf d t.msg
  let stranded := s.agenda.filter (grantOf d) ++ (s.transits.filter cut).map Transit.msg
  let lost := (s.agenda.filter fun m => !grantOf d m && toward m) ++
    ((s.transits.filter fun t => !cut t && toward t.msg).map Transit.msg)
  let s := { s with
    agenda := s.agenda.filter fun m => !grantOf d m && !toward m
    transits := s.transits.filter fun t => !cut t && !toward t.msg }
  lost.foldl lostMessage (stranded.foldl strand s)

/-- The packets set aside on the die, and those that its slot buffers hold. -/
def loseStore (s : State) (d : Nat) : State :=
  let held := s.stuck.filter fun x => decide (x.1 = d)
  let ms := (s.die d).store ++ held.map fun x => x.2.2
  ms.foldl lostMessage { s.modDie d (fun x => { x with store := [] }) with stuck := s.stuck.filter fun x => !decide (x.1 = d) }

/-- A return of a capsule whose berth was on the die holds no berth any more (R419). -/
def cutReturn (d : Nat) (p : ReturnPkt) : ReturnPkt :=
  if (p.src.map fun x => dieOfCore x.1) = some d then { p with src := none } else p

/-- Returns from berths of the die that are under way, or wait at the queue of another die, hold no berth any more (R419). -/
def cutReturns (s : State) (d : Nat) : State :=
  let cut (m : Instr) : Instr := match m with | .capsuleReturn p => .capsuleReturn (cutReturn d p) | _ => m
  { s with
    agenda := s.agenda.map cut
    transits := s.transits.map fun (t : Transit) => { t with msg := cut t.msg }
    dies := s.dies.map fun (k, (x : Die)) => (k, { x with returns := x.returns.map (cutReturn d) }) }

/-- The leaf of a page for the carter, from the TLB or by a walk that leaves no trace. -/
def copyLeaf (s : State) (core launch va : Nat) : Option Leaf :=
  match s.lookup (clusterOfCore core) launch va with
  | some e => some e
  | none => (s.launch launch).bind fun l =>
      match (walkRoot s (BitVec.ofNat 64 l.troot) 0 va).1 with
      | .leaf e lvl => some (leafOf launch va e lvl)
      | _ => none

/-- An address of a copy's source or destination that lies on a die, with its GA (R306). -/
def copyOn (s : State) (d core : Nat) (c : CopyReq) : Option (Nat × Word) :=
  let pages (seg : BitVec 128) (runs : List (Nat × Nat)) : List Nat :=
    if segSpace seg then runs.flatMap fun r => (pieces (segAddr seg r.1) r.2).map Prod.fst else []
  (pages c.sseg (sourceRuns c.kind) ++ pages c.dseg (runsOf c.kind)).findSome? fun va =>
    (copyLeaf s core c.req.launch va).bind fun e =>
      let ga : Word := BitVec.ofNat 64 (leafGa e va)
      if s.homeDie (gaKey ga) = d then some (va, ga) else none

/-- Copies of other dies whose source or destination lies on the die stop with LINK_LOST, also those that still wait in a mailbox
(R289, R306). -/
def stopCopies (s : State) (d : Nat) : State :=
  let jobs := (s.cores.filter fun c => decide (dieOfCore c.1 ≠ d)).flatMap fun c =>
    (c.2.jobs.filter fun j => !j.armed && j.code.isNone).filterMap fun j => (copyOn s d c.1 j.copy).map fun x => (c.1, j, x)
  let s := jobs.foldl (fun s x =>
    copyFault s x.1 { x.2.1 with waiting := false } .linkLost (some (BitVec.ofNat 64 x.2.2.1)) (some x.2.2.2)) s
  let boxes := (s.slots.filter fun x => decide (x.1 / 65536 ≠ d)).map fun x => (x.1 / 8, x.2.mailbox)
  let held := s.live.flatMap fun l => l.saved.map fun c => (c.place.coreKey, c.slot.mailbox)
  let gone := (boxes ++ held).flatMap fun x => x.2.filterMap fun e =>
    if isArm e.kind then none else (copyOn s d x.1 e).map fun a => (x.1, e, a)
  let keep (x : Slot) : Slot := { x with mailbox := x.mailbox.filter fun e => !(gone.any fun g => g.2.1 == e) }
  let s := { s with
    slots := s.slots.map fun (k, x) => (k, keep x)
    launches := s.launches.map fun (k, l) => (k, l.map fun (l : Launch) =>
      { l with saved := l.saved.map fun (c : Context) => { c with slot := keep c.slot } }) }
  gone.foldl (fun s x =>
    wakeTask (asyncFault s (dieOfCore x.1) x.2.1.req .linkLost (some (BitVec.ofNat 64 x.2.2.1)) (some x.2.2.2)) x.2.1.req
      (tagDone x.2.1.tag (codeNum .linkLost))) s

/-- Capsules in berths of other dies whose return waits for the die's queue go to that of another die (R421). -/
def loseReturns (s : State) (d : Nat) : State :=
  let keep (p : ReturnPkt) : Bool := match p.src with | some (core, _) => decide (dieOfCore core ≠ d) | none => true
  let rs := (s.die d).returns.filter keep
  rs.foldl (fun s p => s.again (.capsuleReturn p)) (s.modDie d fun x => { x with returns := [] })

/-- What the rest of the package had at the die (R306, R421): waits at its homes, interests through its routers, packets set aside on it
and messages on their way. -/
def loseTraffic (s : State) (d : Nat) : State := loseMessages (loseStore (loseRouters (loseHomes s d) d) d) d

/-- The die is lost to the package (R421). -/
def loseDie (s : State) (d : Nat) : State :=
  let s := s.live.foldl (loseLaunch d) s
  let s := (stopCopies s d).modDie d fun x => { x with inReset := true }
  let s := (s.groups.map Prod.fst).foldl (fun s g => leaveDie s d g) s
  let s := dropWork (cutReturns (loseReturns (loseAsks s d) d) d) d
  loseTraffic s d

/-- Every record queued or spilled on a die, with its launch still there. -/
def recordsOn (s : State) (d : Nat) : List Record :=
  ((s.queues.filter fun q => decide (q.1 / 512 = d)).flatMap Prod.snd) ++ ((s.die d).spill.map fun x => x.2.1)

/-- Records of a die that is fenced go to the clusters that take them now, in their queue or the overflow of their die; one that finds no
room in either waits with the fenced die until its queue has some (R39, R379; log 40). -/
def moveRecords (s : State) (d : Nat) : State :=
  let rs := recordsOn s d
  let s := { s.modDie d (fun x => { x with spill := [] }) with queues := s.queues.filter fun q => decide (q.1 / 512 ≠ d) }
  rs.foldl (fun s r => match s.launch r.launch with
    | none => s
    | some l =>
      let c := if l.repro then ((l.laneSlot s r.lane).map SlotRef.clusterKey).getD (((l.clusters s).head?).getD 0)
               else spawnCluster s l r.data
      (placeRecord s c r).getD (s.modDie d fun x => { x with spill := x.spill ++ [(c, r, recordBucket r)] })) s

/-- Kind 2 of REPAIR (R466): the die is fenced. It is treated as a reset die for traffic to it, and what it homes is lost. The launches
that name it have been pre-empted, so their contexts stand in their save areas: they lose nothing else, and are not marked. -/
def fenceDie (s : State) (d : Nat) : State :=
  let s := s.live.foldl (loseArea d) (stopCopies s d)
  let s := loseReturns (loseAsks (s.modDie d fun x => { x with fenced := true }) d) d
  let cores := (s.cores.map Prod.fst).filter fun k => decide (dieOfCore k = d)
  let s := cores.foldl (fun s k => (s.core k).arrivals.foldl (turnBack .capsuleReset k) s) s
  let asked := ((s.die d).pages ++ (s.die d).pageWait).flatMap PageReq.who
  let s := asked.foldl (fun s q => walkDone s q none 0) (s.modDie d fun x => { x with pages := [], pageWait := [] })
  loseTraffic (moveRecords s d) d

/-! ## Function-level reset (R419) -/

/-- A byte of the memories that a reset zeroes; a repaired slice keeps its frames in the die's HBM (R28, R466). -/
def wiped (s : State) (d k : Nat) : Bool :=
  match keyRegion k with
  | 0 => decide (s.homeDie k = d)
  | 1 => decide (s.homeDie k = d)
  | 2 => decide (s.homeDie k = d)
  | 3 => decide (s.homeDie k = d)
  | _ => false

/-- Zero the die's memories, attribute words and plot entries. -/
def wipe (s : State) (d : Nat) : State :=
  { s with
    mem := s.mem.filter fun x => !wiped s d x.1
    ue := s.ue.filter fun x => !wiped s d x.1
    fe := s.fe.filter fun x => decide (dieOfCore (x.1 / 65536) ≠ d)
    frameAttr := s.frameAttr.filter fun x => !wiped s d (x.1 * 2 ^ 16)
    plots := s.plots.filter fun x => !wiped s d (x.1 * 4096) }

/-- The ports of a die train again. -/
def untrain (s : State) (d : Nat) : State :=
  { s with links := s.links.filter fun x => !(portsOf d).contains (x.1 / 2) }

/-- JUNCTION_HOT and JUNCTION_COOL: the budget refill is lowered, and restored (R468). -/
def execJunctionHot (die : Nat) (s : State) : Out :=
  let cores := (s.cores.map Prod.fst).filter fun k => dieOfCore k = die
  .next ((cores.foldl settleBudget s).modDie die fun d => { d with hot := true })
def execJunctionCool (die : Nat) (s : State) : Out := .next (s.modDie die fun d => { d with hot := false })

/-- PACKAGE_FUNCTION_RESET: the registers of package function 0 alone (R419, R464). -/
def execPackageFunctionReset (s : State) : Out :=
  .next { s with
    pkgid := 0, faben := false, discDone := false, discConflict := false, snapEnable := 0, snapSeq := 0, snapAt := none
    fattrRefused := false, repairRefused := false, repairsDone := 0 }

/-! ## TDISP (R461) -/

/-- STOP_INTERFACE: CONFIG_UNLOCKED, from ERROR once the reset has completed, which here is one step, and from CONFIG_LOCKED and RUN as
in TDISP (R10). -/
def execStopInterface (die : Nat) (s : State) : Out := .next (s.modDie die fun d => { d with tdisp := .configUnlocked })

/-- LOCK_INTERFACE: from CONFIG_UNLOCKED. The function has its IDE keys from here on; how they are agreed on is outside the model
(R20; log 56). -/
def execLockInterface (die : Nat) (s : State) : Out :=
  .next (if (s.die die).tdisp = .configUnlocked then
    { s.modDie die (fun d => { d with tdisp := .configLocked, keys := some (d.keys.getD (Config.ideKey s.draws)) }) with draws := s.draws + 1 }
  else s)

/-- START_INTERFACE: from CONFIG_LOCKED. -/
def execStartInterface (die : Nat) (s : State) : Out :=
  .next (s.modDie die fun d => if d.tdisp = .configLocked then { d with tdisp := .run } else d)

end Sys2Proof.Machine
end

