-- ==== Sys2Proof/Machine/Links.lean ====
section
/-! DEFINITION. The Ubon links: packets, flits, credits and replay (R444-R451), training, discovery and boot (R454, R455),
fenced ports, the optical wavelengths (R456, R457), and the reset of a die (R419). -/

namespace Sys2Proof.Machine

/-! ## Packets (R446, R447) -/

/-- The die at the far side of a port from the Granary. -/
def portDie (p : Nat) : Nat :=
  if p < 512 then p / 32 else if p < 576 then 17 + (p - 512) / 8 else if p < 592 then 25 + (p - 576) / 8 else 27 + (p - 592) / 8

/-- The die of an end; optical port p of the package is port p - 8j of optical die j = p div 8 (R456). -/
def endDie (e : LinkEnd) : Nat :=
  if e.port ≥ 1024 then 17 + (e.port - 1024) / 8 else if e.granary then granaryDie else portDie e.port

/-- DIEID of a die (R454). -/
def dieId (d : Nat) : List Byte := ((bytesOf 64 (Config.identity d).toNat).drop 4).take 8

/-- DIEID of a die's descriptor, which on an optical port is the package's number (R454, R455). -/
def dieIdent (s : State) (e : LinkEnd) : List Byte :=
  let own := dieId (endDie e)
  if e.port ≥ 1024 then bytesOf 8 (natOf own / 2 ^ 10 * 2 ^ 10 + s.pkgid % 2 ^ 10) else own

/-- Unit of a die in region 6 (R23). -/
def dieUnit (d : Nat) : Nat := if d ≤ 16 then d else if d < 25 then 0x18 + (d - 17) else 0x20 + (d - 25)

/-- GA of the control unit of a die. -/
def unitGa (s : State) (d : Nat) : Word := gaOf s (6 * 2 ^ 50 + dieUnit d * 2 ^ 42)

/-- TYPE, CODE, GA, SRC, ARG and data of a message's packet. Requests that R447 gives no TYPE of their own travel as requests of type
0x15; a count request has its round in ARG and its increment as data (log 2). -/
structure Envelope where
  kind : Nat
  code : Option FaultCode
  ga : Word
  src : Word
  arg : Word
  data : List Byte
  deriving DecidableEq, Repr

/-- SRC of a task, and of a core that asks for itself. -/
def taskSrc (s : State) (q : Requester) : Word := physLane s q.slot
def coreSrc (s : State) (core : Nat) : Word := physLane s (refOf core 0)

/-- SRC of a packet that no slot asks for: the identity of its die (log 2). -/
def dieSrc (d : Nat) : Word := BitVec.ofNat 64 (natOf (dieId d))

/-- The home of the tile a name names, and its die; the Granary where the name does not resolve (R119, R121). -/
def nameKey (s : State) (name : Word) : Option Nat := (resolve s name).map fun bs => tileKey bs (nameIter name) (nameTile name)
def nameDie (s : State) (name : Word) : Nat := ((nameKey s name).map s.homeDie).getD granaryDie

/-- GA of a packet for a cluster's router, which has no address: the first byte of its cluster's first core (log 2). -/
def routerGa (s : State) (router : Nat) : Word := gaOf s (localKey (router * 16) 0)

/-- GA of a reservation: the berths of the core it asks, or of the first core of its cluster where it takes any. -/
def berthsGa (s : State) (step : Word) : Word :=
  gaOf s (berthKey (if stepAny step then stepCluster step * 16 else stepCore step) 0)

/-- The die that sends a Press packet: of the child it comes from, or of the parent (R428). -/
def pressSender (s : State) (p : PressPkt) : Nat :=
  if p.up then s.pressAt (pressChild p.node p.child) else s.pressAt (pressParent p.node)

/-- What a Press packet carries besides its round: identifier and generation, operator, format, SAT, MODE, flags, partial, present
count and lanes (R339, R425, R426; the layout is log 2's). -/
def pressData (p : PressPkt) : List Byte :=
  bytesOf 2 (p.gid + p.gen * 2 ^ 12) ++ bytesOf 1 p.op ++ bytesOf 1 p.fmt ++
  bytesOf 1 (p.mode + 8 * b2n p.sat + 16 * b2n p.bar + 32 * b2n p.up + 64 * b2n p.bad) ++
  bytesOf 1 (b2n p.nan + 2 * b2n p.pinf + 4 * b2n p.minf + 8 * b2n p.negz + 16 * b2n p.zpos) ++ bytesOf 1 p.child ++ bytesOf 1 0 ++
  bytesOf 4 p.count ++ bytesOf 4 p.lanes ++ bytesOf 40 (wrap 320 p.part)

/-- The trigger of a registration: the first one in ARG, all of them as data where there are more. -/
def waitArg (w : WaitFor) : Word × List Byte :=
  match w with
  | .lth _ _ _ [t] => (t, [])
  | .lth _ _ _ ts => (ts.headD 0, words8 ts)
  | .arm _ _ t => (t, [])
  | .ldtAddr gran => (BitVec.ofNat 64 gran, [])
  | .macc => (0, [])
where
  words8 (ts : List Word) : List Byte := ts.flatMap fun t => bytesOf 8 t.toNat

/-- What a message's packet carries, control packets without their GA. -/
def contents (s : State) (m : Instr) : Envelope :=
  let first (ps : List (Nat × List Byte)) : Word := gaOf s ((ps.head?.map Prod.fst).getD 0)
  match m with
  | .storeData p => ⟨0x01, none, first p.parts, taskSrc s p.req, 0, p.parts.flatMap Prod.snd⟩
  | .loadReply p => ⟨0x02, p.answer.code, p.answer.ga, taskSrc s p.req, p.answer.a, p.answer.bytes⟩
  | .tileFill p => ⟨0x03, none, p.ga, taskSrc s p.req, p.named.getD 0, p.bytes⟩
  | .tileDelivery r p => ⟨0x04, p.code, routerGa s r, dieSrc (nameDie s p.name), p.name, p.bytes⟩
  | .copyData core _ ga bs => ⟨0x05, none, ga, coreSrc s core, 0, bs.map fun b => b.getD 0⟩
  | .joinPacket p => ⟨0x10, none, p.ga, taskSrc s p.req, p.value, []⟩
  | .valueCountRequest p => ⟨0x11, none, p.ga, taskSrc s p.req, BitVec.ofNat 64 p.round, bytesOf 8 p.inc.toNat⟩
  | .thresholdRegistration p => ⟨0x12, none, p.ga, taskSrc s p.req, (waitArg p.wait).1, (waitArg p.wait).2⟩
  | .exactRead p => ⟨0x13, none, p.ga, taskSrc s p.req, 0, []⟩
  | .interest r _ p => ⟨0x14, none, if r = homeRouter then gaOf s ((nameKey s p.name).getD 0) else routerGa s r, taskSrc s p.req, p.name, []⟩
  | .plotRequest p => ⟨0x15, none, p.ga, taskSrc s p.req, p.desc, []⟩
  | .freezeRequest p => ⟨0x15, none, p.ga, taskSrc s p.req, p.desc, []⟩
  | .closeRequest p => ⟨0x15, none, unitGa s granaryDie, taskSrc s p.req, BitVec.ofNat 64 (p.tensor + 2 ^ 16 * p.iter), []⟩
  | .nameResolution p => ⟨0x15, none, unitGa s granaryDie, taskSrc s p.req, p.name, []⟩
  | .tensorTableWrite p => ⟨0x15, none, unitGa s granaryDie, taskSrc s p.req, p.num, p.image⟩
  | .thresherSort q => ⟨0x15, none, unitGa s granaryDie, taskSrc s q.req, BitVec.ofNat 64 q.n, []⟩
  | .seedRegistryRequest q => ⟨0x15, none, unitGa s granaryDie, dieSrc q.die, q.seed, []⟩
  | .loadRequest p => ⟨0x16, none, gaOf s ((p.parts.head?.map Prod.fst).getD 0), taskSrc s p.req, 0, []⟩
  | .berthReservation p => ⟨0x20, none, berthsGa s p.step, coreSrc s p.src, p.step, []⟩
  | .capsuleTransfer p => ⟨0x21, none, gaOf s (berthKey p.dst p.dstBerth), coreSrc s p.src, 0, p.bytes⟩
  | .capsuleReturn p => ⟨0x21, some p.code, gaOf s (cfqKey ((returnDie s p).getD 0) 0),
      (p.src.map fun x => coreSrc s x.1).getD 0, 0, p.bytes⟩
  | .acknowledgement p => ⟨0x30, p.code, 0, taskSrc s p.req, p.ga, []⟩
  | .wake p => ⟨0x31, p.answer.code, 0, taskSrc s p.req, p.answer.a, p.answer.bytes⟩
  | .maccSlotReady core a => ⟨0x31, a.code, 0, coreSrc s core, a.a, a.bytes⟩
  | .armFire core _ c => ⟨0x31, c, 0, coreSrc s core, 0, []⟩
  | .neverAnswer _ p => ⟨0x32, p.code, 0, dieSrc (nameDie s p.name), p.name, []⟩
  | .purge _ t lo hi => ⟨0x33, none, 0, dieSrc granaryDie, BitVec.ofNat 64 t, bytesOf 4 lo ++ bytesOf 4 hi⟩
  | .berthGrant p => ⟨0x34, none, 0, coreSrc s p.dst, 0, []⟩
  | .channelChange p => ⟨0x35, none, 0, taskSrc s p.req, 0, []⟩
  | .shootDown d c => ⟨0x36, none, 0, dieSrc d, BitVec.ofNat 64 c, []⟩
  | .pressPacket p => ⟨0x37, none, 0, dieSrc (pressSender s p), BitVec.ofNat 64 p.round, pressData p⟩
  | .discover e d => ⟨0x38, none, 0, BitVec.ofNat 64 (natOf (dieIdent s { e with granary := !e.granary })), 0,
      bytesOf 64 d.toNat⟩
  | .portsync e last => ⟨0x39, none, 0, BitVec.ofNat 64 (natOf (dieIdent s { e with granary := !e.granary })), last.setWidth 64, []⟩
  | _ => ⟨0x31, none, 0, 0, 0, []⟩

/-- The channel that a TYPE fixes (R447). -/
def typeChannel (t : Nat) : Option Nat :=
  if 1 ≤ t ∧ t ≤ 6 then some 0 else if 0x10 ≤ t ∧ t ≤ 0x16 then some 1
  else if t = 0x20 ∨ t = 0x21 then some 2 else if 0x30 ≤ t ∧ t ≤ 0x39 then some 3 else none

/-- The die whose control unit takes a control packet. -/
def unitDie (s : State) (m : Instr) : Nat :=
  match m with
  | .discover x _ => endDie x
  | .portsync x _ => endDie x
  | .berthGrant p => dieOfCore p.src
  | .acknowledgement p => ackDie s p.req p.ack
  | .wake p => (placeOf s p.req).die
  | .maccSlotReady core _ => dieOfCore core
  | .armFire core _ _ => dieOfCore core
  | _ => (destDie s m).getD granaryDie

/-- What a message's packet carries: a control packet names the control unit it goes to (R446). -/
def envelope (s : State) (m : Instr) : Envelope :=
  let e := contents s m
  if typeChannel e.kind = some 3 then { e with ga := unitGa s (unitDie s m) } else e

/-- Slots of 64 bytes. -/
def slotsFrom : Nat → List Byte → List (BitVec 512)
  | 0, _ => []
  | n + 1, bs => BitVec.ofNat 512 (natOf (bs.take 64)) :: slotsFrom n (bs.drop 64)

/-- The packet of a transit. -/
def packetOf (s : State) (t : Transit) : Packet :=
  let e := envelope s t.msg
  let n := 1 + (e.data.length - 32 + 63) / 64
  let header := bytesOf 1 e.kind ++ bytesOf 1 ((e.code.map codeNum).getD 0) ++ bytesOf 2 n ++ bytesOf 4 t.xid ++
    bytesOf 8 e.ga.toNat ++ bytesOf 8 e.src.toNat ++ bytesOf 8 e.arg.toNat
  ⟨t.xid, (typeChannel e.kind).getD 3, slotsFrom n (header ++ e.data), false⟩

/-! ## Flits (R445, R448) -/

/-- One byte of the CRC-32 of IEEE 802.3, eight bits. -/
def crcBits : Nat → BitVec 32 → BitVec 32
  | 0, c => c
  | n + 1, c => crcBits n (if c.getLsbD 0 then (c >>> 1) ^^^ 0xEDB88320#32 else c >>> 1)

def crc32 (bs : List Byte) : BitVec 32 :=
  ~~~(bs.foldl (fun c b => crcBits 8 (c ^^^ b.setWidth 32)) (BitVec.allOnes 32))

/-- CHK of a flit: bits [95:0] of its header and its payload. -/
def flitCheck (ctrl : BitVec 128) (slots : List (BitVec 512)) : BitVec 32 :=
  crc32 (bytesOf 12 (ctrl.toNat % 2 ^ 96) ++ slots.flatMap fun x => bytesOf 64 x.toNat)

/-- The other end of a port. -/
def otherEnd (e : LinkEnd) : LinkEnd := { e with granary := !e.granary }

/-- Element of a vector by channel. -/
def at4 {α : Type} (v : Vector α 4) (c : Nat) (d : α) : α := v.getD c d

/-- A channel with a slot ready and a credit. -/
def canSend (l : Link) (c : Nat) : Bool := decide (at4 l.out c [] ≠ []) && decide (0 < at4 l.credits c 0)

/-- The channel that takes a slot position: in the first, one that has sent nothing for 15 flits; else the highest. -/
def nextChannel (l : Link) (first : Bool) : Option Nat :=
  let starved := ([3, 2, 1, 0] : List Nat).find? fun c => canSend l c && decide (15 ≤ at4 l.idle c 0)
  let highest := ([3, 2, 1, 0] : List Nat).find? (canSend l)
  if first then starved.orElse fun _ => highest else highest

/-- A filled slot: channel, bytes, and whether it continues and ends its packet. -/
structure Filled where
  chan : Nat
  data : BitVec 512
  cont : Bool
  last : Bool
  deriving DecidableEq, Repr

/-- Take the next slot of a channel. -/
def takeSlot (l : Link) (c : Nat) : Option (Filled × Link) :=
  match at4 l.out c [] with
  | [] => none
  | p :: t => match p.slots with
    | [] => none
    | x :: xs =>
      let last := xs.isEmpty
      some (⟨c, x, at4 l.begun c false || p.goesOn, last⟩, { l with
        out := l.out.setIfInBounds c (if last then t else { p with slots := xs } :: t)
        begun := l.begun.setIfInBounds c (!last)
        credits := l.credits.setIfInBounds c (at4 l.credits c 0 - 1) })

/-- Fill slot positions in order. -/
def fillSlots : Nat → Bool → Link → List Filled × Link
  | 0, _, l => ([], l)
  | n + 1, first, l =>
    match nextChannel l first with
    | none => ([], l)
    | some c => match takeSlot l c with
      | none => ([], l)
      | some (x, l) => let (xs, l) := fillSlots n false l; (x :: xs, l)

/-- Bits of the filled slots: TAGS, VALID, CONT and LAST. -/
def slotBits (xs : List Filled) : Nat :=
  (xs.zipIdx.map fun (x, k) => x.chan * 4 ^ k + 2 ^ (8 + k) + b2n x.cont * 2 ^ (12 + k) + b2n x.last * 2 ^ (16 + k)).sum

/-- Flits that a sender may hold unacknowledged (R450). -/
def replayPlaces (e : LinkEnd) : Nat := if e.port < 1024 then 256 else 2048

/-- Channels that had a slot and a credit and sent nothing count it. -/
def countIdle (before after : Link) (xs : List Filled) : Link :=
  { after with idle := Vector.ofFn fun c : Fin 4 =>
      if xs.any (fun x => decide (x.chan = c.val)) then 0 else if canSend before c.val then at4 before.idle c.val 0 + 1 else 0 }

/-- Credits to return: at most 15 slots a channel. -/
def credField (l : Link) : Nat := ((List.range 4).map fun c => min 15 (at4 l.give c 0) * 16 ^ c).sum

/-- A new flit. -/
def newFlit (l : Link) : Flit × Link :=
  let (xs, m) := fillSlots 4 true l
  let m := countIdle l m xs
  let seq := l.seq + 1
  let body : BitVec 128 := BitVec.ofNat 128 (slotBits xs + seq.toNat * 2 ^ 32 + l.lastRx.toNat * 2 ^ 48 + b2n l.nak * 2 ^ 64 + credField l * 2 ^ 80)
  let slots := (List.range 4).map fun k => ((xs[k]?).map Filled.data).getD 0
  let f : Flit := ⟨BitVec.ofNat 128 (body.toNat + (flitCheck body slots).toNat * 2 ^ 96), slots⟩
  (f, { m with seq := seq, replay := m.replay ++ [f], due := false, give := m.give.map fun n => n - min 15 n })

/-- Transits that leave from an end; before it is open, only its DISCOVER. -/
def leavingFrom (s : State) (e : LinkEnd) : List Transit :=
  s.transits.filter fun t => decide (t.hops.head? = some e) &&
    ((s.link e).isOpen || match t.msg with | .discover _ _ => true | _ => false)

/-- Give each of them its place in the queue of its channel. -/
def enqueue (s : State) (e : LinkEnd) : Link :=
  let l := s.link e
  let ts := leavingFrom s e
  let new := ts.filter fun t => !l.taken.contains t.xid
  let l := new.foldl (fun l t =>
    let p := packetOf s t
    { l with out := l.out.setIfInBounds p.chan (at4 l.out p.chan [] ++ [p]) }) l
  { l with taken := ts.map Transit.xid }

/-- The end can send a flit: one again, a new one with slots, or an acknowledgement. -/
def sendReady (s : State) (e : LinkEnd) : Bool :=
  let l := enqueue s e
  l.trained && decide (l.resent < 16) &&
  (!l.again.isEmpty || (decide (l.replay.length < replayPlaces e) && (l.due || ([0, 1, 2, 3] : List Nat).any (canSend l))))

/-- FLIT_SEND. -/
def execFlitSend (e : LinkEnd) (s : State) : Out :=
  if !sendReady s e then .next s
  else
    let l := enqueue s e
    match l.again with
    | f :: t =>
      let oldest := decide (l.replay.head? = some f)
      .next ((s.setLink e { l with again := t, resent := if oldest then l.resent + 1 else l.resent }).again (.flitReceive (otherEnd e) f))
    | [] => let (f, l) := newFlit l; .next ((s.setLink e l).again (.flitReceive (otherEnd e) f))

def flitSeq (f : Flit) : BitVec 16 := f.ctrl.extractLsb' 32 16
def flitAck (f : Flit) : BitVec 16 := f.ctrl.extractLsb' 48 16

/-- A flit that passes CHK and keeps its reserved bits zero (R445). -/
def flitOk (f : Flit) : Bool :=
  let c := f.ctrl.toNat
  let valid := c / 2 ^ 8 % 16
  decide (c / 2 ^ 96 = (flitCheck f.ctrl f.slots).toNat) && decide (c / 2 ^ 20 % 2 ^ 12 = 0) && decide (c / 2 ^ 65 % 2 ^ 15 = 0) &&
  decide (f.slots.length = 4) &&
  (List.range 4).all fun k => decide (valid / 2 ^ k % 2 = 1) ||
    (decide (c / 2 ^ (12 + k) % 2 = 0) && decide (c / 2 ^ (16 + k) % 2 = 0))

/-- The hops that are left, over a port that works (R451), which `choose` gives for a die, a number, a transaction and a side. -/
def rehop (choose : Nat → Nat → Nat → Bool → Option Nat) (s : State) (t : Transit) : List LinkEnd → List LinkEnd
  | [] => []
  | e :: hs =>
    if (s.link e).isOpen then e :: hs
    else match choose (portDie e.port) (portKey t.msg t.xid) t.xid e.granary with
      | some p => { e with port := p } :: hs
      | none => e :: hs

/-- The waiting store that a channel-1 packet would go to, when it has to wait and the store is full (R449). -/
def fullStore (s : State) (e : LinkEnd) (m : Instr) : Option Nat :=
  let die := if e.granary ∨ 16 ≤ endDie e then granaryDie else endDie e
  if typeChannel (contents s m).kind = some 1 ∧ holdsBack s die m then some die else none

/-- A transit whose packet is whole leaves its hop: it is at its die, or waits for the next port (R12). One whose waiting store is full
stays in its slot buffer (R449). -/
def arrive (s : State) (e : LinkEnd) (xid : Nat) : State :=
  match s.transits.find? fun t => decide (t.xid % 2 ^ 32 = xid) && decide (t.hops.head? = some (otherEnd e)) with
  | none => s
  | some t =>
    match rehop s.portFor s t t.hops.tail with
    | [] =>
      let s := { s with transits := s.transits.filter (fun x => x.xid ≠ t.xid) }
      match fullStore s e t.msg with
      | some die => { s with stuck := s.stuck ++ [(die, e, t.msg)] }
      | none => s.again t.msg
    | hs => { s with transits := s.transits.map fun (x : Transit) => if x.xid = t.xid then { x with hops := hs } else x }

/-- A whole packet: discarded and counted when its TYPE does not belong to its channel. -/
def takePacket (s : State) (e : LinkEnd) (c : Nat) (slots : List (BitVec 512)) : State :=
  let head := (slots.head?.getD 0).toNat
  if typeChannel (head % 256) = some c then arrive s e (head / 2 ^ 32 % 2 ^ 32)
  else s.setLink e { s.link e with errors := (s.link e).errors + 1 }

/-- Slots of a channel received before a slot: those of its packet here, or, where it goes on with a packet from a fenced port, those
received there (R451). -/
def heldParts (l : Link) (c : Nat) (cont : Bool) : List (BitVec 512) × List (Nat × Nat × List (BitVec 512)) :=
  match at4 l.parts c [], l.carried.find? fun x => x.1 = c with
  | [], some x => if cont then (x.2.2, l.carried.erase x) else ([], l.carried)
  | ps, _ => (ps, l.carried)

/-- One slot of an accepted flit; its buffer is freed, unless its packet waits there for a place (R449). -/
def takeFlitSlot (e : LinkEnd) (f : Flit) (s : State) (k : Nat) : State :=
  let c := f.ctrl.toNat
  if c / 2 ^ (8 + k) % 2 = 0 then s
  else
    let ch := c / 4 ^ k % 4
    let l := s.link e
    let held := heldParts l ch (decide (c / 2 ^ (12 + k) % 2 = 1))
    let parts := held.1 ++ [f.slots.getD k 0]
    let last := decide (c / 2 ^ (16 + k) % 2 = 1)
    let took := s.setLink e { l with parts := l.parts.setIfInBounds ch (if last then [] else parts), carried := held.2, due := true }
    let t := if last then takePacket took e ch parts else took
    if t.stuck.length = s.stuck.length then
      let l := t.link e
      t.setLink e { l with give := l.give.setIfInBounds ch (at4 l.give ch 0 + 1) }
    else t

/-- Flits that an ACK covers leave the sender. -/
def dropAcked (l : Link) (ack : BitVec 16) : Link :=
  let keep := l.replay.filter fun f => decide ((ack - flitSeq f).toNat ≥ 2 ^ 15)
  { l with replay := keep, resent := if keep.length < l.replay.length then 0 else l.resent
           again := l.again.filter fun f => keep.contains f }

/-- FLIT_RECEIVE: in order and sound it is accepted; a duplicate is discarded; otherwise NAK (R450). -/
def execFlitReceive (e : LinkEnd) (f : Flit) (s : State) : Out :=
  let l := s.link e
  if !l.trained then .next s
  else if !flitOk f then .next (s.setLink e { l with nak := true, due := true })
  else if flitSeq f = l.lastRx + 1 then
    let c := f.ctrl.toNat
    let l := dropAcked { l with
      lastRx := flitSeq f
      nak := false
      credits := Vector.ofFn fun k : Fin 4 => at4 l.credits k.val 0 + c / 2 ^ (80 + 4 * k.val) % 16 } (flitAck f)
    let l := if bitOf (f.ctrl.extractLsb' 64 64) 0 then { l with again := l.replay } else l
    .next ((List.range 4).foldl (takeFlitSlot e f) (s.setLink e l))
  else if (l.lastRx - flitSeq f).toNat < 2 ^ 15 then .next (s.setLink e { l with due := true })
  else .next (s.setLink e { l with nak := true, due := true })

/-! ## Training and discovery (R444, R454) -/

/-- CLASS of a die. -/
def dieClass (d : Nat) : Nat := if d < 16 then 0 else if d = 16 then 1 else if d < 25 then 2 else 3

/-- Index of a port on its die: the ports of an optical die to other packages follow its 8 to the Granary (R12, R456). -/
def portIndex (e : LinkEnd) : Nat :=
  if e.port ≥ 1024 then 8 + (e.port - 1024) % 8
  else if e.granary then e.port else if e.port < 512 then e.port % 32 else e.port % 8

/-- Ubon ports of a die (R12, R456). -/
def diePorts (d : Nat) : Nat := if d < 16 then 32 else if d = 16 then 608 else if d < 25 then 16 else 8

/-- The descriptor that an end sends (R454): CLASS, VERSION, ports and the capabilities of compute dies and the Granary are given, and an
optical die homes nothing; the rest is the die's own (log 13). -/
def descriptor (s : State) (e : LinkEnd) : BitVec 512 :=
  let d := endDie e
  let own := bytesOf 64 (Config.identity d).toNat
  let caps := if d < 16 then bytesOf 2 0x006F else if d = 16 then bytesOf 2 0x004F else [own.getD 12 0 &&& 0x7F, 0]
  let mem := if 17 ≤ d ∧ d < 25 then bytesOf 8 0 else (own.drop 16).take 8
  BitVec.ofNat 512 (natOf (bytesOf 1 (dieClass d) ++ bytesOf 1 1 ++ (own.drop 2).take 2 ++ dieIdent s e ++ caps ++
    bytesOf 1 (diePorts d) ++ bytesOf 1 (portIndex e) ++ mem))

/-- Slot buffers of a receiver by channel (R449). -/
def slotBuffers : Nat := 64

/-- PORT_TRAINED: the end starts with its credits and sends its DISCOVER; it stays fenced until the other's is here. -/
def trainEnd (s : State) (e : LinkEnd) : State :=
  let (x, s) := s.fresh
  let s := s.setLink e { Link.reset with trained := true, fenced := true, credits := Vector.replicate 4 slotBuffers }
  { s with transits := s.transits ++ [⟨x, .discover (otherEnd e) (descriptor s e), [e]⟩] }

/-- Train both ends of a port, if it trains. -/
def trainPort (s : State) (p : Nat) : State :=
  let s' := { s with draws := s.draws + 1 }
  if Config.trains s.draws then trainEnd (trainEnd s' ⟨p, true⟩) ⟨p, false⟩ else s'

def execPortTrained (e : LinkEnd) (s : State) : Out := .next (trainEnd s e)

/-- The least-numbered compute die that works, where a record goes that no compute die's function carries (R460). -/
def leastDie (s : State) : Option Nat := (List.range 16).find? fun d => !s.dead d

/-- A LINK_LOST record of CLASS 1 for an end (R454): in the buffer of its die, in reset too; for a die without one, in that of the
compute die at the port's other end, or of the least-numbered one that works (log 13). -/
def portRecord (s : State) (e : LinkEnd) : State :=
  let d := if e.port < 512 then portDie e.port else (leastDie s).getD 0
  s.record d (recordFor 0 1 .linkLost none none 0)

/-- Reserved areas of a die are formed: launch slot plots and LCOUNT in lattice frames (R366). -/
def formAreas (s : State) (d : Nat) : State :=
  let s := (List.range launchSlots).foldl (fun s i =>
    formPlot s (slotPlotKey d i) (plotAttr kindFill 0x0B 12 false 0 false 0) 12) s
  let s := formPlot s (lcountKey d) (plotAttr kindCount 7 0 false 0 false 0) 0
  { s with frameAttr := (List.range 5).foldl (fun m i => SMap.set m 0 (slotPlotKey d 0 / 2 ^ 16 + i) 1) s.frameAttr }

/-- A die initialises (R455): its reserved areas are formed and it takes part in the package. -/
def initDie (s : State) (d : Nat) : State := (formAreas s d).modDie d fun x => { x with inReset := false }

/-- Every trained port of a compute die has heard its descriptors or timed out, and some port is open. -/
def discovered (s : State) (d : Nat) : Bool :=
  let ps := (portsOf d).filter fun p => (s.link ⟨p, true⟩).trained || (s.link ⟨p, false⟩).trained
  ps.all (fun p => (s.link ⟨p, true⟩).heard && (s.link ⟨p, false⟩).heard) && !(s.working d).isEmpty

/-- A compute die in reset initialises once its discovery has completed. -/
def tryInit (s : State) (d : Nat) : State :=
  if d < 16 ∧ (s.die d).inReset ∧ !(s.die d).fenced ∧ discovered s d then initDie s d else s

/-- A descriptor of this version whose reserved bytes are zero. -/
def descriptorOk (bs : List Byte) : Bool :=
  decide (fieldOf bs 1 1 = 1) && decide (fieldOf bs 24 40 = 0) && decide (fieldOf bs 12 2 < 128) && decide (fieldOf bs 0 1 < 6)

/-- The CLASS that fits the place at the other end. -/
def classFits (e : LinkEnd) (c : Nat) : Bool :=
  if e.port ≥ 1024 then decide (c = 2)
  else if !e.granary then decide (c = 1)
  else if e.port ≥ 592 then decide (c = 4 ∨ c = 5)
  else decide (c = dieClass (portDie e.port))

/-- Fence both ends of a port; what they hold stays for PORTSYNC (R451). -/
def fenceEnds (s : State) (p : Nat) : State :=
  let shut (l : Link) : Link := { l with trained := false, fenced := true, again := [] }
  (s.setLink ⟨p, true⟩ (shut (s.link ⟨p, true⟩))).setLink ⟨p, false⟩ (shut (s.link ⟨p, false⟩))

/-- Discovery of the fabric is done once every optical port that trained has heard its descriptor or timed out (R455, R464). -/
def settleFabric (s : State) : State :=
  let ports := (List.range 64).map fun i => s.link ⟨1024 + i, true⟩
  if s.faben ∧ ports.all fun l => !l.trained || l.heard then { s with discDone := true } else s

/-- DISCOVER: a sound descriptor opens the end. One of another version stays fenced with a record; a die of another class
is held out; a package that meets its own number sets CONFLICT (R454, R455). -/
def execDiscover (e : LinkEnd) (desc : BitVec 512) (s : State) : Out :=
  let bs := bytesOf 64 desc.toNat
  let l := s.link e
  if !l.trained then .next s
  else
    let s := settleFabric (s.setLink e { l with heard := true })
    if !descriptorOk bs then .next (tryInit (portRecord s e) (portDie e.port))
    else if !classFits e (fieldOf bs 0 1) then
      let d := portDie e.port
      .next (if e.granary ∧ e.port < 592 then
          let s := (portsOf d).foldl fenceEnds s
          if d < 16 then s.modDie d fun x => { x with fenced := true } else s
        else tryInit s d)
    else if e.port ≥ 1024 ∧ fieldOf bs 4 2 % 1024 = s.pkgid then .next { s with discConflict := true }
    else .next (tryInit (s.setLink e { s.link e with fenced := false }) (portDie e.port))

/-- DISCOVER_TIMEOUT: no descriptor within 10 microseconds. -/
def execDiscoverTimeout (e : LinkEnd) (s : State) : Out :=
  let l := s.link e
  if l.trained ∧ !l.heard then
    .next (tryInit (portRecord (settleFabric (s.setLink e { l with heard := true })) e) (portDie e.port))
  else .next s

/-- PACKAGE_BOOT: at power-on the ports train, but for the foreign ones; dies initialise as they discover (R455). -/
def execPackageBoot (s : State) : Out :=
  if s.booted then .next s else .next ((List.range 592).foldl trainPort { s with booted := true })

/-! ## Port failure (R450, R451) -/

/-- Each receiver of a fenced port tells the sender the last SEQ it accepted, over another port. -/
def sendSync (s : State) (e : LinkEnd) : State :=
  s.post (endDie e) (endDie (otherEnd e)) (.portsync (otherEnd e) (s.link e).lastRx)

/-- Fence a port (R451): its traffic moves; a compute die without a port is lost. -/
def fencePort (s : State) (p : Nat) : State :=
  let s := fenceEnds s p
  let d := portDie p
  if 592 ≤ p then s
  else if s.working d = [] then (if d < 16 then loseDie s d else s)
  else sendSync (sendSync s ⟨p, true⟩) ⟨p, false⟩

def execPortFence (e : LinkEnd) (s : State) : Out := .next (fencePort s e.port)

/-- The slots of a flit. -/
def flitSlots (f : Flit) : List Filled :=
  let c := f.ctrl.toNat
  (List.range 4).filterMap fun k =>
    if c / 2 ^ (8 + k) % 2 = 1 then
      some ⟨c / 4 ^ k % 4, f.slots.getD k 0, decide (c / 2 ^ (12 + k) % 2 = 1), decide (c / 2 ^ (16 + k) % 2 = 1)⟩
    else none

/-- The slots of a queued packet. -/
def packetSlots (p : Packet) : List Filled :=
  p.slots.zipIdx.map fun x => ⟨p.chan, x.1, p.goesOn || decide (0 < x.2), decide (x.2 + 1 = p.slots.length)⟩

/-- Slots in order, cut into packets at the last slot of each. -/
def cutPackets (c : Nat) : List (BitVec 512) → Bool → List Filled → List Packet
  | _, _, [] => []
  | acc, on, x :: t =>
    let on := if acc = [] then x.cont else on
    if x.last then ⟨0, c, acc ++ [x.data], on⟩ :: cutPackets c [] false t else cutPackets c (acc ++ [x.data]) on t

/-- What a fenced end had still to send on a channel after the last SEQ that the receiver accepted (R451): slots of flits it kept, then
those of packets in its queue. -/
def unsent (l : Link) (last : BitVec 16) (c : Nat) : List Packet :=
  let kept := (l.replay.filter fun f => decide ((flitSeq f - last - 1).toNat < 2 ^ 15)).flatMap flitSlots
  let queued := (at4 l.out c []).flatMap packetSlots
  let begun := at4 l.begun c false
  cutPackets c [] false ((kept.filter fun x => x.chan = c) ++
    match queued with | x :: t => { x with cont := x.cont || begun } :: t | [] => [])

/-- A packet of a fenced port goes to the queue of another; the slots of it that the receiver has go with it. -/
def movePacket (e : LinkEnd) (s : State) (p : Packet) : State :=
  let far := s.link (otherEnd e)
  let parts := if p.goesOn then at4 far.parts p.chan [] else []
  let head := ((parts ++ p.slots).head?.getD 0).toNat / 2 ^ 32 % 2 ^ 32
  match s.transits.find? fun t => decide (t.xid % 2 ^ 32 = head) && decide (t.hops.head? = some e) with
  | none => s
  | some t =>
    match s.portAgain (portDie e.port) (portKey t.msg t.xid) t.xid e.granary with
    | none => s
    | some n =>
      let d : LinkEnd := { e with port := n }
      let l := s.link d
      let s := s.setLink d { l with
        out := l.out.setIfInBounds p.chan (at4 l.out p.chan [] ++ [{ p with xid := t.xid }]), taken := l.taken ++ [t.xid] }
      let s := if parts = [] then s else
        let l := s.link (otherEnd d)
        (s.setLink (otherEnd e) { far with parts := far.parts.setIfInBounds p.chan [] }).setLink (otherEnd d)
          { l with carried := l.carried ++ [(p.chan, t.xid, parts)] }
      { s with transits := s.transits.map fun (x : Transit) => if x.xid = t.xid then { x with hops := d :: x.hops.tail } else x }

/-- A message that waits for a fenced end takes another port of its die (R451). -/
def moveTransit (e : LinkEnd) (s : State) (t : Transit) : State :=
  if t.hops.head? = some e then
    { s with transits := s.transits.map fun (x : Transit) => if x.xid = t.xid then { x with hops := rehop s.portAgain s t t.hops } else x }
  else s

/-- PORTSYNC: only what the receiver has not accepted goes to other ports of the two dies (R451). -/
def execPortsync (e : LinkEnd) (last : BitVec 16) (s : State) : Out :=
  let l := s.link e
  let s := ((List.range 4).flatMap (unsent l last)).foldl (movePacket e) s
  let s := s.setLink e { s.link e with replay := [], out := Vector.replicate 4 [], begun := Vector.replicate 4 false, taken := [] }
  .next (s.transits.foldl (moveTransit e) s)

/-- A port whose oldest flit was sent again 16 times. -/
def retrainDue (s : State) (e : LinkEnd) : Bool := (s.link e).trained && decide (16 ≤ (s.link e).resent)

/-- PORT_RETRAIN: the port trains and sends its unacknowledged flits again, or is fenced. -/
def execPortRetrain (e : LinkEnd) (s : State) : Out :=
  if !retrainDue s e then .next s
  else
    let t := { s with draws := s.draws + 1 }
    if Config.trains s.draws then
      let l := t.link e
      .next (t.setLink e { l with resent := 0, again := l.replay })
    else .next (fencePort t e.port)

/-! ## Wavelengths (R456, R457) -/

/-- A fibre, by port and direction. -/
def fibreKey (w : Wave) : Nat := w.port * 2 + w.fibre

/-- A spare of a fibre that works and carries nothing. -/
def Fibre.spare (m : Fibre) : Option (Fin 2) := ([0, 1] : List (Fin 2)).find? fun k => !m.bad.getLsbD (16 + k.val) && m.serves[k].isNone

/-- The active wavelength whose symbols a wavelength carries: its own, or the one that a spare replaces. -/
def Fibre.origin (m : Fibre) (lambda : Nat) : Option Nat := if lambda < 16 then some lambda else m.serves.getD (lambda - 16) none

/-- A wavelength of a fibre fails (R457): a spare takes the symbols it carried, or with no spare left their lane is fenced. -/
def Fibre.fail (m : Fibre) (lambda : Nat) : Fibre :=
  let n : Fibre := { m with
    bad := m.bad ||| (1#18 <<< lambda), serves := if lambda < 16 then m.serves else m.serves.setIfInBounds (lambda - 16) none }
  match m.origin lambda with
  | none => n
  | some o =>
    if m.shut.getLsbD (o / 8) then n
    else match n.spare with
      | some k => { n with serves := n.serves.set k (some o) }
      | none => { n with shut := n.shut ||| (1#2 <<< (o / 8)) }

/-- Lanes of a fibre that work. -/
def Fibre.lanes (m : Fibre) : Nat := 2 - b2n (m.shut.getLsbD 0) - b2n (m.shut.getLsbD 1)

/-- A wavelength fails; the port runs on the lanes left, and is fenced with the last. -/
def failWave (s : State) (w : Wave) : State :=
  let m := SMap.get s.waves Fibre.reset (fibreKey w)
  if 18 ≤ w.lambda ∨ m.bad.getLsbD w.lambda then s
  else
    let m := m.fail w.lambda
    let s := { s with waves := SMap.put s.waves (fibreKey w) m }
    let e : LinkEnd := ⟨1024 + w.port, true⟩
    let s := s.setLink e { s.link e with lanes := min (s.link e).lanes m.lanes }
    if m.lanes = 0 then fenceEnds s (1024 + w.port) else s

/-- SYMBOL_WINDOW: more than 2,048 corrected symbols in a window. -/
def execSymbolWindow (w : Wave) (corrected : Nat) (s : State) : Out := .next (if 2048 < corrected then failWave s w else s)
def execLossOfSignal (w : Wave) (s : State) : Out := .next (failWave s w)

/-! ## Reset of a die (R419, R422) -/

/-- DIE_RESET: the die alone is reset; its function's TDISP state is ERROR, and its ports train and discover again. -/
def resetDie (s : State) (d : Nat) : State :=
  if 16 ≤ d then s
  else
    let s := untrain (wipe (loseDie s d) d) d
    let old := s.die d
    let s := s.setDie d { Die.reset with tdisp := .error, fenced := old.fenced, hot := old.hot, worn := old.worn }
    if old.fenced then s else (portsOf d).foldl trainPort s

def execDieReset (die : Nat) (s : State) : Out := .next (resetDie s die)

/-- JUNCTION_CRITICAL: at 115 degrees the die enters reset (R468). -/
def execJunctionCritical (die : Nat) (s : State) : Out := .next (resetDie s die)

end Sys2Proof.Machine
end

