-- ==== Sys2Proof/Machine/Preempt.lean ====
section
/-! DEFINITION. Pre-emption, the save area with its context records, resume (R57, R305, R330, R345, R414-R418), and the repairs
that pre-empt (R18, R466, R467). -/

namespace Sys2Proof.Machine

/-! ## Halting (R414, R415) -/

/-- Bytes of a save area: header, a record for each bound slot, lane stores of core local memory (R415). -/
def areaBytes (s : State) (l : Launch) : Nat :=
  0x10000 + 0xE000 * l.ns s + (if l.lsspace then 0 else l.lsbytes * l.ns s)

/-- A save area lies in region 3 or 4 of this package and is large enough. -/
def areaOk (s : State) (l : Launch) (a : Word) : Bool :=
  let k := gaKey a
  let e := k + areaBytes s l - 1
  decide (gaPkg a = s.pkgid) && (decide (keyRegion k = 3) || decide (keyRegion k = 4)) && decide (bitsOf a 15 0 = 0) &&
  decide (keyRegion e = keyRegion k) && coordsOk (keyRegion k) (keyOff k) && coordsOk (keyRegion e) (keyOff e) &&
  (decide (keyRegion k = 4) || decide (s.homeDie k = s.homeDie e)) && !reservedKey k && !reservedKey e

/-- Send the halt to every bound die. -/
def startHalt (s : State) (l : Launch) : State :=
  let s := s.modLaunch l.num fun x => { x with phase := .halting }
  l.boundDies.foldl (fun s d => s.again (.preemptTriggerArrival d l.num)) s

/-- LCMD pre-empt: STATE 3 and a save area that holds the launch, or LERR[1]. A launch that is already halting goes on halting. -/
def execLcmdPreempt (die slot : Nat) (s : State) : Out :=
  match launchAt s die slot with
  | some l =>
    if (lstatOf s die slot).1 = stRunning ∧ areaOk s l (SMap.get (s.die die).lsave 0 slot) then
      .next (if l.phase = .running then startHalt s l else s)
    else .next (refuseWrite s die)
  | none => .next (refuseWrite s die)

/-- Slots of a launch on a die. -/
def slotsOf (s : State) (launch : Nat) (here : SlotRef → Bool) : List SlotRef :=
  ((s.slots.filter fun x => x.2.occupied && decide (x.2.launch = launch)).map fun x => refOf (x.1 / 8) (x.1 % 8)).filter here

/-- Halt a slot: the turns it has lost while parked are counted, it issues no more, its claim is cleared, and an operation of its own at a boundary leaves the unit
(R390, R414, R463). A slot that BRK has halted stays so. -/
def haltSlot (s : State) (r : SlotRef) : State :=
  let s := (countParked r s).modSlot r fun x => if x.halt = .no then { x with halt := .preempt } else x
  let s := unclaim s r.coreKey r.slot
  match (s.core r.coreKey).running with
  | some o => if o.slot = r.slot ∧ o.claimed then requeue (unclaim s r.coreKey unitClaim) r.coreKey o else s
  | none => s

/-- PREEMPT_TRIGGER_ARRIVAL: the halt reaches the slots of a die. -/
def execPreemptTriggerArrival (die launch : Nat) (s : State) : Out :=
  match s.launch launch with
  | some l =>
    if l.phase = .halting then .next ((slotsOf s launch fun r => decide (r.die = die)).foldl haltSlot s) else .next s
  | none => .next s

/-! ## The context record (R416) -/

/-- Bytes from `lo` on whose form the implementation fixes, by what they hold (log 11). -/
def saveBytes (what : List Nat) (lo n : Nat) : List Byte := (List.range n).map fun i => Config.saveByte what (lo + i)

/-! What those parts hold, as numbers. -/

def instrNats (i : Instr) : List Nat := match encode i with | some x => [x.1.toNat, x.2.toNat] | none => []

def pairNats (l : List (Nat × Nat)) : List Nat := l.length :: l.flatMap fun x => [x.1, x.2]

def reqNats (q : Requester) : List Nat := [skey q.slot, q.task, q.launch, q.key.toNat, q.llane.toNat]

def kindNats (k : CopyKind) : List Nat :=
  match k with
  | .plain src dst len => [0, src, dst, len]
  | .tile d => [1, d.toNat]
  | .deal d => [2, d.toNat]
  | .arm src dst len loc t => [3, src, dst, len, loc.toNat, t.toNat]
  | .sort ks ps po to_ n kb pw => [4, n, kb, pw] ++ pairNats ks ++ pairNats ps ++ pairNats po ++ pairNats to_

def copyNats (c : CopyReq) : List Nat :=
  [c.tag, c.dseg.toNat, c.sseg.toNat, c.nseg.toNat, c.notify.elim 0 (· + 1)] ++ reqNats c.req ++ kindNats c.kind

def tableNats (t : Table) : List Nat := t.map BitVec.toNat

def opNats (o : MatOp) : List Nat :=
  instrNats (.mzero o.tile) ++ pairNats [(o.slot, o.mf), (b2n o.sc, o.a), (o.b, o.asc), (o.bsc, o.mask.toNat), (o.code, b2n o.norm),
    (o.rmode.toNat, b2n o.keepRm), (o.step, o.total), (o.base, o.waited), (o.overtaken, b2n o.sending), (b2n o.stored, 0),
    ((match o.kind with | .mma => 0 | .mmah => 1 | .mhoop => 2 | .mdrain => 3 | .macc => 4), o.waitXid.elim 0 (· + 1))] ++
  pairNats (o.before.map fun x => (x.1, x.2.toNat)) ++ o.gas.map BitVec.toNat ++ o.tables.elim [] fun t => tableNats t.1 ++ tableNats t.2.1 ++ tableNats t.2.2

def hoopNats (h : Hoop) : List Nat :=
  [b2n h.full, b2n h.infull, h.mask.toNat, h.mf, h.t] ++ (h.chunk ++ h.inbox).map BitVec.toNat

def interestNats (p : InterestPkt) : List Nat := [p.xid, p.tag.elim 0 (· + 1), p.name.toNat, p.n, p.dst.toNat] ++ reqNats p.req

def bundleNats (b : Bundle) : List Nat := [b.pc.toNat, b.succ.toNat] ++ instrNats b.first ++ b.second.elim [] instrNats

def waitNats (w : LoadWait) : List Nat :=
  (w.reqs.flatMap fun r => r.1 :: pairNats r.2) ++ pairNats w.vas ++
  (w.dst.elim [] fun d => [d.1.toNat, d.2]) ++ (w.held.elim [] fun bs => bs.map BitVec.toNat)

/-- A parked instruction with the requests it waits for and what their answers bring. -/
def parkNats (x : Slot) (p : Park) : List Nat :=
  instrNats p.instr ++ [p.pc.toNat, p.ea.toNat] ++ (match p.cond with
    | .answers xs => xs
    | .loads w => waitNats w
    | .again w _ => waitNats w
    | .mailbox off n => [off, n]
    | .berth n => [n]
    | .press g => [g]
    | .copyPlace c => copyNats c
    | .constants far ws => b2n far :: pairNats ws
    | _ => []) ++
  x.answers.flatMap fun a => [a.xid, a.code.elim 0 codeNum, a.ga.toNat, a.a.toNat, a.b.toNat] ++ a.bytes.map BitVec.toNat

/-- A wait that the table of R416 does not name, a JFENCE or the constant cache, has one of its kinds, which the spec does not state. -/
def openKind (what : List Nat) : Nat := 1 + (Config.saveByte what 8).toNat % 11

/-- Parking kind of a parked instruction (R416); a copy that finds its mailbox full parks as ST.put does (R282). -/
def parkKind (what : List Nat) (o : Option MatOp) (p : Park) : Nat :=
  match p.cond with
  | .loads _ => 5
  | .again _ _ => 5
  | .answers _ => match p.instr with
    | .lth _ => 1
    | .ldt _ _ _ => 1
    | .ldtAddr _ _ _ _ => 1
    | _ => 10
  | .tags _ _ => 3
  | .mailbox _ _ => 2
  | .fence _ => openKind what
  | .late _ => 4
  | .matrix => match o with
    | some o => if o.kind = .macc ∧ o.waitXid.isSome then 10 else 6
    | none => 6
  | .spawn _ => 7
  | .press _ => 8
  | .copyPlace _ => 2
  | .berth _ => 11
  | .translation => 9
  | .constants _ _ => openKind what

def bindingBits (b : Option Binding) : Nat := match b with | some b => 1 + 2 * b2n b.write + 4 * b.desc.toNat | none => 0

/-- Zeros up to byte `n` of an image. -/
def padTo (n : Nat) (bs : List Byte) : List Byte := (bs ++ List.replicate n 0).take n

def words (ws : List Word) : List Byte := ws.flatMap fun w => bytesOf 8 w.toNat

/-- The header of a record. -/
def contextHeader (s : State) (c : Context) : List Byte :=
  let x := c.slot
  let what := x.parks.flatMap (parkNats x)
  let kind := match x.parks with | p :: _ => parkKind what c.op p | [] => 0
  let lane := if isRepro s x.launch then BitVec.ofNat 64 (2 ^ 63 + x.lane) else physLane s c.place
  let berth := match x.capsule with | some b => 1 + 2 * b.toNat | none => 0
  words [x.pc, BitVec.ofNat 64 (kind + 256 * b2n (x.parks.any (parkMet s x))), lane, BitVec.ofNat 64 berth, BitVec.ofNat 64 x.frame] ++
  saveBytes what 0x28 0x98 ++ bytesOf 64 x.written.toNat

/-- Registers at 0x0180-0x02FF. -/
def contextRegs (x : Slot) : List Byte :=
  padTo 0x180 (words [x.getP 1, x.getP 2, x.getP 3, x.flags, x.rmode, x.round, x.fa, x.fb, x.fs] ++ words x.cw.toList ++
    words [repst x.rep, x.cause, x.prio.setWidth 64, tagsWord x] ++ x.tagCode.toList ++
    ((List.range 5).flatMap fun i => bytesOf 8 (x.unack.getD (i + 2) 0)) ++ words [(x.faultPending.setWidth 64) &&& 0x7C] ++
    (x.sd.toList.flatMap fun d => bytesOf 8 d.pos) ++ bytesOf 8 (bindingBits x.bind6 + 16 * bindingBits x.bind7))

/-- Copy mailbox, matrix operation with its sampled tables, Hoop latch with the STARTED bits, and interests withdrawn. -/
def contextWork (c : Context) : List Byte :=
  let x := c.slot
  saveBytes (x.mailbox.flatMap copyNats) 0x600 0x200 ++ saveBytes (c.op.elim [] opNats) 0x800 0x1000 ++
  saveBytes (x.started.toList.map b2n ++ c.hoop.elim [] hoopNats) 0x1800 0x400 ++
  saveBytes (c.interests.flatMap interestNats) 0x1C00 0x400

/-- A record of 57,344 bytes. -/
def contextBytes (s : State) (c : Context) : List Byte :=
  let x := c.slot
  padTo 0x100 (contextHeader s c) ++ words x.g.toList ++ contextRegs x ++
  (x.s.toList.flatMap fun g => bytesOf 16 g.toNat) ++ (x.sd.toList.flatMap fun d => bytesOf 32 d.image.toNat) ++
  (x.v.toList.flatMap fun v => bytesOf 64 v.toNat) ++ contextWork c ++ (tileImage x 0 ++ tileImage x 1) ++
  saveBytes ([b2n x.rep.due] ++ x.rep.body.flatMap bundleNats) 0x4000 0x800 ++ padTo 0x1800 c.tables ++ padTo 0x8000 c.frame

/-! ## Saving (R305, R330, R416) -/

/-- The core's copies that a task placed and the carter has taken; an arm registered is not among them. -/
def copiesOpen (s : State) (core task : Nat) : Bool :=
  (s.core core).jobs.any fun j => !j.armed && decide (j.copy.req.task = task)

def isLate (p : Park) : Bool := match p.cond with | .late _ => true | _ => false

/-- A slot whose task the carter can save: its copies and long operations are done, and its matrix operation has left the
unit. -/
def savable (s : State) (r : SlotRef) : Bool :=
  let x := s.slot r
  !x.ending && !x.parks.any isLate && !copiesOpen s r.coreKey x.task &&
  decide ((s.core r.coreKey).running.map MatOp.slot ≠ some r.slot)

/-- Interests of a task at its router or on their way there. -/
def ownInterests (s : State) (router task : Nat) : List InterestPkt :=
  ((s.router router).table.flatMap fun e => e.own.filter fun p => p.req.task = task) ++
  ((s.agenda ++ (s.die (router / 512)).store).filterMap fun m => match m with
    | .interest a b p => if a = router ∧ b = router ∧ p.req.task = task then some p else none
    | _ => none)

/-- The context of a task in its slot. -/
def contextOf (s : State) (r : SlotRef) (idx : Nat) : Context :=
  let x := s.slot r
  let c := s.core r.coreKey
  let op := (c.queue ++ c.running.toList).find? fun o => o.slot = r.slot
  { slot := { x with mailbox := x.mailbox.filter fun e => e.req.task = x.task }
    place := r
    idx := idx
    op := op.map fun o => { o with waited := o.waited + (s.cycle - o.since) }
    hoop := if c.hoop.owner = some x.task then some c.hoop else none
    interests := ownInterests s r.clusterKey x.task
    tables := s.loads (localKey r.coreKey (tableOff r.slot 3)) 5120
    frame := s.loads (localKey r.coreKey (0x20000 + 0x8000 * r.slot)) x.frame
    move := none }

/-- Withdraw the interests of a task (R305). -/
def withdraw (s : State) (router task : Nat) : State :=
  let mine (m : Instr) : Bool := match m with
    | .interest a b p => decide (a = router ∧ b = router ∧ p.req.task = task)
    | _ => false
  let rt := s.router router
  let s := s.setRouter router { rt with table := rt.table.map fun (e : Interest) =>
    { e with own := e.own.filter fun p => p.req.task ≠ task } }
  let t := (takeAside s mine).2
  { t with agenda := t.agenda.filter fun m => !mine m }

/-- Transactions of parks that wait for a berth. -/
def berthXids (x : Slot) : List Nat := x.parks.filterMap fun p => match p.cond with | .berth n => some n | _ => none

/-- A berth granted to a task that has not taken it is freed; the request is made again after restore. -/
def dropGrants (s : State) (r : SlotRef) : State :=
  let xs := berthXids (s.slot r)
  let got := (s.slot r).answers.filter fun a => xs.contains a.xid
  let s := s.modSlot r fun x => { x with answers := x.answers.filter fun a => !xs.contains a.xid }
  got.foldl (fun s a => freeBerth s r.coreKey (a.a.extractLsb' 0 2)) s

/-- Empty the slot of a saved task; waiters at banks and homes stay. -/
def vacate (s : State) (r : SlotRef) : State :=
  let x := s.slot r
  let s := s.setSlot r { Slot.empty with mailbox := x.mailbox.filter (fun e => e.req.task ≠ x.task), readyAt := x.readyAt }
  s.modCore r.coreKey fun c => { c with
    queue := c.queue.filter fun o => o.slot ≠ r.slot
    asks := c.asks.filter fun a => match a with | .local q _ _ _ => decide (q ≠ r) | _ => true
    hoop := if c.hoop.owner = some x.task then Hoop.idle else c.hoop }

/-- Save one task: its record is written and its slot is free. -/
def saveTask (s : State) (l : Launch) (r : SlotRef) : State :=
  let s := dropGrants s r
  let idx := l.indexOf s r
  let c := contextOf s r idx
  let s := s.stores (contextKey s l idx) (contextBytes s c)
  let s := vacate (withdraw s r.clusterKey c.slot.task) r
  s.modLaunch l.num fun x => { x with saved := x.saved ++ [c] }

/-- The local lane store of a bound slot. -/
def laneStoreKey (l : Launch) (r : SlotRef) : Nat := localKey r.coreKey (l.lsbase + l.lsbytes * r.slot)

/-- Whether lane stores lie in core local memory. -/
def Launch.localLanes (l : Launch) : Bool := !l.lsspace && decide (l.lsbytes ≠ 0)

def laneImages (s : State) (l : Launch) : List (Nat × List Byte) :=
  if l.localLanes then (List.range (l.ns s)).filterMap fun i => (l.slotAt s i).map fun r => (i, s.loads (laneStoreKey l r) l.lsbytes)
  else []

/-- What the header of the save area records (R415): the launch's records that are queued and spilled, its groups and its arms. -/
def launchNats (s : State) (l : Launch) : List Nat :=
  (s.queues.flatMap fun q => q.1 :: (q.2.filter fun r => r.launch = l.num).map fun r => r.key.toNat) ++
  (s.dies.flatMap fun d => (d.2.spill.filter fun x => x.2.1.launch = l.num).flatMap fun x => [d.1, x.1, x.2.1.key.toNat]) ++
  ((s.groups.filter fun g => g.2.launch = l.num).flatMap fun g =>
    [g.1, g.2.phase, g.2.gen] ++ g.2.members.map Requester.task ++ g.2.roundOf ++ g.2.arrived) ++
  (s.cores.flatMap fun c => (c.2.jobs.filter fun j => j.armed && decide (j.copy.req.launch = l.num)).flatMap fun j => j.id :: copyNats j.copy)

/-- Every record is written: lane stores and header follow, the area is sealed and STATE is 4. -/
def sealArea (s : State) (l : Launch) : State :=
  let images := laneImages s l
  let base := saveKey s l
  let n := areaBytes s l
  let at_ (i : Nat) : Nat := base + 0x10000 + 0xE000 * l.ns s + l.lsbytes * i
  let s := images.foldl (fun s x => s.stores (at_ x.1) x.2) s
  let s := s.stores base (saveBytes (launchNats s l) 0 0x10000)
  let keep : List (Nat × List Byte) :=
    if l.repro then images.filterMap fun x => ((l.slotAt s x.1).bind (l.slotLane s)).map fun lane => (lane, x.2) else images
  let s := s.modLaunch l.num fun x => { x with
    phase := .halted, laneStores := keep, laneGiven := [], check := Config.checkCode (s.loads base n), areaLen := n }
  setLaunchState s l.die l.plotSlot stHalted

/-! ## Restoring (R330, R418) -/

/-- The ring of a context: that of its Hoop latch, or of an MHOOP that waits. -/
def ringOf (c : Context) : Option (BitVec 16) :=
  match c.hoop with
  | some h => some h.mask
  | none => match c.op with
    | some o => if o.kind = .mhoop then some o.mask else none
    | none => none

/-- Two contexts halted on cores of one cluster. -/
def sameCluster (c d : Context) : Bool := decide (c.place.clusterKey = d.place.clusterKey)

/-- The ring a context is restored with (R330): its own; or that of a member core on which no task holds the ring, since a task there
may still join it. -/
def ringWith (l : Launch) (c : Context) : Option (BitVec 16) :=
  match ringOf c with
  | some m => some m
  | none =>
    let holder (m : BitVec 16) : Bool :=
      l.saved.any fun d => sameCluster c d && decide (d.place.core = c.place.core) && decide (ringOf d = some m)
    l.saved.findSome? fun d => match ringOf d with
      | some m => if sameCluster c d && m.getLsbD c.place.core && !holder m then some m else none
      | none => none

/-- Saved contexts in ascending record order (R418). -/
def Launch.inOrder (l : Launch) : List Context := sortBy (fun a b => decide (a.idx < b.idx)) l.saved

/-- The contexts restored together: the first one, with those of its ring. -/
def restoreUnit (l : Launch) : List Context :=
  match l.inOrder with
  | [] => []
  | c :: t => match ringWith l c with
    | none => [c]
    | some m => c :: t.filter fun d => sameCluster c d && decide (ringWith l d = some m)

/-- A Hoop latch that no task holds. -/
def latchFree (s : State) (core : Nat) : Bool :=
  match (s.core core).hoop.owner with
  | some t => !s.slots.any fun x => x.2.occupied && decide (x.2.task = t)
  | none => true

/-- A slot takes a context: bound, free, on the core asked for a berth where one was asked, with a free latch for a ring. -/
def takesContext (s : State) (l : Launch) (c : Context) (r : SlotRef) : Bool :=
  l.binds s r.coreKey && !s.absent r.die && !(s.slot r).occupied && (l.repro || decide (s.reservedTo r = none)) &&
  (match c.move with | some (k, _) => decide (r.coreKey = k) | none => true) &&
  ((ringOf c).isNone || latchFree s r.coreKey)

/-- A place for one context: its lane's slot, or a free bound slot, its own first (R418). -/
def placeOne (s : State) (l : Launch) (c : Context) : Option SlotRef :=
  if l.repro then (l.laneSlot s c.slot.lane).filter (takesContext s l c)
  else (c.place :: (l.cores s).flatMap fun k => (List.range 8).map (refOf k)).find? (takesContext s l c)

/-- Slots of a core for contexts, in ascending order from slot `j`. -/
def placeOn (s : State) (l : Launch) (core : Nat) : Nat → List Context → Option (List (Context × SlotRef))
  | _, [] => some []
  | j, c :: t =>
    match ((List.range (8 - j)).map fun i => refOf core (j + i)).find? (takesContext s l c) with
    | some r => (placeOn s l core (r.slot + 1) t).map fun rest => (c, r) :: rest
    | none => none

/-- A placement of contexts, with the new core within its cluster of each member core of their ring. -/
abbrev Placing := List (Context × SlotRef) × List (Nat × Nat)

/-- The first core from `first` on that takes the contexts of a member. -/
def placeMember (s : State) (l : Launch) (cluster first : Nat) (cs : List Context) : Option (Nat × List (Context × SlotRef)) :=
  ((List.range (16 - first)).map (first + ·)).findSome? fun k =>
    if l.binds s (cluster * 16 + k) then (placeOn s l (cluster * 16 + k) 0 cs).map fun ps => (k, ps) else none

/-- Places for the members of a ring on ascending cores of a cluster. -/
def placeRing (s : State) (l : Launch) (cluster : Nat) (u : List Context) : Nat → List Nat → Option Placing
  | _, [] => some ([], [])
  | first, m :: t =>
    match placeMember s l cluster first (u.filter fun c => c.place.core = m) with
    | some (k, ps) => (placeRing s l cluster u (k + 1) t).map fun rest => (ps ++ rest.1, (m, k) :: rest.2)
    | none => none

/-- Places for a unit (R330, R418): one context, or a ring: where it was if its slots are free, else on cores of one cluster in its
order. In reproducible mode lanes give the slots. -/
def placeUnit (s : State) (l : Launch) (u : List Context) : Option Placing :=
  match u with
  | [] => none
  | c :: _ =>
    match ringWith l c with
    | none => (placeOne s l c).map fun r => ([(c, r)], [])
    | some m =>
      if l.repro then (u.mapM fun x => (placeOne s l x).map fun r => (x, r)).map fun ps =>
        (ps, ps.map fun p => (p.1.place.core, p.2.core))
      else if u.all fun x => takesContext s l x x.place then some (u.map fun x => (x, x.place), [])
      else
        let members := (List.range 16).filter fun k => m.getLsbD k
        (c.place.clusterKey :: l.clusters s).findSome? fun k => placeRing s l k u 0 members

/-- A ring's mask on its new cores; a member core that no pair names keeps its bit (log 53). -/
def moveMask (to_ : List (Nat × Nat)) (m : BitVec 16) : BitVec 16 :=
  (List.range 16).foldl (fun (acc : BitVec 16) k =>
    if m.getLsbD k then acc ||| (1#16 <<< ((to_.find? fun p => p.1 = k).map Prod.snd).getD k) else acc) 0

/-- Ranges of local memory that move with a context: old start, new start, length. -/
abbrev Moves := List (Nat × Nat × Nat)

def moveAddr (ms : Moves) (a : Nat) : Nat :=
  match ms.find? fun m => decide (m.1 ≤ a) && decide (a < m.1 + m.2.2) with
  | some m => a - m.1 + m.2.1
  | none => a

/-- A segment within a moved range follows it. -/
def moveSeg (ms : Moves) (g : BitVec 128) : BitVec 128 :=
  if segSpace g ∨ segLimit g = 0 then g
  else match ms.find? fun m => decide (m.1 ≤ segBase g) && decide (segBase g + segLimit g ≤ m.1 + m.2.2) with
    | some m => mkSeg (segLimit g) false (segEx g) (segWr g) (segRd g) (segBase g - m.1 + m.2.1)
    | none => g

def moveWord (ms : Moves) (a : Word) : Word := BitVec.ofNat 64 (moveAddr ms a.toNat)

/-- Parks whose `ea` is a local address. -/
def movePark (ms : Moves) (p : Park) : Park :=
  match p.instr with
  | .ldt _ _ _ => { p with ea := moveWord ms p.ea }
  | .ldtAddr _ _ _ _ => { p with ea := moveWord ms p.ea }
  | .npub _ => { p with ea := moveWord ms p.ea }
  | _ => p

def moveCopy (ms : Moves) (c : CopyReq) : CopyReq :=
  { c with dseg := moveSeg ms c.dseg, sseg := moveSeg ms c.sseg, nseg := moveSeg ms c.nseg }

def moveOp (ms : Moves) (mask : BitVec 16 → BitVec 16) (slot : Nat) (o : MatOp) : MatOp :=
  { o with slot := slot, a := moveAddr ms o.a, b := moveAddr ms o.b, asc := moveAddr ms o.asc, bsc := moveAddr ms o.bsc, mask := mask o.mask,
           before := o.before.map fun x => (moveAddr ms x.1, x.2) }

/-- A context whose capsule has to move to another core (R305). -/
def movesCapsule (x : Context × SlotRef) : Bool := x.1.slot.capsule.isSome && decide (x.2.coreKey ≠ x.1.place.coreKey)

/-- Ask a core for a berth for the capsule of a context: the request takes its place among those of R132. -/
def askMove (n : Nat) (s : State) (x : Context × SlotRef) : State :=
  let k := x.2.coreKey
  let task := x.1.slot.task
  let s := s.modLaunch n fun l => { l with
    saved := l.saved.map fun c => if (Context.slot c).task = task then { c with move := some (k, none) } else c }
  grantBerths k 4 (s.modCore k fun c => { c with asks := c.asks ++ [.move n task s.xid] })

/-- A held capsule moves to the berth granted on the new core. -/
def moveCapsule (s : State) (c : Context) (r : SlotRef) : Option (BitVec 2) × State :=
  match c.slot.capsule, c.move with
  | some b, some (_, some n) =>
    let bytes := s.loads (berthKey c.place.coreKey b.toNat) 16640
    (some n, freeBerth (s.stores (berthKey r.coreKey n.toNat) bytes) c.place.coreKey b)
  | b, _ => (b, s)

/-- S2 of a task with its capsule (R298). -/
def berthOf (b : Option (BitVec 2)) (x : Slot) : Slot :=
  match b with
  | some n => x.setS 2 (berthSeg n (segLimit (x.getS 2)))
  | none => x

/-- The arms of a task follow it: their segments name the new core, and so do their registrations (R305, R418). -/
def moveArms (s : State) (ms : Moves) (task core : Nat) (r : SlotRef) : State :=
  let mine (j : Job) : Bool := j.armed && decide (j.copy.req.task = task)
  let arms := (s.core core).jobs.filter mine
  let to_ (j : Job) : Job := { j with copy := { moveCopy ms j.copy with req := { j.copy.req with slot := r } } }
  let s := s.modCore core fun c => { c with jobs := c.jobs.filter fun j => !mine j }
  let s := s.modCore r.coreKey fun c => { c with jobs := c.jobs ++ arms.map to_ }
  { s with waiters := s.waiters.map fun p => match p.wait with
      | .arm _ id t => if arms.any fun j => j.id = id then { p with wait := .arm r.coreKey id t } else p
      | _ => p }

/-- The moves of a context. -/
def contextMoves (l : Launch) (c : Context) (r : SlotRef) (b : Option (BitVec 2)) : Moves :=
  [(0x20000 + 0x8000 * c.place.slot, 0x20000 + 0x8000 * r.slot, c.slot.frame)] ++
  (if l.localLanes then [(l.lsbase + l.lsbytes * c.place.slot, l.lsbase + l.lsbytes * r.slot, l.lsbytes)] else []) ++
  (match c.slot.capsule, b with
    | some x, some y => [(berthOff x.toNat, berthOff y.toNat, 16640)]
    | _, _ => [])

/-- Give a slot the lane store that went with a context's binding (R57). -/
def giveLane (s : State) (l : Launch) (i : Nat) (r : SlotRef) : State :=
  match l.laneStores.find? fun x => x.1 = i with
  | some x =>
    let s := s.stores (laneStoreKey l r) x.2
    s.modLaunch l.num fun y => { y with
      laneStores := y.laneStores.filter fun z => z.1 ≠ i, laneGiven := l.indexOf s r :: y.laneGiven }
  | none => s

/-- The frame's written granules. -/
def restoreFrame (s : State) (r : SlotRef) (written : BitVec 512) (bs : List Byte) : State :=
  { s with mem := bs.zipIdx.foldl (fun m x =>
      if written.getLsbD (x.2 / 64) then SMap.set m 0 (localKey r.coreKey (0x20000 + 0x8000 * r.slot + x.2)) x.1 else m) s.mem }

/-- Groups whose entries follow a restored member now: those with no round in progress. -/
def regroup (s : State) (task : Nat) : State :=
  (s.groups.filter fun x => !x.2.root && x.2.roundOf.isEmpty && x.2.members.any fun m => decide (m.task = task)).foldl
    (fun s x => rebuild s x.1) s

/-- A load of a restored task whose replies had not all come is issued again (R195); one that waited for a translation still does. -/
def reissueLoad (x : Slot) (p : Park) : Park :=
  match p.cond with
  | .loads w => if w.reqs.all fun q => (answerOf x q.1).isSome then p else { p with cond := .again w false }
  | _ => p

/-- Restore one context to a slot. -/
def restoreTask (l : Launch) (mask : BitVec 16 → BitVec 16) (s : State) (x : Context × SlotRef) : State :=
  let (c, r) := x
  let k := r.coreKey
  let s := settleBudget (wakePort s r.clusterKey) k
  let (b, s) := moveCapsule s c r
  let ms := contextMoves l c r b
  let t := c.slot
  let s := s.setSlot r { berthOf b { t with s := t.s.map (moveSeg ms) } with
    parks := t.parks.map (movePark ms)
    mailbox := (s.slot r).mailbox ++ t.mailbox.map (moveCopy ms)
    capsule := b
    halt := if t.halt = .preempt then .no else t.halt
    readyAt := max s.cycle (s.slot r).readyAt + 8 }
  let s := restoreFrame (s.stores (localKey k (tableOff r.slot 3)) c.tables) r t.written c.frame
  let s := s.modCore k fun y => { y with
    queue := y.queue ++ (c.op.map fun o => moveOp ms mask r.slot { o with since := s.cycle }).toList
    hoop := match c.hoop with | some h => { h with mask := mask h.mask } | none => y.hoop
    asks := y.asks ++ (berthXids t).map fun n => .local r t.task n s.xid }
  let s := grantBerths k 4 s
  let s := c.interests.foldl (fun s p => s.again (.interest r.clusterKey r.clusterKey
    { p with req := { p.req with slot := r }, dst := moveWord ms p.dst })) s
  let s := s.modSlot r fun x => { x with parks := x.parks.map (reissueLoad x) }
  let s := moveArms s ms t.task c.place.coreKey r
  let s := if l.repro then s else giveLane s l c.idx r
  regroup s t.task

/-- After the last context: lane stores that no context took go to the other slots, in order. -/
def restLanes (s : State) (l : Launch) : State :=
  let places := (List.range (l.ns s)).filter fun i => !l.laneGiven.contains i
  let s := (l.laneStores.zip places).foldl (fun s x =>
    match l.slotAt s x.2 with | some r => s.stores (laneStoreKey l r) x.1.2 | none => s) s
  s.modLaunch l.num fun y => { y with laneStores := [], laneGiven := [] }

/-- Contexts of a placement whose capsules still need a berth to be asked for, and those for which none is granted. -/
def unasked (ps : List (Context × SlotRef)) : List (Context × SlotRef) := ps.filter fun x => movesCapsule x && x.1.move.isNone
def ungranted (ps : List (Context × SlotRef)) : List (Context × SlotRef) :=
  ps.filter fun x => movesCapsule x && !(match x.1.move with | some (_, some _) => true | _ => false)

/-- The next unit goes on: its berths are asked for, or it is restored. -/
def unitReadyToGo (p : Placing) : Bool := !(unasked p.1).isEmpty || (ungranted p.1).isEmpty

/-- Restore the next unit, once the berths that its capsules move to are reserved (R305). -/
def restoreNext (s : State) (l : Launch) : State :=
  match placeUnit s l (restoreUnit l) with
  | none => s
  | some (ps, cores) =>
    if unasked ps ≠ [] then (unasked ps).foldl (askMove l.num) s
    else if ungranted ps ≠ [] then s
    else
    let mask : BitVec 16 → BitVec 16 := moveMask cores
    let gone := ps.map fun p => p.1.slot.task
    let s := s.modLaunch l.num fun y => { y with saved := y.saved.filter fun c => !gone.contains c.slot.task }
    let s := ps.foldl (fun s p => restoreTask ((s.launch l.num).getD l) mask s p) s
    match s.launch l.num with
    | some l => if l.saved = [] then restLanes s l else s
    | none => s

/-- Every halt of a launch has arrived. -/
def haltsArrived (s : State) (n : Nat) : Bool :=
  !s.agenda.any fun m => match m with | .preemptTriggerArrival _ k => decide (k = n) | _ => false

/-- The next slot to save, in the order of the bound slot list. -/
def nextSave (s : State) (l : Launch) : Option SlotRef :=
  (slotsOf s l.num fun _ => true).find? (savable s)

/-- The carter can go on with a launch's contexts. -/
def saveReady (s : State) (l : Launch) : Bool :=
  match l.phase with
  | .halting => haltsArrived s l.num && ((nextSave s l).isSome || (slotsOf s l.num fun _ => true).isEmpty)
  | .running => !l.saved.isEmpty && (match placeUnit s l (restoreUnit l) with | some p => unitReadyToGo p | none => false)
  | _ => false

/-- The save area still holds what was saved, and every lane can have a slot. -/
def resumable (s : State) (l : Launch) : Bool :=
  decide (l.phase = .halted) && !l.lostDie && (!l.repro || decide (l.lanes ≤ l.ns s)) &&
  decide (Config.checkCode (s.loads (saveKey s l) l.areaLen) = l.check)

/-- STATE 3; in reproducible mode lane stores go to their lanes' slots. The first contexts are restored at once. -/
def resume (s : State) (l : Launch) : State :=
  let s := setLaunchState s l.die l.plotSlot stRunning
  let s := s.modLaunch l.num fun x => { x with phase := .running, repair := false }
  let s := if l.repro then
      let s := l.laneStores.foldl (fun s x => match l.laneSlot s x.1 with | some r => s.stores (laneStoreKey l r) x.2 | none => s) s
      s.modLaunch l.num fun x => { x with laneStores := [] }
    else s
  match s.launch l.num with
  | some l => if l.saved = [] then restLanes s l else restoreNext s l
  | none => s

/-- LCMD resume: STATE 4 and a save area whose check code agrees, or LERR[1]. -/
def execLcmdResume (die slot : Nat) (s : State) : Out :=
  match launchAt s die slot with
  | some l =>
    if (lstatOf s die slot).1 = stHalted ∧ resumable s l then .next (resume s l) else .next (refuseWrite s die)
  | none => .next (refuseWrite s die)

/-! ## Repairs (R18, R466, R467) -/

/-- The launches that a repair of kind 1 or 2 pre-empts: those with a slot on the core, or naming the die. -/
def repairHits (s : State) (v : Word) (l : Launch) : Bool :=
  decide (l.phase = .running ∨ l.phase = .halting) &&
  (if bitsOf v 3 0 = 1 then l.binds s ((bitsOf v 11 8 * 512 + bitsOf v 24 16) * 16 + bitsOf v 35 32)
   else if bitsOf v 3 0 = 2 then l.boundDies.contains (bitsOf v 11 8) else false)

/-- Bits of REPAIR that a kind uses (R464, R467). -/
def repairMask (kind : Nat) : Word :=
  [0, 0xF01FF0F0F, 0xF0F, 0x1FF0F, 0x1F0F0F, 0x1F13F0F].getD kind 0

/-- A spare of a die that backs no name and has not failed: the first in an order that is free (log 3). -/
def freeSpare (s : State) (d : Nat) : Option Nat :=
  (spares d).find? fun p => !(s.die d).worn.contains p && !(List.range 8192).any fun k => decide (pcoreOf s (8192 * d + k) = p)

/-- A core name is fenced: capsules that wait there cannot be taken and go back. -/
def fenceCore (s : State) (k : Nat) : State :=
  let s := s.modCore k fun c => { c with fenced := true }
  let asks := (s.core k).asks.filterMap fun a => match a with | .capsule p => some p | _ => none
  let s := unmove (fun c => decide (c = k)) s
  let s := asks.foldl (fun s p => refuse s p .capsulePlace) (s.modCore k fun c => { c with
    asks := c.asks.filter fun a => match a with | .local _ _ _ _ => true | _ => false })
  (s.core k).arrivals.foldl (turnBack .capsulePlace k) s

/-- Kind 1: a spare backs the name, or the name is fenced. -/
def repairCoreName (s : State) (k : Nat) : State :=
  let s := s.modDie (k / 8192) fun d => { d with worn := d.worn ++ [pcoreOf s k] }
  match freeSpare s (k / 8192) with
  | some p => s.modCore k fun c => { c with spare := some p }
  | none => fenceCore s k

/-- The action of a repair that has pre-empted its launches. -/
def repairAct (s : State) (v : Word) : State :=
  if bitsOf v 3 0 = 1 then repairCoreName s ((bitsOf v 11 8 * 512 + bitsOf v 24 16) * 16 + bitsOf v 35 32)
  else if bitsOf v 3 0 = 2 then fenceDie s (bitsOf v 11 8)
  else s

/-- Launches that a repair pre-empted and that can run go on; one that cannot stays halted. -/
def resumeAll (s : State) : State :=
  ((s.live.filter fun l => l.repair).map Launch.num).foldl (fun s n =>
    match s.launch n with
    | some l => if resumable s l then resume s l else s.modLaunch n fun x => { x with repair := false }
    | none => s) s

/-- Copies that the carters of a die have in hand. -/
def copiesOn (s : State) (d : Nat) : Bool := s.cores.any fun c => decide (dieOfCore c.1 = d) && c.2.jobs.any fun j => !j.armed

/-- Every launch that a repair waits for is halted or ended, and the carters of a die to be fenced have done their copies. -/
def repairReady (s : State) : Bool :=
  match s.repairWait with
  | none => false
  | some v => !(s.live.any fun l => l.repair && decide (l.phase = .halting)) &&
      !(decide (bitsOf v 3 0 = 2) && copiesOn s (bitsOf v 11 8))

/-- The repair is carried out and its launches resume. -/
def finishRepair (s : State) : State :=
  match s.repairWait with
  | none => s
  | some v =>
    let s := repairAct s v
    resumeAll { s with repairWait := none, repairBusy := false, repairsDone := s.repairsDone + 1 }

def refuseRepair (s : State) : State := { s with repairRefused := true }

/-- A REPAIR write that its layout admits, with no repair under way. -/
def repairOk (s : State) (kind : Nat) (v : Word) : Bool :=
  decide (bitsOf v 3 0 = kind) && decide (v &&& ~~~(repairMask kind) = 0) && !s.repairBusy

/-- Kinds 1 and 2: refused when a launch they would pre-empt has no valid save area; else those launches are halted. -/
def repairHalting (s : State) (kind : Nat) (v : Word) : State :=
  let hit := s.live.filter (repairHits s v)
  if !repairOk s kind v ∨ hit.any (fun l => !areaOk s l (SMap.get (s.die l.die).lsave 0 l.plotSlot)) then refuseRepair s
  else
    let s := { s with repairBusy := true, repairRefused := false, repairWait := some v }
    let s := hit.foldl (fun s l =>
      let s := s.modLaunch l.num fun x => { x with repair := true }
      if l.phase = .running then startHalt s l else s) s
    if repairReady s then finishRepair s else s

/-- A repair that pre-empts nothing. -/
def repairDone (s : State) : State := { s with repairRefused := false, repairsDone := s.repairsDone + 1 }

def execRepairCore (v : Word) (s : State) : Out := .next (repairHalting s 1 v)
def execRepairDie (v : Word) (s : State) : Out := .next (repairHalting s 2 v)

/-- Kind 3: the slice's frames move to HBM with their contents; those that cannot be read are retired. -/
def execRepairSlice (v : Word) (s : State) : Out :=
  let k := bitsOf v 16 8
  if !repairOk s 3 v ∨ s.dead (k % 16) then .next (refuseRepair s)
  else
    let lost := (s.ue.map Prod.fst).filter fun a => decide (keyRegion a = 2) && decide (keyOff a / 2 ^ 41 = k)
    .next (repairDone (lost.foldl spoil { s with sliceMoved := SMap.put s.sliceMoved k true }))

/-- Kind 4: a Ubon port is fenced. -/
def execRepairPort (v : Word) (s : State) : Out :=
  if repairOk s 4 v then .next (repairDone (fencePort s (32 * bitsOf v 11 8 + bitsOf v 20 16))) else .next (refuseRepair s)

/-- Kind 5: a wavelength's symbols move to a spare. -/
def execRepairWavelength (v : Word) (s : State) : Out :=
  if repairOk s 5 v ∧ bitsOf v 24 20 < 16 then .next (repairDone (failWave s ⟨bitsOf v 13 8, bitsOf v 16 16, bitsOf v 24 20⟩)) else .next (refuseRepair s)

/-! ## The carter's step -/

/-- CONTEXT_SAVE: the carter saves the next halted slot, or seals the area once all are saved; after a resume it restores
the contexts that had no place yet. Number 0, which no launch has, stands for a repair that waits for its launches. -/
def execContextSave (launch : Nat) (s : State) : Out :=
  match s.launch launch with
  | none => .next (if launch = 0 ∧ repairReady s then finishRepair s else s)
  | some l =>
    if !saveReady s l then .next s
    else if l.phase = .running then .next (restoreNext s l)
    else match nextSave s l with
      | some r => .next (saveTask s l r)
      | none =>
        let s := sealArea s l
        .next (if repairReady s then finishRepair s else s)

end Sys2Proof.Machine
end

