-- ==== Sys2Proof/Machine/Host.lean ====
section
/-! DEFINITION. What the host does to the device: control registers, BAR reads and writes, package function 0, frame
attributes and snapshots (R203, R361, R366-R370, R396, R399, R403, R409-R412, R460, R463-R465). -/

namespace Sys2Proof.Machine

/-! ## Reading control registers (R203, R367, R368, R399, R409-R412) -/

def packageUnit : Nat := 0x3F

/-- HELD, HOLD, CFQ and NEXT. -/
def fbstat (d : Die) : Nat :=
  d.nextSeq % 2 ^ 32 * 2 ^ 32 + b2n (decide (d.cfqHeld = cfqPlaces)) * 2 ^ 9 + b2n d.hold * 2 ^ 8 + d.faults.length

/-- The context of the slot that DBGSEL selects, while it is halted by BRK. -/
def debugContext (s : State) (die : Nat) : List Byte :=
  if debugHalted s die then
    let r := debugSlot s die
    let idx := match s.launch (s.slot r).launch with | some l => l.indexOf s r | none => 0
    contextBytes s (contextOf s r idx)
  else List.replicate 0xE000 0

/-- The 64-bit register at an offset of a compute die's control unit; other offsets read zero. -/
def dieRegister (s : State) (die off : Nat) : Nat :=
  let d := s.die die
  if 0x40000 ≤ off ∧ off < 0x40200 then let x := lstatOf s die ((off - 0x40000) / 8); x.2 * 256 + x.1
  else if 0x50000 ≤ off ∧ off < 0x50200 then (SMap.get d.lsave 0 ((off - 0x50000) / 8)).toNat
  else if off = 0x41008 then d.lcount
  else if off = 0x41018 then d.lerr.toNat
  else if off = 0x41020 then d.lnext
  else if off = 0x51000 then d.tsva.toNat
  else if off = 0x51008 then d.tslen.toNat
  else if off = 0x51018 then d.tsCount % 2 ^ 32 * 2 ^ 32 + b2n d.tsBusy
  else if off = 0x53000 then fbstat d
  else if off = 0x53008 then d.eqbase.toNat
  else if off = 0x53010 then d.eqsize.toNat
  else if off = 0x53018 then d.eqhead.toNat
  else if off = 0x53020 then d.eqtail.toNat
  else if off = 0x54000 then d.cfqHead * 2 ^ 16 + d.cfqHeld
  else if off = 0x55000 then d.dbgsel.toNat
  else if off = 0x55008 then b2n (debugHalted s die) + (s.slot (debugSlot s die)).launch * 2 ^ 16
  else 0

/-- Compute dies that run (R464). -/
def runningDies (s : State) : Nat := ((List.range 16).map fun d => b2n (!s.dead d) * 2 ^ d).sum

/-- A register of package function 0 (R464). -/
def packageRegister (s : State) (off : Nat) : Nat :=
  if off = 0 then s.pkgid
  else if off = 0x10 then runningDies s + b2n s.discDone * 2 ^ 16 + b2n s.discConflict * 2 ^ 17
  else if off = 0x100 then s.snapEnable + s.snapSeq % 2 ^ 32 * 2 ^ 32
  else if off = 0x208 then b2n s.fattrRefused * 2
  else if off = 0x308 then b2n s.repairBusy + b2n s.repairRefused * 2 + s.repairsDone % 2 ^ 32 * 2 ^ 32
  else 0

/-- A byte of the seed registry in the Granary's control unit: entry e at 0x00_8000 + 32e (R442). -/
def registryByte (s : State) (off : Nat) : Byte :=
  if 0x8000 ≤ off ∧ off < 0x8800 then
    match SMap.get s.seeds none ((off - 0x8000) / 32) with
    | some e => (bytesOf 8 e.seed.toNat ++ bytesOf 8 e.base.toNat ++ bytesOf 8 e.len.toNat ++ bytesOf 2 e.launch ++ bytesOf 6 1).getD (off % 32) 0
    | none => 0
  else 0

/-- A byte of a control unit of region 6: of a compute die, the Granary, package function 0, or an optical or host I/O die, which keeps
what is written to it (R458). A unit ends at 2^24 (R23); beyond it a byte reads as of no unit (log 56). -/
def registerByte (s : State) (ctl off : Nat) (ctx : List Byte) : Byte :=
  if 2 ^ 24 ≤ off then 0xFF
  else if ctl < 16 ∧ 0x60000 ≤ off ∧ off < 0x6E000 then ctx.getD (off - 0x60000) 0
  else if ctl = 16 then registryByte s off
  else if ctl ≠ packageUnit ∧ 16 < ctl then SMap.get s.ioRegs 0 (ctl * 2 ^ 24 + off)
  else
    let v := if ctl < 16 then dieRegister s ctl (off / 8 * 8) else packageRegister s (off / 8 * 8)
    BitVec.ofNat 8 (v / 2 ^ (8 * (off % 8)))

/-! ## How the host reaches the device (R459, R460)

BARs 0 and 2 of functions 0-16. Beside them the model numbers two ways that the spec gives without a BAR: 4, the Cellar half of host I/O die
`fn` offered through CXL.mem (R459), and 6, control unit `fn` of region 6 (R442, R458; log 59). -/

/-- Bytes of the Cellar half of a host I/O die. -/
def cellarHalf : Nat := 1536 * 2 ^ 30

/-- Where a byte of memory that the host reaches lies; none reads all ones and takes no write. -/
def windowKey (a : BarAcc) (off : Nat) : Option Nat :=
  if a.bar = 2 then
    if a.fn < 16 then (if off < 0xB80000000 then some (hbmKey a.fn off) else none)
    else if a.fn = 16 ∧ off < 0x30000000 then some (granaryKey (off / 0x180000) (off % 0x180000))
    else none
  else if a.bar = 4 ∧ a.fn < 2 ∧ off < cellarHalf ∧ !reservedKey (cellarKey (a.fn * cellarHalf + off)) then
    some (cellarKey (a.fn * cellarHalf + off))
  else none

/-- Host reads also reach the capsule fault queue. -/
def readKey (a : BarAcc) (off : Nat) : Option Nat :=
  if a.bar = 2 ∧ a.fn < 16 ∧ 0xBC4000000 ≤ off ∧ off < 0xBC4000000 + 16640 * cfqPlaces then some (hbmKey a.fn off) else windowKey a off

/-- The control unit that an access names; a reserved unit (R23) is none (log 56). -/
def accessUnit (a : BarAcc) : Option Nat :=
  if a.bar = 0 then (if a.fn < 16 then some a.fn else if a.fn = 16 then some packageUnit else none)
  else if a.bar = 6 ∧ unitExists a.fn then some a.fn
  else none

/-- The byte that a BAR access reaches is homed at a die in reset or fenced, such as the one that holds a repaired slice (R13, R28). -/
def homeDown (s : State) (k : Nat) : Bool := s.dead (s.homeDie k)

/-- What a host read of a byte gives, and the code of the record it writes. What a die in reset answers is the implementation's: the
`i`th choice (log 18). -/
def hostByte (s : State) (i k : Nat) : Byte × Option FaultCode :=
  if homeDown s k then (Config.hostByte (s.draws + i), none)
  else if s.isRetired k then (0xFF, some .memUe)
  else if s.isLattice k then
    if plotValid (s.plot k).attr then (if plotFrozen (s.plot k).attr then (s.load k, none) else (0xFF, some .unfrozenRead))
    else (0xFF, none)
  else (s.load k, none)

/-- One record of CLASS 1 for an access, with the first GA that calls for it: in the buffer of the die whose function carried the access,
or of the least compute die that works (R460; log 59 for CXL.mem). -/
def hostRecord (s : State) (a : BarAcc) (code : FaultCode) (k : Nat) : State :=
  match if a.bar = 2 ∧ a.fn < 16 then some a.fn else leastDie s with
  | some d => s.record d (recordFor 0 1 code none (some (gaOf s k)) 0)
  | none => s

/-- A record for each code met, at its first byte. -/
def hostRecords (s : State) (a : BarAcc) (codes : List FaultCode) (met : List (Nat × FaultCode)) : State :=
  codes.foldl (fun s c => match met.find? fun x => x.2 = c with | some x => hostRecord s a c x.1 | none => s) s

/-- Codes met by the bytes of a read. -/
def readCodes (s : State) (a : BarAcc) (n : Nat) : List (Nat × FaultCode) :=
  (List.range n).filterMap fun i => (readKey a (a.off + i)).bind fun k => (hostByte s i k).2.map fun c => (k, c)

/-- The function of a BAR access is that of a die which is in reset or fenced. -/
def functionDown (s : State) (a : BarAcc) : Bool := decide (a.bar ≤ 2) && decide (a.fn < 16) && s.dead a.fn

/-- Bytes of an access that names no BAR or unit: all ones, as PCI Express has it for a function that is absent (log 56). -/
def allOnes (n : Nat) : List Byte := List.replicate n 0xFF

/-- HOST_READ: what a die in reset answers is the implementation's (log 18). -/
def execHostRead (a : BarAcc) (n : Nat) (s : State) : Out :=
  if functionDown s a then
    .next { s with hostReply := some ((List.range n).map fun i => Config.hostByte (s.draws + i)), draws := s.draws + n }
  else match accessUnit a with
    | some u =>
      let ctx := if u < 16 ∧ 0x60000 < a.off + n ∧ a.off < 0x6E000 then debugContext s u else []
      let s := { s with hostReply := some ((List.range n).map fun i => registerByte s u (a.off + i) ctx) }
      .next (if u < 16 ∧ a.off < 0x41020 ∧ 0x41018 < a.off + n then s.modDie u fun d => { d with lerr := 0 } else s)
    | none =>
      if a.bar = 2 ∨ a.bar = 4 then
        let bs := (List.range n).map fun i => match readKey a (a.off + i) with | some k => (hostByte s i k).1 | none => 0xFF
        let down := (List.range n).any fun i => (readKey a (a.off + i)).any (homeDown s)
        let s := hostRecords s a [.unfrozenRead, .memUe] (readCodes s a n)
        .next { s with hostReply := some bs, draws := s.draws + b2n down * n }
      else .next { s with hostReply := some (allOnes n) }

/-! ## Writing control registers (R367, R370, R399, R403, R415) -/

/-- A write to a plain register: refused whole when it sets a bit its layout gives as zero. -/
def plainWrite (s : State) (die : Nat) (v mask : Word) (f : Die → Die) : Out :=
  .next (if v &&& ~~~mask = 0 then s.modDie die f else refuseWrite s die)

/-- LCMD (R370): the command's own effect, or LERR[1]. -/
def writeLcmd (die : Nat) (v : Word) (s : State) : Out :=
  let slot := bitsOf v 5 0
  if v &&& ~~~0x73F#64 ≠ 0 then .next (refuseWrite s die)
  else match bitsOf v 10 8 with
    | 1 => execLcmdPreempt die slot s
    | 2 => execLcmdResume die slot s
    | 3 => execLcmdTearDown die slot s
    | 4 => execLcmdRelease die slot s
    | _ => .next (refuseWrite s die)

/-- PRESP (R403). -/
def writePresp (die : Nat) (v : Word) (s : State) : Out :=
  let seq := bitsOf v 31 0
  if v &&& ~~~0x3FFFFFFFF#64 ≠ 0 then .next (refuseWrite s die)
  else match bitsOf v 33 32 with
    | 1 => execPrespRetry die seq s
    | 2 => execPrespDeny die seq s
    | _ => .next (refuseWrite s die)

/-- Bytes into the record windows; a window whose slot is not free takes none (R369). -/
def writeWindows (die off : Nat) (bs : List Byte) (s : State) : State :=
  s.modDie die fun d => { d with lwin := bs.zipIdx.foldl (fun m x =>
    let o := off + x.2
    if o < 0x40000 ∧ (SMap.get d.lstat (0, 0) (o / 4096)).1 = stFree then SMap.set m 0 o x.1 else m) d.lwin }

/-- Registers on which any write acts, whatever its value (R203, R367, R399). -/
def actsOnWrite : List Nat := [0x41000, 0x51010, 0x55010]

/-- A write of a 64-bit register of a compute die's control unit. -/
def writeDieRegister (die off : Nat) (v : Word) (s : State) : Out :=
  if s.dead die then .next s
  else if off < 0x40000 then .next (writeWindows die off (bytesOf 8 v.toNat) s)
  else if 0x50000 ≤ off ∧ off < 0x50200 then
    plainWrite s die v (~~~0xFFFF#64) fun d => { d with lsave := SMap.set d.lsave 0 ((off - 0x50000) / 8) v }
  else if off = 0x41000 then execLsubmit die s
  else if off = 0x41010 then writeLcmd die v s
  else if off = 0x51000 then plainWrite s die v 0xFFFFFFFFFF0000#64 fun d => { d with tsva := v }
  else if off = 0x51008 then plainWrite s die v 0xFFFFFFFFFFFF#64 fun d => { d with tslen := v }
  else if off = 0x51010 then execTsgo die s
  else if off = 0x52000 then writePresp die v s
  else if off = 0x53008 then execEqbase die v s
  else if off = 0x53010 then execEqsize die v s
  else if off = 0x53018 then execEqhead die v s
  else if off = 0x54008 then execCfqpop die v s
  else if off = 0x55000 then plainWrite s die v 0x7F1FF#64 fun d => { d with dbgsel := v }
  else if off = 0x55010 then execDbggo die s
  else .next s

/-! ## Package function 0 (R463-R465) -/

/-- FABEN: discovery of the fabric starts: the optical ports train, and those that do send their descriptors (R455). -/
def execFaben (v : Word) (s : State) : Out :=
  .next (if v = 1 ∧ !s.faben then
    settleFabric (((List.range 64).foldl (fun s i =>
      let t := { s with draws := s.draws + 1 }
      if Config.trains s.draws then trainEnd t ⟨1024 + i, true⟩ else t) { s with faben := true }))
  else s)

/-- A snapshot request at the root: it latches 128 cycles later, and merges with one that is pending. -/
def snapTrigger (s : State) : State := { s with snapAt := some (s.snapAt.getD (s.cycle + 128)) }

/-- SNAPCTL: the enables, and with bit 16 a trigger; SNAPSEQ is read only. -/
def execSnapctlTrigger (v : Word) (s : State) : Out :=
  if bitsOf v 31 17 ≠ 0 then .next s
  else
    let s := { s with snapEnable := bitsOf v 15 0 }
    .next (if bitOf v 16 then snapTrigger s else s)

/-- The pending snapshot is due. -/
def snapDue (s : State) : Bool := match s.snapAt with | some c => decide (c ≤ s.cycle) | none => false

/-- A core with its registers latched: the turns that its parked slots have lost up to now are among the parked turns. -/
def latchCore (s : State) (k : Nat) : Core :=
  let c := s.core k
  let lost := ((List.range 8).map fun j => lostTurns s (refOf k j)).sum
  { c with latched := { c.snap with parked := c.snap.parked + BitVec.ofNat 64 lost } }

/-- SNAPSHOT_LATCH: every block latches its registers, and SNAPSEQ counts it: every block records
the same number, so the package's copy holds it. -/
def execSnapshotLatch (s : State) : Out :=
  if snapDue s then
    let ks := (s.cores.map Prod.fst ++ (s.slots.map Prod.fst).map (· / 8)).dedup
    .next { s with
      snapAt := none
      snapSeq := s.snapSeq + 1
      cores := ks.foldl (fun m k => SMap.put m k (latchCore s k)) s.cores }
  else .next s

/-- The frame that FATTR names: its key, when its GA has a frame attribute word. -/
def fattrKey (s : State) (v : Word) : Option Nat :=
  let ga := v &&& ~~~0xFFFF#64
  let k := gaKey ga
  if gaPkg ga = s.pkgid ∧ 1 ≤ keyRegion k ∧ keyRegion k ≤ 4 ∧ coordsOk (keyRegion k) (keyOff k) ∧ !reservedKey k then some k else none

/-- Plot entries of a frame. -/
def framePlots (k : Nat) : List Nat := (List.range 16).map fun i => k + 4096 * i

/-- A change that R465 admits. -/
def fattrOk (s : State) (v : Word) (k : Nat) : Bool :=
  decide (bitsOf v 15 3 = 0) && decide (bitsOf v 2 1 < 2) && !(bitOf v 0 && decide (bitsOf v 2 1 ≠ 0)) &&
  !s.isRetired k && !(framePlots k).any fun p => plotValid (s.plot p).attr && !plotFrozen (s.plot p).attr

/-- FATTR: LAT and POLICY of the frame change, and its frozen plots are no longer VALID nor cached; or FSTAT[1]. -/
def execFattr (v : Word) (s : State) : Out :=
  match fattrKey s v with
  | some k =>
    if fattrOk s v k then
      let s := (framePlots k).foldl (fun s p =>
        if plotValid (s.plot p).attr then uncache (s.setPlot p { s.plot p with attr := (s.plot p).attr &&& ~~~(1#64 <<< 63) }) p else s) s
      .next { s with frameAttr := SMap.set s.frameAttr 0 (k / 2 ^ 16) (BitVec.ofNat 64 (bitsOf v 2 0)), fattrRefused := false }
    else .next { s with fattrRefused := true }
  | none => .next { s with fattrRefused := true }

/-- REPAIR (R466): by its kind. -/
def writeRepair (v : Word) (s : State) : Out :=
  match bitsOf v 3 0 with
  | 1 => execRepairCore v s
  | 2 => execRepairDie v s
  | 3 => execRepairSlice v s
  | 4 => execRepairPort v s
  | 5 => execRepairWavelength v s
  | _ => .next (refuseRepair s)

/-- A write to a register of package function 0. -/
def writePackageRegister (off : Nat) (v : Word) (s : State) : Out :=
  if off = 0 then .next (if bitsOf v 63 10 = 0 ∧ !s.faben then { s with pkgid := v.toNat } else s)
  else if off = 8 then execFaben v s
  else if off = 0x100 then execSnapctlTrigger v s
  else if off = 0x200 then execFattr v s
  else if off = 0x300 then writeRepair v s
  else .next s

/-- CONTROL_REGISTER_WRITE: a 64-bit register of a control unit; units of optical and host dies keep what is written
(R458); a write past the unit or to a reserved one has no effect (R23; log 56). -/
def execControlRegisterWrite (ctl off : Nat) (v : Word) (s : State) : Out :=
  if 2 ^ 24 < off + 8 ∨ !unitExists ctl then .next s
  else if ctl < 16 then writeDieRegister ctl off v s
  else if ctl = packageUnit then writePackageRegister off v s
  else if ctl = 16 then .next s
  else .next { s with ioRegs := (bytesOf 8 v.toNat).zipIdx.foldl (fun m x => SMap.set m 0 (ctl * 2 ^ 24 + off + x.2) x.1) s.ioRegs }

/-! ## Host writes (R460) -/

/-- A write that leaves the rest of a register alone acts where any write does. -/
def touchRegister (unit off : Nat) (n : Nat) (s : State) : Out :=
  match actsOnWrite.find? fun o => decide (off < o + 8) && decide (o < off + n) with
  | some o => if unit < 16 then writeDieRegister unit o 0 s else .next s
  | none => .next s

/-- Whole registers in ascending order, then what is left of the write. -/
def writeRegisters (unit : Nat) : Nat → Nat → List Byte → State → Out
  | 0, off, bs, s => touchRegister unit off bs.length s
  | n + 1, off, bs, s =>
    match execControlRegisterWrite unit off (BitVec.ofNat 64 (fieldOf bs 0 8)) s with
    | .next t => writeRegisters unit n (off + 8) (bs.drop 8) t
    | o => o

/-- The code of a host write to a byte; none where it is stored. -/
def writeCode (s : State) (k : Nat) : Option FaultCode :=
  if s.isRetired k then some .memUe else if s.isLattice k then some .prot else none

/-- HOST_WRITE. -/
def execHostWrite (a : BarAcc) (bytes : List Byte) (s : State) : Out :=
  if functionDown s a then .next s
  else match accessUnit a with
    | some u =>
      if u < 16 ∧ a.off < 0x40000 then .next (writeWindows u a.off bytes s)
      else if a.off % 8 = 0 then writeRegisters u (bytes.length / 8) a.off bytes s
      else touchRegister u a.off bytes.length s
    | none =>
      let keys := bytes.zipIdx.filterMap fun x => ((windowKey a (a.off + x.2)).filter fun k => !homeDown s k).map fun k => (k, x.1)
      let met := keys.filterMap fun x => (writeCode s x.1).map fun c => (x.1, c)
      let s' := keys.foldl (fun t x => if (writeCode s x.1).isNone then t.store x.1 x.2 else t) s
      .next (hostRecords s' a [.prot, .memUe] met)

end Sys2Proof.Machine
end

