-- ==== Sys2Proof/Machine/Dispatch.lean ====
section
/-! DEFINITION. One arm per row of the opcode table: the meaning of each. -/

namespace Sys2Proof.Machine

def exec (i : Instr) (s : State) : Host.Outcome State Fault Refusal :=
  match i with
  | .add x0 => Sys2Proof.Machine.execAdd x0 s
  | .sub x0 => Sys2Proof.Machine.execSub x0 s
  | .mul x0 => Sys2Proof.Machine.execMul x0 s
  | .mulh x0 => Sys2Proof.Machine.execMulh x0 s
  | .div x0 => Sys2Proof.Machine.execDiv x0 s
  | .rem x0 => Sys2Proof.Machine.execRem x0 s
  | .divideResult x0 => Sys2Proof.Machine.execDivideResult x0 s
  | .neg x0 => Sys2Proof.Machine.execNeg x0 s
  | .abs x0 => Sys2Proof.Machine.execAbs x0 s
  | .min x0 => Sys2Proof.Machine.execMin x0 s
  | .max x0 => Sys2Proof.Machine.execMax x0 s
  | .and x0 => Sys2Proof.Machine.execAnd x0 s
  | .or x0 => Sys2Proof.Machine.execOr x0 s
  | .xor x0 => Sys2Proof.Machine.execXor x0 s
  | .andn x0 => Sys2Proof.Machine.execAndn x0 s
  | .not x0 => Sys2Proof.Machine.execNot x0 s
  | .shl x0 => Sys2Proof.Machine.execShl x0 s
  | .shr x0 => Sys2Proof.Machine.execShr x0 s
  | .sar x0 => Sys2Proof.Machine.execSar x0 s
  | .rol x0 => Sys2Proof.Machine.execRol x0 s
  | .ror x0 => Sys2Proof.Machine.execRor x0 s
  | .clz x0 => Sys2Proof.Machine.execClz x0 s
  | .ctz x0 => Sys2Proof.Machine.execCtz x0 s
  | .ffs x0 => Sys2Proof.Machine.execFfs x0 s
  | .popc x0 => Sys2Proof.Machine.execPopc x0 s
  | .brev x0 => Sys2Proof.Machine.execBrev x0 s
  | .ext x0 => Sys2Proof.Machine.execExt x0 s
  | .ins x0 => Sys2Proof.Machine.execIns x0 s
  | .sext x0 => Sys2Proof.Machine.execSext x0 s
  | .zext x0 => Sys2Proof.Machine.execZext x0 s
  | .cmp x0 => Sys2Proof.Machine.execCmp x0 s
  | .setc x0 x1 => Sys2Proof.Machine.execSetc x0 x1 s
  | .sel x0 x1 x2 x3 => Sys2Proof.Machine.execSel x0 x1 x2 x3 s
  | .mov x0 x1 => Sys2Proof.Machine.execMov x0 x1 s
  | .movi x0 x1 x2 => Sys2Proof.Machine.execMovi x0 x1 x2 s
  | .movl x0 x1 x2 => Sys2Proof.Machine.execMovl x0 x1 x2 s
  | .lea x0 x1 => Sys2Proof.Machine.execLea x0 x1 s
  | .b x0 => Sys2Proof.Machine.execB x0 s
  | .bc x0 x1 => Sys2Proof.Machine.execBc x0 x1 s
  | .bz x0 x1 => Sys2Proof.Machine.execBz x0 x1 s
  | .bnz x0 x1 => Sys2Proof.Machine.execBnz x0 x1 s
  | .loop x0 x1 => Sys2Proof.Machine.execLoop x0 x1 s
  | .call x0 => Sys2Proof.Machine.execCall x0 s
  | .jmp x0 => Sys2Proof.Machine.execJmp x0 s
  | .ld x0 => Sys2Proof.Machine.execLd x0 s
  | .ldTake x0 => Sys2Proof.Machine.execLdTake x0 s
  | .st x0 => Sys2Proof.Machine.execSt x0 s
  | .stPut x0 => Sys2Proof.Machine.execStPut x0 s
  | .stReset x0 => Sys2Proof.Machine.execStReset x0 s
  | .ldp x0 x1 => Sys2Proof.Machine.execLdp x0 x1 s
  | .stp x0 x1 => Sys2Proof.Machine.execStp x0 x1 s
  | .movc x0 x1 => Sys2Proof.Machine.execMovc x0 x1 s
  | .movs x0 x1 => Sys2Proof.Machine.execMovs x0 x1 s
  | .segld x0 x1 => Sys2Proof.Machine.execSegld x0 x1 s
  | .segrd x0 x1 x2 => Sys2Proof.Machine.execSegrd x0 x1 x2 s
  | .trap x0 => Sys2Proof.Machine.execTrap x0 s
  | .vld x0 => Sys2Proof.Machine.execVld x0 s
  | .vst x0 => Sys2Proof.Machine.execVst x0 s
  | .vlds x0 => Sys2Proof.Machine.execVlds x0 s
  | .vsts x0 => Sys2Proof.Machine.execVsts x0 s
  | .vgath x0 => Sys2Proof.Machine.execVgath x0 s
  | .vscat x0 => Sys2Proof.Machine.execVscat x0 s
  | .vbcast x0 x1 x2 x3 => Sys2Proof.Machine.execVbcast x0 x1 x2 x3 s
  | .vmovgToG x0 x1 x2 x3 => Sys2Proof.Machine.execVmovgToG x0 x1 x2 x3 s
  | .vmovgToV x0 x1 x2 x3 => Sys2Proof.Machine.execVmovgToV x0 x1 x2 x3 s
  | .vadd x0 => Sys2Proof.Machine.execVadd x0 s
  | .vsub x0 => Sys2Proof.Machine.execVsub x0 s
  | .vmul x0 => Sys2Proof.Machine.execVmul x0 s
  | .vfma x0 => Sys2Proof.Machine.execVfma x0 s
  | .vfms x0 => Sys2Proof.Machine.execVfms x0 s
  | .vdiv x0 => Sys2Proof.Machine.execVdiv x0 s
  | .vmax x0 => Sys2Proof.Machine.execVmax x0 s
  | .vmin x0 => Sys2Proof.Machine.execVmin x0 s
  | .vabs x0 => Sys2Proof.Machine.execVabs x0 s
  | .vneg x0 => Sys2Proof.Machine.execVneg x0 s
  | .vcps x0 => Sys2Proof.Machine.execVcps x0 s
  | .vrcp x0 => Sys2Proof.Machine.execVrcp x0 s
  | .vrsq x0 => Sys2Proof.Machine.execVrsq x0 s
  | .vsqrt x0 => Sys2Proof.Machine.execVsqrt x0 s
  | .vexp2 x0 => Sys2Proof.Machine.execVexp2 x0 s
  | .vlog2 x0 => Sys2Proof.Machine.execVlog2 x0 s
  | .vsin x0 => Sys2Proof.Machine.execVsin x0 s
  | .vcos x0 => Sys2Proof.Machine.execVcos x0 s
  | .vtanh x0 => Sys2Proof.Machine.execVtanh x0 s
  | .verf x0 => Sys2Proof.Machine.execVerf x0 s
  | .specialFunctionResult x0 => Sys2Proof.Machine.execSpecialFunctionResult x0 s
  | .viadd x0 => Sys2Proof.Machine.execViadd x0 s
  | .visub x0 => Sys2Proof.Machine.execVisub x0 s
  | .vimul x0 => Sys2Proof.Machine.execVimul x0 s
  | .vimax x0 => Sys2Proof.Machine.execVimax x0 s
  | .vimin x0 => Sys2Proof.Machine.execVimin x0 s
  | .vand x0 => Sys2Proof.Machine.execVand x0 s
  | .vor x0 => Sys2Proof.Machine.execVor x0 s
  | .vxor x0 => Sys2Proof.Machine.execVxor x0 s
  | .vshl x0 => Sys2Proof.Machine.execVshl x0 s
  | .vshr x0 => Sys2Proof.Machine.execVshr x0 s
  | .vsar x0 => Sys2Proof.Machine.execVsar x0 s
  | .vclz x0 => Sys2Proof.Machine.execVclz x0 s
  | .vctz x0 => Sys2Proof.Machine.execVctz x0 s
  | .vpopc x0 => Sys2Proof.Machine.execVpopc x0 s
  | .vcmp x0 x1 x2 x3 x4 => Sys2Proof.Machine.execVcmp x0 x1 x2 x3 x4 s
  | .vsel x0 => Sys2Proof.Machine.execVsel x0 s
  | .vclass x0 => Sys2Proof.Machine.execVclass x0 s
  | .vpres x0 x1 x2 => Sys2Proof.Machine.execVpres x0 x1 x2 s
  | .vfilla x0 => Sys2Proof.Machine.execVfilla x0 s
  | .vcvt x0 => Sys2Proof.Machine.execVcvt x0 s
  | .vpack x0 => Sys2Proof.Machine.execVpack x0 s
  | .vunpk x0 => Sys2Proof.Machine.execVunpk x0 s
  | .vscale x0 x1 x2 x3 x4 => Sys2Proof.Machine.execVscale x0 x1 x2 x3 x4 s
  | .vred x0 => Sys2Proof.Machine.execVred x0 s
  | .vscan x0 => Sys2Proof.Machine.execVscan x0 s
  | .vperm x0 => Sys2Proof.Machine.execVperm x0 s
  | .vrot x0 => Sys2Proof.Machine.execVrot x0 s
  | .vzip x0 => Sys2Proof.Machine.execVzip x0 s
  | .vuzp x0 => Sys2Proof.Machine.execVuzp x0 s
  | .vsort x0 x1 x2 x3 => Sys2Proof.Machine.execVsort x0 x1 x2 x3 s
  | .vtopk x0 x1 x2 x3 x4 => Sys2Proof.Machine.execVtopk x0 x1 x2 x3 x4 s
  | .vmrgk x0 x1 x2 x3 x4 => Sys2Proof.Machine.execVmrgk x0 x1 x2 x3 x4 s
  | .vselgt x0 => Sys2Proof.Machine.execVselgt x0 s
  | .vselge x0 => Sys2Proof.Machine.execVselge x0 s
  | .vcompr x0 => Sys2Proof.Machine.execVcompr x0 s
  | .vrand x0 x1 x2 x3 => Sys2Proof.Machine.execVrand x0 x1 x2 x3 s
  | .rand x0 x1 => Sys2Proof.Machine.execRand x0 x1 s
  | .rngreg x0 x1 => Sys2Proof.Machine.execRngreg x0 x1 s
  | .seedRegistryRequest x0 => Sys2Proof.Machine.execSeedRegistryRequest x0 s
  | .sdset x0 x1 => Sys2Proof.Machine.execSdset x0 x1 s
  | .sdon x0 x1 x2 => Sys2Proof.Machine.execSdon x0 x1 x2 s
  | .sdoff x0 => Sys2Proof.Machine.execSdoff x0 s
  | .rep x0 => Sys2Proof.Machine.execRep x0 s
  | .repx x0 x1 => Sys2Proof.Machine.execRepx x0 x1 s
  | .fmtld x0 x1 => Sys2Proof.Machine.execFmtld x0 x1 s
  | .fmtsel x0 x1 => Sys2Proof.Machine.execFmtsel x0 x1 s
  | .join x0 => Sys2Proof.Machine.execJoin x0 s
  | .joinf x0 x1 x2 x3 => Sys2Proof.Machine.execJoinf x0 x1 x2 x3 s
  | .lth x0 => Sys2Proof.Machine.execLth x0 s
  | .ldf x0 => Sys2Proof.Machine.execLdf x0 s
  | .freeze x0 x1 => Sys2Proof.Machine.execFreeze x0 x1 s
  | .plot x0 x1 => Sys2Proof.Machine.execPlot x0 x1 s
  | .fillt x0 x1 x2 x3 x4 => Sys2Proof.Machine.execFillt x0 x1 x2 x3 x4 s
  | .ldt x0 x1 x2 => Sys2Proof.Machine.execLdt x0 x1 x2 s
  | .ldtAddr x0 x1 x2 x3 => Sys2Proof.Machine.execLdtAddr x0 x1 x2 x3 s
  | .npub x0 => Sys2Proof.Machine.execNpub x0 s
  | .nwant x0 x1 => Sys2Proof.Machine.execNwant x0 x1 s
  | .nclose x0 x1 => Sys2Proof.Machine.execNclose x0 x1 s
  | .ntensCreate x0 x1 => Sys2Proof.Machine.execNtensCreate x0 x1 s
  | .ntensDelete x0 x1 => Sys2Proof.Machine.execNtensDelete x0 x1 s
  | .jfence x0 => Sys2Proof.Machine.execJfence x0 s
  | .copy x0 x1 x2 x3 x4 x5 => Sys2Proof.Machine.execCopy x0 x1 x2 x3 x4 x5 s
  | .copyt x0 x1 => Sys2Proof.Machine.execCopyt x0 x1 s
  | .copyd x0 x1 => Sys2Proof.Machine.execCopyd x0 x1 s
  | .copya x0 x1 x2 x3 x4 => Sys2Proof.Machine.execCopya x0 x1 x2 x3 x4 s
  | .waitany x0 x1 => Sys2Proof.Machine.execWaitany x0 x1 s
  | .waitall x0 x1 => Sys2Proof.Machine.execWaitall x0 x1 s
  | .fready x0 x1 => Sys2Proof.Machine.execFready x0 x1 s
  | .freadyCode x0 x1 => Sys2Proof.Machine.execFreadyCode x0 x1 s
  | .tclr x0 => Sys2Proof.Machine.execTclr x0 s
  | .spawn x0 => Sys2Proof.Machine.execSpawn x0 s
  | .chset x0 x1 => Sys2Proof.Machine.execChset x0 x1 s
  | .chblk x0 => Sys2Proof.Machine.execChblk x0 s
  | .chunb x0 => Sys2Proof.Machine.execChunb x0 s
  | .capnew x0 x1 => Sys2Proof.Machine.execCapnew x0 x1 s
  | .capstep x0 x1 => Sys2Proof.Machine.execCapstep x0 x1 s
  | .capins x0 x1 => Sys2Proof.Machine.execCapins x0 x1 s
  | .capdel x0 => Sys2Proof.Machine.execCapdel x0 s
  | .capredir x0 x1 => Sys2Proof.Machine.execCapredir x0 x1 s
  | .caprd x0 x1 => Sys2Proof.Machine.execCaprd x0 x1 s
  | .mzero x0 => Sys2Proof.Machine.execMzero x0 s
  | .mma x0 => Sys2Proof.Machine.execMma x0 s
  | .mmah x0 => Sys2Proof.Machine.execMmah x0 s
  | .mhoop x0 x1 x2 x3 => Sys2Proof.Machine.execMhoop x0 x1 x2 x3 s
  | .mdrain x0 x1 x2 x3 => Sys2Proof.Machine.execMdrain x0 x1 x2 x3 s
  | .mdrainp x0 x1 x2 => Sys2Proof.Machine.execMdrainp x0 x1 x2 s
  | .macc x0 x1 x2 => Sys2Proof.Machine.execMacc x0 x1 x2 s
  | .mpri x0 => Sys2Proof.Machine.execMpri x0 s
  | .thresh x0 x1 x2 x3 x4 x5 x6 => Sys2Proof.Machine.execThresh x0 x1 x2 x3 x4 x5 x6 s
  | .gjoin x0 => Sys2Proof.Machine.execGjoin x0 s
  | .gleave x0 => Sys2Proof.Machine.execGleave x0 s
  | .gbar x0 => Sys2Proof.Machine.execGbar x0 s
  | .gcon x0 x1 x2 x3 => Sys2Proof.Machine.execGcon x0 x1 x2 x3 s
  | .grecv x0 x1 => Sys2Proof.Machine.execGrecv x0 x1 s
  | .gstat x0 x1 => Sys2Proof.Machine.execGstat x0 x1 s
  | .matrixKstep x0 => Sys2Proof.Machine.execMatrixKstep x0 s
  | .hoopLatchMove x0 => Sys2Proof.Machine.execHoopLatchMove x0 s
  | .hoopChunkSend x0 => Sys2Proof.Machine.execHoopChunkSend x0 s
  | .maccSlotReady x0 x1 => Sys2Proof.Machine.execMaccSlotReady x0 x1 s
  | .mailboxTake x0 => Sys2Proof.Machine.execMailboxTake x0 s
  | .copyComplete x0 x1 => Sys2Proof.Machine.execCopyComplete x0 x1 s
  | .armFire x0 x1 x2 => Sys2Proof.Machine.execArmFire x0 x1 x2 s
  | .thresherSort x0 => Sys2Proof.Machine.execThresherSort x0 s
  | .budgetRefill x0 => Sys2Proof.Machine.execBudgetRefill x0 s
  | .recordBind x0 => Sys2Proof.Machine.execRecordBind x0 s
  | .spillReturn x0 => Sys2Proof.Machine.execSpillReturn x0 s
  | .wakeAccept x0 => Sys2Proof.Machine.execWakeAccept x0 s
  | .translationWalk x0 => Sys2Proof.Machine.execTranslationWalk x0 s
  | .submissionFill x0 => Sys2Proof.Machine.execSubmissionFill x0 s
  | .lcountJoin x0 => Sys2Proof.Machine.execLcountJoin x0 s
  | .launchExpansion x0 => Sys2Proof.Machine.execLaunchExpansion x0 s
  | .launchCompletion x0 => Sys2Proof.Machine.execLaunchCompletion x0 s
  | .preemptTriggerArrival x0 x1 => Sys2Proof.Machine.execPreemptTriggerArrival x0 x1 s
  | .contextSave x0 => Sys2Proof.Machine.execContextSave x0 s
  | .shootDownAck x0 x1 => Sys2Proof.Machine.execShootDownAck x0 x1 s
  | .discover x0 x1 => Sys2Proof.Machine.execDiscover x0 x1 s
  | .flitSend x0 => Sys2Proof.Machine.execFlitSend x0 s
  | .flitReceive x0 x1 => Sys2Proof.Machine.execFlitReceive x0 x1 s
  | .portRetrain x0 => Sys2Proof.Machine.execPortRetrain x0 s
  | .portsync x0 x1 => Sys2Proof.Machine.execPortsync x0 x1 s
  | .storeData x0 => Sys2Proof.Machine.execStoreData x0 s
  | .loadRequest x0 => Sys2Proof.Machine.execLoadRequest x0 s
  | .loadReply x0 => Sys2Proof.Machine.execLoadReply x0 s
  | .joinPacket x0 => Sys2Proof.Machine.execJoinPacket x0 s
  | .valueCountRequest x0 => Sys2Proof.Machine.execValueCountRequest x0 s
  | .countRoundAnswer x0 => Sys2Proof.Machine.execCountRoundAnswer x0 s
  | .thresholdRegistration x0 => Sys2Proof.Machine.execThresholdRegistration x0 s
  | .exactRead x0 => Sys2Proof.Machine.execExactRead x0 s
  | .plotRequest x0 => Sys2Proof.Machine.execPlotRequest x0 s
  | .freezeRequest x0 => Sys2Proof.Machine.execFreezeRequest x0 s
  | .closeRequest x0 => Sys2Proof.Machine.execCloseRequest x0 s
  | .nameResolution x0 => Sys2Proof.Machine.execNameResolution x0 s
  | .tensorTableWrite x0 => Sys2Proof.Machine.execTensorTableWrite x0 s
  | .tileFill x0 => Sys2Proof.Machine.execTileFill x0 s
  | .interest x0 x1 x2 => Sys2Proof.Machine.execInterest x0 x1 x2 s
  | .tileDelivery x0 x1 => Sys2Proof.Machine.execTileDelivery x0 x1 s
  | .interestStall x0 x1 => Sys2Proof.Machine.execInterestStall x0 x1 s
  | .copyData x0 x1 x2 x3 => Sys2Proof.Machine.execCopyData x0 x1 x2 x3 s
  | .acknowledgement x0 => Sys2Proof.Machine.execAcknowledgement x0 s
  | .wake x0 => Sys2Proof.Machine.execWake x0 s
  | .neverAnswer x0 x1 => Sys2Proof.Machine.execNeverAnswer x0 x1 s
  | .purge x0 x1 x2 x3 => Sys2Proof.Machine.execPurge x0 x1 x2 x3 s
  | .waitingStoreRelease x0 x1 => Sys2Proof.Machine.execWaitingStoreRelease x0 x1 s
  | .berthReservation x0 => Sys2Proof.Machine.execBerthReservation x0 s
  | .berthGrant x0 => Sys2Proof.Machine.execBerthGrant x0 s
  | .capsuleTransfer x0 => Sys2Proof.Machine.execCapsuleTransfer x0 s
  | .gleanerBind x0 => Sys2Proof.Machine.execGleanerBind x0 s
  | .capsuleReturn x0 => Sys2Proof.Machine.execCapsuleReturn x0 s
  | .channelChange x0 => Sys2Proof.Machine.execChannelChange x0 s
  | .shootDown x0 x1 => Sys2Proof.Machine.execShootDown x0 x1 s
  | .clusterSleep x0 => Sys2Proof.Machine.execClusterSleep x0 s
  | .clusterWake x0 => Sys2Proof.Machine.execClusterWake x0 s
  | .pressPacket x0 => Sys2Proof.Machine.execPressPacket x0 s
  | .pressDrainToken x0 => Sys2Proof.Machine.execPressDrainToken x0 s
  | .watchdog x0 => Sys2Proof.Machine.execWatchdog x0 s
  | .faultRecordDrain x0 => Sys2Proof.Machine.execFaultRecordDrain x0 s
  | .faultRecordOffer x0 => Sys2Proof.Machine.execFaultRecordOffer x0 s
  | .fetch x0 => Sys2Proof.Machine.execFetch x0 s
  | .lsubmit x0 => Sys2Proof.Machine.execLsubmit x0 s
  | .lcmdPreempt x0 x1 => Sys2Proof.Machine.execLcmdPreempt x0 x1 s
  | .lcmdResume x0 x1 => Sys2Proof.Machine.execLcmdResume x0 x1 s
  | .lcmdTearDown x0 x1 => Sys2Proof.Machine.execLcmdTearDown x0 x1 s
  | .lcmdRelease x0 x1 => Sys2Proof.Machine.execLcmdRelease x0 x1 s
  | .dbggo x0 => Sys2Proof.Machine.execDbggo x0 s
  | .tsgo x0 => Sys2Proof.Machine.execTsgo x0 s
  | .eqbase x0 x1 => Sys2Proof.Machine.execEqbase x0 x1 s
  | .eqsize x0 x1 => Sys2Proof.Machine.execEqsize x0 x1 s
  | .eqhead x0 x1 => Sys2Proof.Machine.execEqhead x0 x1 s
  | .cfqpop x0 x1 => Sys2Proof.Machine.execCfqpop x0 x1 s
  | .fattr x0 => Sys2Proof.Machine.execFattr x0 s
  | .repairCore x0 => Sys2Proof.Machine.execRepairCore x0 s
  | .repairDie x0 => Sys2Proof.Machine.execRepairDie x0 s
  | .repairSlice x0 => Sys2Proof.Machine.execRepairSlice x0 s
  | .repairPort x0 => Sys2Proof.Machine.execRepairPort x0 s
  | .repairWavelength x0 => Sys2Proof.Machine.execRepairWavelength x0 s
  | .faben x0 => Sys2Proof.Machine.execFaben x0 s
  | .snapctlTrigger x0 => Sys2Proof.Machine.execSnapctlTrigger x0 s
  | .controlRegisterWrite x0 x1 x2 => Sys2Proof.Machine.execControlRegisterWrite x0 x1 x2 s
  | .hostRead x0 x1 => Sys2Proof.Machine.execHostRead x0 x1 s
  | .hostWrite x0 x1 => Sys2Proof.Machine.execHostWrite x0 x1 s
  | .prespRetry x0 x1 => Sys2Proof.Machine.execPrespRetry x0 x1 s
  | .prespDeny x0 x1 => Sys2Proof.Machine.execPrespDeny x0 x1 s
  | .dieReset x0 => Sys2Proof.Machine.execDieReset x0 s
  | .stopInterface x0 => Sys2Proof.Machine.execStopInterface x0 s
  | .lockInterface x0 => Sys2Proof.Machine.execLockInterface x0 s
  | .startInterface x0 => Sys2Proof.Machine.execStartInterface x0 s
  | .lerrRead x0 => Sys2Proof.Machine.execLerrRead x0 s
  | .uncorrectableError x0 x1 => Sys2Proof.Machine.execUncorrectableError x0 x1 s
  | .junctionHot x0 => Sys2Proof.Machine.execJunctionHot x0 s
  | .junctionCool x0 => Sys2Proof.Machine.execJunctionCool x0 s
  | .junctionCritical x0 => Sys2Proof.Machine.execJunctionCritical x0 s
  | .symbolWindow x0 x1 => Sys2Proof.Machine.execSymbolWindow x0 x1 s
  | .lossOfSignal x0 => Sys2Proof.Machine.execLossOfSignal x0 s
  | .portTrained x0 => Sys2Proof.Machine.execPortTrained x0 s
  | .discoverTimeout x0 => Sys2Proof.Machine.execDiscoverTimeout x0 s
  | .portFence x0 => Sys2Proof.Machine.execPortFence x0 s
  | .nop => Sys2Proof.Machine.execNop s
  | .ret => Sys2Proof.Machine.execRet s
  | .brk => Sys2Proof.Machine.execBrk s
  | .snap => Sys2Proof.Machine.execSnap s
  | .tend => Sys2Proof.Machine.execTend s
  | .capsend => Sys2Proof.Machine.execCapsend s
  | .capdone => Sys2Proof.Machine.execCapdone s
  | .packageFunctionReset => Sys2Proof.Machine.execPackageFunctionReset s
  | .packageBoot => Sys2Proof.Machine.execPackageBoot s
  | .scrub => Sys2Proof.Machine.execScrub s
  | .snapshotLatch => Sys2Proof.Machine.execSnapshotLatch s

end Sys2Proof.Machine
end

