-- ==== Sys2Proof/Machine/Turns.lean ====
section
/-! DEFINITION. One move of the package: a slot's turn with its bundle (R49, R141-R146, R384-R390), the delivery of a
message, or a step of a unit that acts by itself; and which of them can move next (R63, R353; log 1). -/

namespace Sys2Proof.Machine

/-! ## Issuing a bundle -/

def dispOf (o : Out) : Ended :=
  match o with
  | .next t => t.focus.disp
  | _ => .done

def isTrap (e : Ended) : Bool := match e with | .trapped _ _ => true | _ => false

/-- The slot still holds the task it held. -/
def sameTask (s t : State) (r : SlotRef) : Bool :=
  (t.slot r).occupied && decide ((t.slot r).task = (s.slot r).task)

/-- The registers a half reads, as they stood before the bundle (R142), in a slot that has gone on. A V-class half starts
with FLAGS clear, so that the bits it sets can be ORed. -/
def registersFrom (b x : Slot) (clear : Bool) : Slot :=
  { x with
    g := b.g, v := b.v, p := b.p, c := b.c, started := b.started, s := b.s
    flags := if clear then 0 else b.flags
    rmode := b.rmode, round := b.round, fa := b.fa, fb := b.fb, fs := b.fs, cause := b.cause, cw := b.cw
    rep := b.rep, sd := b.sd, bind6 := b.bind6, bind7 := b.bind7
    tagSet := b.tagSet, tagBusy := b.tagBusy, tagStat := b.tagStat, tagCode := b.tagCode, prio := b.prio }

/-- What a field holds after both halves: the S-class half's value if it wrote, else the V-class half's. -/
def pick {α : Type} [DecidableEq α] (base s v : α) : α := if s = base then v else s
def pickEach {α : Type} [DecidableEq α] {n : Nat} (base s v : Vector α n) : Vector α n :=
  Vector.ofFn fun i => pick base[i] s[i] v[i]
/-- Bits either half changed. -/
def pickBits {n : Nat} (base s v : BitVec n) : BitVec n := base ^^^ ((s ^^^ base) ||| (v ^^^ base))

/-- Registers after both halves: `xs` as the S-class half leaves them, `xv` as the V-class half does (R142). -/
def merged (base xs xv rest : Slot) : Slot :=
  { rest with
    g := pickEach base.g xs.g xv.g
    v := pickEach base.v xs.v xv.v
    p := pickEach base.p xs.p xv.p
    c := pick base.c xs.c xv.c
    started := pickEach base.started xs.started xv.started
    s := pickEach base.s xs.s xv.s
    flags := xs.flags ||| xv.flags
    rmode := pick base.rmode xs.rmode xv.rmode
    round := pick base.round xs.round xv.round
    fa := pick base.fa xs.fa xv.fa
    fb := pick base.fb xs.fb xv.fb
    fs := pick base.fs xs.fs xv.fs
    cause := pick base.cause xs.cause xv.cause
    cw := pickEach base.cw xs.cw xv.cw
    rep := pick base.rep xs.rep xv.rep
    sd := pickEach base.sd xs.sd xv.sd
    bind6 := pick base.bind6 xs.bind6 xv.bind6
    bind7 := pick base.bind7 xs.bind7 xv.bind7
    tagSet := pickBits base.tagSet xs.tagSet xv.tagSet
    tagBusy := pickBits base.tagBusy xs.tagBusy xv.tagBusy
    tagStat := pickBits base.tagStat xs.tagStat xv.tagStat
    tagCode := pickEach base.tagCode xs.tagCode xv.tagCode
    prio := pick base.prio xs.prio xv.prio }

/-- A control register that the S-class half names as its destination holds that half's value, also when the value is the
old one (R142). -/
def keepNamed (i : Instr) (xs x : Slot) : Slot :=
  match i with
  | .movs n _ =>
    match n.toNat with
    | 0x02 => { x with rmode := xs.rmode }
    | _ => x
  | .sdset d _ => x.setSd d (xs.getSd d)
  | _ => x

/-- The table place that an instruction writes, as its bytes in a state (R80, R254). -/
def placeBytes (i : Instr) (r : SlotRef) (s : State) : List Byte :=
  match i with
  | .fmtld k _ => s.loads (localKey r.coreKey (tableOff r.slot k.toNat)) 1024
  | _ => []

/-- That place with those bytes. -/
def withPlace (i : Instr) (r : SlotRef) (bs : List Byte) (s : State) : State :=
  match i with
  | .fmtld k _ => s.stores (localKey r.coreKey (tableOff r.slot k.toNat)) bs
  | _ => s

/-- A matrix operation beside a write of RMODE leaves that value (R142). -/
def markKeep (i : Instr) (r : SlotRef) (s : State) : State :=
  match i with
  | .movs n _ => if n.toNat = 2 then s.modCore r.coreKey fun c =>
      { c with queue := c.queue.map fun o => if o.slot = r.slot then { o with keepRm := true } else o } else s
  | _ => s

/-- A matrix operation beside another instruction keeps the tables it names as they stood before the bundle (R142). -/
def settleTables (r : SlotRef) (s : State) : State := s.modCore r.coreKey fun c => { c with
  queue := c.queue.map fun o => if o.slot = r.slot then { o with tables := some (o.tables.getD (opTables s r.coreKey o)) } else o }

/-- A drain in the lower head makes its stores before the accesses of the higher one (R142, R324; log 7). -/
def settleDrain (r : SlotRef) (s : State) : State :=
  match (s.core r.coreKey).queue.find? fun o => decide (o.slot = r.slot) && decide (o.kind = .mdrain) with
  | some o => (drainStores s r.coreKey o).modCore r.coreKey fun c => { c with
      queue := c.queue.map fun y => if y.slot = r.slot then { y with stored := true } else y }
  | none => s

def isTend (i : Instr) : Bool := match i with | .tend => true | _ => false

/-- Perform two halves one after the other, each on the registers and tables from before the bundle; the register writes meet
at the end, and a taken branch gives the next PC. A fault that the second finds leaves no effect of the first (R143). TEND as
the second half waits for the first where that one parks (R294). -/
def perform (b : Bundle) (x y : Instr) (s : State) : Out :=
  let r := s.me
  let base := s.slot r
  let start (i : Instr) (t : State) : State :=
    { t.modSlot r (fun z => registersFrom base z i.isV) with focus := { s.focus with next := b.succ } }
  match exec x (start x s) with
  | .next t0 =>
    let t1 := settleDrain r (settleTables r t0)
    if isTend y ∧ (t1.slot r).parks ≠ [] then
      .next (t1.modSlot r fun z => { z with tending := true, flags := z.flags ||| base.flags })
    else
    match exec y (start y (withPlace x r (placeBytes x r s) t1)) with
    | .next t2 =>
      let t2 := settleTables r t2
      match t2.focus.disp with
      | .trapped c d => .next (takeFault s c d)
      | .reissued => .next t2
      | .done =>
        if sameTask s t2 r then
          let x1 := t1.slot r
          let x2 := t2.slot r
          let next := if t1.focus.next = b.succ then t2.focus.next else t1.focus.next
          let xs := if x.isV then x2 else x1
          let xv := if x.isV then x1 else x2
          let half := if x.isV then y else x
          let z := keepNamed half xs (merged base xs xv x2)
          let t3 := markKeep half r (withPlace x r (placeBytes x r t1) t2)
          .next { t3.setSlot r { z with pc := next } with focus := { t2.focus with next := next } }
        else .next t2
    | o => o
  | o => o

/-- A bundle of two (R142, R143): a fault of either takes precedence, the lower head's first (log 6); then a park for
translation; else both take effect in head order, TEND after the other half. -/
def execPair (b : Bundle) (x y : Instr) (s : State) : Out :=
  let ox := exec x s
  let oy := exec y s
  if isTrap (dispOf ox) then ox
  else if isTrap (dispOf oy) then oy
  else if dispOf ox = .reissued then ox
  else if dispOf oy = .reissued then oy
  else if isTend x then perform b y x s
  else perform b x y s

/-- The halves of a bundle. -/
def execBundle (b : Bundle) (s : State) : Out :=
  match b.second with
  | none => exec b.first s
  | some y => execPair b b.first y s

/-- A body bundle that completes moves REPST on; one that parks does so when it completes (R252, R253). -/
def repeatBody (s : State) (t : State) : State :=
  let r := s.me
  if (s.slot r).rep.act ∧ t.focus.disp = .done ∧ sameTask s t r then
    t.modSlot r fun x => if x.parks = [] then x.repNext else { x with rep := { x.rep with due := true } }
  else t

/-- Apply a function to the next state of an outcome. -/
def Out.map (f : State → State) (o : Out) : Out :=
  match o with
  | .next t => .next (f t)
  | .fault e => .fault e
  | .refused e => .refused e

/-- Issue the bundle in hand. -/
def issue (b : Bundle) (s : State) : Out := Out.map (repeatBody s) (execBundle b s)

/-! ## A slot's turn (R49, R384, R385) -/

/-- The slot may issue: it holds a task that is not parked, halted or in fault hold, on a die that runs. -/
def mayIssue (s : State) (r : SlotRef) : Bool := canIssue (s.slot r) && !s.dead r.die && !(s.die r.die).hold

/-- The cycle in which the slot next issues. -/
def turnCycle (s : State) (r : SlotRef) : Nat := turnAt r.slot (max s.cycle (s.slot r).readyAt)

/-- Time goes on to a cycle. -/
def advanceTo (c : Nat) (s : State) : State := { watchTick (c - s.cycle) s with cycle := c }

/-- A turn that the budget denies is lost (R389, R463). -/
def deny (r : SlotRef) (s : State) : State :=
  (s.modSlot r fun x => { x with readyAt := s.cycle + 8 }).modCore r.coreKey fun c =>
    { c with snap := { c.snap with denied := c.snap.denied + 1 } }

/-- A turn that issues a bundle is the last for eight cycles (R49, R463). -/
def grant (r : SlotRef) (s : State) : State :=
  (s.modSlot r fun x => { x with readyAt := s.cycle + 8 }).modCore r.coreKey fun c =>
    { c with snap := { c.snap with bundles := c.snap.bundles + 1 } }

/-- The bundle in hand is charged (R388, R389), then issued. -/
def chargeAndIssue (r : SlotRef) (s : State) : Out :=
  match s.focus.bundle with
  | none => .next s
  | some b =>
    let (ok, s) := charge s r.coreKey r.slot (bundleCharge b)
    if ok then issue b (grant r s) else .next (deny r s)

/-- A slot's turn: fetch, charge, issue. -/
def slotTurn (r : SlotRef) (s : State) : Out :=
  if mayIssue s r then
    match execFetch r (advanceTo (turnCycle s r) s) with
    | .next t => chargeAndIssue r t
    | o => o
  else .next s

/-! ## Deliveries -/

/-- Take a message from those under way: its unit acts on it, or its die is lost (R421). -/
def deliver (n : Nat) (s : State) : Out :=
  match s.agenda[n]? with
  | none => .next s
  | some m =>
    let s := { s with agenda := s.agenda.eraseIdx n }
    if isLost s m then .next (lostMessage s m) else exec m s

/-- A SPACE = 1 access under way: task, transaction, whether it stores, and its pieces. -/
def messageAccess (m : Instr) : Option (Nat × Nat × Bool × List (Nat × Nat)) :=
  match m with
  | .storeData p => some (p.req.task, p.xid, true, p.parts.map fun x => (x.1, x.2.length))
  | .loadRequest p => some (p.req.task, p.xid, false, p.parts)
  | _ => none

/-- An earlier load of the same task meets this store, which waits for it (R194; log 7). -/
def accessBefore (m' m : Instr) : Bool :=
  match messageAccess m', messageAccess m with
  | some (t', x', w', ps'), some (t, x, w, ps) => decide (t' = t) && decide (x' < x) && !w' && w && meets ps' ps
  | _, _ => false

/-- Two steps whose places may be one core (R130). -/
def sameTarget (a b : Word) : Bool :=
  decide (stepCluster a = stepCluster b) && (stepAny a || stepAny b || decide (stepCore a = stepCore b))

/-- Packets of one Press link, and the reservations, grants and capsules between two cores, are taken in the order they were sent
(R132, R428). -/
def sameOrder (a b : Instr) : Bool :=
  match a, b with
  | .pressPacket p, .pressPacket q => p.node == q.node && p.up == q.up && p.child == q.child
  | .berthReservation p, .berthReservation q => p.src == q.src && sameTarget p.step q.step
  | .berthGrant p, .berthGrant q => p.src == q.src && p.dst == q.dst
  | .capsuleTransfer p, .capsuleTransfer q => p.src == q.src && p.dst == q.dst
  | .flitReceive e _, .flitReceive f _ => e == f
  | _, _ => false

/-- A packet that waits at a Press node for the round there to end; it has left its link (R428). -/
def pressWaits (s : State) (m : Instr) : Bool := match m with | .pressPacket p => !pressReady s p | _ => false

/-- A message that may be taken now. -/
def mayDeliver (s : State) (n : Nat) : Bool :=
  match s.agenda[n]? with
  | none => false
  | some m =>
    !pressWaits s m && !((s.agenda.take n).any fun m' => !pressWaits s m' && sameOrder m' m) && !(s.agenda.any fun m' => accessBefore m' m) &&
    !(s.transits.any fun t => accessBefore t.msg m)

/-! ## Units that act by themselves -/

def listIf {α : Type} (b : Bool) (x : α) : List α := if b then [x] else []

/-- SEGLD replies written in one cycle on a core are checked in ascending slot number (R199). -/
def mayWake (s : State) (r : SlotRef) : Bool :=
  match readyPark s r with
  | none => false
  | some p =>
    let last := (s.core r.coreKey).segldAt
    !(isSegld p.instr && decide (last.1 = s.cycle) && decide (r.slot < last.2))

def slotActs (s : State) (r : SlotRef) : List Instr :=
  let late (v : Bool) : Bool := (s.slot r).parks.any fun p => match p.cond with | .late l => isScalarLate l != v | _ => false
  if s.dead r.die then []
  else listIf (mayWake s r) (.wakeAccept r) ++ listIf (late false) (.divideResult r) ++
    listIf (late true) (.specialFunctionResult r)

def coreActs (s : State) (k : Nat) : List Instr :=
  let c := s.core k
  if s.dead (dieOfCore k) then []
  else
    listIf (unitReady s k) (.matrixKstep k) ++
    listIf (!c.hoop.full && c.hoop.infull) (.hoopLatchMove k) ++
    listIf ((senderOp s k).isSome && !(s.core (hoopTarget s k)).hoop.infull) (.hoopChunkSend k) ++
    listIf (nextEntry s k).isSome (.mailboxTake k) ++
    (c.jobs.filter (copyGoes s k)).map (fun j => .copyComplete k j.id) ++
    listIf ((nextArrival s k).isSome || (nextCapsule s k).isSome) (.gleanerBind k) ++
    listIf (refillDue s k && refillMatters s k) (.budgetRefill k)

def clusterActs (s : State) (c : Nat) : List Instr :=
  let p := s.port c
  if s.dead (c / 512) then []
  else
    listIf (nextRecord s c).isSome (.recordBind c) ++
    listIf (!p.asleep && !p.tlb.isEmpty && clusterIdle s c) (.clusterSleep c) ++
    listIf (p.asleep && !(s.queue c).isEmpty) (.clusterWake c)

def submissionActs (s : State) (d : Nat) : List Instr :=
  match pendingSub (s.die d) with
  | some (_, p, _) => if p % 4 = 0 then [.submissionFill d] else [.lcountJoin d]
  | none => []

/-- The first submission of a die waits for its expansion, or for the next part of it. -/
def expansionActs (s : State) (d : Nat) : List Instr :=
  match (s.die d).subs with
  | (_, p, _) :: _ => listIf (decide (p = 2) || decide (p = 3) || decide (p = 6)) (.launchExpansion d)
  | [] => []

def storeActs (s : State) (d : Nat) : List Instr :=
  (((List.range (storeOf s d).length).filter fun i => (releasable s d i).isSome) ++ listIf (unstuck s d).isSome (bufferIdx s d)).map fun i =>
    .waitingStoreRelease d i

def dieActs (s : State) (d : Nat) : List Instr :=
  if s.dead d then listIf (!(s.die d).inReset && (nextSpilled s d).isSome) (.spillReturn d)
  else
    listIf (nextSpilled s d).isSome (.spillReturn d) ++ submissionActs s d ++ expansionActs s d ++ storeActs s d ++
    listIf (drainReady s d) (.faultRecordDrain d) ++ listIf (offerDue s d) (.faultRecordOffer d)

def routerActs (s : State) (r : Nat) : List Instr :=
  ((((s.router r).table.map Interest.name) ++ (asideInterests s r).map InterestPkt.name).filter fun n =>
    (stallDue s r n).isSome && s.hasRoom (r / 512)).map (.interestStall r)

def groupActs (s : State) (g : Nat) : List Instr :=
  listIf (decide ((s.group g).phase = 2) && !s.pressBusy g) (.pressDrainToken g) ++
  listIf (watchDue s g).isSome (.watchdog g)

def launchActs (s : State) (l : Launch) : List Instr :=
  listIf (isComplete s l) (.launchCompletion l.num) ++ listIf (saveReady s l) (.contextSave l.num)

def linkActs (s : State) (k : Nat) : List Instr :=
  let e : LinkEnd := ⟨k / 2, decide (k % 2 = 1)⟩
  listIf (sendReady s e) (.flitSend e) ++ listIf (retrainDue s e) (.portRetrain e)

/-- Cores that hold something. -/
def coresInUse (s : State) : List Nat := (s.cores.map Prod.fst ++ (s.slots.map Prod.fst).map (· / 8)).dedup

/-- What the units can do now. -/
def acts (s : State) : List Instr :=
  s.slots.flatMap (fun x => slotActs s (refOf (x.1 / 8) (x.1 % 8))) ++
  (coresInUse s).flatMap (coreActs s) ++
  ((s.queues.map Prod.fst ++ s.ports.map Prod.fst).dedup).flatMap (clusterActs s) ++
  s.dies.flatMap (fun x => dieActs s x.1) ++
  storeActs s granaryDie ++
  ((s.rounds.map fun r => r.ga).dedup.filter fun g => (nextRound s (gaKey g)).isSome).map Instr.countRoundAnswer ++
  s.routers.flatMap (fun x => routerActs s x.1) ++
  s.groups.flatMap (fun x => groupActs s x.1) ++
  s.live.flatMap (launchActs s) ++
  listIf (repairReady s) (.contextSave 0) ++
  s.links.flatMap (fun x => linkActs s x.1) ++
  listIf (snapDue s) .snapshotLatch

/-! ## Who moves next -/

/-- Cycles that time does not pass before a unit has acted: a pending latch of the snapshot (R463), and the next refill of each
core whose counter or claims it changes (R386). -/
def deadlines (s : State) : List Nat :=
  s.snapAt.toList ++ ((coresInUse s).filter (refillMatters s)).map fun k => 1024 * ((s.core k).refills + 1)

def mayReach (s : State) (c : Nat) : Bool := (deadlines s).all fun d => decide (c ≤ d)

/-- Slots that may issue, with the cycle of each one's turn. -/
def slotTurns (s : State) : List (Nat × SlotRef) :=
  (s.slots.map fun x => refOf (x.1 / 8) (x.1 % 8)).filterMap fun r =>
    if mayIssue s r && mayReach s (turnCycle s r) then some (turnCycle s r, r) else none

/-- The cycle of the first of them. -/
def firstTurn (s : State) : Option Nat :=
  match slotTurns s with
  | [] => none
  | x :: t => some (t.foldl (fun m y => min m y.1) x.1)

/-- Time may pass without a turn up to the next slot's cycle, and up to the first deadline. -/
def mayTick (s : State) : Bool :=
  mayReach s (s.cycle + 1) && match firstTurn s with | some c => decide (s.cycle < c) | none => true

/-- Every move that is possible now. -/
def moves (s : State) : List Turn :=
  ((slotTurns s).filter fun x => firstTurn s = some x.1).map (fun x => Turn.slot x.2) ++
  ((List.range s.agenda.length).filter (mayDeliver s)).map Turn.deliver ++
  (acts s).map Turn.act ++
  listIf (mayTick s) .tick

/-- Which of them comes next is free (log 1). -/
def reschedule (s : State) : State :=
  { s with turn := (moves s).getD (Config.pick s.draws % (moves s).length) .tick, draws := s.draws + 1 }

/-- The move whose turn it is. -/
def move (s : State) : Out :=
  match s.turn with
  | .slot r => slotTurn r s
  | .deliver n => deliver n s
  | .act i => exec i s
  | .tick => .next (advanceTo (s.cycle + 1) s)

end Sys2Proof.Machine
end

