-- ==== Sys2Proof/Machine/Step.lean ====
section
/-! DEFINITION. One step of the package, and a state whose next step issues a given instruction. -/

namespace Sys2Proof.Machine

/-- One step: the move whose turn it is, then a free choice of the next (log 1). -/
def step (s : State) : Host.Outcome State Fault Refusal := Out.map reschedule (move s)

/-- The slot that `withFetchWord` uses: slot 0 of core 1 of cluster 0 of die 0, the first core that is no system core. -/
def loaderSlot : SlotRef := ⟨0, 0, 1, 0⟩

/-- A code line of one instruction whose bits are `w` (R135-R138). -/
def oneLine (w : Nat) : List Byte :=
  let n := tailBytes (headTL (BitVec.ofNat 16 w))
  bytesOf 2 (2 ^ 11) ++ bytesOf 2 w ++ List.replicate (60 - n) 0 ++ bytesOf n (w / 2 ^ 16)

/-- `s` with a task that stands at the one instruction of a line in the local memory of its core, and with its turn next:
what a launch's expansion and a record's bind come to (R374, R376, R381; log 19). -/
def State.withFetchWord (s : State) (_nbits w : Nat) : State :=
  let r := loaderSlot
  let k := localKey r.coreKey 0
  let s := s.modDie r.die fun d => { d with inReset := false, fenced := false, hold := false, hot := false }
  let s := { s with ue := s.ue.filter fun x => !(decide (k ≤ x.1) && decide (x.1 < k + 64)) }
  let s := s.stores k (oneLine w)
  let s := s.setSlot r { Slot.empty with
    occupied := true, task := s.nextTask, pc := 2, since := s.draws + 1
    s := (Vector.replicate 8 (0 : BitVec 128)).set 0 (mkSeg 64 false true false true 0) }
  { s with nextTask := s.nextTask + 1, turn := .slot r }

end Sys2Proof.Machine
end

