-- ==== Sys2Proof/Safety.lean ====
section
/-! DEFINITION. What a well-formed state and a safe run are, and the terms the statements are written in: values that a task's
operands have by the rules' own words, on bit vectors, and the ways an issue ends. -/

namespace Sys2Proof.Machine

/-- Memory is in its one canonical form: addresses strictly rising, no listed byte zero. -/
def Memory.wf (m : SMap Byte) : Bool := SMap.wf 0 m

/-- Every state of a run is next to the one before: no step stops. -/
def Runs (s : State) : Nat → Prop
  | 0 => True
  | n + 1 => ∃ t, step s = .next t ∧ Runs t n

end Sys2Proof.Machine

namespace Sys2Proof.Spec

open Sys2Proof.Machine

/-- The task changes by `f` and goes on at the bundle's successor. -/
def done (s : State) (f : Slot → Slot) : Out := .next (s.modCur f).advance

/-- Pieces of pages that are all translated and admit the access (R392, R397), as keys and sizes; none otherwise. -/
def mapped (s : State) (ranges : List (Nat × Nat)) (need : Nat) (space : Option Bool) : Option (List (Nat × Nat)) :=
  (ranges.flatMap fun r => pieces r.1 r.2).mapM fun p =>
    match s.xlate1 s.me.clusterKey s.cur.launch p.1 need with
    | some ga => if gaFault s space ga = none then some (gaKey ga, p.2) else none
    | none => none

/-- The constant of `n` bits at a window's offset, where R150 lets it be read and its words stand in the constant cache. -/
def constAt (s : State) (win : BitVec 3) (off : BitVec 17) (n : Nat) : Option Nat :=
  let cw := s.cur.cw[win.toNat]'(win.isLt)
  let s3 := s.cur.getS 3
  let addr := bitsOf cw 55 0 + 4 * off.toNat
  let z := if n = 64 then 8 else 4
  if bitOf cw 63 ∧ segBase s3 ≤ addr ∧ addr + z ≤ segBase s3 + segLimit s3 ∧ segRd s3 ∧ (n = 64 → off.toNat % 2 = 0) then
    ((if n = 64 then [addr, addr + 4] else [addr]).mapM (cachedConst s (segSpace s3))).map fun vs =>
      natOf (vs.flatMap fun v => bytesOf 4 v.toNat) % 2 ^ n
  else none

/-- The second source of R171 at width `n`, where it can be read. -/
def operand (s : State) (src : Src) (n : Nat) : Option Word :=
  match src with
  | .rr b => some (s.cur.getG b)
  | .ri imm => some (imm.signExtend 64)
  | .rk win off => (constAt s win off n).map (BitVec.ofNat 64)
  | .rl lit => some (lit.signExtend 64)
  | .rl64 lit => some lit

/-- A result of `n` bits as R172 writes it to G[D]. -/
def toReg (sgn : Bool) {n : Nat} (r : BitVec n) : Word := if sgn then r.signExtend 64 else r.setWidth 64

/-- FLAGS with Z, N, C and V from a result, its carry and its overflow (R172). -/
def flagsOf {n : Nat} (old : Word) (r : BitVec n) (c v : Bool) : Word :=
  (old &&& ~~~(15 : Word)) ||| BitVec.ofNat 64 (b2n (r == 0) + 2 * b2n r.msb + 4 * b2n c + 8 * b2n v)

/-- Bytes of memory as the task that issues observes them, its own stores on their way among them (R194), as a number. -/
def seenNat (s : State) (k n : Nat) : Nat := natOf (s.seenBy k n)
def seenWord (s : State) (k : Nat) : Word := BitVec.ofNat 64 (seenNat s k 8)

/-- A store to core local memory: the task's earlier stores to those bytes that are still on their way change them no more (R194). -/
def stored (s : State) (k : Nat) (bs : List Byte) : State := (overtake s s.me s.cur.task s.xid [(k, bs.length)]).stores k bs

/-- Operand type i. -/
def isI (t : Ty) : Bool := t == .i

end Sys2Proof.Spec
end

