-- ==== Sys2Proof/Certificates/Slice0/Obligations.lean ====
section
/-! DEFINITION. The statements about this machine, each a rule of the spec or drawn from its sections. -/

open Sys2Proof Sys2Proof.Machine Sys2Proof.Spec

/-! ## Scalar instructions -/

/-- A two-source instruction of R171 and R172: its n-bit result with C and V from the n-bit sources, `f sgn x y`. -/
def Sys2Proof.Spec.TwoSource (mk : Alu → Instr) (f : (n : Nat) → Bool → BitVec n → BitVec n → BitVec n × Bool × Bool) : Prop :=
  ∀ (s : State) (o : Alu) (y : Word), operand s o.src (width o.sz) = some y →
    let r := f (width o.sz) (isI o.ty) ((s.cur.getG o.a).setWidth _) (y.setWidth _)
    exec (mk o) s = done s fun x => { x.setG o.d (toReg (isI o.ty) r.1) with flags := flagsOf x.flags r.1 r.2.1 r.2.2 }

/-- The same for a shift, whose count is the whole of y (R175). -/
def Sys2Proof.Spec.Shift (mk : Alu → Instr) (f : (n : Nat) → BitVec n → Nat → BitVec n) : Prop :=
  ∀ (s : State) (o : Alu) (y : Word), operand s o.src (width o.sz) = some y →
    let r := f (width o.sz) ((s.cur.getG o.a).setWidth _) y.toNat
    exec (mk o) s = done s fun x => { x.setG o.d (toReg (isI o.ty) r) with flags := flagsOf x.flags r false false }

/-- The same for one source (R174, R175). -/
def Sys2Proof.Spec.OneSource (mk : Un → Instr) (f : (n : Nat) → BitVec n → BitVec n × Bool × Bool) : Prop :=
  ∀ (s : State) (o : Un),
    let r := f (width o.sz) ((s.cur.getG o.a).setWidth _)
    exec (mk o) s = done s fun x => { x.setG o.d (toReg (isI o.ty) r.1) with flags := flagsOf x.flags r.1 r.2.1 r.2.2 }

/-- R174: the result, C and V of ADD, SUB, MUL, MULH, NEG, ABS, MIN and MAX in every form, with the register and the flags of
R172; nothing else changes but the PC. -/
def Obligations.IntegerArithmetic : Prop :=
  Spec.TwoSource .add (fun n _ x y => (x + y, decide (2 ^ n ≤ x.toNat + y.toNat), decide (x.toInt + y.toInt ≠ (x + y).toInt))) ∧
  Spec.TwoSource .sub (fun _ _ x y => (x - y, decide (y.toNat ≤ x.toNat), decide (x.toInt - y.toInt ≠ (x - y).toInt))) ∧
  Spec.TwoSource .mul (fun n sgn x y => (x * y, false,
    if sgn then decide (x.toInt * y.toInt ≠ (x * y).toInt) else decide (2 ^ n ≤ x.toNat * y.toNat))) ∧
  Spec.TwoSource .mulh (fun n sgn x y => (BitVec.ofInt n ((if sgn then x.toInt * y.toInt else (x.toNat * y.toNat : Nat)) / 2 ^ n),
    false, false)) ∧
  Spec.TwoSource .min (fun _ sgn x y => (if (if sgn then x.slt y else x.ult y) then x else y, false, false)) ∧
  Spec.TwoSource .max (fun _ sgn x y => (if (if sgn then x.slt y else x.ult y) then y else x, false, false)) ∧
  Spec.OneSource .neg (fun n x => (-x, x == 0, x == BitVec.intMin n)) ∧
  Spec.OneSource .abs (fun n x => (if x.msb then -x else x, false, x == BitVec.intMin n))

/-- R175: logic, shifts and rotates clear C and V. -/
def Obligations.LogicAndShifts : Prop :=
  Spec.TwoSource .and (fun _ _ x y => (x &&& y, false, false)) ∧
  Spec.TwoSource .or (fun _ _ x y => (x ||| y, false, false)) ∧
  Spec.TwoSource .xor (fun _ _ x y => (x ^^^ y, false, false)) ∧
  Spec.TwoSource .andn (fun _ _ x y => (x &&& ~~~y, false, false)) ∧
  Spec.OneSource .not (fun _ x => (~~~x, false, false)) ∧
  Spec.Shift .shl (fun _ x k => x <<< k) ∧
  Spec.Shift .shr (fun _ x k => x >>> k) ∧
  Spec.Shift .sar (fun _ x k => x.sshiftRight k) ∧
  Spec.Shift .rol (fun _ x k => x.rotateLeft k) ∧
  Spec.Shift .ror (fun _ x k => x.rotateRight k)

/-- A bit count of R176: element by element, FLAGS unchanged. -/
def Sys2Proof.Spec.PerElement (mk : Cnt → Instr) (f : (n : Nat) → BitVec n → Nat) : Prop :=
  ∀ (s : State) (o : Cnt), ∃ v : Word, exec (mk o) s = done s (fun x => x.setG o.d v) ∧
    ∀ e, e < 64 / width o.sz →
      (v.extractLsb' (e * width o.sz) (width o.sz)).toNat = f (width o.sz) ((s.cur.getG o.a).extractLsb' (e * width o.sz) (width o.sz))

/-- The position of the lowest set bit, counted from `i` over `k` bits. -/
def Sys2Proof.Spec.lowestFrom (x : Nat) : Nat → Nat → Nat
  | 0, i => i
  | k + 1, i => if x.testBit i then i else Spec.lowestFrom x k (i + 1)

/-- R176: CLZ, CTZ, FFS, POPC and BREV by element. -/
def Sys2Proof.Spec.BitCounts : Prop :=
  Spec.PerElement .clz (fun n x => if x = 0 then n else n - 1 - Nat.log2 x.toNat) ∧
  Spec.PerElement .ctz (fun n x => Spec.lowestFrom x.toNat n 0) ∧
  Spec.PerElement .ffs (fun n x => if x = 0 then 0 else 1 + Spec.lowestFrom x.toNat n 0) ∧
  Spec.PerElement .popc (fun n x => ((List.range n).map fun i => (x.getLsbD i).toNat).sum) ∧
  Spec.PerElement .brev (fun _ x => x.reverse.toNat)

/-- R177, R178: EXT and INS by the descriptor `y`, SEXT and ZEXT; Z and N from the 64-bit result, C and V clear. -/
def Sys2Proof.Spec.BitFields : Prop :=
  (∀ (s : State) (o : Alu) (y : Word), operand s o.src 64 = some y →
    let x := s.cur.getG o.a
    let pos := (y.extractLsb' 0 6).toNat
    let len := min (y.extractLsb' 6 7).toNat (64 - pos)
    let field := x.extractLsb' pos len
    let r := toReg (isI o.ty) field
    exec (.ext o) s = done s fun z => { z.setG o.d r with flags := flagsOf z.flags r false false }) ∧
  (∀ (s : State) (o : Alu) (y : Word), operand s o.src 64 = some y →
    let x := s.cur.getG o.a
    let pos := (y.extractLsb' 0 6).toNat
    let len := min (y.extractLsb' 6 7).toNat (64 - pos)
    let m : Word := BitVec.ofNat 64 (2 ^ len - 1) <<< pos
    let r := (s.cur.getG o.d &&& ~~~m) ||| (x <<< pos &&& m)
    exec (.ins o) s = done s fun z => { z.setG o.d r with flags := flagsOf z.flags r false false }) ∧
  (∀ (s : State) (o : Cnt),
    let r := ((s.cur.getG o.a).setWidth (width o.sz)).signExtend 64
    exec (.sext o) s = done s fun z => { z.setG o.d r with flags := flagsOf z.flags r false false }) ∧
  (∀ (s : State) (o : Cnt),
    let r := ((s.cur.getG o.a).setWidth (width o.sz)).setWidth 64
    exec (.zext o) s = done s fun z => { z.setG o.d r with flags := flagsOf z.flags r false false })

/-- R176: CLZ, CTZ, FFS, POPC and BREV by element. R177, R178: EXT and INS by the descriptor `y`, SEXT and ZEXT; Z and N from
the 64-bit result, C and V clear. -/
def Obligations.BitOperations : Prop := Spec.BitCounts ∧ Spec.BitFields

/-- A condition of R161 on Z, N, C, V and F. -/
def Sys2Proof.Spec.condition (cc : BitVec 4) (z n c v f : Bool) : Bool :=
  match cc.toNat with
  | 0 => z | 1 => !z | 2 => n != v | 3 => n == v | 4 => z || (n != v) | 5 => !z && (n == v) | 6 => !c | 7 => c
  | 8 => !c || z | 9 => c && !z | 10 => n | 11 => !n | 12 => v | 13 => !v | 14 => true | _ => f

/-- R179-R181: CMP sets the flags of SUB and writes no register; SETC leaves FLAGS; SEL moves 64 bits by FLAGS. -/
def Sys2Proof.Spec.CompareAndSelect : Prop :=
  (∀ (s : State) (o : Alu) (y : Word), operand s o.src (width o.sz) = some y →
    let x : BitVec (width o.sz) := (s.cur.getG o.a).setWidth _
    let y : BitVec (width o.sz) := y.setWidth _
    exec (.cmp o) s = done s fun z => { z with
      flags := flagsOf z.flags (x - y) (decide (y.toNat ≤ x.toNat)) (decide (x.toInt - y.toInt ≠ (x - y).toInt)) }) ∧
  (∀ (s : State) (cc : BitVec 4) (o : Alu) (y : Word), operand s o.src (width o.sz) = some y →
    let x : BitVec (width o.sz) := (s.cur.getG o.a).setWidth _
    let y : BitVec (width o.sz) := y.setWidth _
    let c := Spec.condition cc (x == y) (x - y).msb (decide (y.toNat ≤ x.toNat)) (decide (x.toInt - y.toInt ≠ (x - y).toInt))
      (s.cur.flags.getLsbD 4)
    exec (.setc cc o) s = done s fun z => z.setG o.d (if c then 1 else 0)) ∧
  (∀ (s : State) (cc : BitVec 4) (d a b : Reg),
    let f := s.cur.flags
    let c := Spec.condition cc (f.getLsbD 0) (f.getLsbD 1) (f.getLsbD 2) (f.getLsbD 3) (f.getLsbD 4)
    exec (.sel cc d a b) s = done s fun z => z.setG d (s.cur.getG (if c then a else b)))

/-- An F32 pattern as the F64 of R183: absent, NaN, an infinity, a zero and a subnormal keep their meaning. -/
def Sys2Proof.Spec.toF64 (p : BitVec 32) : Word :=
  let e := (p.extractLsb' 23 8).toNat
  let f := (p.extractLsb' 0 23).toNat
  let sign : Nat := 2 ^ 63 * b2n p.msb
  if p = 0xFFC00000#32 then 0xFFF8000000000000
  else if e = 255 then BitVec.ofNat 64 (if f = 0 then sign + 0x7FF0000000000000 else 0x7FF8000000000000)
  else if e ≠ 0 then BitVec.ofNat 64 (sign + (e + 896) * 2 ^ 52 + f * 2 ^ 29)
  else if f = 0 then BitVec.ofNat 64 sign
  else BitVec.ofNat 64 (sign + (874 + Nat.log2 f) * 2 ^ 52 + (f * 2 ^ (52 - Nat.log2 f)) % 2 ^ 52)

/-- R182-R184: MOV, MOVI, MOVL and LEA write one register and leave FLAGS. -/
def Sys2Proof.Spec.Moves : Prop :=
  (∀ (s : State) (d a : Reg), exec (.mov d a) s = done s fun z => z.setG d (s.cur.getG a)) ∧
  (∀ (s : State) (d : Reg) (imm : BitVec 20), exec (.movi 0 d imm) s = done s fun z => z.setG d (imm.signExtend 64)) ∧
  (∀ (s : State) (d : Reg) (imm : BitVec 20), exec (.movi 1 d imm) s = done s fun z => z.setG d ((imm ++ 0#12).setWidth 64)) ∧
  (∀ (s : State) (d : Reg) (imm : BitVec 20), exec (.movi 2 d imm) s = done s fun z => z.setG d (Spec.toF64 (imm ++ 0#12))) ∧
  (∀ (s : State) (d : Reg) (lit : BitVec 32), exec (.movl 0 d (.rl lit)) s = done s fun z => z.setG d (lit.signExtend 64)) ∧
  (∀ (s : State) (d : Reg) (lit : BitVec 32), exec (.movl 1 d (.rl lit)) s = done s fun z => z.setG d (lit.setWidth 64)) ∧
  (∀ (s : State) (d : Reg) (lit : BitVec 32), exec (.movl 2 d (.rl lit)) s = done s fun z => z.setG d (Spec.toF64 lit)) ∧
  (∀ (s : State) (d : Reg) (lit : BitVec 64) (ty : BitVec 2), exec (.movl ty d (.rl64 lit)) s = done s fun z => z.setG d lit) ∧
  (∀ (s : State) (d : Reg) (m : Mem),
    let disp : Word := match m.disp with | .ms x => x.signExtend 64 | .ml x => x.signExtend 64
    let base : Word := (s.cur.getS m.seg).extractLsb' 0 56 |>.setWidth 64
    exec (.lea d m) s = done s fun z => z.setG d (((base + s.cur.getG m.base + disp).extractLsb' 0 56).setWidth 64))

/-- R179-R181: CMP sets the flags of SUB and writes no register; SETC leaves FLAGS; SEL moves 64 bits by FLAGS. R182-R184: MOV,
MOVI, MOVL and LEA write one register and leave FLAGS. -/
def Obligations.ComparesAndMoves : Prop := Spec.CompareAndSelect ∧ Spec.Moves

/-- R173, R174: DIV and REM park for their result, which DIVIDE_RESULT writes with the flags. -/
def Sys2Proof.Spec.Divides (mk : Alu → Instr) (f : (n : Nat) → Bool → BitVec n → BitVec n → BitVec n) : Prop :=
  ∀ (s : State) (o : Alu) (y : Word), operand s o.src (width o.sz) = some y →
    let n := width o.sz
    let x : BitVec n := (s.cur.getG o.a).setWidth n
    let y : BitVec n := y.setWidth n
    let sgn := isI o.ty
    let r := f n sgn x y
    let v := y == 0 || (sgn && x == BitVec.intMin n && y == BitVec.allOnes n)
    ∃ p : Park, exec (mk o) s = done s (fun z => { z with parks := z.parks ++ [p] }) ∧ p.instr = mk o ∧ p.pc = s.focus.pc ∧
      ∃ l : Late, p.cond = .late l ∧
        ∀ z : Slot, writeLate l z = { z.setG o.d (toReg sgn r) with flags := flagsOf z.flags r false v }

/-- R173, R174: quotient and remainder with their borderline cases; DIVIDE_RESULT writes them, counts the turns lost (R463), and
lets the slot go on. -/
def Obligations.DivideAndRemainder : Prop :=
  Spec.Divides .div (fun n sgn x y =>
    if y = 0 then BitVec.allOnes n else if sgn then BitVec.ofInt n (x.toInt.tdiv y.toInt) else x / y) ∧
  Spec.Divides .rem (fun n sgn x y =>
    if y = 0 then x else if sgn then BitVec.ofInt n (x.toInt - x.toInt.tdiv y.toInt * y.toInt) else x % y) ∧
  (∀ (s : State) (r : SlotRef) (p : Park) (l : Late), (s.slot r).parks = [p] → p.cond = .late l → isScalarLate l = true →
    exec (.divideResult r) s = .next (wakeSlot r ((countParked r s).modSlot r fun x => { writeLate l x with parks := [] })))

/-! ## Control flow -/

/-- The task changes by `f` and goes on at `t`. -/
def Sys2Proof.Spec.jumped (s : State) (f : Slot → Slot) (t : Word) : Out :=
  .next ({ s.modCur f with focus := { s.focus with next := t } } : State).advance

/-- R152. -/
def Sys2Proof.Spec.target (pc : Word) (x : Br) : Word :=
  (pc &&& ~~~(0x3F : Word)) + (x.lineoff.signExtend 64 <<< 6) + 2 + (x.head.setWidth 64 <<< 1)

/-- R187, R188: every branch, taken or not, its link and its counter. -/
def Obligations.Branches : Prop :=
  ∀ (s : State) (x : Br),
    let go := Spec.target s.focus.pc x
    let f := s.cur.flags
    exec (.b x) s = Spec.jumped s id go ∧
    (∀ cc : BitVec 4, exec (.bc cc x) s =
      if Spec.condition cc (f.getLsbD 0) (f.getLsbD 1) (f.getLsbD 2) (f.getLsbD 3) (f.getLsbD 4) then Spec.jumped s id go else done s id) ∧
    (∀ d : Reg, exec (.bz d x) s = if s.cur.getG d = 0 then Spec.jumped s id go else done s id) ∧
    (∀ d : Reg, exec (.bnz d x) s = if s.cur.getG d = 0 then done s id else Spec.jumped s id go) ∧
    (∀ d : Reg, exec (.loop d x) s =
      let v := s.cur.getG d - 1
      if v = 0 then done s (fun z => z.setG d v) else Spec.jumped s (fun z => z.setG d v) go) ∧
    exec (.call x) s = Spec.jumped s (fun z => z.setG 15 s.focus.next) go ∧
    exec .ret s = Spec.jumped s id (s.cur.getG 15) ∧
    ∀ d : Reg, exec (.jmp d) s = Spec.jumped s id (s.cur.getG d)

/-! ## Private memory -/

/-- The address of an access of `z` bytes that passes the checks of R191 before translation. -/
def Sys2Proof.Spec.admitted (s : State) (m : Mem) (z : Nat) (rd wr : Bool) : Option Nat :=
  let g := s.cur.getS m.seg
  let disp : Word := match m.disp with | .ms x => x.signExtend 64 | .ml x => x.signExtend 64
  let ea := (s.cur.getG m.base + disp).toNat
  let addr := (segBase g + ea) % 2 ^ 56
  if 0 < segLimit g ∧ ea < segLimit g ∧ ea + z ≤ segLimit g ∧ (rd → segRd g) ∧ (wr → segWr g) ∧ addr % z = 0 then some addr else none

/-- The offset of a core-local access of `z` bytes that R191 admits. -/
def Sys2Proof.Spec.near (s : State) (m : Mem) (z : Nat) (rd wr : Bool) : Option Nat :=
  if segSpace (s.cur.getS m.seg) then none else Spec.admitted s m z rd wr

/-- The key of an offset of the task's core. -/
def Sys2Proof.Spec.here (s : State) (off : Nat) : Nat := localKey s.me.coreKey off

/-- The pieces of a global access of `z` bytes that R191 admits and that is translated. -/
def Sys2Proof.Spec.far (s : State) (m : Mem) (z : Nat) (rd wr : Bool) : Option (List (Nat × Nat)) :=
  if segSpace (s.cur.getS m.seg) then
    (Spec.admitted s m z rd wr).bind fun a =>
      mapped s [(a, z)] ((if rd then 1 else 0) + (if wr then 2 else 0)) (some false)
  else none

/-- The virtual address that a memory operand names through its segment (R191). -/
def Sys2Proof.Spec.va (s : State) (m : Mem) : Nat :=
  let disp : Word := match m.disp with | .ms x => x.signExtend 64 | .ml x => x.signExtend 64
  (segBase (s.cur.getS m.seg) + (s.cur.getG m.base + disp).toNat) % 2 ^ 56

/-- A value of a load's width as it is read, little-endian, and extended for its type (R192). -/
def Sys2Proof.Spec.loadedAt (s : State) (o : LdSt) (k : Nat) : Word :=
  toReg (isI o.ty) (BitVec.ofNat (width o.sz) (seenNat s k (width o.sz / 8)))

/-- R191, R192, R195: a core-local load completes in its turn; a load from global memory asks for its pieces and parks. -/
def Obligations.Loads : Prop :=
  (∀ (s : State) (o : LdSt) (a : Nat), let k := Spec.here s a
    Spec.near s o.mem (width o.sz / 8) true false = some a → s.hasUe k (width o.sz / 8) = none →
    exec (.ld o) s = done s fun z => z.setG o.d (Spec.loadedAt s o k)) ∧
  (∀ (s : State) (d : Reg) (m : Mem) (a : Nat), let k := Spec.here s a
    Spec.near s m 16 true false = some a → s.hasUe k 16 = none →
    exec (.ldp d m) s = done s fun z => (z.setG d (BitVec.ofNat 64 (natOf ((s.seenBy k 16).take 8)))).setG (d + 1) (BitVec.ofNat 64 (natOf ((s.seenBy k 16).drop 8)))) ∧
  (∀ (s : State) (o : LdSt) (ps : List (Nat × Nat)), Spec.far s o.mem (width o.sz / 8) true false = some ps →
    ∃ ea, exec (.ld o) s = done (sendLoads (byHome s ps) s).2 fun z =>
      { z with parks := z.parks ++ [⟨.ld o, s.focus.pc,
        .loads ⟨(sendLoads (byHome s ps) s).1, none, [(Spec.va s o.mem, width o.sz / 8)], none⟩, ea⟩] }) ∧
  (∀ (s : State) (d : Reg) (m : Mem) (ps : List (Nat × Nat)), Spec.far s m 16 true false = some ps →
    ∃ ea, exec (.ldp d m) s = done (sendLoads (byHome s ps) s).2 fun z =>
      { z with parks := z.parks ++ [⟨.ldp d m, s.focus.pc, .loads ⟨(sendLoads (byHome s ps) s).1, none, [(Spec.va s m, 16)], none⟩, ea⟩] })

/-- R191, R192, R194: stores write the low bytes of their registers, in local memory at once, in global memory by messages that
are counted; both retire in their turn. -/
def Obligations.Stores : Prop :=
  (∀ (s : State) (o : LdSt) (a : Nat), let k := Spec.here s a
    Spec.near s o.mem (width o.sz / 8) false true = some a →
    exec (.st o) s = .next (stored s k (bytesOf (width o.sz / 8) (s.cur.getG o.d).toNat)).advance) ∧
  (∀ (s : State) (d : Reg) (m : Mem) (a : Nat), let k := Spec.here s a
    Spec.near s m 16 false true = some a →
    exec (.stp d m) s = .next (stored s k (bytesOf 16 (s.cur.getG (d + 1) ++ s.cur.getG d).toNat)).advance) ∧
  (∀ (s : State) (o : LdSt) (ps : List (Nat × Nat)), Spec.far s o.mem (width o.sz / 8) false true = some ps →
    exec (.st o) s = .next (sendStores (byHome s ps) (bytesOf (width o.sz / 8) (s.cur.getG o.d).toNat) s).advance) ∧
  (∀ (s : State) (d : Reg) (m : Mem) (ps : List (Nat × Nat)), Spec.far s m 16 false true = some ps →
    exec (.stp d m) s = .next (sendStores (byHome s ps) (bytesOf 16 (s.cur.getG (d + 1) ++ s.cur.getG d).toNat) s).advance)

/-- No waiter of a kind at a word of a core's banks. -/
def Sys2Proof.Spec.noWaiter (s : State) (take : Bool) (off : Nat) : Prop :=
  ∀ w ∈ (s.core s.me.coreKey).banks, w.take = take → w.off ≠ off

/-- R193: take, put and reset on a word that no waiter needs, and the two that wait. -/
def Sys2Proof.Spec.MailboxWords : Prop :=
  ∀ (s : State) (o : LdSt) (off : Nat), o.sz = .s64 →
    let k := Spec.here s off
    let core := s.me.coreKey
    let v := s.cur.getG o.d
    (Spec.near s o.mem 8 true false = some off → s.hasUe k 8 = none → s.full core off = true → Spec.noWaiter s false off →
      exec (.ldTake o) s = .next ((s.modCur fun z => z.setG o.d (seenWord s k)).setFull core off false).advance) ∧
    (Spec.near s o.mem 8 true false = some off → s.full core off = false →
      exec (.ldTake o) s = done (({ s with xid := s.xid + 1 } : State).modCore core fun c =>
          { c with banks := c.banks ++ [⟨off, true, 0, s.asker, s.xid⟩] })
        fun z => { z with parks := z.parks ++ [⟨.ldTake o, s.focus.pc, .mailbox off s.xid, BitVec.ofNat 64 off⟩] }) ∧
    (Spec.near s o.mem 8 false true = some off → s.full core off = false → Spec.noWaiter s true off →
      exec (.stPut o) s = .next (((stored s k (bytesOf 8 v.toNat)).setFull core off true)).advance) ∧
    (Spec.near s o.mem 8 false true = some off → s.full core off = true →
      exec (.stPut o) s = done (({ s with xid := s.xid + 1 } : State).modCore core fun c =>
          { c with banks := c.banks ++ [⟨off, false, v, s.asker, s.xid⟩] })
        fun z => { z with parks := z.parks ++ [⟨.stPut o, s.focus.pc, .mailbox off s.xid, BitVec.ofNat 64 off⟩] }) ∧
    (Spec.near s o.mem 8 false true = some off → Spec.noWaiter s false off →
      exec (.stReset o) s = .next ((stored s k (bytesOf 8 v.toNat)).setFull core off false).advance)

/-- R193: an emptied word takes the value of the earliest put that waits for it and is full again, in the same access; a filled
one gives its value to the earliest take. -/
def Sys2Proof.Spec.MailboxHandover : Prop :=
  ∀ (s : State) (core off : Nat) (a b : List BankWait) (w : BankWait), (s.core core).banks = a ++ w :: b → w.off = off →
    (∀ u ∈ a, u.take = w.take → u.off ≠ off) → isHere s w.req = true →
    let rest := s.modCore core fun c => { c with banks := a ++ b }
    let put := ((overtake rest w.req.slot w.req.task w.xid [(localKey core off, 8)]).stores (localKey core off) (bytesOf 8 w.value.toNat)).setFull core off true
    (w.take = false → afterEmpty s core off = put.modSlot w.req.slot fun x => { x with answers := x.answers ++ [⟨w.xid, none, 0, 0, 0, []⟩] }) ∧
    (w.take = true → afterFull s core off = (rest.setFull core off false).modSlot w.req.slot fun x =>
      { x with answers := x.answers ++ [⟨w.xid, none, 0, s.loadWord (localKey core off), 0, []⟩] })

/-- R193: take, put and reset on a word that no waiter needs, and the two that wait. R193: an emptied word takes the value of
the earliest put that waits for it and is full again, in the same access; a filled one gives its value to the earliest take. -/
def Obligations.Mailboxes : Prop := Spec.MailboxWords ∧ Spec.MailboxHandover

/-! ## Control and segment registers -/

/-- A control register as R158 gives it. -/
def Sys2Proof.Spec.control (s : State) (n : Nat) : Word :=
  let x := s.cur
  match n with
  | 0x00 => s.focus.pc
  | 0x01 => x.flags
  | 0x02 => x.rmode
  | 0x03 => x.round
  | 0x04 => laneOf s s.me
  | 0x05 => timeOf s s.me
  | 0x06 => (0#16 ++ x.tagBusy ++ x.tagStat ++ x.tagSet).setWidth 64
  | 0x07 => x.fa
  | 0x08 => x.fb
  | 0x09 => x.fs
  | 0x0A => repst x.rep
  | 0x0B => match s.launch x.launch with | some l => BitVec.ofNat 64 l.ebud | none => 0
  | 0x0C => x.cause
  | 0x0D => physOf s s.me
  | 0x0E => 0x4008404040
  | 0x18 => x.sd[0].image.extractLsb' 0 64
  | 0x19 => x.sd[1].image.extractLsb' 0 64
  | 0x1A => x.sd[2].image.extractLsb' 0 64
  | 0x1B => x.sd[3].image.extractLsb' 0 64
  | k => x.cw.getD (k - 0x10) 0

/-- R158, R196, R197, R159, R84, R82, R160: MOVC reads every readable register; MOVS writes the register's own fields, and a value
the register does not take faults ILLEGAL and leaves it. -/
def Sys2Proof.Spec.ControlRegisters : Prop :=
  (∀ (s : State) (d : Reg) (n : BitVec 7), crReadable n = true →
    exec (.movc d n) s = done s fun z => z.setG d (Spec.control s n.toNat)) ∧
  (∀ (s : State) (src : Src) (v : Word), operand s src 64 = some v → v.toNat < 256 →
    exec (.movs 1 src) s = done s fun z => { z with flags := v }) ∧
  (∀ (s : State) (src : Src) (v : Word), operand s src 64 = some v → v &&& 0xFF000000FFFFFFF0 = 0 → (v &&& 7).toNat < 6 →
    exec (.movs 2 src) s = done s fun z => { z with rmode := v }) ∧
  (∀ (s : State) (src : Src) (v : Word), operand s src 64 = some v →
    exec (.movs 3 src) s = done s (fun z => { z with round := v &&& 0xFFFFFFFF }) ∧
    exec (.movs 7 src) s = done s (fun z => { z with fa := v &&& 7 }) ∧
    exec (.movs 8 src) s = done s (fun z => { z with fb := v &&& 7 }) ∧
    exec (.movs 9 src) s = done s (fun z => { z with fs := v &&& 15 })) ∧
  (∀ (s : State) (src : Src) (v : Word) (k : Fin 8), operand s src 64 = some v → v &&& 0x7F00000000000003 = 0 →
    exec (.movs (BitVec.ofNat 7 (0x10 + k)) src) s = done s fun z => { z with cw := z.cw.set k v }) ∧
  (∀ (s : State) (n : BitVec 7) (src : Src) (v : Word), operand s src 64 = some v →
    (crWritable n = false ∨ n = 1 ∧ 256 ≤ v.toNat ∨ n = 2 ∧ (v &&& 0xFF000000FFFFFFF0 ≠ 0 ∨ 6 ≤ (v &&& 7).toNat) ∨
      0x10 ≤ n.toNat ∧ v &&& 0x7F00000000000003 ≠ 0) →
    exec (.movs n src) s = .next (takeFault s .illegal Detail.zero))

/-- A segment image that SEGLD accepts, overlaps apart (R157, R198). -/
def Sys2Proof.Spec.imageAccepted (g : BitVec 128) : Prop :=
  g.extractLsb' 120 8 = 0 ∧ g.extractLsb' 56 4 = 0 ∧ ¬ (g.getLsbD 62 ∧ g.getLsbD 61) ∧
  (g.extractLsb' 0 56).toNat + (g.extractLsb' 64 56).toNat ≤ if g.getLsbD 63 then 2 ^ 56 else 0x60000

/-- A writable local segment that shares a byte with one of S1 and S3 to S7 of another occupied slot of the core, or with its S2
where that is not a berth's (R199). -/
def Sys2Proof.Spec.overlapping (s : State) (r : SlotRef) (g : BitVec 128) : Prop :=
  segWr g = true ∧ segSpace g = false ∧ 0 < segLimit g ∧ ∃ j < 8, j ≠ r.slot ∧ let x := s.slot { r with slot := j }
    x.occupied = true ∧ ∃ i : SReg, ¬ (i = 2 ∧ x.capsule.isSome = true) ∧ let h := x.getS i
      segWr h = true ∧ segSpace h = false ∧ 0 < segLimit h ∧ segBase g < segBase h + segLimit h ∧ segBase h < segBase g + segLimit g

/-- R198-R200, R298: SEGLD writes an image it accepts, from local memory at once; from global memory it asks and waits. In reproducible
mode a writable local image that overlaps one of another slot faults SEG_OVERLAP. S2 is refused to a task that holds a capsule. SEGRD
reads either half. -/
def Sys2Proof.Spec.SegmentRegisters : Prop :=
  (∀ (s : State) (d : SReg) (m : Mem) (a : Nat), let k := Spec.here s a
    ¬ (d = 2 ∧ s.cur.capsule.isSome) → Spec.near s m 16 true false = some a →
    s.hasUe k 16 = none → Spec.imageAccepted (BitVec.ofNat 128 (seenNat s k 16)) →
    let overlaps := isRepro s s.cur.launch = true ∧ Spec.overlapping s s.me (BitVec.ofNat 128 (seenNat s k 16))
    (¬ overlaps → exec (.segld d m) s = done s fun z => z.setS d (BitVec.ofNat 128 (seenNat s k 16))) ∧
    (overlaps → exec (.segld d m) s = .next (takeFault s .segOverlap Detail.zero))) ∧
  (∀ (s : State) (d : SReg) (m : Mem) (ps : List (Nat × Nat)), ¬ (d = 2 ∧ s.cur.capsule.isSome) → Spec.far s m 16 true false = some ps →
    ∃ ea, exec (.segld d m) s = done (sendLoads (byHome s ps) s).2 fun z =>
      { z with parks := z.parks ++ [⟨.segld d m, s.focus.pc, .loads ⟨(sendLoads (byHome s ps) s).1, none, [(Spec.va s m, 16)], none⟩, ea⟩] }) ∧
  (∀ (s : State) (m : Mem), s.cur.capsule.isSome → exec (.segld 2 m) s = .next (takeFault s .illegal Detail.zero)) ∧
  (∀ (s : State) (d : Reg) (a : SReg), exec (.segrd false d a) s = done s (fun z => z.setG d ((s.cur.getS a).extractLsb' 0 64)) ∧
    exec (.segrd true d a) s = done s fun z => z.setG d ((s.cur.getS a).extractLsb' 64 64))

/-- R158, R196, R197, R159, R84, R82, R160: MOVC reads every readable register; MOVS writes the register's own fields, and a
value the register does not take faults ILLEGAL and leaves it. R198-R200, R298: SEGLD writes an image it accepts, from local
memory at once, and from global memory it asks for the image and waits for the reply; in reproducible mode an image that overlaps a
writable local segment of another slot faults SEG_OVERLAP; S2 is refused to a task that holds a capsule. SEGRD reads either half. -/
def Obligations.SpecialRegisters : Prop := Spec.ControlRegisters ∧ Spec.SegmentRegisters

/-- R201, R202, R204, R205: TRAP takes its fault with its code in ARG; BRK halts the slot with an event record where the launch
allows it, SNAP asks for a snapshot where its die is enabled, and both do nothing otherwise; NOP moves on. -/
def Obligations.TrapBreakSnapNop : Prop :=
  (∀ (s : State) (imm : BitVec 20), exec (.trap imm) s = .next (takeFault s .trap ⟨0, none, none, imm.setWidth 64⟩)) ∧
  (∀ (s : State), (∀ l, s.launch s.cur.launch = some l → l.debug = false) → exec .brk s = done s id) ∧
  (∀ (s : State) (l : Launch), s.launch s.cur.launch = some l → l.debug = true →
    exec .brk s = .next ((s.modCur fun z => { z with halt := .debug }).record s.me.die
      (recordOf s s.asker 1 false .trap ⟨s.focus.pc, none, none, 0xFFFFF⟩)).advance) ∧
  (∀ (s : State), (Nat.testBit s.snapEnable s.me.die = false → exec .snap s = done s id) ∧
    (Nat.testBit s.snapEnable s.me.die = true → exec .snap s = done { s with snapAt := some (s.snapAt.getD (s.cycle + 128)) } id)) ∧
  (∀ (s : State), exec .nop s = done s id)

/-! ## Vector registers, streams and elements -/

/-- The address that R191, R216 and R221 admit for `z` bytes at offset `ea` of a segment, before translation. -/
def Sys2Proof.Spec.reach (g : BitVec 128) (ea z : Nat) (rd wr : Bool) : Option Nat :=
  let addr := (segBase g + ea) % 2 ^ 56
  if 0 < segLimit g ∧ ea < segLimit g ∧ ea + z ≤ segLimit g ∧ (rd → segRd g) ∧ (wr → segWr g) ∧ addr % z = 0 then some addr else none

/-- A use of a V register that R222 does not refuse. -/
def Sys2Proof.Spec.usable (s : State) (wr : Bool) (f : Nat) (r : VReg) : Bool :=
  match s.cur.binding r with
  | none => true
  | some b => b.write == wr && decide (fmtWidth (sdFmt (s.cur.getSd b.desc).image) = fmtWidth f)

/-- Local offset of stream element `k` (R221). -/
def Sys2Proof.Spec.streamOff (s : State) (i : BitVec 256) (w k : Nat) (rd wr : Bool) : Option Nat :=
  let g := s.cur.getS (sdSeg i)
  if segSpace g then none else Spec.reach g (sdElem i k) (w / 8) rd wr

/-- Stream element `k` as a pop reads it: the absent code past the end (R221); one that the instruction does not want makes no
access (R210). -/
def Sys2Proof.Spec.streamElem (s : State) (i : BitVec 256) (w k : Nat) (want : Bool) : Option Nat :=
  if sdBound0 i * sdBound1 i ≤ k then some (absentCode (sdFmt i))
  else if want = false then some 0
  else (Spec.streamOff s i w k true false).bind fun a =>
    if s.hasUe (Spec.here s a) (w / 8) = none then some (seenNat s (Spec.here s a) (w / 8)) else none

/-- A stream moves on by one register (R221). -/
def Sys2Proof.Spec.moveOn (b : Binding) (f : Nat) (z : Slot) : Slot :=
  let sd := z.getSd b.desc
  z.setSd b.desc { sd with pos := min (sd.pos + fmtElems f) (sdBound0 sd.image * sdBound1 sd.image) }

/-- Every element: what an instruction without a mask asks of its sources. -/
def Sys2Proof.Spec.every (_ : Nat) : Bool := true

/-- The elements that a mask register makes active (R210). -/
def Sys2Proof.Spec.active (s : State) (pm : PReg) (f : Nat) (j : Nat) : Bool := activeIn (s.cur.getP pm) (fmtElems f) j

/-- A source register of format `f`: its 512 bits, or a pop of the stream it is bound to (R221), of the elements wanted. -/
def Sys2Proof.Spec.pop (s : State) (f : Nat) (r : VReg) (want : Nat → Bool) : Option (BitVec 512 × State) :=
  match s.cur.binding r with
  | none => some (s.cur.getV r, s)
  | some b =>
    let sd := s.cur.getSd b.desc
    ((List.range (fmtElems f)).mapM fun j => Spec.streamElem s sd.image (fmtWidth f) (sd.pos + j) (want j)).map fun es =>
      (ofElems (fmtWidth f) es, s.modCur (Spec.moveOn b f))

/-- Two source registers; one named twice is popped once (R221). -/
def Sys2Proof.Spec.pop2 (s : State) (f : Nat) (a b : VReg) (want : Nat → Bool) : Option (BitVec 512 × BitVec 512 × State) :=
  (Spec.pop s f a want).bind fun p =>
    if a = b then some (p.1, p.1, p.2) else (Spec.pop p.2 f b want).map fun q => (p.1, q.1, q.2)

/-- The elements of a register with new ones over them (R210). -/
def Sys2Proof.Spec.merge (w : Nat) (old : BitVec 512) (new : Nat → Option Nat) : BitVec 512 :=
  ofElems w ((List.range (512 / w)).map fun j => (new j).getD (elemAt old w j))

/-- Write elements of a destination: into the register, or to the stream it is bound to (R210, R221). -/
def Sys2Proof.Spec.push (s : State) (f : Nat) (d : VReg) (new : Nat → Option Nat) : Option State :=
  match s.cur.binding d with
  | none => some (s.modCur fun z => z.setV d (Spec.merge (fmtWidth f) (z.getV d) new))
  | some b =>
    let sd := s.cur.getSd b.desc
    ((List.range (fmtElems f)).foldlM (fun t j =>
      match new j with
      | some e =>
        if sd.pos + j < sdBound0 sd.image * sdBound1 sd.image then
          (Spec.streamOff t sd.image (fmtWidth f) (sd.pos + j) false true).map fun a =>
            stored t (Spec.here t a) (bytesOf (fmtWidth f / 8) e)
        else some t
      | none => some t) s).map fun (t : State) => t.modCur (Spec.moveOn b f)

/-- A constant of a vector source and the flags of its conversion (R148, R149). -/
def Sys2Proof.Spec.constant (s : State) (f int f32 : Nat) : Nat × Sticky := constElem f (tabB s f) (constRm s.cur.rmode) int f32

/-- Sticky flags set (R90). -/
def Sys2Proof.Spec.noted (s : State) (st : Sticky) : State := s.modCur fun z => { z with flags := z.flags ||| stickyWord st }

/-- The sources of R211 as elements, the flags of a constant's conversion, and the state after their pops. -/
def Sys2Proof.Spec.operands (s : State) (f : Nat) (a : VReg) (src : Src) (want : Nat → Bool) :
    Option ((Nat → Nat) × (Nat → Nat) × Sticky × State) :=
  let w := fmtWidth f
  let with_ (g : State → Option (Nat × Sticky)) : Option ((Nat → Nat) × (Nat → Nat) × Sticky × State) := (Spec.pop s f a want).bind fun p =>
    (g p.2).map fun c => (elemAt p.1 w, (fun _ => c.1), c.2, p.2)
  match src with
  | .rr b => (Spec.pop2 s f a (b.extractLsb' 0 3) want).map fun p => (elemAt p.1 w, elemAt p.2.1 w, Sticky.none, p.2.2)
  | .ri imm => with_ fun t => some (Spec.constant t f (imm.signExtend 64).toNat (imm ++ 0#12).toNat)
  | .rl lit => with_ fun t => some (Spec.constant t f (lit.signExtend 64).toNat lit.toNat)
  | .rk win off => with_ fun t => (constAt t win off w).map fun v => (v, Sticky.none)
  | .rl64 lit => with_ fun _ => some (lit.toNat, Sticky.none)

/-- The same with those flags set. -/
def Sys2Proof.Spec.sources (s : State) (f : Nat) (a : VReg) (src : Src) (want : Nat → Bool) :
    Option ((Nat → Nat) × (Nat → Nat) × State) :=
  (Spec.operands s f a src want).map fun p => (p.1, p.2.1, Spec.noted p.2.2.2 p.2.2.1)

/-- The end of an instruction whose written elements had the results `es`: sticky flags (R90), SRN (R86), the PC. -/
def Sys2Proof.Spec.settle (u : State) (es : List Elem) : Out :=
  done u fun z => { z with
    flags := es.foldl (fun x e => x ||| stickyWord e.st) z.flags
    rmode := if rmMode z.rmode = 5 ∧ es.any Elem.sr then bumpSrn z.rmode else z.rmode }

/-- The results of the active elements (R210). -/
def Sys2Proof.Spec.results (n : Nat) (act : Nat → Bool) (r : Nat → Elem) : List Elem := ((List.range n).filter act).map r

/-- A two-source instruction of formats below `top` whose active element `j` has the result `g s f j x y` (R210, R211). -/
def Sys2Proof.Spec.Vector2 (top : Nat) (mk : V2 → Instr) (g : State → Nat → Nat → Nat → Nat → Elem) : Prop :=
  ∀ (s : State) (o : V2) (x y : Nat → Nat) (t u : State), let f := o.fmt.toNat
    f < top → Spec.usable s false f o.a = true → (∀ b, o.src = .rr b → Spec.usable s false f (b.extractLsb' 0 3) = true) →
    Spec.usable s true f o.d = true → Spec.sources s f o.a o.src (Spec.active s o.pm f) = some (x, y, t) →
    let act := activeIn (s.cur.getP o.pm) (fmtElems f)
    let r := fun j => g s f j (x j) (y j)
    Spec.push t f o.d (fun j => if act j then some (r j).bits else none) = some u →
    exec (mk o) s = Spec.settle u (Spec.results (fmtElems f) act r)

/-- The same for a register-register row. -/
def Sys2Proof.Spec.VectorPair (mk : VB → Instr) (g : State → Nat → Nat → Nat → Nat → Elem) : Prop :=
  ∀ (s : State) (o : VB) (x y : BitVec 512) (t u : State), let f := o.fmt.toNat
    Spec.usable s false f o.a = true → Spec.usable s false f o.b = true → Spec.usable s true f o.d = true →
    Spec.pop2 s f o.a o.b (Spec.active s o.pm f) = some (x, y, t) →
    let act := activeIn (s.cur.getP o.pm) (fmtElems f)
    let r := fun j => g s f j (elemAt x (fmtWidth f) j) (elemAt y (fmtWidth f) j)
    Spec.push t f o.d (fun j => if act j then some (r j).bits else none) = some u →
    exec (mk o) s = Spec.settle u (Spec.results (fmtElems f) act r)

/-- The same for one source. -/
def Sys2Proof.Spec.Vector1 (mk : V1 → Instr) (g : State → Nat → Nat → Nat → Elem) : Prop :=
  ∀ (s : State) (o : V1) (x : BitVec 512) (t u : State), let f := o.fmt.toNat
    Spec.usable s false f o.a = true → Spec.usable s true f o.d = true → Spec.pop s f o.a (Spec.active s o.pm f) = some (x, t) →
    let act := activeIn (s.cur.getP o.pm) (fmtElems f)
    let r := fun j => g s f j (elemAt x (fmtWidth f) j)
    Spec.push t f o.d (fun j => if act j then some (r j).bits else none) = some u →
    exec (mk o) s = Spec.settle u (Spec.results (fmtElems f) act r)

/-- The scheme of R225 and R226: an absent operand, a NaN operand, else the exact result rounded once. What counts as rounded under SR
is the reading of log 22. -/
def Sys2Proof.Spec.float (s : State) (f j : Nat) (args : List Val) (v : Rm → Val) : Elem :=
  let rm := rmOf s s.me j
  let r := if args.contains .nan then .nan else v rm
  let c := encodeVal f (tabA s f) rm r
  if args.contains .absent then ⟨absentCode f, ⟨true, false, false⟩, false⟩
  else ⟨c.1, c.2, countsForSr f r⟩

/-- Two operands, the first through the table of FA and the second through that of FB (R212). -/
def Sys2Proof.Spec.float2 (g : Bool → Val → Val → Val) (s : State) (f j x y : Nat) : Elem :=
  let a := decodeVal f (tabA s f) x
  let b := decodeVal f (tabB s f) y
  Spec.float s f j [a, b] fun rm => g (decide (rm.mode = 3)) a b

def Sys2Proof.Spec.float1 (g : Val → Val) (s : State) (f j x : Nat) : Elem :=
  let a := decodeVal f (tabA s f) x
  Spec.float s f j [a] fun _ => g a

/-- VMAX and VMIN: an absent operand is skipped, NaN wins over a number, +0 is above -0, of equals the first is taken;
nothing is rounded, but a .t8 code of y goes through its value into the table of A (R212). -/
def Sys2Proof.Spec.extremum (larger : Bool) (s : State) (f j x y : Nat) : Elem :=
  let a := decodeVal f (tabA s f) x
  let b := decodeVal f (tabB s f) y
  let rm := rmOf s s.me j
  let zero (v : Val) (neg : Bool) : Bool := match v with | .num n m _ => m == 0 && n == neg | _ => false
  let beats := if larger then valLt a b || (zero a true && zero b false) else valLt b a || (zero a false && zero b true)
  let mine : Elem := ⟨x, Sticky.none, false⟩
  let other : Elem :=
    if f = fmtT8 ∧ placeIn s.cur.fa ≠ placeIn s.cur.fb then ⟨(encodeVal f (tabA s f) rm b).1, (encodeVal f (tabA s f) rm b).2, false⟩
    else ⟨y, Sticky.none, false⟩
  let nan : Elem := ⟨(encodeVal f (tabA s f) rm .nan).1, (encodeVal f (tabA s f) rm .nan).2, false⟩
  let e :=
    if a = .absent ∧ b = .absent then ⟨absentCode f, Sticky.none, false⟩
    else if a = .nan ∨ b = .nan then nan
    else if a = .absent then other
    else if b = .absent then mine
    else if beats then other else mine
  if a = .absent ∨ b = .absent then { e with st := e.st.or ⟨true, false, false⟩ } else e

/-- R225: VADD, VSUB, VMUL, VMAX, VMIN, VABS, VNEG and VCPS by element, in every form and format. -/
def Sys2Proof.Spec.FloatArithmetic : Prop :=
  Spec.Vector2 20 .vadd (Spec.float2 fun rdn x y => addVal rdn x y) ∧
  Spec.Vector2 20 .vsub (Spec.float2 fun rdn x y => addVal rdn x (negVal y)) ∧
  Spec.Vector2 20 .vmul (Spec.float2 fun _ x y => mulVal x y) ∧
  Spec.Vector2 20 .vmax (Spec.extremum true) ∧
  Spec.Vector2 20 .vmin (Spec.extremum false) ∧
  Spec.Vector1 .vabs (Spec.float1 absVal) ∧
  Spec.Vector1 .vneg (Spec.float1 negVal) ∧
  Spec.VectorPair .vcps (Spec.float2 fun _ x y =>
    let neg := match y with | .inf n => n | .num n _ _ => n | _ => false
    if neg then negVal (absVal x) else absVal x)

/-- R225, R222: VFMA and VFMS round x * y + d and d - x * y once, with d the old element; D is not bound. -/
def Sys2Proof.Spec.Fused (mk : VB → Instr) (neg : Bool) : Prop :=
  ∀ (s : State) (o : VB) (x y : BitVec 512) (t : State), let f := o.fmt.toNat
    Spec.usable s false f o.a = true → Spec.usable s false f o.b = true → s.cur.binding o.d = none →
    Spec.pop2 s f o.a o.b (Spec.active s o.pm f) = some (x, y, t) →
    let act := activeIn (s.cur.getP o.pm) (fmtElems f)
    let r := fun j =>
      let a := decodeVal f (tabA s f) (elemAt x (fmtWidth f) j)
      let b := decodeVal f (tabB s f) (elemAt y (fmtWidth f) j)
      let c := decodeVal f (tabA s f) (elemAt (s.cur.getV o.d) (fmtWidth f) j)
      Spec.float s f j [a, b, c] fun rm => addVal (decide (rm.mode = 3)) (if neg then negVal (mulVal a b) else mulVal a b) c
    exec (mk o) s = Spec.settle
      (t.modCur fun z => z.setV o.d (Spec.merge (fmtWidth f) (z.getV o.d) fun j => if act j then some (r j).bits else none))
      (Spec.results (fmtElems f) act r)

/-- R220, R222, R225: VFMA and VFMS in every form; a bound destination is illegal. -/
def Sys2Proof.Spec.FusedArithmetic : Prop :=
  Spec.Fused .vfma false ∧ Spec.Fused .vfms true ∧
  (∀ (s : State) (o : VB), (s.cur.binding o.d).isSome = true →
    exec (.vfma o) s = .next (takeFault s .illegal Detail.zero) ∧ exec (.vfms o) s = .next (takeFault s .illegal Detail.zero))

/-- R225: VADD, VSUB, VMUL, VMAX, VMIN, VABS, VNEG and VCPS by element, in every form and format. R220, R222, R225: VFMA and
VFMS in every form; a bound destination is illegal. Which results
count as rounded under SR, and which infinite results set OVF, is the reading of log 22; which of two equal codes VMAX and VMIN write,
that of log 49. -/
def Obligations.FloatingPoint : Prop := Spec.FloatArithmetic ∧ Spec.FusedArithmetic

/-- The end of an instruction that parks for its result `v` of D (R214): SRN moves at once, the register and the flags when
the result comes; a bound destination has been pushed. -/
def Sys2Proof.Spec.parked (s u : State) (i : Instr) (d : VReg) (v : BitVec 512) (es : List Elem) : Out :=
  done u fun z => { z with
    rmode := if rmMode z.rmode = 5 ∧ es.any Elem.sr then bumpSrn z.rmode else z.rmode
    parks := z.parks ++ [⟨i, s.focus.pc, .late (.v d v (es.foldl (fun x e => x ||| stickyWord e.st) 0)), 0⟩] }

/-- R226, R214: a special function, with `g` its exact value. -/
def Sys2Proof.Spec.Special (mk : V1 → Instr) (g : Val → Val) : Prop :=
  ∀ (s : State) (o : V1) (x : BitVec 512) (t u : State), let f := o.fmt.toNat
    Spec.usable s false f o.a = true → Spec.usable s true f o.d = true → Spec.pop s f o.a (Spec.active s o.pm f) = some (x, t) →
    let act := activeIn (s.cur.getP o.pm) (fmtElems f)
    let r := fun j => Spec.float1 g s f j (elemAt x (fmtWidth f) j)
    let new := fun j => if act j then some (r j).bits else none
    (if (s.cur.binding o.d).isSome then Spec.push t f o.d new else some t) = some u →
    exec (mk o) s = Spec.parked s u (mk o) o.d
      (if (s.cur.binding o.d).isSome then t.cur.getV o.d else Spec.merge (fmtWidth f) (t.cur.getV o.d) new)
      (Spec.results (fmtElems f) act r)

/-- R226, R225: the nine special functions and VDIV park with each result rounded once; SPECIAL_FUNCTION_RESULT writes the
register and the sticky flags and lets the slot issue again. A bound destination's push at issue is the model's reading (log 25).
-/
def Sys2Proof.Spec.SpecialFunctions : Prop :=
  Spec.Special .vrcp (fun x => divVal (.num false 1 1) x) ∧ Spec.Special .vrsq rsqVal ∧ Spec.Special .vsqrt sqrtOf ∧
  Spec.Special .vexp2 exp2Val ∧ Spec.Special .vlog2 log2Val ∧ Spec.Special .vsin sinVal ∧ Spec.Special .vcos cosVal ∧
  Spec.Special .vtanh tanhVal ∧ Spec.Special .verf erfVal ∧
  (∀ (s : State) (o : V2) (x y : Nat → Nat) (t u : State), let f := o.fmt.toNat
    Spec.usable s false f o.a = true → (∀ b, o.src = .rr b → Spec.usable s false f (b.extractLsb' 0 3) = true) →
    Spec.usable s true f o.d = true → Spec.sources s f o.a o.src (Spec.active s o.pm f) = some (x, y, t) →
    let act := activeIn (s.cur.getP o.pm) (fmtElems f)
    let r := fun j => Spec.float2 (fun _ x y => divVal x y) s f j (x j) (y j)
    let new := fun j => if act j then some (r j).bits else none
    (if (s.cur.binding o.d).isSome then Spec.push t f o.d new else some t) = some u →
    exec (.vdiv o) s = Spec.parked s u (.vdiv o) o.d
      (if (s.cur.binding o.d).isSome then t.cur.getV o.d else Spec.merge (fmtWidth f) (t.cur.getV o.d) new)
      (Spec.results (fmtElems f) act r)) ∧
  (∀ (s : State) (r : SlotRef) (p : Park) (d : VReg) (v : BitVec 512) (st : Word), (s.slot r).parks = [p] → p.cond = .late (.v d v st) →
    exec (.specialFunctionResult r) s =
      .next (wakeSlot r ((countParked r s).modSlot r fun x => { x.setV d v with flags := x.flags ||| st, parks := [] })))

/-- An exact square of R226: VSQRT's value is the root itself where the root is rational with the operand's own denominator, and
otherwise lies strictly between two multiples of 2^-k that enclose the root, with k 160 bits below the operand. -/
def Sys2Proof.Spec.SquareRootEnclosed : Prop :=
  ∀ n d : Nat, 0 < d → ∃ a k : Nat, sqrtVal n d = .num false a (2 ^ k) ∧ 160 + Nat.log2 d ≤ k ∧
    ((a * a * d = n * (2 ^ k * 2 ^ k)) ∨
     ((a - 1) * (a - 1) * d < n * (2 ^ k * 2 ^ k) ∧ n * (2 ^ k * 2 ^ k) < (a + 1) * (a + 1) * d))

/-- R226, R225: the nine special functions and VDIV park with each element's value, rounded once; SPECIAL_FUNCTION_RESULT writes
the register and the sticky flags and lets the slot issue again. VDIV's and VRCP's value is the exact quotient; VSQRT's is the root
itself where the root is rational with the operand's own denominator, and otherwise lies strictly between two multiples of 2^-k
that enclose the root, with k 160 bits below the operand; the others are the model's own functions. A bound destination's push at
issue is the model's reading (log 25); which results count as rounded is that of log 22. -/
def Obligations.SpecialValues : Prop := Spec.SpecialFunctions ∧ Spec.SquareRootEnclosed

/-! ## Integer and bit arithmetic -/

/-- VIADD, VISUB, VIMUL (R227, R73, R74): absent operands give absent; an i or n result outside its range is clamped under
SAT and wrapped otherwise, with OVF; a b result is taken modulo 2^w. -/
def Sys2Proof.Spec.integer (g : Int → Int → Int) (s : State) (f _j x y : Nat) : Elem :=
  let w := fmtWidth f
  let value (k : Nat) : Int := if f < 4 ∧ 2 ^ (w - 1) ≤ k then (k : Int) - 2 ^ w else k
  let lo : Int := if f < 4 then 1 - 2 ^ (w - 1) else 0
  let hi : Int := if f < 4 then 2 ^ (w - 1) - 1 else 2 ^ w - 2
  let v := g (value x) (value y)
  let code (k : Int) : Nat := (k % 2 ^ w).toNat
  if 8 ≤ f ∧ f < 12 then ⟨code v, Sticky.none, false⟩
  else if x = absentCode f ∨ y = absentCode f then ⟨absentCode f, ⟨true, false, false⟩, false⟩
  else if lo ≤ v ∧ v ≤ hi then ⟨code v, Sticky.none, false⟩
  else ⟨code (if s.cur.rmode.getLsbD 3 then max lo (min hi v) else v), ⟨false, true, false⟩, false⟩

/-- VIMAX, VIMIN: an absent operand is skipped (R227). -/
def Sys2Proof.Spec.integerExt (larger : Bool) (_ : State) (f _j x y : Nat) : Elem :=
  let w := fmtWidth f
  let value (k : Nat) : Int := if f < 4 ∧ 2 ^ (w - 1) ≤ k then (k : Int) - 2 ^ w else k
  let absent (k : Nat) : Bool := decide (¬ (8 ≤ f ∧ f < 12)) && k == absentCode f
  if absent x ∧ absent y then ⟨absentCode f, ⟨true, false, false⟩, false⟩
  else if absent x then ⟨y, ⟨true, false, false⟩, false⟩
  else if absent y then ⟨x, ⟨true, false, false⟩, false⟩
  else ⟨if larger then (if value x < value y then y else x) else (if value x < value y then x else y), Sticky.none, false⟩

/-- An operation on patterns of w bits (R228). -/
def Sys2Proof.Spec.bits (g : (w : Nat) → BitVec w → BitVec w → BitVec w) (_ : State) (f _j x y : Nat) : Elem :=
  ⟨(g (fmtWidth f) (BitVec.ofNat _ x) (BitVec.ofNat _ y)).toNat, Sticky.none, false⟩

def Sys2Proof.Spec.bits1 (g : (w : Nat) → BitVec w → Nat) (_ : State) (f _j x : Nat) : Elem :=
  ⟨g (fmtWidth f) (BitVec.ofNat _ x), Sticky.none, false⟩

/-- R227: VIADD, VISUB, VIMUL, VIMAX and VIMIN in the integer formats. -/
def Sys2Proof.Spec.VectorIntegers : Prop :=
  Spec.Vector2 12 .viadd (Spec.integer (· + ·)) ∧
  Spec.Vector2 12 .visub (Spec.integer (· - ·)) ∧
  Spec.Vector2 12 .vimul (Spec.integer (· * ·)) ∧
  Spec.Vector2 12 .vimax (Spec.integerExt true) ∧
  Spec.Vector2 12 .vimin (Spec.integerExt false)

/-- The sources of a shift: an immediate count is its 64-bit sign extension (R228). -/
def Sys2Proof.Spec.shiftSources (s : State) (f : Nat) (a : VReg) (src : Src) (want : Nat → Bool) : Option ((Nat → Nat) × (Nat → Nat) × State) :=
  match src with
  | .ri imm => (Spec.pop s f a want).map fun p => (elemAt p.1 (fmtWidth f), (fun _ => (imm.signExtend 64).toNat), p.2)
  | src => Spec.sources s f a src want

/-- A shift of R228: the count is y in full. -/
def Sys2Proof.Spec.VectorShift (mk : V2 → Instr) (g : (w : Nat) → BitVec w → Nat → BitVec w) : Prop :=
  ∀ (s : State) (o : V2) (x y : Nat → Nat) (t u : State), let f := o.fmt.toNat
    Spec.usable s false f o.a = true → (∀ b, o.src = .rr b → Spec.usable s false f (b.extractLsb' 0 3) = true) →
    Spec.usable s true f o.d = true →
    Spec.shiftSources s f o.a o.src (Spec.active s o.pm f) = some (x, y, t) →
    let act := activeIn (s.cur.getP o.pm) (fmtElems f)
    let r := fun j => (⟨(g (fmtWidth f) (BitVec.ofNat _ (x j)) (y j)).toNat, Sticky.none, false⟩ : Elem)
    Spec.push t f o.d (fun j => if act j then some (r j).bits else none) = some u →
    exec (mk o) s = Spec.settle u (Spec.results (fmtElems f) act r)

/-- R228: logic, shifts and bit counts on patterns; no flag. -/
def Sys2Proof.Spec.VectorBits : Prop :=
  Spec.Vector2 12 .vand (Spec.bits fun _ x y => x &&& y) ∧
  Spec.Vector2 12 .vor (Spec.bits fun _ x y => x ||| y) ∧
  Spec.Vector2 12 .vxor (Spec.bits fun _ x y => x ^^^ y) ∧
  Spec.VectorShift .vshl (fun _ x n => x <<< n) ∧
  Spec.VectorShift .vshr (fun _ x n => x >>> n) ∧
  Spec.VectorShift .vsar (fun _ x n => x.sshiftRight n) ∧
  Spec.Vector1 .vclz (Spec.bits1 fun w x => if x = 0 then w else w - 1 - Nat.log2 x.toNat) ∧
  Spec.Vector1 .vctz (Spec.bits1 fun w x => Spec.lowestFrom x.toNat w 0) ∧
  Spec.Vector1 .vpopc (Spec.bits1 fun w x => ((List.range w).map fun i => (x.getLsbD i).toNat).sum)

/-- R227: VIADD, VISUB, VIMUL, VIMAX and VIMIN in the integer formats. R228: logic, shifts and bit counts on patterns; no flag.
-/
def Obligations.VectorWords : Prop := Spec.VectorIntegers ∧ Spec.VectorBits

/-! ## Compare, convert, reduce, permute, sort and select -/

/-- FLAGS.A set where `a` holds and FLAGS.NAN where `n` does (R90, R89). -/
def Sys2Proof.Spec.sees (a n : Bool) (z : Slot) : Slot := { z with flags := z.flags ||| stickyWord ⟨a, false, n⟩ }

/-- FLAGS.A set where `b` holds (R90). -/
def Sys2Proof.Spec.seen (b : Bool) (z : Slot) : Slot := { z with flags := if b then z.flags ||| 0x20 else z.flags }

/-- The predicates of R229. -/
def Sys2Proof.Spec.predicate (pr : Nat) (x y : Val) : Bool :=
  let un := x == .absent || x == .nan || y == .absent || y == .nan
  match pr with
  | 0 => !un && !valLt x y && !valLt y x
  | 1 => un || valLt x y || valLt y x
  | 2 => !un && valLt x y
  | 3 => !un && !valLt y x
  | 4 => !un && valLt y x
  | 5 => !un && !valLt x y
  | 6 => un
  | _ => !un

/-- A mask register with bit `j` set where `b j` holds below `n`; P0 takes no write (R156, R229). -/
def Sys2Proof.Spec.writesMask (d : PReg) (n : Nat) (b : Nat → Bool) (z : Slot) : Slot :=
  z.setP d (BitVec.ofNat 64 (((List.range n).map fun j => b2n (b j) * 2 ^ j).sum))

/-- The class of an element (R231). -/
def Sys2Proof.Spec.classify (f : Nat) (t : Table) (x : Nat) : Nat :=
  match decodeVal f t x with
  | .absent => 0
  | .nan => 1
  | .inf true => 2
  | .inf false => 9
  | .num neg n _ =>
    let sub : Bool := decide (12 ≤ f ∧ f < 19) && decide (x % 2 ^ (fmtWidth f - 1) / 2 ^ (fpOf f).mb = 0)
    if n = 0 then (if neg then 5 else 6) else if sub then (if neg then 4 else 7) else if neg then 3 else 8

/-- R229-R233: VCMP, VSEL, VCLASS, VPRES and VFILLA. -/
def Sys2Proof.Spec.VectorCompareAndSelect : Prop :=
  (∀ (s : State) (pr : BitVec 4) (fmt : BitVec 5) (d : PReg) (a : VReg) (src : Src) (x y : Nat → Nat) (st : Sticky) (t : State), let f := fmt.toNat
    pr.toNat < 8 → f < 20 → Spec.usable s false f a = true → (∀ b, src = .rr b → Spec.usable s false f (b.extractLsb' 0 3) = true) →
    Spec.operands s f a src Spec.every = some (x, y, st, t) →
    let v := fun j => decodeVal f (tabA s f) (x j)
    let w := fun j => decodeVal f (tabB s f) (y j)
    exec (.vcmp pr fmt d a src) s = done t fun z =>
      Spec.seen ((List.range (fmtElems f)).any fun j => v j == .absent || w j == .absent)
        (Spec.writesMask d (fmtElems f) (fun j => Spec.predicate pr.toNat (v j) (w j)) z)) ∧
  (∀ (s : State) (o : VB) (x y : BitVec 512) (t u : State), let f := o.fmt.toNat
    Spec.usable s false f o.a = true → Spec.usable s false f o.b = true → Spec.usable s true f o.d = true →
    (if o.a = o.b then (Spec.pop s f o.a Spec.every).map fun p => (p.1, p.1, p.2)
      else (Spec.pop s f o.a (Spec.active s o.pm f)).bind fun p => (Spec.pop p.2 f o.b Spec.every).map fun q => (p.1, q.1, q.2)) =
      some (x, y, t) →
    Spec.push t f o.d (fun j => some (elemAt (if activeIn (s.cur.getP o.pm) (fmtElems f) j then x else y) (fmtWidth f) j)) = some u →
    exec (.vsel o) s = done u id) ∧
  Spec.Vector1 .vclass (fun s f _ x =>
    ⟨Spec.classify f (tabA s f) x, ⟨Spec.classify f (tabA s f) x == 0, false, false⟩, false⟩) ∧
  (∀ (s : State) (fmt : BitVec 5) (d : PReg) (a : VReg) (x : BitVec 512) (t : State), let f := fmt.toNat
    f < 20 → Spec.usable s false f a = true → Spec.pop s f a Spec.every = some (x, t) →
    let here := fun j => decodeVal f (tabA s f) (elemAt x (fmtWidth f) j) != .absent
    exec (.vpres fmt d a) s = done t fun z =>
      Spec.seen ((List.range (fmtElems f)).any fun j => !here j) (Spec.writesMask d (fmtElems f) here z)) ∧
  (∀ (s : State) (o : V1) (x : BitVec 512) (t u : State), let f := o.fmt.toNat
    Spec.usable s false f o.a = true → Spec.usable s true f o.d = true → Spec.pop s f o.a (Spec.active s o.pm f) = some (x, t) →
    Spec.push t f o.d (fun j => some (if activeIn (s.cur.getP o.pm) (fmtElems f) j then elemAt x (fmtWidth f) j else absentCode f)) = some u →
    exec (.vfilla o) s = done u id)

/-- The format of a conversion code (R234). -/
def Sys2Proof.Spec.formatOf (c : BitVec 4) : Nat := if c.toNat < 8 then 12 + c.toNat else c.toNat - 8

/-- One element converted (R234, R74, R87): between integer formats by value and range, otherwise through its exact value,
decoded by the table of A and rounded once into the table of B. -/
def Sys2Proof.Spec.converted (df sf : Nat) (s : State) (j x : Nat) : Elem :=
  if sf < 8 ∧ df < 8 then
    match decodeInt sf x with
    | some v => ⟨(encodeInt df (s.cur.rmode.getLsbD 3) v).1, (encodeInt df (s.cur.rmode.getLsbD 3) v).2, false⟩
    | none => ⟨absentCode df, ⟨true, false, false⟩, false⟩
  else
    let v := decodeVal sf (tabA s sf) x
    let c := encodeVal df (tabB s df) (rmOf s s.me j) v
    if v = .absent then ⟨absentCode df, ⟨true, false, false⟩, false⟩
    else ⟨c.1, c.2, countsForSr df v⟩

/-- A conversion whose result element `j` comes from source element `g j` (R235). -/
def Sys2Proof.Spec.Converts (mk : Cvt → Instr) (ok : Cvt → Nat → Nat → Prop) (g : Cvt → Nat → Nat → Nat → Option Nat) : Prop :=
  ∀ (s : State) (o : Cvt) (x : BitVec 512) (t u : State), let sf := Spec.formatOf o.sf; let df := Spec.formatOf o.df
    ok o (fmtWidth sf) (fmtWidth df) → Spec.usable s false sf o.a = true → Spec.usable s true df o.d = true →
    Spec.pop s sf o.a Spec.every = some (x, t) →
    let r := fun j => (g o (fmtElems sf) (fmtElems df) j).map fun i => Spec.converted df sf s j (elemAt x (fmtWidth sf) i)
    Spec.push t df o.d (fun j => (r j).map Elem.bits) = some u →
    exec (mk o) s = Spec.settle u ((List.range (fmtElems df)).filterMap r)

/-- R234-R236: VCVT, VPACK, VUNPK and VSCALE. Which results count as rounded under SR, and which set OVF, is the reading of log 22. -/
def Obligations.Conversions : Prop :=
  Spec.Converts .vcvt (fun o sw dw => sw = dw ∧ o.part = 0) (fun _ _ _ j => some j) ∧
  Spec.Converts .vpack (fun o sw dw => 2 * dw ≤ sw ∧ o.part.toNat < sw / dw)
    (fun o es _ j => if o.part.toNat * es ≤ j ∧ j < (o.part.toNat + 1) * es then some (j - o.part.toNat * es) else none) ∧
  Spec.Converts .vunpk (fun o sw dw => 2 * sw ≤ dw ∧ o.part.toNat < dw / sw) (fun o _ ed j => some (o.part.toNat * ed + j)) ∧
  (∀ (s : State) (o : Cvt), let sw := fmtWidth (Spec.formatOf o.sf); let dw := fmtWidth (Spec.formatOf o.df)
    (¬ (sw = dw ∧ o.part = 0) → exec (.vcvt o) s = .next (takeFault s .illegal Detail.zero)) ∧
    (¬ (2 * dw ≤ sw ∧ o.part.toNat < sw / dw) → exec (.vpack o) s = .next (takeFault s .illegal Detail.zero)) ∧
    (¬ (2 * sw ≤ dw ∧ o.part.toNat < dw / sw) → exec (.vunpk o) s = .next (takeFault s .illegal Detail.zero))) ∧
  (∀ (s : State) (inv : Bool) (fm : BitVec 4) (d a : VReg) (b : Reg) (x : BitVec 512) (t u : State), let f := Spec.formatOf fm
    Spec.usable s false f a = true → Spec.usable s true f d = true → Spec.pop s f a Spec.every = some (x, t) →
    let r := fun j =>
      let v := decodeVal f (tabA s f) (elemAt x (fmtWidth f) j)
      let sc := scaleVal s s.me (((s.cur.getG b).extractLsb' (8 * (j / 32)) 8).toNat)
      Spec.float s f j [v, sc] fun _ => if inv then divVal v sc else mulVal v sc
    Spec.push t f d (fun j => some (r j).bits) = some u →
    exec (.vscale inv fm d a b) s = Spec.settle u ((List.range (fmtElems f)).map r))

/-- The active codes among the first `n` elements, in order. -/
def Sys2Proof.Spec.inputs (s : State) (o : Red) (x : BitVec 512) (n : Nat) : List Nat :=
  let f := o.fmt.toNat
  ((List.range n).filter (activeIn (s.cur.getP o.pm) (fmtElems f))).map (elemAt x (fmtWidth f))

/-- The sign of a value, and the exact number it stands for (R69). -/
def Sys2Proof.Spec.negative (v : Val) : Bool := match v with | .inf n => n | .num n _ _ => n | _ => false
def Sys2Proof.Spec.number (v : Val) : ℚ := match v with | .num neg n d => (if neg then -1 else 1) * (n : ℚ) / d | _ => 0
def Sys2Proof.Spec.zero (v : Val) (neg : Bool) : Prop := ∃ d, v = .num neg 0 d
def Sys2Proof.Spec.infinite (vs : List Val) : Prop := ∃ n, Val.inf n ∈ vs

/-- The exact sum of present inputs none of which is NaN (R237, R89). -/
def Sys2Proof.Spec.sumOf (rdn : Bool) (vs : List Val) (v : Val) : Prop :=
  (Val.inf true ∈ vs ∧ Val.inf false ∈ vs → v = .nan) ∧
  (∀ n, Val.inf n ∈ vs → Val.inf (!n) ∉ vs → v = .inf n) ∧
  (¬ Spec.infinite vs → ∃ neg n d, v = .num neg n d ∧ 0 < d ∧ Spec.number v = (vs.map Spec.number).sum ∧
    (n = 0 → (neg = true ↔ (∀ x ∈ vs, Spec.zero x true) ∨ rdn = true ∧ ∃ x ∈ vs, ¬ Spec.zero x false)))

/-- The exact product of present inputs none of which is NaN (R237, R89). -/
def Sys2Proof.Spec.productOf (vs : List Val) (v : Val) : Prop :=
  let neg := decide ((vs.filter Spec.negative).length % 2 = 1)
  let zeros := ∃ x ∈ vs, Spec.zero x true ∨ Spec.zero x false
  (Spec.infinite vs ∧ zeros → v = .nan) ∧ (Spec.infinite vs ∧ ¬ zeros → v = .inf neg) ∧
  (¬ Spec.infinite vs → ∃ n d, v = .num neg n d ∧ 0 < d ∧ Spec.number v = (vs.map Spec.number).prod)

/-- R237 for the float formats: no input gives absent, a NaN the canonical NaN, a sum or product is exact and rounded once, and an
extremum is the code of an input that none exceeds, +0 above -0, the first of equals. -/
def Sys2Proof.Spec.FloatReductions : Prop :=
  ∀ (s : State) (f j : Nat) (xs : List Nat), 12 ≤ f → f < 20 →
    let t := tabA s f; let rm := rmOf s s.me j
    let ins := xs.filter fun x => decide (decodeVal f t x ≠ .absent); let vs := ins.map (decodeVal f t)
    let absent : Sticky := ⟨decide (ins.length < xs.length), false, false⟩
    let round := fun v => (⟨(encodeVal f t rm v).1, (encodeVal f t rm v).2.or absent, countsForSr f v⟩ : Elem)
    (ins = [] → ∀ op, reduce f op s j xs = ⟨absentCode f, absent, false⟩) ∧
    (Val.nan ∈ vs → ∀ op, reduce f op s j xs = round .nan) ∧
    (ins ≠ [] → Val.nan ∉ vs → (∃ v, Spec.sumOf (decide (rm.mode = 3)) vs v ∧ reduce f 0 s j xs = round v) ∧
      (∃ v, Spec.productOf vs v ∧ reduce f 3 s j xs = round v) ∧
      ∀ larger : Bool, ∃ a x b, ins = a ++ x :: b ∧ reduce f (if larger then 1 else 2) s j xs = ⟨x, absent, false⟩ ∧
        let above := fun y : Nat =>
          (if larger then valLt (decodeVal f t x) (decodeVal f t y) else valLt (decodeVal f t y) (decodeVal f t x)) = true ∨
            Spec.zero (decodeVal f t x) larger ∧ Spec.zero (decodeVal f t y) (!larger)
        let below := fun y : Nat =>
          (if larger then valLt (decodeVal f t y) (decodeVal f t x) else valLt (decodeVal f t x) (decodeVal f t y)) = true ∨
            Spec.zero (decodeVal f t y) larger ∧ Spec.zero (decodeVal f t x) (!larger)
        (∀ y ∈ a, below y) ∧ ∀ y ∈ b, ¬ above y)

/-- R237, R238: VRED writes element 0 with the reduction of the active elements, VSCAN every element j with that of those up to j;
over integers a reduction is that of R74 on the present values, over floats the exact sum or product of them rounded once, or the
extremum, with FLAGS.A where one is absent. Which results count as rounded is the reading of log 22. -/
def Obligations.Reductions : Prop := Spec.FloatReductions ∧
  (∀ (s : State) (o : Red) (x : BitVec 512) (t u : State), let f := o.fmt.toNat
    o.op.toNat < 4 → Spec.usable s false f o.a = true → Spec.usable s true f o.d = true → Spec.pop s f o.a (Spec.active s o.pm f) = some (x, t) →
    let e := reduce f o.op.toNat s 0 (Spec.inputs s o x (fmtElems f))
    Spec.push t f o.d (fun j => if j = 0 then some e.bits else none) = some u →
    exec (.vred o) s = Spec.settle u [e]) ∧
  (∀ (s : State) (o : Red) (x : BitVec 512) (t u : State), let f := o.fmt.toNat
    o.op.toNat < 4 → Spec.usable s false f o.a = true → Spec.usable s true f o.d = true → Spec.pop s f o.a (Spec.active s o.pm f) = some (x, t) →
    let e := fun j => reduce f o.op.toNat s j (Spec.inputs s o x (j + 1))
    Spec.push t f o.d (fun j => some (e j).bits) = some u →
    exec (.vscan o) s = Spec.settle u ((List.range (fmtElems f)).map e)) ∧
  (∀ (s : State) (o : Red), 4 ≤ o.op.toNat →
    exec (.vred o) s = .next (takeFault s .illegal Detail.zero) ∧ exec (.vscan o) s = .next (takeFault s .illegal Detail.zero)) ∧
  (∀ (s : State) (f j : Nat) (xs : List Nat), f < 12 →
    let vs := xs.filterMap (decodeInt f)
    let a : Sticky := ⟨decide (vs.length < xs.length), false, false⟩
    let sat := s.cur.rmode.getLsbD 3
    (vs = [] → ∀ op, reduce f op s j xs = ⟨absentCode f, a, false⟩) ∧
    (vs ≠ [] → reduce f 0 s j xs = ⟨(encodeInt f sat vs.sum).1, (encodeInt f sat vs.sum).2.or a, false⟩) ∧
    (vs ≠ [] → reduce f 3 s j xs = ⟨(encodeInt f sat vs.prod).1, (encodeInt f sat vs.prod).2.or a, false⟩) ∧
    (vs ≠ [] → ∃ m ∈ vs, (∀ v ∈ vs, v ≤ m) ∧ reduce f 1 s j xs = ⟨(encodeInt f false m).1, a, false⟩) ∧
    (vs ≠ [] → ∃ m ∈ vs, (∀ v ∈ vs, m ≤ v) ∧ reduce f 2 s j xs = ⟨(encodeInt f false m).1, a, false⟩))

/-- R239: VPERM, VROT, VZIP and VUZP move codes and set no flag. -/
def Sys2Proof.Spec.Permutes : Prop :=
  (∀ (s : State) (o : VB) (i x y : BitVec 512) (r t t' u : State), let f := o.fmt.toNat; let w := fmtWidth f; let n := fmtElems f
    let act := Spec.active s o.pm f
    Spec.usable s false f o.a = true → Spec.usable s false f o.b = true → Spec.usable s true f o.d = true →
    Spec.pop s f o.b act = some (i, r) →
    Spec.pop s f o.a (fun k => act k || (List.range n).any fun j => act j && decide (elemAt i w j % n = k)) = some (x, t) →
    (if o.a = o.b then some (x, t) else Spec.pop t f o.b act) = some (y, t') →
    Spec.push t' f o.d (fun j => if act j then some (elemAt x w (elemAt y w j % n)) else none) = some u →
    exec (.vperm o) s = done u id) ∧
  (∀ (s : State) (o : V2) (k : Int) (m : Nat) (x : BitVec 512) (t u : State), let f := o.fmt.toNat; let w := fmtWidth f; let n := fmtElems f
    let act := Spec.active s o.pm f
    Spec.usable s false f o.a = true → Spec.usable s true f o.d = true →
    ((∃ b, o.src = .rr b ∧ k = (s.cur.getG b).toNat) ∨ ∃ imm, o.src = .ri imm ∧ k = imm.toInt) → (m : Int) = k % (n : Int) →
    Spec.pop s f o.a (fun e => act e || (List.range n).any fun j => act j && decide ((j + m) % n = e)) = some (x, t) →
    Spec.push t f o.d (fun j => if act j then some (elemAt x w ((j + m) % n)) else none) = some u →
    exec (.vrot o) s = done u id) ∧
  (∀ (s : State) (o : Zip) (x y : BitVec 512) (t u : State), let f := o.fmt.toNat; let w := fmtWidth f; let n := fmtElems f
    Spec.usable s false f o.a = true → Spec.usable s false f o.b = true → Spec.usable s true f o.d = true →
    Spec.pop2 s f o.a o.b Spec.every = some (x, y, t) →
    (Spec.push t f o.d (fun j => some (elemAt (if j % 2 = 1 then y else x) w (b2n o.sel * (n / 2) + j / 2))) = some u →
      exec (.vzip o) s = done u id) ∧
    (Spec.push t f o.d (fun j => let i := 2 * j + b2n o.sel; some (if i < n then elemAt x w i else elemAt y w (i - n))) = some u →
      exec (.vuzp o) s = done u id))

/-- The rank of R241. -/
def Sys2Proof.Spec.before (asc : Bool) (x y : Entry) : Bool :=
  let first (u v : Val) : Bool := if asc then valLt u v else valLt v u
  if x.val = .absent ∧ y.val ≠ .absent then false
  else if x.val ≠ .absent ∧ y.val = .absent then true
  else if x.val ≠ .absent ∧ first x.val y.val then true
  else if x.val ≠ .absent ∧ first y.val x.val then false
  else decide (x.idx < y.idx) || (decide (x.idx = y.idx) && decide (x.pos < y.pos))

/-- The two registers of an entry pair (R240). -/
def Sys2Proof.Spec.popPair (s : State) (f : Nat) (a : VReg) : Option (BitVec 512 × BitVec 512 × State) :=
  (Spec.pop s f a Spec.every).bind fun p => (Spec.pop p.2 f (a + 1) Spec.every).map fun q => (p.1, q.1, q.2)

/-- Entries written to a pair, absent entries after them (R240, R241). -/
def Sys2Proof.Spec.pushPair (s : State) (f : Nat) (d : VReg) (es : List Entry) : Option State :=
  (Spec.push s f d fun j => some (((es[j]?).map fun e => e.code.bits).getD (absentCode f))).bind fun t =>
    Spec.push t f (d + 1) fun j => some (((es[j]?).map Entry.idx).getD (2 ^ fmtWidth f - 1))

/-- R240-R244: the output of VSORT, VTOPK and VMRGK is the ranked list of the entries that each keeps; VTOPK's count register
takes their number. FLAGS.A is set by an absent input, FLAGS.NAN by a NaN that is written (R89). -/
def Sys2Proof.Spec.SortTopMerge : Prop :=
  (∀ (s : State) (asc : Bool) (fmt : BitVec 5) (d a : VReg) (x i : BitVec 512) (t : State), let f := fmt.toNat
    d.toNat % 2 = 0 → a.toNat % 2 = 0 →
    (∀ r ∈ [a, a + 1], Spec.usable s false f r = true) → (∀ r ∈ [d, d + 1], Spec.usable s true f r = true) →
    Spec.popPair s f a = some (x, i, t) →
    let es := entriesOf f (tabA s f) (fun c => ⟨c, Sticky.none, false⟩) x i 0
    ∃ ranked : List Entry, ranked.Perm es ∧ ranked.Pairwise (fun u v => Spec.before asc u v = true) ∧
      ∀ u, Spec.pushPair t f d ranked = some u →
        exec (.vsort asc fmt d a) s = done u (Spec.sees (es.any fun e => e.val == .absent) (ranked.any fun e => e.val == .nan))) ∧
  (∀ (s : State) (asc : Bool) (fmt : BitVec 5) (d a : VReg) (src : Src) (k : Nat) (c : Reg) (x i : BitVec 512) (t : State), let f := fmt.toNat
    d.toNat % 2 = 0 → a.toNat % 2 = 0 →
    ((src = .rr c ∧ k = (s.cur.getG c).toNat) ∨ ∃ imm, src = .ri imm ∧ k = (imm.extractLsb' 0 8).toNat ∧ c = imm.extractLsb' 8 4) →
    1 ≤ k → k ≤ fmtElems f →
    (∀ r ∈ [a, a + 1], Spec.usable s false f r = true) → (∀ r ∈ [d, d + 1], Spec.usable s true f r = true) →
    Spec.popPair s f a = some (x, i, t) →
    let es := entriesOf f (tabA s f) (fun c => ⟨c, Sticky.none, false⟩) x i 0
    let live := es.filter fun e => e.val != .absent
    let m := min k live.length
    ∃ ranked : List Entry, ranked.Perm live ∧ ranked.Pairwise (fun u v => Spec.before asc u v = true) ∧
      ∀ u, Spec.pushPair t f d (ranked.take m) = some u →
        exec (.vtopk asc fmt d a src) s = done u fun z =>
          Spec.sees (es.any fun e => e.val == .absent) ((ranked.take m).any fun e => e.val == .nan) (z.setG c (BitVec.ofNat 64 m))) ∧
  (∀ (s : State) (asc : Bool) (fmt : BitVec 5) (d a b : VReg) (x i y k : BitVec 512) (t t' : State), let f := fmt.toNat
    d.toNat % 2 = 0 → a.toNat % 2 = 0 → b.toNat % 2 = 0 →
    (∀ r ∈ [a, a + 1, b, b + 1], Spec.usable s false f r = true) → (∀ r ∈ [d, d + 1], Spec.usable s true f r = true) →
    Spec.popPair s f a = some (x, i, t) → (if a = b then some (x, i, t) else Spec.popPair t f b) = some (y, k, t') →
    let es := entriesOf f (tabA s f) (fun c => ⟨c, Sticky.none, false⟩) x i 0 ++
      entriesOf f (tabB s f) (fromB s f (rmOf s s.me 0)) y k (fmtElems f)
    let live := (es.filter fun e => e.val != .absent).map fun e => { e with code := canonical f e.val e.code }
    let twin := fun u v : Entry => !valLt u.val v.val && !valLt v.val u.val && u.idx == v.idx
    ∃ kept ranked : List Entry, kept.Sublist live ∧ kept.Pairwise (fun u v => twin u v = false) ∧ (∀ e ∈ live, ∃ u ∈ kept, twin u e = true) ∧
      ranked.Perm kept ∧ ranked.Pairwise (fun u v => Spec.before asc u v = true) ∧
      ∀ u, Spec.pushPair t' f d (ranked.take (fmtElems f)) = some u →
        exec (.vmrgk asc fmt d a b) s = done u fun z =>
          let out := ranked.take (fmtElems f)
          Spec.sees (es.any fun e => e.val == .absent) (out.any fun e => e.val == .nan)
            { z with flags := out.foldl (fun x e => x ||| stickyWord e.code.st) z.flags })

/-- R239: VPERM, VROT, VZIP and VUZP move codes and set no flag. R240-R244: the output of VSORT, VTOPK and VMRGK is the ranked
list of the entries that each keeps; VTOPK's count register takes their number. That VMRGK.t8 tests the canonical form before it
encodes anew is the model's reading (log 60). -/
def Obligations.VectorOrder : Prop := Spec.Permutes ∧ Spec.SortTopMerge

/-- The y of VSELGT and VSELGE (R245). -/
def Sys2Proof.Spec.limit (s : State) (f : Nat) (src : Src) : Option (Nat × State) :=
  match src with
  | .rr b => some ((s.cur.getG b).toNat % 2 ^ fmtWidth f, s)
  | .ri imm => let c := Spec.constant s f (imm.signExtend 64).toNat (imm ++ 0#12).toNat; some (c.1, Spec.noted s c.2)
  | .rl lit => let c := Spec.constant s f (lit.signExtend 64).toNat lit.toNat; some (c.1, Spec.noted s c.2)
  | .rk win off => (constAt s win off (fmtWidth f)).map fun v => (v, s)
  | .rl64 lit => some (lit.toNat, s)

/-- Selected codes low, the absent code above (R245, R246). -/
def Sys2Proof.Spec.packedLow (f : Nat) (cs : List Nat) (j : Nat) : Option Nat := some (cs.getD j (absentCode f))

def Sys2Proof.Spec.Selects (mk : V2 → Instr) (pr : Nat) : Prop :=
  ∀ (s : State) (o : V2) (y : Nat) (x : BitVec 512) (t t' u : State), let f := o.fmt.toNat
    Spec.usable s false f o.a = true → Spec.usable s true f o.d = true →
    Spec.limit s f o.src = some (y, t) → Spec.pop t f o.a (Spec.active s o.pm f) = some (x, t') →
    let cs := ((List.range (fmtElems f)).filter (activeIn (s.cur.getP o.pm) (fmtElems f))).map (elemAt x (fmtWidth f))
    let v := decodeVal f (tabB s f) y
    let w := fun c => decodeVal f (tabA s f) c
    Spec.push t' f o.d (Spec.packedLow f (cs.filter fun c => Spec.predicate pr (w c) v)) = some u →
    exec (mk o) s = done u (Spec.seen (v == .absent || cs.any fun c => w c == .absent))

/-- R245, R246: VSELGT, VSELGE and VCOMPR. -/
def Sys2Proof.Spec.Selections : Prop :=
  Spec.Selects .vselgt 4 ∧ Spec.Selects .vselge 5 ∧
  (∀ (s : State) (o : V1) (x : BitVec 512) (t u : State), let f := o.fmt.toNat
    Spec.usable s false f o.a = true → Spec.usable s true f o.d = true → Spec.pop s f o.a (Spec.active s o.pm f) = some (x, t) →
    let cs := ((List.range (fmtElems f)).filter (activeIn (s.cur.getP o.pm) (fmtElems f))).map (elemAt x (fmtWidth f))
    let here := fun c => decodeVal f (tabA s f) c != .absent
    Spec.push t f o.d (Spec.packedLow f (cs.filter here)) = some u →
    exec (.vcompr o) s = done u (Spec.sees (cs.any fun c => !here c) (cs.any fun c => decodeVal f (tabA s f) c == .nan)))

/-- R229-R233: VCMP, VSEL, VCLASS, VPRES and VFILLA. R245, R246: VSELGT, VSELGE and VCOMPR. That a constant's conversion
in VCMP sets no flag is the reading of log 50; that an absent y sets FLAGS.A also where no element is active is that of log 60. -/
def Obligations.VectorSelections : Prop := Spec.VectorCompareAndSelect ∧ Spec.Selections

/-! ## Vector memory, broadcast and moves -/

/-- The addresses of a vector memory instruction (R215): unit, strided, and by offsets from a V register. -/
def Sys2Proof.Spec.disp (m : Mem) : Word := match m.disp with | .ms x => x.signExtend 64 | .ml x => x.signExtend 64

def Sys2Proof.Spec.unitEa (s : State) (o : VMem) (j : Nat) : Word :=
  s.cur.getG o.mem.base + Spec.disp o.mem + BitVec.ofNat 64 (j * fmtBytes o.fmt.toNat)

def Sys2Proof.Spec.stridedEa (s : State) (o : VMem) (j : Nat) : Word :=
  s.cur.getG o.mem.base + BitVec.ofNat 64 j * Spec.disp o.mem

def Sys2Proof.Spec.offsetEa (o : VMem) (x : BitVec 512) (j : Nat) : Word :=
  (BitVec.ofNat (fmtWidth o.fmt.toNat) (elemAt x (fmtWidth o.fmt.toNat) j)).signExtend 64 + Spec.disp o.mem

/-- The active elements, E2M1 in pairs, each with the address that R216 admits. -/
def Sys2Proof.Spec.touched (s : State) (o : VMem) (rd wr : Bool) (ea : Nat → Word) : Option (List (Nat × Nat)) :=
  let n := 64 / fmtBytes o.fmt.toNat
  ((List.range n).filter fun j => (s.cur.getP o.pm).getLsbD j).mapM fun j =>
    (Spec.reach (s.cur.getS o.mem.seg) (ea j).toNat (fmtBytes o.fmt.toNat) rd wr).map fun a => (j, a)

/-- The elements that loaded bytes give: of a pair the low four bits first (R69, R215). -/
def Sys2Proof.Spec.loadedElem (f : Nat) (v : Nat → Option Nat) (j : Nat) : Option Nat :=
  if f = fmtE2M1 then (v (j / 2)).map fun b => if j % 2 = 0 then b % 16 else b / 16 else v j

/-- A load (R215-R217): local elements at once, global ones when their replies come. -/
def Sys2Proof.Spec.VectorLoad (mk : VMem → Instr) (at_ : State → VMem → Option ((Nat → Word) × State)) : Prop :=
  ∀ (s : State) (o : VMem) (ea : Nat → Word) (t : State) (ps : List (Nat × Nat)), let f := o.fmt.toNat; let z := fmtBytes f
    f < 20 → Spec.usable s true f o.d = true → at_ s o = some (ea, t) → Spec.touched t o true false ea = some ps →
    (∀ u, segSpace (t.cur.getS o.mem.seg) = false → (∀ p ∈ ps, t.hasUe (Spec.here t p.2) z = none) →
      Spec.push t f o.d (Spec.loadedElem f fun j => (ps.lookup j).map fun a => seenNat t (Spec.here t a) z) = some u →
      exec (mk o) s = done u id) ∧
    (∀ keys, segSpace (t.cur.getS o.mem.seg) = true → mapped t (ps.map fun p => (p.2, z)) 1 (some false) = some keys →
      let dst := (t.cur.binding o.d).map fun b => ((t.cur.getSd b.desc).image, (t.cur.getSd b.desc).pos)
      let on := fun x : Slot => match t.cur.binding o.d with | some b => Spec.moveOn b f x | none => x
      exec (mk o) s = done (sendLoads (byHome t keys) t).2 fun x =>
        on { x with parks := x.parks ++ [⟨mk o, s.focus.pc,
          .loads ⟨(sendLoads (byHome t keys) t).1, dst, ps.map fun p => (p.2, z), none⟩, t.cur.getP o.pm⟩] })

/-- A store: the bytes of its active elements, in ascending order (R217). `x` is the value of D. -/
def Sys2Proof.Spec.VectorStore (mk : VMem → Instr) (at_ : State → VMem → Option ((Nat → Word) × Option (BitVec 512) × State)) : Prop :=
  ∀ (s : State) (o : VMem) (ea : Nat → Word) (x : BitVec 512) (r : Option (BitVec 512)) (t u : State) (ps : List (Nat × Nat)),
    let f := o.fmt.toNat; let z := fmtBytes f
    f < 20 → Spec.usable s false f o.d = true → at_ s o = some (ea, r, t) → Spec.touched t o false true ea = some ps →
    (match r with | some x => some (x, t) | none => Spec.pop t f o.d (Spec.active t o.pm f)) = some (x, u) →
    let bs := fun j => bytesOf z (elemAt x (8 * z) j)
    (segSpace (t.cur.getS o.mem.seg) = false →
      exec (mk o) s = done (ps.foldl (fun v p => stored v (Spec.here v p.2) (bs p.1)) u) id) ∧
    (∀ keys, segSpace (t.cur.getS o.mem.seg) = true → mapped u (ps.map fun p => (p.2, z)) 2 (some false) = some keys →
      exec (mk o) s = done (sendStores (byHome u keys) (ps.flatMap fun p => bs p.1) u) id)

/-- Offsets from V[base], and D's value where D is the same register (R221). -/
def Sys2Proof.Spec.offsets (s : State) (o : VMem) : Option ((Nat → Word) × Option (BitVec 512) × State) :=
  let b : VReg := o.mem.base.extractLsb' 0 3
  if Spec.usable s false o.fmt.toNat b then
    (Spec.pop s o.fmt.toNat b (Spec.active s o.pm o.fmt.toNat)).map fun p => (Spec.offsetEa o p.1, if b = o.d then some p.1 else none, p.2)
  else none

/-- R215-R217: VLD, VST, VLDS, VSTS, VGATH and VSCAT. That a bound destination's stream image and position are taken, and moved on,
when a SPACE = 1 load issues is the model's reading (log 25). -/
def Obligations.VectorMemory : Prop :=
  Spec.VectorLoad .vld (fun s o => some (Spec.unitEa s o, s)) ∧
  Spec.VectorLoad .vlds (fun s o => some (Spec.stridedEa s o, s)) ∧
  Spec.VectorLoad .vgath (fun s o => (Spec.offsets s o).map fun p => (p.1, p.2.2)) ∧
  Spec.VectorStore .vst (fun s o => some (Spec.unitEa s o, none, s)) ∧
  Spec.VectorStore .vsts (fun s o => some (Spec.stridedEa s o, none, s)) ∧
  Spec.VectorStore .vscat Spec.offsets

/-- R223, R224, R247, R248: broadcasts, element moves and random draws; none sets a flag. That a .t8 constant of VBCAST is
encoded through the table of FB is the model's reading (log 47), and so
is that its conversion sets no flag (log 50). -/
def Obligations.BroadcastMoveAndDraw : Prop :=
  (∀ (s : State) (fmt : BitVec 5) (pm : PReg) (d : VReg) (src : Src) (c : Nat) (t u : State), let f := fmt.toNat
    Spec.usable s true f d = true → Spec.limit s f src = some (c, t) →
    Spec.push s f d (fun j => if activeIn (s.cur.getP pm) (fmtElems f) j then some c else none) = some u →
    exec (.vbcast fmt pm d src) s = done u id) ∧
  (∀ (s : State) (fmt : BitVec 5) (d : Reg) (a : VReg) (b : Reg) (x : BitVec 512) (t : State), let f := fmt.toNat
    f < 20 → Spec.usable s false f a = true → Spec.pop s f a Spec.every = some (x, t) →
    let e : BitVec (fmtWidth f) := BitVec.ofNat _ (elemAt x (fmtWidth f) ((s.cur.getG b).toNat % fmtElems f))
    exec (.vmovgToG fmt d a b) s = done t fun z => z.setG d (toReg (decide (f < 4)) e)) ∧
  (∀ (s : State) (fmt : BitVec 5) (d : VReg) (a b : Reg) (u : State), let f := fmt.toNat
    Spec.usable s true f d = true →
    Spec.push s f d (fun j => if j = (s.cur.getG b).toNat % fmtElems f then some ((s.cur.getG a).toNat % 2 ^ fmtWidth f) else none) = some u →
    exec (.vmovgToV fmt d a b) s = done u id) ∧
  (∀ (s : State) (fmt : BitVec 5) (pm : PReg) (d : VReg) (a : Reg) (u : State), let f := fmt.toNat
    Spec.usable s true f d = true →
    Spec.push s f d (fun j =>
      let c := hcm64 (seedOf s s.cur.launch) (s.cur.getG a + BitVec.ofNat 64 j)
      if activeIn (s.cur.getP pm) (fmtElems f) j then
        some (if 12 ≤ f ∧ f < 20 then uniform f c else (c >>> (64 - fmtWidth f)).toNat) else none) = some u →
    exec (.vrand fmt pm d a) s = done u id) ∧
  (∀ (s : State) (d a : Reg), exec (.rand d a) s = done s fun z => z.setG d (hcm64 (seedOf s s.cur.launch) (s.cur.getG a)))

/-! ## Streams, repetition and format tables -/

/-- The issue ends with a park for `i` on `c` (R51). -/
def Sys2Proof.Spec.waits (t : State) (i : Instr) (c : ParkCond) (ea : Word) : Out :=
  done t fun z => { z with parks := z.parks ++ [⟨i, t.focus.pc, c, ea⟩] }

/-- The issue asks for the pieces of a load of `n` bytes at a virtual address and parks for them (R192). -/
def Sys2Proof.Spec.asks (s : State) (i : Instr) (va n : Nat) (ps : List (Nat × Nat)) (ea : Word) : Out :=
  Spec.waits (sendLoads (byHome s ps) s).2 i (.loads ⟨(sendLoads (byHome s ps) s).1, none, [(va, n)], none⟩) ea

/-- An address of a segment (R191). -/
def Sys2Proof.Spec.at (g : BitVec 128) (ea : Word) : Nat := (segBase g + ea.toNat) % 2 ^ 56

/-- The effective address of a memory operand (R191). -/
def Sys2Proof.Spec.eaOf (s : State) (m : Mem) : Word := s.cur.getG m.base + Spec.disp m
def Sys2Proof.Spec.eaOfR (s : State) (m : MemR) : Word := s.cur.getG m.base + m.disp.signExtend 64

/-- The image of R218 that SDSET takes (R219). -/
def Sys2Proof.Spec.imageTaken (i : BitVec 256) : Prop :=
  i.extractLsb' 192 64 = 0 ∧ i.extractLsb' 59 4 = 0 ∧ i.extractLsb' 48 3 = 0 ∧ i.extractLsb' 128 32 ≠ 0 ∧ i.extractLsb' 160 32 ≠ 0 ∧
  (i.extractLsb' 51 5).toNat < 20 ∧ i.extractLsb' 51 5 ≠ 18

/-- R219, R220: SDSET, SDON and SDOFF. -/
def Sys2Proof.Spec.StreamDescriptors : Prop :=
  (∀ (s : State) (d : BitVec 2) (m : Mem) (a : Nat), let k := Spec.here s a; let i := BitVec.ofNat 256 (seenNat s k 32)
    Spec.near s m 32 true false = some a → s.hasUe k 32 = none →
    (Spec.imageTaken i → exec (.sdset d m) s = done s fun z => z.setSd d ⟨i, 0⟩) ∧
    (¬ Spec.imageTaken i → exec (.sdset d m) s = .next (takeFault s .illegal Detail.zero))) ∧
  (∀ (s : State) (d : BitVec 2) (m : Mem) (ps : List (Nat × Nat)), Spec.far s m 32 true false = some ps →
    exec (.sdset d m) s = Spec.asks s (.sdset d m) (Spec.va s m) 32 ps (Spec.eaOf s m)) ∧
  (∀ (s : State) (w : Bool) (a : BitVec 2), let x := s.cur; let i := (x.getSd a).image
    i.getLsbD 63 = true →
    ((∀ b, x.bind7 = some b → b.desc ≠ a) → exec (.sdon w 6 a) s =
      if segSpace (x.getS (sdSeg i)) then .next (takeFault s .prot Detail.zero) else done s fun z => { z with bind6 := some ⟨w, a⟩ }) ∧
    ((∀ b, x.bind6 = some b → b.desc ≠ a) → exec (.sdon w 7 a) s =
      if segSpace (x.getS (sdSeg i)) then .next (takeFault s .prot Detail.zero) else done s fun z => { z with bind7 := some ⟨w, a⟩ })) ∧
  (∀ (s : State), exec (.sdoff 6) s = done s (fun z => { z with bind6 := none }) ∧ exec (.sdoff 7) s = done s (fun z => { z with bind7 := none })) ∧
  (∀ (s : State) (w : Bool) (d : BitVec 4) (a : BitVec 2),
    (d ≠ 6 ∧ d ≠ 7) ∨ (s.cur.getSd a).image.getLsbD 63 = false ∨ (d = 6 ∧ ∃ b, s.cur.bind7 = some b ∧ b.desc = a) ∨
      (d = 7 ∧ ∃ b, s.cur.bind6 = some b ∧ b.desc = a) →
    exec (.sdon w d a) s = .next (takeFault s .illegal Detail.zero))

/-- R250-R253: REP and REPX start the buffer, go past a body of no passes, or fault; a completed body bundle moves REPST on, one
that parked when its last park is done. -/
def Sys2Proof.Spec.Repetition : Prop :=
  (∀ (s : State) (imm : BitVec 20), let n := (imm.extractLsb' 5 15).toNat; let len := (imm.extractLsb' 0 5).toNat
    0 < len →
    (0 < n → exec (.rep imm) s = done s fun z => { z with rep := ⟨true, len, 0, n - 1, [], false⟩ }) ∧
    (∀ t, n = 0 → skipBundles len s.focus.next s = .ok (t, s) → exec (.rep imm) s = Spec.jumped s id t)) ∧
  (∀ (s : State) (l : BitVec 5) (a : Reg), let n := ((s.cur.getG a).extractLsb' 0 32).toNat
    l ≠ 0 →
    (0 < n → exec (.repx l a) s = done s fun z => { z with rep := ⟨true, l.toNat, 0, n - 1, [], false⟩ }) ∧
    (∀ t, n = 0 → skipBundles l.toNat s.focus.next s = .ok (t, s) → exec (.repx l a) s = Spec.jumped s id t)) ∧
  (∀ (s : State) (imm : BitVec 20) (a : Reg), (imm.extractLsb' 0 5 = 0 → exec (.rep imm) s = .next (takeFault s .illegal Detail.zero)) ∧
    exec (.repx 0 a) s = .next (takeFault s .illegal Detail.zero)) ∧
  (∀ (r : Rep) (next : Word),
    (r.pos + 1 < r.len → repStep r next = ({ r with due := false, pos := r.pos + 1 }, next)) ∧
    (r.pos + 1 = r.len → 0 < r.left →
      repStep r next = ({ r with due := false, pos := 0, left := r.left - 1 }, (r.body.head?.map Bundle.pc).getD next)) ∧
    (r.pos + 1 = r.len → r.left = 0 → repStep r next = ({ r with due := false, act := false }, next))) ∧
  (∀ (s : State) (r : SlotRef), let x := s.slot r
    x.parks = [] → x.tending = false → x.rep.due = true →
    wakeSlot r s = s.setSlot r { x with rep := (repStep x.rep x.pc).1, pc := (repStep x.rep x.pc).2 })

/-- R219, R220: SDSET, SDON and SDOFF. R250-R253: REP and REPX start the buffer, go past a body of no passes, or fault; a
completed body bundle moves REPST on, one that parked when its last park is done. -/
def Obligations.StreamsAndRepetition : Prop := Spec.StreamDescriptors ∧ Spec.Repetition

/-- R254, R255, R81: FMTLD writes the table of a place it accepts; FMTSEL selects one. -/
def Sys2Proof.Spec.FormatTables : Prop :=
  (∀ (s : State) (p : BitVec 3) (m : Mem) (a : Nat), let g := s.cur.getS m.seg; let ea := (Spec.eaOf s m).toNat
    3 ≤ p.toNat → segOk g ea 1024 true false = true → segSpace g = false → a = (segBase g + ea) % 2 ^ 56 → a % 64 = 0 →
    s.hasUe (Spec.here s a) 1024 = none →
    let bs := s.seenBy (Spec.here s a) 1024
    let t : Table := (List.range 256).map fun k => BitVec.ofNat 32 (natOf ((bs.drop (4 * k)).take 4))
    (tableOk t = true → exec (.fmtld p m) s =
      .next (s.stores (Spec.here s (0x70400 + 5120 * s.me.slot + 1024 * (p.toNat - 3))) bs).advance) ∧
    (tableOk t = false → exec (.fmtld p m) s = .next (takeFault s .formatTable Detail.zero))) ∧
  (∀ (s : State) (p : BitVec 3) (m : Mem) (ps : List (Nat × Nat)), let g := s.cur.getS m.seg; let ea := (Spec.eaOf s m).toNat
    3 ≤ p.toNat → segOk g ea 1024 true false = true → segSpace g = true → (segBase g + ea) % 2 ^ 56 % 64 = 0 →
    mapped s [((segBase g + ea) % 2 ^ 56, 1024)] 1 (some false) = some ps →
    exec (.fmtld p m) s = Spec.asks s (.fmtld p m) (Spec.va s m) 1024 ps (Spec.eaOf s m)) ∧
  (∀ (s : State) (p : BitVec 3) (m : Mem), p.toNat < 3 → exec (.fmtld p m) s = .next (takeFault s .formatTable Detail.zero)) ∧
  (∀ (s : State) (src : RegImm), let v : Word := match src with | .reg a => s.cur.getG a | .imm i => i.setWidth 64
    exec (.fmtsel 0 src) s = done s (fun z => { z with fa := v &&& 7 }) ∧
    exec (.fmtsel 1 src) s = done s (fun z => { z with fb := v &&& 7 }) ∧
    exec (.fmtsel 2 src) s = done s (fun z => { z with fs := v &&& 15 }))

/-- R249, R442: RNGREG sends its range and parks on nothing; the registry records it in a free entry, with an event
record for each live entry that shares a counter, or with one of all ones when it is full. Which free entry it takes is free
(log 45). -/
def Sys2Proof.Spec.SeedRegistry : Prop :=
  (∀ (s : State) (a b : Reg), let base := s.cur.getG a; let len := s.cur.getG b
    (len = 0 → exec (.rngreg a b) s = .next s.advance) ∧
    (len ≠ 0 → base.toNat + len.toNat ≤ 2 ^ 64 → exec (.rngreg a b) s =
      .next (s.post s.me.die granaryDie (.seedRegistryRequest ⟨s.me.die, s.cur.launch, seedOf s s.cur.launch, base, len⟩)).advance) ∧
    (2 ^ 64 < base.toNat + len.toNat → exec (.rngreg a b) s = .next (takeFault s .illegal Detail.zero))) ∧
  (∀ (s : State) (q : SeedReq),
    let at_ := fun k => SMap.get s.seeds none k
    let event := fun (t : State) (arg : Word) => t.record q.die (recordFor q.launch 1 .rngOverlap none none arg)
    let clash := fun (e : Seed) => e.seed = q.seed ∧ e.base.toNat < q.base.toNat + q.len.toNat ∧ q.base.toNat < e.base.toNat + e.len.toNat
    ((∀ k < 64, (at_ k).isSome) → exec (.seedRegistryRequest q) s = .next (event s (BitVec.allOnes 64))) ∧
    ((∃ k < 64, at_ k = none) → ∃ k < 64, at_ k = none ∧ exec (.seedRegistryRequest q) s =
      .next (((List.range 64).filterMap at_).foldl (fun t e => if clash e then event t (BitVec.ofNat 64 e.launch) else t)
        { s with seeds := SMap.put s.seeds k (some ⟨q.seed, q.base, q.len, q.launch⟩), draws := s.draws + 1 })))

/-- R254, R255, R81: FMTLD writes the table of a place it accepts; FMTSEL selects one. R249, R442: RNGREG sends its range and
parks on nothing; the registry records it in a free entry, with an event record for each live entry that shares a counter, or
with one of all ones when it is full. Which free entry it takes is free (log 45). -/
def Obligations.TablesAndSeeds : Prop := Spec.FormatTables ∧ Spec.SeedRegistry

/-! ## Joins, reads, plots, tiles and names -/

/-- The pieces of a lattice access of `z` bytes aligned to `al` that R259 admits and that is translated. -/
def Sys2Proof.Spec.lattice (s : State) (g : BitVec 128) (ea z al : Nat) (rd wr : Bool) : Option (List (Nat × Nat)) :=
  let addr := (segBase g + ea) % 2 ^ 56
  if segOk g ea z rd wr = true ∧ segSpace g = true ∧ addr % al = 0 then
    mapped s [(addr, z)] ((if rd then 1 else 0) + (if wr then 2 else 0)) (some true)
  else none

/-- A local range of `n` bytes that R260 admits, as its offset. -/
def Sys2Proof.Spec.localRange (g : BitVec 128) (ea n : Nat) (rd wr : Bool) : Option Nat :=
  let addr := (segBase g + ea) % 2 ^ 56
  if segSpace g = false ∧ segOk g ea n rd wr = true ∧ addr % 64 = 0 then some addr else none

/-- One message with the next transaction number goes to the home of `k`. -/
def Sys2Proof.Spec.sent (s : State) (k : Nat) (m : Nat → Instr) : State :=
  ({ s with xid := s.xid + 1 } : State).post s.me.die (s.homeDie k) (m s.xid)

/-- The same, counted as unacknowledged at the scope of its home (R107, R266). -/
def Sys2Proof.Spec.sentCounted (s : State) (k : Nat) (m : Nat → AckTo → Instr) : State :=
  let n := scopeOf s.sliceMoved s.me k
  let t : State := ({ s with xid := s.xid + 1 } : State).modCur fun x => { x with unack := x.unack.setIfInBounds n (x.unack.getD n 0 + 1) }
  (t.owe s.cur.launch 1).post s.me.die (s.homeDie k) (m s.xid (.scope n))

/-- The key that the first of the pieces begins at. -/
def Sys2Proof.Spec.first (ps : List (Nat × Nat)) : Nat := (ps.head?.map Prod.fst).getD 0

/-- R264, R265, R271, R269, R270: JOIN is counted and goes on; JOINF, LDF and LTH ask the home and park for its answer. That a JOINF is
not counted is the model's choice between R107 and R349 (log 60). -/
def Obligations.JoinsAndReads : Prop :=
  (∀ (s : State) (o : LatMem) (ps : List (Nat × Nat)), let z := fmtWidth (jtFmt o.jt) / 8
    Spec.lattice s (s.cur.getS o.mem.seg) (Spec.eaOf s o.mem).toNat z z false true = some ps →
    exec (.join o) s = .next (Spec.sentCounted s (Spec.first ps) fun x n =>
      .joinPacket ⟨s.asker, x, n, gaOf s (Spec.first ps), jtKind o.jt, jtFmt o.jt,
        BitVec.ofNat 64 ((s.cur.getG o.d).toNat % 2 ^ fmtWidth (jtFmt o.jt))⟩).advance) ∧
  (∀ (s : State) (o : LatMem) (ps : List (Nat × Nat)), let z := fmtWidth (jtFmt o.jt) / 8
    Spec.lattice s (s.cur.getS o.mem.seg) (Spec.eaOf s o.mem).toNat z z true false = some ps →
    exec (.ldf o) s = Spec.waits (Spec.sent s (Spec.first ps) fun x =>
      .exactRead ⟨s.asker, x, gaOf s (Spec.first ps), jtKind o.jt, jtFmt o.jt⟩) (.ldf o) (.answers [s.xid]) 0) ∧
  (∀ (s : State) (jt : BitVec 7) (d b : Reg) (m : MemR) (ps : List (Nat × Nat)), let w := if jt = 0x66 then 32 else 64
    (jt = 0x66 ∨ jt = 0x67) → Spec.lattice s (s.cur.getS m.seg) (Spec.eaOfR s m).toNat (w / 8) (w / 8) true true = some ps →
    exec (.joinf jt d b m) s = Spec.waits (Spec.sent s (Spec.first ps) fun x =>
      .valueCountRequest ⟨s.asker, x, gaOf s (Spec.first ps), jtFmt jt, BitVec.ofNat 64 ((s.cur.getG b).toNat % 2 ^ w),
        s.asker.llane.toNat, s.cur.round.toNat % 2 ^ 32⟩) (.joinf jt d b m) (.answers [s.xid]) 0) ∧
  (∀ (s : State) (o : Lth) (ts : List Word) (ps : List (Nat × Nat)), let w := 8 * 2 ^ o.sz.toNat
    o.kind.toNat < 6 → (o.kind = 5 → o.d.toNat % 2 = 0) →
    ts = ((match o.more with
        | none => [s.cur.getG o.b]
        | some (c, e, lit) => [s.cur.getG o.b, s.cur.getG c, s.cur.getG e, lit]).take (o.nt.toNat + 1)).map
      (fun (t : Word) => BitVec.ofNat 64 (t.toNat % 2 ^ w)) →
    ts.Nodup → (1 < ts.length → o.kind = 5 ∧ o.filled = false) →
    Spec.lattice s (s.cur.getS o.mem.seg) (Spec.eaOfR s o.mem).toNat (w / 8) (w / 8) true false = some ps →
    exec (.lth o) s = Spec.waits (Spec.sent s (Spec.first ps) fun x =>
      .thresholdRegistration ⟨s.asker, x, gaOf s (Spec.first ps), .lth o.kind.toNat w o.filled ts⟩) (.lth o) (.answers [s.xid]) 0) ∧
  (∀ (s : State) (jt : BitVec 7) (d b : Reg) (m : MemR), jt ≠ 0x66 → jt ≠ 0x67 →
    exec (.joinf jt d b m) s = .next (takeFault s .illegal Detail.zero))

/-- One request for each plot, with the transactions in order. -/
def Sys2Proof.Spec.plotRequests (mk : PlotPkt → Instr) (desc : Word) : List (Nat × Nat) → State → List Nat × State
  | [], s => ([], s)
  | (va, k) :: t, s =>
    let r := Spec.plotRequests mk desc t (({ s with xid := s.xid + 1 } : State).post s.me.die (s.homeDie k)
      (mk ⟨s.asker, s.xid, gaOf s k, BitVec.ofNat 64 va, desc⟩))
    (s.xid :: r.1, r.2)

/-- The plots of checked pieces from address `va` on: addresses and keys. -/
def Sys2Proof.Spec.plots (va : Nat) (ps : List (Nat × Nat)) : List (Nat × Nat) :=
  (ps.flatMap fun p => (List.range (p.2 / 4096)).map fun i => p.1 + 4096 * i).zipIdx.map fun x => (va + 4096 * x.2, x.1)

/-- R272-R274: PLOT and FREEZE ask for each plot and park for all the answers; FREEZE of none does nothing. -/
def Obligations.PlotAndFreeze : Prop :=
  (∀ (s : State) (b : Reg) (m : MemR) (ps : List (Nat × Nat)), let v := s.cur.getG b; let g := s.cur.getS m.seg
    let ea := (Spec.eaOfR s m).toNat; let va := (segBase g + ea) % 2 ^ 56; let n := ((v.extractLsb' 16 16).toNat + 1) * 4096
    v.extractLsb' 49 15 = 0 → v.extractLsb' 5 3 = 0 →
    (12 < (v.extractLsb' 0 5).toNat → va % 2 ^ (v.extractLsb' 0 5).toNat = 0 ∧ n % 2 ^ (v.extractLsb' 0 5).toNat = 0) →
    Spec.lattice s g ea n 4096 false true = some ps →
    let r := Spec.plotRequests .plotRequest v (Spec.plots va ps) s
    exec (.plot b m) s = Spec.waits r.2 (.plot b m) (.answers r.1) (BitVec.ofNat 64 va)) ∧
  (∀ (s : State) (b : Reg) (m : MemR) (ps : List (Nat × Nat)), let v := s.cur.getG b; let g := s.cur.getS m.seg
    let ea := (Spec.eaOfR s m).toNat; let va := (segBase g + ea) % 2 ^ 56
    v ≠ 0 → v.toNat ≤ 65536 → Spec.lattice s g ea (v.toNat * 4096) 4096 false true = some ps →
    let r := Spec.plotRequests .freezeRequest v (Spec.plots va ps) s
    exec (.freeze b m) s = Spec.waits r.2 (.freeze b m) (.answers r.1) (BitVec.ofNat 64 va)) ∧
  (∀ (s : State) (b : Reg) (m : MemR), s.cur.getG b = 0 → exec (.freeze b m) s = done s id)

/-- A tag put to work (R263). -/
def Sys2Proof.Spec.startTag (t : Tag) (x : Slot) : Slot :=
  let bit : BitVec 16 := 1#16 <<< t.toNat
  { x with
    tagSet := x.tagSet &&& ~~~bit
    tagStat := x.tagStat &&& ~~~bit
    tagCode := x.tagCode.set t.toNat 0 t.isLt
    tagBusy := x.tagBusy ||| bit }

/-- A register or a literal. -/
def Sys2Proof.Spec.nameOf (s : State) (x : RegLit) : Word := match x with | .reg a => s.cur.getG a | .lit v => v
def Sys2Proof.Spec.maskOf (s : State) (x : RegImm) : Word := match x with | .reg a => s.cur.getG a | .imm v => v.setWidth 64

/-- R275-R281: FILLT sends its tile; LDT, NPUB, NWANT, NCLOSE and NTENS send their request and, but for NWANT, park. -/
def Obligations.TilesAndNames : Prop :=
  (∀ (s : State) (n : BitVec 4) (f : BitVec 5) (k : SReg) (b : Reg) (m : MemR) (ps : List (Nat × Nat)) (off : Nat),
    let z := 2 ^ (n.toNat + 8)
    n.toNat ≤ 8 → Spec.lattice s (s.cur.getS m.seg) (Spec.eaOfR s m).toNat z z false true = some ps →
    Spec.localRange (s.cur.getS k) (s.cur.getG b).toNat z true false = some off → s.hasUe (Spec.here s off) z = none →
    exec (.fillt n f k b m) s = .next (Spec.sentCounted s (Spec.first ps) fun x a =>
      .tileFill ⟨s.asker, x, a, gaOf s (Spec.first ps), n.toNat + 8, f.toNat, none, s.seenBy (Spec.here s off) z⟩).advance) ∧
  (∀ (s : State) (n : BitVec 4) (b : Reg) (m : MemR) (off : Nat), let z := 2 ^ (n.toNat + 8)
    n.toNat ≤ 8 → Spec.localRange (s.cur.getS m.seg) (Spec.eaOfR s m).toNat z false true = some off →
    exec (.ldt n b m) s = Spec.waits { s with xid := s.xid + 1, agenda := s.agenda ++ [.interest s.me.clusterKey s.me.clusterKey
        ⟨s.asker, s.xid, none, s.cur.getG b, n.toNat + 8, BitVec.ofNat 64 off, s.cycle, false⟩] }
      (.ldt n b m) (.answers [s.xid]) (BitVec.ofNat 64 off)) ∧
  (∀ (s : State) (n : BitVec 4) (k : SReg) (b : Reg) (m : MemR) (ps : List (Nat × Nat)) (off : Nat), let z := 2 ^ (n.toNat + 8)
    n.toNat ≤ 8 → Spec.localRange (s.cur.getS m.seg) (Spec.eaOfR s m).toNat z false true = some off →
    Spec.lattice s (s.cur.getS k) (s.cur.getG b).toNat z z true false = some ps →
    exec (.ldtAddr n k b m) s = Spec.waits (Spec.sent s (Spec.first ps) fun x =>
        .thresholdRegistration ⟨s.asker, x, gaOf s (Spec.first ps), .ldtAddr (n.toNat + 8)⟩)
      (.ldtAddr n k b m) (.answers [s.xid]) (BitVec.ofNat 64 off)) ∧
  (∀ (s : State) (o : NamOp) (off : Nat), let z := 2 ^ (o.n.toNat + 8)
    o.n.toNat ≤ 8 → Spec.localRange (s.cur.getS o.k) (s.cur.getG o.loc).toNat z true false = some off →
    exec (.npub o) s = Spec.waits (({ s with xid := s.xid + 1 } : State).post s.me.die granaryDie
        (.nameResolution ⟨s.asker, s.xid, Spec.nameOf s o.name, o.n.toNat + 8⟩))
      (.npub o) (.answers [s.xid]) (BitVec.ofNat 64 off)) ∧
  (∀ (s : State) (t : Tag) (o : NamOp) (off : Nat), let z := 2 ^ (o.n.toNat + 8)
    o.n.toNat ≤ 8 → s.cur.tagBusy.getLsbD t.toNat = false →
    Spec.localRange (s.cur.getS o.k) (s.cur.getG o.loc).toNat z false true = some off →
    exec (.nwant t o) s = done { s with xid := s.xid + 1, agenda := s.agenda ++ [.interest s.me.clusterKey s.me.clusterKey
        ⟨s.asker, s.xid, some t.toNat, Spec.nameOf s o.name, o.n.toNat + 8, BitVec.ofNat 64 off, s.cycle, false⟩] } (Spec.startTag t)) ∧
  (∀ (s : State) (a : Reg) (t : RegImm), exec (.nclose a t) s =
    Spec.waits (({ s with xid := s.xid + 1 } : State).post s.me.die granaryDie
        (.closeRequest ⟨s.asker, s.xid, (s.cur.getG a).toNat % 65536, (Spec.maskOf s t).toNat % 65536, false⟩))
      (.nclose a t) (.answers [s.xid]) 0) ∧
  (∀ (s : State) (d : Reg) (m : Mem) (a : Nat), Spec.near s m 64 true false = some a → s.hasUe (Spec.here s a) 64 = none →
    let t := ({ s with xid := s.xid + 1 } : State).post s.me.die granaryDie
      (.tensorTableWrite ⟨s.asker, s.xid, s.cur.getG d, s.seenBy (Spec.here s a) 64⟩)
    exec (.ntensCreate d m) s = Spec.waits t (.ntensCreate d m) (.answers [s.xid]) 0 ∧
    exec (.ntensDelete d m) s = Spec.waits t (.ntensDelete d m) (.answers [s.xid]) 0) ∧
  (∀ (s : State) (d : Reg) (m : Mem) (ps : List (Nat × Nat)), Spec.far s m 64 true false = some ps →
    exec (.ntensCreate d m) s = Spec.asks s (.ntensCreate d m) (Spec.va s m) 64 ps (s.cur.getG d) ∧
    exec (.ntensDelete d m) s = Spec.asks s (.ntensDelete d m) (Spec.va s m) 64 ps (s.cur.getG d))

/-! ## Fences and tags -/

/-- R267, R266: JFENCE of scope `d` waits for the counters of scopes 2 to min(d, 6), then sets F if a fault is pending in one of
them and clears those bits; below scope 2 it does nothing. -/
def Sys2Proof.Spec.Fence : Prop :=
  ∀ (s : State) (d : BitVec 3), let x := s.cur; let top := min d.toNat 6
    (d.toNat < 2 → exec (.jfence d) s = done s id) ∧
    (2 ≤ d.toNat → (∀ k, 2 ≤ k → k ≤ top → x.unack.getD k 0 = 0) → exec (.jfence d) s = done s fun z => { z with
      flags := if (List.range 8).any fun k => decide (2 ≤ k ∧ k ≤ top) && z.faultPending.getLsbD k then z.flags ||| 0x10 else z.flags
      faultPending := BitVec.ofNat 8 (((List.range 8).map fun k => if 2 ≤ k ∧ k ≤ top then 0 else b2n (z.faultPending.getLsbD k) * 2 ^ k).sum) }) ∧
    (∀ k, 2 ≤ k → k ≤ top → x.unack.getD k 0 ≠ 0 → exec (.jfence d) s = Spec.waits s (.jfence d) (.fence d.toNat) 0)

/-- R290-R292: WAITANY and WAITALL answer when their tags are SET, park while some are BUSY and fault on tags that are neither;
FREADY reads tags, TCLR clears those that are not BUSY. -/
def Sys2Proof.Spec.Tags : Prop :=
  (∀ (s : State) (d : Reg) (x : RegImm), let m : BitVec 16 := (Spec.maskOf s x).setWidth 16; let z := s.cur
    (z.tagSet &&& m ≠ 0 → exec (.waitany d x) s = done s fun z => z.setG d ((z.tagSet &&& m).setWidth 64)) ∧
    (z.tagSet &&& m = 0 → z.tagBusy &&& m ≠ 0 → exec (.waitany d x) s = Spec.waits s (.waitany d x) (.tags m false) 0) ∧
    (z.tagSet &&& m = 0 → z.tagBusy &&& m = 0 → exec (.waitany d x) s = .next (takeFault s .illegal Detail.zero)) ∧
    (z.tagSet &&& m = m → exec (.waitall d x) s = done s fun z => z.setG d ((z.tagStat &&& m).setWidth 64)) ∧
    (z.tagSet &&& m ≠ m → (z.tagBusy ||| z.tagSet) &&& m = m → exec (.waitall d x) s = Spec.waits s (.waitall d x) (.tags m true) 0) ∧
    ((z.tagBusy ||| z.tagSet) &&& m ≠ m → exec (.waitall d x) s = .next (takeFault s .illegal Detail.zero)) ∧
    (z.tagBusy &&& m = 0 → exec (.tclr x) s = done s fun z => { z with
      tagSet := z.tagSet &&& ~~~m
      tagStat := z.tagStat &&& ~~~m
      tagCode := Vector.ofFn fun t => if m.getLsbD t.val then 0 else z.tagCode[t] }) ∧
    (z.tagBusy &&& m ≠ 0 → exec (.tclr x) s = .next (takeFault s .illegal Detail.zero))) ∧
  (∀ (s : State) (d a : Reg), let m : BitVec 16 := (s.cur.getG a).setWidth 16; let t : Tag := (s.cur.getG a).setWidth 4
    exec (.fready d a) s = done s (fun z =>
      z.setG d ((0#16 ++ (z.tagBusy &&& m) ++ (z.tagStat &&& m) ++ (z.tagSet &&& m)).setWidth 64)) ∧
    exec (.freadyCode d a) s = done s fun z => z.setG d ((z.tagCode[t.toNat]'t.isLt).setWidth 64))

/-- R267, R266: JFENCE of scope `d` waits for the counters of scopes 2 to min(d, 6), then sets F if a fault is pending in one of
them and clears those bits; below scope 2 it does nothing. R290-R292: WAITANY and WAITALL answer when their tags are SET, park
while some are BUSY and fault on tags that are neither; FREADY reads tags, TCLR clears those that are not BUSY. -/
def Obligations.FencesAndTags : Prop := Spec.Fence ∧ Spec.Tags

/-! ## Copies and posted tasks -/

/-- A copy is filed in the slot's mailbox of four entries, or waits for a place (R282). -/
def Sys2Proof.Spec.filed (t : State) (i : Instr) (c : CopyReq) : Out :=
  if t.cur.mailbox.length < 4 then done t fun z => { z with mailbox := z.mailbox ++ [c] } else Spec.waits t i (.copyPlace c) 0

/-- A notify location that R283 admits. -/
def Sys2Proof.Spec.notifiable (g : BitVec 128) (ea : Nat) : Prop :=
  segOk g ea 8 false true = true ∧ segSpace g = true ∧ (segBase g + ea) % 2 ^ 56 % 8 = 0

/-- A descriptor of 64 or 32 bytes in local memory, and its bytes. -/
def Sys2Proof.Spec.descriptor (s : State) (g : BitVec 128) (ea n : Nat) : Option (List Byte) :=
  let a := (segBase g + ea) % 2 ^ 56
  if segSpace g = false ∧ segOk g ea n true false = true ∧ a % n = 0 ∧ s.hasUe (Spec.here s a) n = none then
    some (s.seenBy (Spec.here s a) n) else none

/-- A descriptor in global memory, and its pieces. -/
def Sys2Proof.Spec.farDescriptor (s : State) (g : BitVec 128) (ea n : Nat) : Option (List (Nat × Nat)) :=
  let a := (segBase g + ea) % 2 ^ 56
  if segSpace g = true ∧ segOk g ea n true false = true ∧ a % n = 0 then mapped s [(a, n)] 1 (some false) else none

/-- R282-R287: the copies check their ranges and notify locations, put the tag to work and file one entry. -/
def Obligations.Copies : Prop :=
  (∀ (s : State) (t : Tag) (nj : Bool) (ns ss : SReg) (b : Reg) (m : MemR), let x := s.cur
    let dst := (Spec.eaOfR s m).toNat; let src := (x.getG b).toNat; let len := (x.getG (b + 1)).toNat; let note := (x.getG (b + 2)).toNat
    b.toNat ≤ (if nj then 13 else 14) → x.tagBusy.getLsbD t.toNat = false → len < 2 ^ 32 →
    segOk (x.getS m.seg) dst len false true = true → segOk (x.getS ss) src len true false = true →
    (nj = true → Spec.notifiable (x.getS ns) note) →
    (len = 0 → exec (.copy t nj ns ss b m) s = done s fun z => { Spec.startTag t z with
      tagBusy := z.tagBusy &&& ~~~(1#16 <<< t.toNat), tagSet := z.tagSet ||| (1#16 <<< t.toNat) }) ∧
    (len ≠ 0 → exec (.copy t nj ns ss b m) s = Spec.filed (s.modCur (Spec.startTag t)) (.copy t nj ns ss b m)
      ⟨t.toNat, s.asker, .plain src dst len, x.getS m.seg, x.getS ss, x.getS ns, if nj then some note else none⟩)) ∧
  (∀ (s : State) (t : Tag) (m : MemR) (bs : List Byte), let x := s.cur
    x.tagBusy.getLsbD t.toNat = false → Spec.descriptor s (x.getS m.seg) (Spec.eaOfR s m).toNat 64 = some bs → tileDescOk bs = true →
    let fld := fun lo n => natOf ((bs.drop lo).take n)
    let seg := fun k => x.getS (BitVec.ofNat 3 k)
    let size := (fld 32 2 - 1) * fld 56 4 + fld 34 2 * (fmtWidth (fld 36 1) / 8)
    let nj := decide (fld 38 1 % 2 = 1)
    segOk (seg (fld 37 1 / 16)) (fld 48 8) size false true = true → (nj = true → Spec.notifiable (seg (fld 38 1 / 2)) (fld 40 8)) →
    exec (.copyt t m) s = Spec.filed (s.modCur (Spec.startTag t)) (.copyt t m)
      ⟨t.toNat, s.asker, .tile (BitVec.ofNat 512 (natOf bs)), seg (fld 37 1 / 16), seg (fld 37 1), seg (fld 38 1 / 2),
        if nj then some (fld 40 8) else none⟩) ∧
  (∀ (s : State) (t : Tag) (m : MemR) (bs : List Byte), let x := s.cur
    x.tagBusy.getLsbD t.toNat = false → Spec.descriptor s (x.getS m.seg) (Spec.eaOfR s m).toNat 64 = some bs → dealOk bs = true →
    let fld := fun lo n => natOf ((bs.drop lo).take n)
    let seg := fun k => x.getS (BitVec.ofNat 3 k)
    let nj := decide (fld 34 1 % 2 = 1)
    segOk (seg (fld 33 1)) (fld 0 8) (fld 28 4 * fld 24 4) true false = true →
    (∀ d < min (fld 32 1) (fld 28 4),
      segOk (seg (fld 33 1 / 16)) ((BitVec.ofNat 64 (fld 8 8) + BitVec.ofNat 64 d * BitVec.ofNat 64 (fld 16 8)).toNat)
        ((fld 28 4 + fld 32 1 - 1 - d) / fld 32 1 * fld 24 4) false true = true ∧
      (nj = true → Spec.notifiable (seg (fld 34 1 / 2)) ((BitVec.ofNat 64 (fld 40 8) + BitVec.ofNat 64 d * BitVec.ofNat 64 (fld 48 8)).toNat))) →
    exec (.copyd t m) s = Spec.filed (s.modCur (Spec.startTag t)) (.copyd t m)
      ⟨t.toNat, s.asker, .deal (BitVec.ofNat 512 (natOf bs)), seg (fld 33 1 / 16), seg (fld 33 1), seg (fld 34 1 / 2),
        if nj then some (fld 40 8) else none⟩) ∧
  (∀ (s : State) (t : Tag) (k : SReg) (b : Reg) (v : BitVec 64) (m : MemR) (ps : List (Nat × Nat)), let x := s.cur
    v ≠ BitVec.allOnes 64 → x.tagBusy.getLsbD t.toNat = false →
    Spec.lattice s (x.getS m.seg) (Spec.eaOfR s m).toNat 8 8 true false = some ps →
    (∀ bs, Spec.descriptor s (x.getS k) (x.getG b).toNat 32 = some bs →
      let fld := fun lo n => natOf ((bs.drop lo).take n)
      let seg := fun k => x.getS (BitVec.ofNat 3 k)
      let nj := decide (fld 21 1 % 2 = 1)
      segsOk (fld 20 1) (fld 21 1) = true → fld 22 2 = 0 → segOk (seg (fld 20 1 / 16)) (fld 8 8) (fld 16 4) false true = true →
      segOk (seg (fld 20 1)) (fld 0 8) (fld 16 4) true false = true → (nj = true → Spec.notifiable (seg (fld 21 1 / 2)) (fld 24 8)) →
      exec (.copya t k b v m) s = Spec.filed (s.modCur (Spec.startTag t)) (.copya t k b v m)
        ⟨t.toNat, s.asker, .arm (fld 0 8) (fld 8 8) (fld 16 4) (gaOf s (Spec.first ps)) v, seg (fld 20 1 / 16), seg (fld 20 1), seg (fld 21 1 / 2),
          if nj then some (fld 24 8) else none⟩) ∧
    (∀ qs, Spec.farDescriptor s (x.getS k) (x.getG b).toNat 32 = some qs →
      exec (.copya t k b v m) s = Spec.asks (s.modCur (Spec.startTag t)) (.copya t k b v m) (Spec.at (x.getS k) (x.getG b)) 32 qs (gaOf s (Spec.first ps)))) ∧
  (∀ (s : State) (t : Tag) (m : MemR) (ps : List (Nat × Nat)), s.cur.tagBusy.getLsbD t.toNat = false →
    Spec.farDescriptor s (s.cur.getS m.seg) (Spec.eaOfR s m).toNat 64 = some ps →
    exec (.copyt t m) s = Spec.asks (s.modCur (Spec.startTag t)) (.copyt t m) (Spec.at (s.cur.getS m.seg) (Spec.eaOfR s m)) 64 ps 0 ∧
    exec (.copyd t m) s = Spec.asks (s.modCur (Spec.startTag t)) (.copyd t m) (Spec.at (s.cur.getS m.seg) (Spec.eaOfR s m)) 64 ps 0)

/-- R293, R294, R39: SPAWN places its record or parks until there is room; TEND ends the task by R40 and frees the slot. That SPAWN parks
too while the die of its record takes no part in the launch is the model's reading of R422 (log 40). -/
def Obligations.PostAndEnd : Prop :=
  (∀ (s : State) (m : Mem) (a : Nat) (l : Launch), let bs := s.seenBy (Spec.here s a) 64
    let w := fun n => BitVec.ofNat 64 (natOf ((bs.drop (8 * n)).take 8))
    Spec.near s m 64 true false = some a → s.hasUe (Spec.here s a) 64 = none →
    (∀ b ∈ bs.drop 58, b = 0) → s.launch s.cur.launch = some l →
    let r : Record := ⟨w 0, w 1, w 2, w 3, w 4, w 5, w 6, s.cur.launch, if l.repro then l.laneOf (w 5) else 0, s.draws⟩
    let c := spawnCluster s l (w 5)
    let full := 256 ≤ (s.queue c).length ∨ (s.die (c / 512)).spill.any fun x => x.1 == c
    (s.absent (c / 512) = true → exec (.spawn m) s = Spec.waits s (.spawn m) (.spawn { r with lane := 0 }) 0) ∧
    (s.absent (c / 512) = false → ¬ full → exec (.spawn m) s = .next (s.setQueue c (s.queue c ++ [r])).advance) ∧
    (s.absent (c / 512) = false → full → (s.die (c / 512)).spill.length < spillPlaces →
      exec (.spawn m) s = .next (s.modDie (c / 512) fun d => { d with spill := d.spill ++ [(c, r, recordBucket r)] }).advance) ∧
    (full → spillPlaces ≤ (s.die (c / 512)).spill.length → exec (.spawn m) s = Spec.waits s (.spawn m) (.spawn { r with lane := 0 }) 0)) ∧
  (∀ (s : State) (m : Mem) (ps : List (Nat × Nat)), Spec.far s m 64 true false = some ps →
    exec (.spawn m) s = Spec.asks s (.spawn m) (Spec.va s m) 64 ps (Spec.eaOf s m)) ∧
  (∀ (s : State), let u := leaveAll s s.asker
    (∀ b, (u.slot s.me).capsule = some b →
      exec .tend s = .next { freeSlot (freeBerth u s.me.coreKey b) s.me with focus := { s.focus with disp := .done } }) ∧
    ((u.slot s.me).capsule = none → exec .tend s = .next { freeSlot u s.me with focus := { s.focus with disp := .done } })) ∧
  (∀ (s : State) (r : SlotRef), let t := freeSlot s r
    t.slot r = { Slot.empty with
      mailbox := (s.slot r).mailbox
      readyAt := if (s.slot r).parks = [] then (s.slot r).readyAt else max (s.slot r).readyAt (s.cycle + 1) } ∧
    (∀ q, skey q ≠ skey r → t.slot q = s.slot q) ∧ t.mem = s.mem ∧
    (∀ o ∈ (t.core r.coreKey).queue, o.slot ≠ r.slot) ∧ (∀ w ∈ (t.core r.coreKey).banks, w.req.task ≠ (s.slot r).task) ∧
    (∀ o, (t.core r.coreKey).running = some o → o.slot ≠ r.slot))

/-! ## Channels and capsules -/

/-- The cores of R295's selector that the task may change: its own, one named core, or every bound core of a cluster. -/
def Sys2Proof.Spec.selected (s : State) (v : Word) (c : Nat) : Prop :=
  let cl := (v.extractLsb' 50 4).toNat * 512 + (v.extractLsb' 41 9).toNat
  let bound := ∃ l, s.launch s.cur.launch = some l ∧ l.binds s c = true
  if v.getLsbD 29 then c = s.me.coreKey
  else (v.extractLsb' 54 10).toNat = s.pkgid ∧ bound ∧ c / 16 = cl ∧ (v.getLsbD 36 = true ∨ c % 16 = (v.extractLsb' 37 4).toNat)

/-- R295, R296, R297, R43: CHSET, CHBLK and CHUNB change the entry of their own core at once and send the change to every other
selected core in turn, counted by its scope; a selector that names no core faults PROT, one with a bad field ILLEGAL. -/
def Sys2Proof.Spec.Channels : Prop :=
  (∀ (s : State) (v : Word), selectorOk v = true → ∀ c, c ∈ selectorCores s s.me v ↔ Spec.selected s v c) ∧
  (∀ (s : State) (a b : Reg), let v := s.cur.getG a; let w := s.cur.getG b; let k := (v.extractLsb' 30 6).toNat
    let others := (selectorCores s s.me v).filter (· ≠ s.me.coreKey)
    let own := (selectorCores s s.me v).contains s.me.coreKey
    let send := fun (op : ChanOp) (t : State) => others.foldl (fun (t : State) c => Spec.sentCounted t (localKey c 0) fun x n =>
      .channelChange ⟨t.asker, x, some n, c, k, op⟩) t
    let posted := fun (op : ChanOp) (t : State) => (.next (send op t).advance : Out)
    selectorOk v = true → (selectorCores s s.me v) ≠ [] →
    exec (.chblk a) s = posted .block (if own then setBlk s s.me.coreKey k true else s) ∧
    exec (.chunb a) s = posted .unblock (if own then setBlk s s.me.coreKey k false else s) ∧
    (w.extractLsb' 56 4 = 0 →
      (own = true → chanValid (s.chan s.me.coreKey k) = true → chanLaunch (s.chan s.me.coreKey k) ≠ s.cur.launch →
        exec (.chset a b) s = .next (takeFault s .prot Detail.zero)) ∧
      (own = true → ¬ (chanValid (s.chan s.me.coreKey k) = true ∧ chanLaunch (s.chan s.me.coreKey k) ≠ s.cur.launch) →
        exec (.chset a b) s = posted (.entry w) (applyChan s s.cur.launch s.me.coreKey k (.entry w)).2) ∧
      (own = false → exec (.chset a b) s = posted (.entry w) s))) ∧
  (∀ (s : State) (a b : Reg), let v := s.cur.getG a
    (selectorOk v = false → exec (.chblk a) s = .next (takeFault s .illegal Detail.zero) ∧ exec (.chunb a) s = .next (takeFault s .illegal Detail.zero)) ∧
    (selectorOk v = true → selectorCores s s.me v = [] →
      exec (.chblk a) s = .next (takeFault s .prot Detail.zero) ∧ exec (.chunb a) s = .next (takeFault s .prot Detail.zero)) ∧
    ((s.cur.getG b).extractLsb' 56 4 ≠ 0 → exec (.chset a b) s = .next (takeFault s .illegal Detail.zero)) ∧
    ((s.cur.getG b).extractLsb' 56 4 = 0 → (selectorOk v = false → exec (.chset a b) s = .next (takeFault s .illegal Detail.zero)) ∧
      (selectorOk v = true → selectorCores s s.me v = [] → exec (.chset a b) s = .next (takeFault s .prot Detail.zero)))) ∧
  (∀ v : Word, selectorOk v = true ↔ v.extractLsb' 0 29 = 0 ∧ if v.getLsbD 29 then v.extractLsb' 36 28 = 0
    else v.getLsbD 36 = true → v.extractLsb' 37 4 = 0) ∧
  (∀ (s : State) (core k : Nat) (on : Bool), let t := setBlk s core k on
    t.chan core k = (if on then s.chan core k ||| (1#128 <<< 62) else s.chan core k &&& ~~~(1#128 <<< 62)) ∧
    (∀ j, j ≠ k → t.chan core j = s.chan core j) ∧
    (∀ b : BitVec 2, b ∈ (s.core core).arrivals → capChannel s core b = k →
      (on = true → (s.core core).berth b = .ready → (t.core core).berth b = .pending) ∧
      (on = false → (s.core core).berth b = .pending → (t.core core).berth b = .ready)) ∧
    (∀ c, c ≠ core → t.core c = s.core c) ∧ t.mem = s.mem ∧ t.slots = s.slots)

/-- The capsule in hand: its berth, cursor and steps (R129, R298). -/
def Sys2Proof.Spec.hand (s : State) (b : BitVec 2) (cur n : Nat) : Prop :=
  s.cur.capsule = some b ∧ cur = (s.load (berthKey s.me.coreKey b.toNat + 26)).toNat ∧ n = (s.load (berthKey s.me.coreKey b.toNat + 27)).toNat

/-- Itinerary step `k` of a berth's capsule (R129, R130). -/
def Sys2Proof.Spec.stepAt (s : State) (b : BitVec 2) (k : Nat) : Word := s.loadWord (berthKey s.me.coreKey b.toNat + 64 + 8 * k)

/-- R298-R302: CAPNEW makes a capsule in a free berth with its header, zero tile, identity and S2, or waits for a berth; CAPDONE
frees the berth; CAPSEND asks for the next place, and with no step left finishes the capsule. -/
def Obligations.CapsuleLife : Prop :=
  (∀ (s : State) (d a : Reg), let v := s.cur.getG a; let core := s.me.coreKey
    let lane := laneKey s s.me; let seq := madeBy s s.cur.launch lane
    s.cur.capsule = none → v.toNat ≤ 16384 → v.toNat % 64 = 0 →
    (∀ b, (s.core core).freeBerth = some b →
      exec (.capnew d a) s = done ((((s.modCore core fun c => c.setBerth b .held).stores (berthKey core b.toNat)
          (bytesOf 4 1 ++ bytesOf 4 v.toNat ++ bytesOf 8 (physLane s s.me).toNat ++ bytesOf 8 (lane * 2 ^ 32 + seq) ++
            bytesOf 2 s.cur.launch ++ List.replicate (230 + v.toNat) 0)).modLaunch s.cur.launch
          fun l => { l with made := SMap.set l.made 0 lane (SMap.get l.made 0 lane + 1) }))
        fun z => ({ z.setS 2 (mkSeg v.toNat false false true true (0x60000 + 16640 * b.toNat + 256)) with
          capsule := some b, capStep := none } : Slot).setG d (BitVec.ofNat 64 (lane * 2 ^ 32 + seq))) ∧
    ((s.core core).freeBerth = none →
      exec (.capnew d a) s = Spec.waits (({ s with xid := s.xid + 1 } : State).modCore core fun c =>
        { c with asks := c.asks ++ [.local s.me s.cur.task s.xid s.xid] }) (.capnew d a) (.berth s.xid) v)) ∧
  (∀ (s : State) (d a : Reg), s.cur.capsule.isSome ∨ 16384 < (s.cur.getG a).toNat ∨ (s.cur.getG a).toNat % 64 ≠ 0 →
    exec (.capnew d a) s = .next (takeFault s .illegal Detail.zero)) ∧
  (∀ (s : State) (b : BitVec 2) (cur n : Nat), Spec.hand s b cur n →
    let core := s.me.coreKey
    let bare := s.modCur fun z => { z.setS 2 0 with capsule := none, capStep := none }
    exec .capdone s = .next (freeBerth bare core b).advance ∧
    (cur = n → exec .capsend s = .next (freeBerth bare core b).advance) ∧
    (cur ≠ n →
      let step := Spec.stepAt s b cur
      let die := (step.extractLsb' 50 4).toNat
      let dst := if (step.extractLsb' 54 10).toNat = s.pkgid ∧ s.dead die = false then die else s.me.die
      exec .capsend s = .next ((bare.modCore core fun c => c.setBerth b .leaving).post s.me.die dst
        (.berthReservation ⟨core, b.toNat, s.loadNat (berthKey core b.toNat + 24) 2, step, s.cycle⟩)).advance)) ∧
  (∀ (s : State), s.cur.capsule = none → exec .capsend s = .next (takeFault s .illegal Detail.zero) ∧
    exec .capdone s = .next (takeFault s .illegal Detail.zero))

/-- Memory outside `n` bytes from `k` reads as before, and nothing else changes but the PC. -/
def Sys2Proof.Spec.onlyBytes (s t : State) (k n : Nat) : Prop :=
  t = { s.advance with mem := t.mem } ∧ ∀ a, a < k ∨ k + n ≤ a → t.load a = s.load a

/-- R303, R304: the itinerary of the capsule in hand, from its cursor on. -/
def Sys2Proof.Spec.Itinerary : Prop :=
  (∀ (s : State) (b : BitVec 2) (cur n : Nat) (x y : Reg), Spec.hand s b cur n →
    let i := (s.cur.getG x).toNat; let v := s.cur.getG y; let k := berthKey s.me.coreKey b.toNat
    (16 ≤ i → i ≤ 19 → exec (.capstep x y) s = .next (s.stores (k + 32 + 8 * (i - 16)) (bytesOf 8 v.toNat)).advance) ∧
    (cur ≤ i → i < n → i < 16 → exec (.capstep x y) s = .next (s.stores (k + 64 + 8 * i) (bytesOf 8 v.toNat)).advance) ∧
    (i = n → n < 12 → exec (.capstep x y) s =
      .next ((s.stores (k + 64 + 8 * n) (bytesOf 8 v.toNat)).stores (k + 27) (bytesOf 1 (n + 1))).advance) ∧
    (¬ (16 ≤ i ∧ i ≤ 19) → ¬ (cur ≤ i ∧ i < n) → ¬ (i = n ∧ n < 12) →
      exec (.capstep x y) s = .next (takeFault s .illegal Detail.zero))) ∧
  (∀ (s : State) (b : BitVec 2) (cur n : Nat) (x : Reg) (y : RegLit), Spec.hand s b cur n →
    let i := (s.cur.getG x).toNat; let v := Spec.nameOf s y; let k := berthKey s.me.coreKey b.toNat
    (cur ≤ i → i ≤ n → n < 12 → ∃ t, exec (.capins x y) s = .next t ∧
      (∀ j ≤ n, Spec.stepAt t b j = if j < i then Spec.stepAt s b j else if j = i then v else Spec.stepAt s b (j - 1)) ∧
      (t.load (k + 27)).toNat = n + 1 ∧ Spec.onlyBytes s t (k + 27) (45 + 8 * n) ∧ ∀ a, k + 27 < a → a < k + 64 → t.load a = s.load a) ∧
    (i < cur ∨ n < i ∨ 12 ≤ n → exec (.capins x y) s = .next (takeFault s .illegal Detail.zero)) ∧
    (v.extractLsb' 0 36 = 0 → cur ≤ i → i < n → exec (.capredir x y) s =
      .next (s.stores (k + 64 + 8 * i) (bytesOf 8 (v ||| (Spec.stepAt s b i &&& 0xFFFFFFFFF)).toNat)).advance) ∧
    (v.extractLsb' 0 36 ≠ 0 ∨ i < cur ∨ n ≤ i → exec (.capredir x y) s = .next (takeFault s .illegal Detail.zero))) ∧
  (∀ (s : State) (b : BitVec 2) (cur n : Nat) (y : RegImm), Spec.hand s b cur n →
    let i := (Spec.maskOf s y).toNat; let k := berthKey s.me.coreKey b.toNat
    (cur ≤ i → i < n → n ≤ 12 → ∃ t, exec (.capdel y) s = .next t ∧
      (∀ j < n, Spec.stepAt t b j = if j < i then Spec.stepAt s b j else if j + 1 < n then Spec.stepAt s b (j + 1) else 0) ∧
      (t.load (k + 27)).toNat = n - 1 ∧ Spec.onlyBytes s t (k + 27) (37 + 8 * n) ∧ ∀ a, k + 27 < a → a < k + 64 → t.load a = s.load a) ∧
    (i < cur ∨ n ≤ i → exec (.capdel y) s = .next (takeFault s .illegal Detail.zero)) ∧
    (∀ d, i < 20 → exec (.caprd d y) s = done s fun z => z.setG d (s.loadWord (k + 8 * i))) ∧
    (∀ d, 20 ≤ i → exec (.caprd d y) s = .next (takeFault s .illegal Detail.zero))) ∧
  (∀ (s : State) (x y : Reg) (z : RegLit) (m : RegImm), s.cur.capsule = none →
    let f : Out := .next (takeFault s .illegal Detail.zero)
    exec (.capstep x y) s = f ∧ exec (.capins x z) s = f ∧ exec (.capdel m) s = f ∧ exec (.caprd x m) s = f)

/-- R295, R296, R297, R43: CHSET, CHBLK and CHUNB change the entry of their own core at once and send the change to every other
selected core in turn, counted by its scope; a selector that names no core faults PROT, one with a bad field ILLEGAL. That PROT
answers an ANY selector of a cluster with no bound core is the model's reading (log 60). R303, R304: the itinerary of the capsule in
hand, from its cursor on. -/
def Obligations.ChannelsAndItineraries : Prop := Spec.Channels ∧ Spec.Itinerary

/-! ## The matrix unit -/

/-- The operation enters the queue of its core and the slot parks (R308). -/
def Sys2Proof.Spec.queued (s : State) (i : Instr) (o : MatOp) : Out :=
  Spec.waits (({ s with xid := s.xid + 1 } : State).modCore s.me.coreKey fun c => { c with queue := c.queue ++
    [{ o with slot := s.me.slot, base := s.cur.prio.toNat, entered := s.xid, since := s.cycle, rmode := s.cur.rmode }] }) i .matrix 0

/-- Ranges (offset, bytes, alignment) of a core-local segment that R313 admits. -/
def Sys2Proof.Spec.ranges (g : BitVec 128) (wr : Bool) (rs : List (Nat × Nat × Nat)) : Prop :=
  segSpace g = false ∧ ∀ r ∈ rs, segOk g r.1 r.2.1 (!wr) wr = true ∧ r.1 % r.2.2 = 0

/-- The tables that an operation of the slot takes when it first starts (R82, R316). -/
def Sys2Proof.Spec.sampled (s : State) (r : SlotRef) (a b sc : Bool) : Table × Table × Table :=
  let x := s.slot r
  let t (on : Bool) (f : Word) : Table := if on then tableOf s r (f.toNat % 8) else []
  (t a x.fa, t b x.fb, t (sc && x.fs.getLsbD 3) x.fs)

/-- A tile that may take an operation of a mode (R314). -/
def Sys2Proof.Spec.agrees (s : State) (c : Acc) (mode : Bool) : Prop :=
  (s.cur.started[c.toNat]'c.isLt) = true → (s.cur.getC c 0).getLsbD 126 = mode

/-- R308-R313, R320, R322-R327: the matrix instructions check their operands; MZERO and MPRI act at once, MDRAINP sends its tile,
the others enter the queue and park. Alignment is tested on offsets (log 29). -/
def Obligations.MatrixIssue : Prop :=
  (∀ (s : State) (c : Acc), ∃ z, exec (.mzero c) s = done s (fun _ => z) ∧
    z = { s.cur with c := z.c, started := s.cur.started.set c.toNat false c.isLt } ∧
    (∀ n < 256, z.getC c n = 0) ∧ ∀ d n, d ≠ c → n < 256 → z.getC d n = s.cur.getC d n) ∧
  (∀ (s : State) (o : MmaOp) (nk ao aso bo bso : Nat), let x := s.cur.getG o.a; let g := s.cur.getS o.seg; let mf := o.mf.toNat
    let k := nk * mfKs mf; let z := 16 * k * fmtWidth (mfFmt mf) / 8
    (match o.src with
      | .reg b => let y := s.cur.getG b
        nk = (y.extractLsb' 52 12).toNat ∧ ao = (x.extractLsb' 0 19).toNat ∧ aso = (x.extractLsb' 32 19).toNat ∧
        bo = (y.extractLsb' 0 19).toNat ∧ bso = (y.extractLsb' 32 19).toNat
      | .imm v => nk = v.toNat ∧ ao = (x.extractLsb' 0 19).toNat ∧ bo = (x.extractLsb' 32 19).toNat ∧ aso = 0 ∧ bso = 0) →
    nk ≠ 0 → (o.sc = true → k % 32 = 0) →
    Spec.ranges g false ([(ao, z, 64), (bo, z, 64)] ++ if o.sc then [(aso, k / 2, 16), (bso, k / 2, 16)] else []) →
    Spec.agrees s o.d (mf == 5) →
    exec (.mma o) s = Spec.queued s (.mma o) { MatOp.new .mma o.d nk with
      mf := mf, sc := o.sc, a := (segBase g + ao) % 2 ^ 56, b := (segBase g + bo) % 2 ^ 56, asc := (segBase g + aso) % 2 ^ 56,
      bsc := (segBase g + bso) % 2 ^ 56 }) ∧
  (∀ (s : State) (o : MmaOp) (nk ao : Nat), let x := s.cur.getG o.a; let g := s.cur.getS o.seg; let mf := o.mf.toNat
    let h := (s.core s.me.coreKey).hoop
    ao = (x.extractLsb' 0 19).toNat → nk = (match o.src with | .reg b => ((s.cur.getG b).extractLsb' 0 12).toNat | .imm v => v.toNat) →
    nk ≠ 0 → s.cur.hooped = true → h.owner.isSome = true → h.mf = mf →
    Spec.ranges g false [(ao, 16 * nk * mfKs mf * fmtWidth (mfFmt mf) / 8, 64)] → Spec.agrees s o.d (mf == 5) →
    exec (.mmah o) s = Spec.queued s (.mmah o) { MatOp.new .mmah o.d nk with
      mf := mf, a := (segBase g + ao) % 2 ^ 56 }) ∧
  (∀ (s : State) (k : SReg) (mf : BitVec 3) (a b : Reg) (l : Launch), let m : BitVec 16 := (s.cur.getG b).setWidth 16
    let g := s.cur.getS k; let ao := ((s.cur.getG a).extractLsb' 0 19).toNat
    m.getLsbD s.me.core = true → s.launch s.cur.launch = some l →
    (∀ c < 16, m.getLsbD c = true → l.binds s (s.me.clusterKey * 16 + c) = true) → Spec.ranges g false [(ao, 256, 64)] →
    exec (.mhoop k mf a b) s = Spec.queued (s.modCur fun z => { z with hooped := true }) (.mhoop k mf a b) { MatOp.new .mhoop 0 1 with
      mf := mf.toNat, a := (segBase g + ao) % 2 ^ 56, mask := m }) ∧
  (∀ (s : State) (norm : Bool) (code : BitVec 4) (c : Acc) (m : Mem), let f := Spec.formatOf code; let g := s.cur.getS m.seg
    let ea := (Spec.eaOf s m).toNat
    Spec.ranges g true [(ea, 256 * (fmtWidth f / 8), 64)] →
    (if (s.cur.started[c.toNat]'c.isLt) = true ∧ (s.cur.getC c 0).getLsbD 126 = true then code = 1 ∨ code = 8 ∨ code = 10
      else code = 1 ∨ code = 2 ∨ code = 3 ∨ code = 4 ∨ code = 5 ∨ code = 7) →
    exec (.mdrain norm code c m) s = Spec.queued s (.mdrain norm code c m) { MatOp.new .mdrain c 1 with
      a := (segBase g + ea) % 2 ^ 56, code := f, norm := norm }) ∧
  (∀ (s : State) (c : Acc) (b : Reg) (m : MemR) (ps : List (Nat × Nat)), let n := s.cur.getG b
    n.toNat ≤ 4095 → Spec.lattice s (s.cur.getS m.seg) (Spec.eaOfR s m + n * 4096).toNat 4096 4096 false true = some ps →
    exec (.mdrainp c b m) s = .next (Spec.sentCounted s (Spec.first ps) fun x k =>
      .tileFill ⟨s.asker, x, k, gaOf s (Spec.first ps), 12, 0x0B, none,
        (List.range 256).flatMap fun j => bytesOf 16 (s.cur.getC c j).toNat⟩).advance) ∧
  (∀ (s : State) (c : Acc) (b : Reg) (m : MemR) (ps : List (Nat × Nat)) (ga : Word) (gas : List Word), let n := (s.cur.getG b).toNat
    1 ≤ n → n ≤ 4096 → Spec.lattice s (s.cur.getS m.seg) (Spec.eaOfR s m).toNat (4096 * n) 4096 true false = some ps →
    (Spec.plots 0 ps).map (fun p => gaOf s p.2) = ga :: gas →
    exec (.macc c b m) s = Spec.queued (Spec.sent s (gaKey ga) fun x => .thresholdRegistration ⟨s.asker, x, ga, .macc⟩) (.macc c b m)
      { MatOp.new .macc c n with gas := ga :: gas, waitXid := some s.xid }) ∧
  (∀ (s : State) (p : BitVec 2), exec (.mpri p) s = done s fun z => { z with prio := p })

/-- R97, R94: COUNT adds the present contributors and stays at its top with CSAT; a float VALUE is the exact sum rounded once to
nearest even, an integer one is exact, clamped to 96 bits with OV. -/
def Obligations.AccumulatorArithmetic : Prop :=
  (∀ (e : AccElem) (n : Nat), (e.more n).count = min (e.count + n) 0xFFFFFF ∧ (e.more n).csat = (e.csat || decide (0xFFFFFF < e.count + n)) ∧
    (e.more n).value = e.value) ∧
  (∀ (e : AccElem) (neg : Bool) (m : Nat), e.imode = true → e.value < 2 ^ 96 →
    let old : Int := if 2 ^ 95 ≤ e.value then (e.value : Int) - 2 ^ 96 else e.value
    let v := old + (if neg then -(m : Int) else m)
    let c := max (-(2 ^ 95)) (min (2 ^ 95 - 1) v)
    (e.add (.num neg m 1)).value = (c % 2 ^ 96).toNat ∧ (e.add (.num neg m 1)).ov = (e.ov || decide (c ≠ v))) ∧
  (∀ (e : AccElem) (neg : Bool) (n d : Nat), e.imode = false → 0 < d → e.value < 2 ^ 96 →
    let c := encodeFp accFp ⟨0, true, 0⟩ (addVal false e.val (.num neg n d))
    (e.add (.num neg n d)).value = c.1 ∧ (e.add (.num neg n d)).ov = (e.ov || c.2.ovf)) ∧
  (∀ (e : AccElem) (t : Products), let f := e.kstep t
    f.ns = (e.ns || t.ns) ∧ f.pi = (e.pi || t.pi) ∧ f.mi = (e.mi || t.mi) ∧ f.count = min (e.count + t.n) 0xFFFFFF ∧
    f.value = (e.add t.sum).value)

/-- The next step of a core's unit is the completion of `o`'s: it runs, its charge is paid and its 16 cycles are over. -/
def Sys2Proof.Spec.due (s : State) (core : Nat) (o : MatOp) : Prop :=
  (s.core core).running = some o ∧ o.claimed = false ∧ o.since + 16 ≤ s.cycle

/-- The bytes of a k-step (R316, R315): rows of A, the chunk of B, from memory or from the Hoop, and scales. -/
def Sys2Proof.Spec.stepData (s : State) (core : Nat) (o : MatOp) : StepBytes :=
  let ks := mfKs o.mf
  let w := fmtWidth (mfFmt o.mf)
  let k := o.total * ks
  let at_ := opBytes s core o
  { rows := (List.range 16).map fun i => at_ (o.a + (i * k + o.step * ks) * w / 8) (ks * w / 8)
    b := if o.kind = .mma then at_ (o.b + o.step * 256) 256 else (s.core core).hoop.chunk
    sa := if o.sc then (List.range 16).flatMap fun i => at_ (o.asc + i * (k / 32) + o.step * ks / 32) 1 else []
    sb := if o.sc then at_ (o.bsc + 16 * (o.step * ks / 32)) 16 else [] }

/-- None of them has an uncorrectable error (R317). -/
def Sys2Proof.Spec.stepClean (s : State) (core : Nat) (o : MatOp) : Prop :=
  let ks := mfKs o.mf
  let w := fmtWidth (mfFmt o.mf)
  let k := o.total * ks
  let clean := fun off n => s.hasUe (localKey core off) n = none
  (∀ i < 16, clean (o.a + (i * k + o.step * ks) * w / 8) (ks * w / 8)) ∧
  (o.kind = .mma → clean (o.b + o.step * 256) 256) ∧
  (o.sc = true → (∀ i < 16, clean (o.asc + i * (k / 32) + o.step * ks / 32) 1) ∧ clean (o.bsc + 16 * (o.step * ks / 32)) 16)

/-- R316-R321, R324, R326, R328: MATRIX_KSTEP does one step of the operation in the unit on the tile of its slot and turns to what
follows. A k-step adds its products to the tile; MHOOP loads the chunk; MDRAIN stores the tile converted under RMODE as it stood at
issue, unless its stores were made ahead of the other half of its bundle; a MACC of an empty partial adds nothing. An operation takes its tables when it first enters the unit. -/
def Sys2Proof.Spec.UnitSteps : Prop :=
  (∀ (s : State) (core : Nat) (o : MatOp), Spec.due s core o → (o.kind = .mma ∨ o.kind = .mmah) → Spec.stepClean s core o →
    ∃ x, exec (.matrixKstep core) s = .next (afterStep (s.setSlot (refOf core o.slot) x) core o) ∧
      let old := s.slot (refOf core o.slot)
      (∀ n < 256, accOf (x.getC o.tile n) =
        let e := accOf (old.getC o.tile n)
        (if old.isStarted o.tile then e else { e with imode := o.mf == 5 }).kstep
          (products (elemProducts o (Spec.stepData s core o) (n / 16) (n % 16)))) ∧
      (∀ c n, c ≠ o.tile → n < 256 → x.getC c n = old.getC c n) ∧
      x = { old with c := x.c, started := old.started.set o.tile.toNat true o.tile.isLt }) ∧
  (∀ (s : State) (core : Nat) (o : MatOp), Spec.due s core o → o.kind = .mhoop → s.hasUe (localKey core o.a) 256 = none →
    exec (.matrixKstep core) s = .next (afterStep (s.modCore core fun c => { c with hoop := { c.hoop with
      chunk := opBytes s core o o.a 256, full := true, infull := false, mask := o.mask, mf := o.mf, t := 0,
      owner := some (s.slot (refOf core o.slot)).task } }) core o)) ∧
  (∀ (s : State) (core : Nat) (o : MatOp), Spec.due s core o → o.kind = .mdrain →
    let r := refOf core o.slot; let x := s.slot r
    let es := (List.range 256).map fun n =>
      drainElem o.norm o.code (o.tables.getD ([], [], [])).2.1 (rmFrom s r o.rmode n) (accOf (x.getC o.tile n))
    let bs := es.flatMap fun e => bytesOf (fmtWidth o.code / 8) e.bits; let k := localKey core o.a
    exec (.matrixKstep core) s = .next (afterStep
      ((if o.stored then s else (overtake s r x.task o.entered [(k, bs.length)]).stores k bs).modSlot r fun z => { z with
        flags := es.foldl (fun w e => w ||| stickyWord e.st) z.flags
        rmode := if o.keepRm = false ∧ rmMode o.rmode = 5 ∧ es.any (fun e => e.sr) then bumpSrn z.rmode else z.rmode }) core o)) ∧
  (∀ (s : State) (core : Nat) (o : MatOp) (a : Answer), Spec.due s core o → o.kind = .macc → o.answer = some a → a.code = none →
    (∀ n < 256, emptyElem (accOf (BitVec.ofNat 128 (fieldOf a.bytes (16 * n) 16))) = true) →
    exec (.matrixKstep core) s = .next (afterStep s core o)) ∧
  (∀ (s t : State) (core : Nat) (o : MatOp), Spec.due s core o → unitStep s core o = .ok t →
    exec (.matrixKstep core) s = .next (afterStep t core o)) ∧
  (∀ (s : State) (core : Nat) (o : MatOp), let r := refOf core o.slot; let t8 := o.mf == 4
    o.tables = none →
    (o.kind = .mma → opTables s core o = Spec.sampled s r t8 t8 o.sc) ∧ (o.kind = .mmah → opTables s core o = Spec.sampled s r t8 t8 false) ∧
    (o.kind = .mdrain → opTables s core o = Spec.sampled s r false (o.code == fmtT8) false) ∧
    startOp s core o = beginStep (s.modCore core fun c => { c with queue := c.queue.filter fun y => y.slot ≠ o.slot }) core { o with
      waited := o.waited + (s.cycle - o.since), rank := min 3 (o.base + (o.waited + (s.cycle - o.since)) / 4096), claimed := false
      tables := some (opTables (s.modCore core fun c => { c with queue := c.queue.filter fun y => y.slot ≠ o.slot }) core o) })

/-- R316, R317, R328, R389: a location with an uncorrectable error or a partial of another kind faults the task at that step; a step
whose charge was refused asks for it again; an idle unit takes the first eligible operation; nothing to do changes nothing. -/
def Sys2Proof.Spec.UnitTurns : Prop :=
  (∀ (s : State) (core : Nat) (o : MatOp) (c : FaultCode) (ga : Option Word), Spec.due s core o → unitStep s core o = .error (c, ga) →
    let r := refOf core o.slot
    exec (.matrixKstep core) s = .next (unitNext (faultTask (setRunning s core none) r c
      ⟨matrixPc (s.slot r), none, ga, BitVec.ofNat 64 o.step⟩) core)) ∧
  (∀ (s : State) (core : Nat) (o : MatOp), (s.core core).running = some o → o.claimed = true → (s.die (dieOfCore core)).hold = false →
    exec (.matrixKstep core) s = .next (beginStep s core o)) ∧
  (∀ (s : State) (core : Nat), unitReady s core = false → exec (.matrixKstep core) s = .next s) ∧
  (∀ (s : State) (core : Nat), (s.core core).running = none → (s.core core).queue.any (eligible s core) = true →
    exec (.matrixKstep core) s = .next (unitNext s core))

/-- R318-R320, R308: the Hoop's latch takes its INBOX, and a chunk goes to the next member of the ring; the last send completes the
MMAH. R321, R417: a MACC takes its answer, where it stands. -/
def Sys2Proof.Spec.HoopAndAnswers : Prop :=
  (∀ (s : State) (core : Nat), let h := (s.core core).hoop
    (h.full = false → h.infull = true → exec (.hoopLatchMove core) s =
      .next (s.modCore core fun c => { c with hoop := { h with chunk := h.inbox, full := true, infull := false, t := h.t + 1 } })) ∧
    ((h.full = true ∨ h.infull = false) → exec (.hoopLatchMove core) s = .next s)) ∧
  (∀ (s : State) (core : Nat) (o : MatOp), let h := (s.core core).hoop
    senderOp s core = some o →
    let dst := core / 16 * 16 + nextMember h.mask (core % 16)
    let r := refOf core o.slot
    let t := (s.modCore core fun c => { c with hoop := { c.hoop with full := false } }).modCore dst
      fun c => { c with hoop := { c.hoop with inbox := h.chunk, infull := true } }
    ((s.core dst).hoop.infull = true → exec (.hoopChunkSend core) s = .next s) ∧
    ((s.core dst).hoop.infull = false → o.step + 1 = o.total →
      let u := t.modCore core fun c => { c with queue := c.queue.filter fun y => y.slot ≠ o.slot }
      exec (.hoopChunkSend core) s =
        .next (wakeSlot r ((countParked r u).modSlot r fun z => { z with parks := z.parks.filter fun p => p.cond ≠ .matrix }))) ∧
    ((s.core dst).hoop.infull = false → o.step + 1 ≠ o.total →
      exec (.hoopChunkSend core) s = .next (t.modCore core fun c => { c with queue := c.queue.map fun y =>
        if y.slot = o.slot then { y with step := y.step + 1, sending := false } else y }))) ∧
  (∀ (s : State) (core : Nat), (∀ o ∈ (s.core core).queue, o.sending = false ∨ (s.slot (refOf core o.slot)).halt = .preempt) →
    exec (.hoopChunkSend core) s = .next s) ∧
  (∀ (s : State) (core : Nat) (a : Answer),
    let give := fun o : MatOp => if o.waitXid = some a.xid then { o with answer := some a, waitXid := none } else o
    let t := s.modCore core fun c => { c with queue := c.queue.map give, running := c.running.map give }
    exec (.maccSlotReady core a) s = .next { t with launches := t.launches.map fun (k, l) =>
      (k, l.map fun l => { l with saved := l.saved.map fun c => { c with op := c.op.map give } }) })

/-- R316-R321, R324, R326, R328: MATRIX_KSTEP does one step of the operation in the unit on the tile of its slot and turns to what
follows; a location with an uncorrectable error or a partial of another kind faults the task at that step; an idle unit takes the
first eligible operation; nothing to do changes nothing. The Hoop moves and sends its chunk, and a MACC takes its answer. Which
results count as rounded, so that a drain moves SRN, and which set sticky bits is the reading of log 22; whose the
Hoop latch is, that of log 23; when an operation takes its tables, that of log 24; and what it sees of its task's stores, that of log 7. -/
def Obligations.MatrixSteps : Prop := Spec.UnitSteps ∧ Spec.UnitTurns ∧ Spec.HoopAndAnswers

/-! ## The Press -/

/-- A handle's group, of the issuer's launch (R334). -/
def Sys2Proof.Spec.allotted (s : State) (v : Word) : Prop :=
  ∃ l, s.launch s.cur.launch = some l ∧ l.grp0 ≤ (v.extractLsb' 0 12).toNat ∧ (v.extractLsb' 0 12).toNat < l.grp0 + l.ngrp

/-- The issuer belongs to the group at the handle's generation (R335, R48). -/
def Sys2Proof.Spec.member (s : State) (v : Word) : Prop :=
  let x := s.group (v.extractLsb' 0 12).toNat
  x.phase = 1 ∧ x.gen = (v.extractLsb' 12 4).toNat ∧ (x.root = true ∨ ∃ q ∈ x.members, q.task = s.cur.task)

/-- The issuer may contribute: no result of the group is outstanding, nor a second one of its lane (R337, R48). -/
def Sys2Proof.Spec.mayContribute (s : State) (v : Word) : Prop :=
  let g := (v.extractLsb' 0 12).toNat
  (∀ o ∈ s.cur.outs, o.gid ≠ g) ∧ ¬ ((s.group g).root = true ∧ isRepro s s.cur.launch = true ∧ s.asker.llane.toNat ∈ (s.group g).arrived)

/-- The round that a contribution goes into (R335, R337, R48): the one in progress where its task takes part in it and has not
contributed yet, or where none is, and otherwise the next; of a root group the next once L lanes have contributed. -/
def Sys2Proof.Spec.roundFor (s : State) (q : Requester) (g : Nat) : Nat :=
  let x := s.group g
  let now := if x.root then x.arrived.length < groupLanes s g else x.roundOf = [] ∨ (q.task ∈ x.roundOf ∧ q.task ∉ x.arrived)
  x.round + if now then 0 else 1

/-- R334-R337, R341, R342, R344: the Press instructions as they issue. That a join which adds to a group needs places as one that
creates it does is the model's reading (log 58). -/
def Obligations.PressIssue : Prop :=
  (∀ (s : State) (h : RegImm), let v := Spec.maskOf s h; let g := (v.extractLsb' 0 12).toNat; let x := s.group g
    Spec.allotted s v →
    (Spec.member s v → x.root = false → exec (.gjoin h) s = done s id ∧ exec (.gleave h) s = .next (leaveGroup s s.asker g).advance) ∧
    (¬ Spec.member s v → x.root = false → exec (.gleave h) s = done s id) ∧
    (¬ Spec.member s v → x.root = false → x.gen = (v.extractLsb' 12 4).toNat → x.phase ≠ 2 →
      let room := ∀ n ∈ joinPath s g s.me.coreKey, (s.pentry n g).isSome ∨ s.pressLoad n < 1024
      let t := (reservePath s g s.me.coreKey).setGroup g { x with phase := 1, launch := s.cur.launch, members := x.members ++ [s.asker] }
      (room → exec (.gjoin h) s = .next (if x.roundOf = [] then rebuild t g else t).advance) ∧
      (¬ room → exec (.gjoin h) s = .next (takeFault s .illegal Detail.zero))) ∧
    (x.root = false → (x.gen ≠ (v.extractLsb' 12 4).toNat ∨ x.phase = 2) → exec (.gjoin h) s = .next (takeFault s .groupNotMember Detail.zero)) ∧
    (x.root = true → exec (.gjoin h) s = .next (takeFault s .illegal Detail.zero) ∧ exec (.gleave h) s = .next (takeFault s .illegal Detail.zero)) ∧
    (Spec.member s v → Spec.mayContribute s v →
      let p := { emptyPkt g (v.extractLsb' 12 4).toNat with op := 9, bar := true, lanes := b2n x.root, members := [s.asker] }
      exec (.gbar h) s = Spec.waits (pressContribute (s.modCur fun z => { z with
        outs := z.outs ++ [⟨g, (v.extractLsb' 12 4).toNat, Spec.roundFor s s.asker g, true, none, false⟩] }) s.asker p) (.gbar h) (.press g) 0) ∧
    (¬ Spec.member s v → exec (.gbar h) s = .next (takeFault s .groupNotMember Detail.zero)) ∧
    (Spec.member s v → ¬ Spec.mayContribute s v → exec (.gbar h) s = .next (takeFault s .illegal Detail.zero))) ∧
  (∀ (s : State) (h : RegImm), ¬ Spec.allotted s (Spec.maskOf s h) →
    let f : Out := .next (takeFault s .prot Detail.zero)
    exec (.gjoin h) s = f ∧ exec (.gleave h) s = f ∧ exec (.gbar h) s = f) ∧
  (∀ (s : State) (op : BitVec 4) (fm : BitVec 5) (a b : Reg), let v := s.cur.getG a; let g := (v.extractLsb' 0 12).toNat
    let f := fm.toNat; let gen := (v.extractLsb' 12 4).toNat
    Spec.allotted s v → Spec.member s v → Spec.mayContribute s v → s.cur.outs.length < 16 →
    let p := pressPart op.toNat f (tabA s f) ((s.cur.getG b).toNat % 2 ^ fmtWidth f)
      { emptyPkt g gen with
        op := op.toNat, fmt := f, sat := s.cur.rmode.getLsbD 3, mode := s.cur.rmode.toNat % 8,
        lanes := b2n (s.group g).root, members := [s.asker] }
    exec (.gcon op fm a b) s = .next (pressContribute (s.modCur fun z => { z with
      outs := z.outs ++ [⟨g, gen, Spec.roundFor s s.asker g, false, none, false⟩] }) s.asker p).advance) ∧
  (∀ (s : State) (d a : Reg) (o : Outst), let v := s.cur.getG a; let g := (v.extractLsb' 0 12).toNat
    d.toNat % 2 = 0 → Spec.allotted s v → Spec.member s v → s.cur.outs.find? (fun o => o.gid = g) = some o → o.bar = false → o.lost = false →
    (o.result = none → exec (.grecv d a) s = Spec.waits s (.grecv d a) (.press g) 0) ∧
    (∀ p, o.result = some p → p.bad = true → exec (.grecv d a) s = .next (takeFault s .illegal Detail.zero)) ∧
    (∀ p, o.result = some p → p.bad = false →
      let r := pressResult (tabA s p.fmt) p
      exec (.grecv d a) s = done s fun z =>
        let y := ({ z with outs := z.outs.filter fun o => decide (o.gid ≠ g) } : Slot).setG d
          (if p.op ≠ 8 ∧ p.fmt < 4 then (BitVec.ofNat (fmtWidth p.fmt) r.1).signExtend 64 else BitVec.ofNat 64 r.1)
        let y := y.setG (d + 1) (BitVec.ofNat 64 p.count)
        { y with flags := y.flags ||| stickyWord r.2 ||| (if p.count = 0 then 0x20 else 0) })) ∧
  (∀ (s : State) (d a : Reg), let v := s.cur.getG a; let g := (v.extractLsb' 0 12).toNat; let x := s.group g
    Spec.allotted s v → ∃ m : Bool, (m = true ↔ x.phase = 1 ∧ x.gen < 16 ∧ (x.root = true ∨ ∃ q ∈ x.members, q.task = s.cur.task)) ∧
      (x.gen < 16 → exec (.gstat d a) s = done s fun z => z.setG d (BitVec.ofNat 64
        (x.gen * 2 ^ 32 + SMap.get (s.pnode (pressId 1 s.me.coreKey)).stale 0 g * 2 ^ 16 + min 15 z.outs.length * 4 +
          (if x.phase = 2 then 2 else 0) + b2n m))))

/-- What of a partial the result depends on. -/
def Sys2Proof.Spec.essence (p : PressPkt) : Nat × Int × Bool × Bool × Bool × Bool × Bool × Nat × Bool :=
  (p.count, if p.count = 0 then 0 else p.part, p.nan, p.pinf, p.minf, p.negz && p.count != 0, p.zpos, p.lanes, p.bad)

/-- A partial before its value: nothing counted yet. -/
def Sys2Proof.Spec.blank (p : PressPkt) : Prop :=
  p.part = 0 ∧ p.count = 0 ∧ p.nan = false ∧ p.pinf = false ∧ p.minf = false ∧ p.negz = false ∧ p.zpos = true ∧ p.bad = false

/-- A contribution of an operator, format, saturation and mode (R337-R339): a present or absent value, or a barrier's. -/
def Sys2Proof.Spec.contribution (op fmt mode : Nat) (sat bar : Bool) (p : PressPkt) : Prop :=
  ∃ b : PressPkt, Spec.blank b ∧ b.op = op ∧ b.fmt = fmt ∧ b.mode = mode ∧ b.sat = sat ∧ b.bar = bar ∧
    (p = b ∨ ∃ (t : Table) (x : Nat), p = pressPart op fmt t x b)

/-- What counts for a member that left before it contributed (R336). -/
def Sys2Proof.Spec.left (p : PressPkt) : Prop := Spec.blank p ∧ p.op = emptyOp ∧ p.fmt = 0 ∧ p.mode = 0 ∧ p.sat = false ∧ p.bar = false

/-- `a` combines exactly the contributions of a list, in that order and in some grouping (R428). -/
inductive Sys2Proof.Spec.Combined : List PressPkt → PressPkt → Prop
  | one (p : PressPkt) : Spec.Combined [p] p
  | two {l m : List PressPkt} {a b : PressPkt} : Spec.Combined l a → Spec.Combined m b → Spec.Combined (l ++ m) (pressCombine a b)

/-- Two contributions that R340 calls inconsistent. -/
def Sys2Proof.Spec.clash (p q : PressPkt) : Prop :=
  p.op ≠ emptyOp ∧ q.op ≠ emptyOp ∧ ¬ (p.op = q.op ∧ p.fmt = q.fmt ∧ p.sat = q.sat ∧ p.mode = q.mode ∧ p.bar = q.bar)

/-- R338-R340, R428: the contributions of a round, those of members that left among them, give the same result in every order and
every grouping, for every operator; and a round is inconsistent in every grouping just when two of its contributions are. -/
def Obligations.PressOrderIndependent : Prop :=
  (∀ (op fmt mode : Nat) (sat bar : Bool) (l l' : List PressPkt) (a a' : PressPkt), op < 15 →
    (∀ p ∈ l, Spec.contribution op fmt mode sat bar p ∨ Spec.left p) → l.Perm l' → Spec.Combined l a → Spec.Combined l' a' →
    Spec.essence a = Spec.essence a' ∧ a.bad = false ∧ ∀ t : Table, pressResult t a = pressResult t a') ∧
  (∀ (l : List PressPkt) (a : PressPkt), (∀ p ∈ l, p.bad = false) → Spec.Combined l a →
    (a.bad = true ↔ ∃ p ∈ l, ∃ q ∈ l, Spec.clash p q))

/-- R429, R344: a packet discarded at a node is counted there. -/
def Sys2Proof.Spec.staleAt (s : State) (n g : Nat) : State :=
  s.setPnode n { s.pnode n with stale := SMap.put (s.pnode n).stale g (min 0xFFFF (SMap.get (s.pnode n).stale 0 g + 1)) }

/-- R428, R425, R426, R429: a contribution at a node on its way up: one with no entry, of another generation or of a round that is
over is discarded; one of the next round waits at a node whose round is not over; else it is combined (OP, FMT, SAT and MODE of the
entry are the first contribution's), and when every child has contributed the partial goes to the parent, or completes the round at
the root. A node below the root of a root group passes each partial on at once, and the root completes the round when L lanes have
contributed. -/
def Sys2Proof.Spec.GoingUp : Prop :=
  (∀ (s : State) (p : PressPkt), p.up = true →
    (∀ e, s.pentry p.node p.gid = some e → e.gen ≠ p.gen ∨ p.round < (s.group p.gid).round) →
    exec (.pressPacket p) s = .next (Spec.staleAt s p.node p.gid)) ∧
  (∀ (s : State) (p : PressPkt) (e : PressEntry), let x := s.group p.gid; let n := p.node
    p.up = true → s.pentry n p.gid = some e → e.gen = p.gen → x.round ≤ p.round →
    (e.rip = true → e.round ≠ p.round → exec (.pressPacket p) s = .next { s with agenda := s.agenda ++ [.pressPacket p] }) ∧
    ((e.rip = true → e.round = p.round) →
      let here := (if e.rip then e.arrived else 0) ||| (1#8 <<< p.child)
      let part := match if e.rip then e.part else none with | none => p | some a => pressCombine a p
      let keep := e.rip = true ∧ e.op ≠ emptyOp
      let e' := { e with
        rip := true, round := p.round, arrived := here, owed := if e.rip then e.owed else 0, part := some part
        op := if keep then e.op else p.op
        fmt := if keep then e.fmt else p.fmt
        sat := if keep then e.sat else p.sat
        mode := if keep then e.mode else p.mode }
      let whole := if x.root then e.root = false ∨ groupLanes s p.gid ≤ part.lanes else here = e.child
      let passed := s.setPentry n p.gid (some { e' with owed := e'.owed ||| here, arrived := 0, part := none })
      (¬ whole → exec (.pressPacket p) s = .next (s.setPentry n p.gid (some e'))) ∧
      (whole → e.root = false → exec (.pressPacket p) s = .next (passed.post (s.pressAt n) (s.pressAt (pressParent n))
        (.pressPacket { part with node := pressParent n, up := true, child := pressPort n }))) ∧
      (whole → e.root = true → exec (.pressPacket p) s =
        .next (pressComplete (s.setPentry n p.gid (some { e' with rip := false, arrived := 0, part := none })) n here part))))

/-- R428, R335, R342, R59: at the root the round is over, the result goes down every port that contributed, a barrier of the root
group raises the launch's phase counter, and the contributions held for a later round go in, in their order; a result goes down the ports it is owed to, and a core's port gives it to its contributors;
one that finds no round of its own is discarded. -/
def Sys2Proof.Spec.ComingDown : Prop :=
  (∀ (s : State) (n : Nat) (mask : BitVec 8) (p : PressPkt), let x := s.group p.gid
    (¬ (x.root = true ∧ p.bar = true ∧ p.bad = false) → pressComplete s n mask p = pressBoundary (pressSendDown s n mask p) p.gid) ∧
    (∀ l, x.root = true → p.bar = true → p.bad = false → s.launch x.launch = some l →
      pressComplete s n mask p = pressBoundary (pressSendDown (s.setLaunch x.launch { l with count := l.count + 1 }) n mask p) p.gid)) ∧
  (∀ (s : State) (g : Nat), let x := s.group g
    let t := s.setGroup g { x with roundOf := [], arrived := [], held := [], barStart := none, round := x.round + 1 }
    pressBoundary s g = pressHeld (if x.root then t else rebuild t g) g x.held) ∧
  (∀ (s : State) (g : Nat), pressHeld s g [] = s ∧ ∀ (q : Requester) (p : PressPkt) (rest : List (Requester × PressPkt)),
    pressHeld s g ((q, p) :: rest) = pressHeld (pressContribute (onTask s q fun z => { z with outs := z.outs.map fun o =>
      if o.gid = g ∧ o.result = none ∧ o.lost = false then { o with round := Spec.roundFor s q g } else o }) q p) g rest) ∧
  (∀ (s : State) (p : PressPkt), p.up = false →
    (∀ e, s.pentry p.node p.gid = some e → e.gen ≠ p.gen ∨ e.rip = false ∨ e.round ≠ p.round) →
    exec (.pressPacket p) s = .next (Spec.staleAt s p.node p.gid)) ∧
  (∀ (s : State) (p : PressPkt) (e : PressEntry), p.up = false → s.pentry p.node p.gid = some e →
    e.gen = p.gen → e.rip = true → e.round = p.round →
    let t := s.setPentry p.node p.gid (if e.child = 0 then none else some { e with rip := false, owed := 0 })
    (0 < p.node / 2 ^ 20 → exec (.pressPacket p) s = .next (pressSendDown t p.node e.owed p)) ∧
    (∀ q : Requester, p.node / 2 ^ 20 = 0 → p.members = [q] → isHere s q = true →
      exec (.pressPacket p) s = .next (t.modSlot q.slot fun z => { z with
        outs := z.outs.map fun o =>
          if o.gid = p.gid ∧ o.gen = p.gen ∧ o.round = p.round ∧ o.result = none then { o with result := some p } else o })))

/-- R430, R343: a drained identifier is idle at its next generation; a barrier that has waited its launch's bound is reported once. -/
def Sys2Proof.Spec.DrainAndWatch : Prop :=
  (∀ (s : State) (g : Nat), let x := s.group g
    (x.phase = 2 → s.pressBusy g = false → ∃ t, exec (.pressDrainToken g) s = .next t ∧
      t.group g = { Group.reset with gen := (x.gen + 1) % 16, launch := x.launch, round := x.round + 1 } ∧
      (∀ n, t.pentry n g = none) ∧ (∀ h, h ≠ g → t.group h = s.group h) ∧ t = { s with press := t.press, groups := t.groups }) ∧
    (x.phase ≠ 2 ∨ s.pressBusy g = true → exec (.pressDrainToken g) s = .next s)) ∧
  (∀ (s : State) (g c : Nat) (l : Launch), let x := s.group g
    s.launch x.launch = some l → x.barStart = some c →
    (l.wdog ≠ 0 → c + x.paused + l.wdog ≤ s.cycle → x.fired = false → watchPaused s g = false → s.hasRoom l.die = true →
      exec (.watchdog g) s = .next ((s.setGroup g { x with fired := true }).record l.die
        (recordFor x.launch 0 .watchdog none none (BitVec.ofNat 64 (g + x.gen * 2 ^ 12))))) ∧
    (l.wdog = 0 ∨ x.fired = true ∨ s.cycle < c + x.paused + l.wdog → exec (.watchdog g) s = .next s))

/-- The round of a root group in reproducible mode lacks a lane of a die that is in reset or fenced. -/
def Sys2Proof.Spec.lacksDie (s : State) (g : Nat) : Prop :=
  let x := s.group g
  x.root = true ∧ (∃ d < 16, s.absent d = true) ∧ ∃ l, s.launch x.launch = some l ∧ l.repro = true ∧
    ∃ k < l.lanes, k ∉ x.arrived ∧ ∃ r, l.laneSlot s k = some r ∧ s.absent r.die = true

/-- R335, R337, R428-R430, R343, R345: a contribution goes up, a result goes down, a drained identifier is idle at its next generation,
and a barrier that has waited its launch's bound is reported once. ARG of the watchdog's record is the model's reading (log 31), and so
is that a round which lacks a lane of an absent die is lost to its members as they contribute (log 40). -/
def Obligations.PressMoves : Prop := Spec.GoingUp ∧ Spec.ComingDown ∧ Spec.DrainAndWatch ∧
  ∀ (s : State) (q : Requester) (p : PressPkt), let x := s.group p.gid
    (Spec.roundFor s q p.gid ≠ x.round → pressContribute s q p = s.setGroup p.gid { x with held := x.held ++ [(q, p)] }) ∧
    (Spec.roundFor s q p.gid = x.round → Spec.lacksDie s p.gid → pressContribute s q p = onTask s q fun z => { z with
      outs := z.outs.map fun o => if o.gid = p.gid ∧ o.round = x.round ∧ o.result = none then { o with lost := true } else o }) ∧
    (Spec.roundFor s q p.gid = x.round → ¬ Spec.lacksDie s p.gid → pressContribute s q p = pressPlace (s.setGroup p.gid { x with
      roundOf := if x.roundOf = [] then x.members.map Requester.task else x.roundOf
      arrived := (if x.root then q.llane.toNat else q.task) :: x.arrived
      barStart := if p.bar = true ∧ x.barStart = none then some s.cycle else x.barStart
      paused := if p.bar = true ∧ x.barStart = none then 0 else x.paused
      fired := if p.bar = true ∧ x.barStart = none then false else x.fired }) q p)

/-! ## The homes of memory -/

/-- R56, R349: bytes stored read back as stored, and every other byte reads as before. R151, R186: what constants and lines may
still be read as is every version since a time, and no older one: with no store since, the bytes as they are. How the versions are
kept is the model's own (log 20). -/
def Obligations.MemoryReadsBack : Prop :=
  (∀ (s : State) (k : Nat) (bs : List Byte), let t := s.stores k bs
    t.loads k bs.length = bs ∧ (∀ a, a < k ∨ k + bs.length ≤ a → t.load a = s.load a) ∧ t.loadNat k bs.length = natOf bs ∧
    ∀ c a n, c ≤ s.draws → t.loadsAt c a n = s.loadsAt c a n) ∧
  (∀ (s : State) (c a n : Nat), (∀ x ∈ s.past, x.1 < c) → s.loadsAt c a n = s.loads a n) ∧
  (∀ (s : State) (c k : Nat), ((∀ x ∈ s.past, x.1 < c) → s.seen c k = s.draws + 1) ∧
    (c ≤ s.draws + 1 → c ≤ s.seen c k ∧ s.seen c k ≤ s.draws + 1))

/-- R104: a join's result does not depend on the order of the joins, a second one of the same value changes nothing but a count,
and the stored element keeps its width. -/
def Obligations.JoinOrderIndependent : Prop :=
  ∀ (kind f a x y : Nat), kind < 5 → kindAdmits kind f 0 = true → a < 2 ^ fmtWidth f → x < 2 ^ fmtWidth f → y < 2 ^ fmtWidth f →
    joinCode kind f (joinCode kind f a x) y = joinCode kind f (joinCode kind f a y) x ∧
    (kind ≠ 4 → joinCode kind f (joinCode kind f a x) x = joinCode kind f a x) ∧ joinCode kind f a x < 2 ^ fmtWidth f

/-- Why a home turns a request away (R108): the first of retirement, validity with kind and format, and freezing. -/
def Sys2Proof.Spec.barred (s : State) (k : Nat) (ok wr : Prop) [Decidable ok] [Decidable wr] : Option FaultCode :=
  let a := (s.plot k).attr
  if s.isRetired k = true ∨ a.getLsbD 61 = true then some .memUe
  else if a.getLsbD 63 = false ∨ ¬ ok then some .kindMismatch
  else if wr ∧ a.getLsbD 62 = true then some .afterFreeze
  else none

/-- Kind and format of a plot (R102). -/
def Sys2Proof.Spec.kindOf (s : State) (k : Nat) : Nat := ((s.plot k).attr.extractLsb' 58 3).toNat
def Sys2Proof.Spec.fmtOf (s : State) (k : Nat) : Nat := ((s.plot k).attr.extractLsb' 53 5).toNat
def Sys2Proof.Spec.named (s : State) (k : Nat) : Bool := (s.plot k).attr.getLsbD 31

/-- Whether a single trigger is reached (R110): its bits for UNION and ISECT, its value for COUNT, MAX and MIN, where an absent
element reaches nothing and a NaN everything. -/
def Sys2Proof.Spec.reached (kind f v t : Nat) : Prop :=
  if kind = 2 then ∀ i, t.testBit i = true → v.testBit i = true
  else if kind = 3 then ∀ i < fmtWidth f, v.testBit i = true → t.testBit i = true
  else if kind = 4 then t ≤ v
  else valIsAbsent (decodeVal f [] v) = false ∧ (valIsNan (decodeVal f [] v) = true ∨
    if kind = 0 then valLt (decodeVal f [] v) (decodeVal f [] t) = false else valLt (decodeVal f [] t) (decodeVal f [] v) = false)

/-- R105, R110-R112, R277, R287, R326: what a registration whose location its home admits waits for, and what it is answered at once: a
trigger that is reached, the number of the trigger that equals a filled word, 15 for TOP, 14 for a location that is frozen or NEVER; the
bytes of a filled tile; the fire of an arm. -/
def Sys2Proof.Spec.Waits : Prop :=
  ∀ (s : State) (p : RegPkt), let k := gaKey p.ga; let x := s.plot k; let f := Spec.fmtOf s k; let frozen := x.attr.getLsbD 62
    let v := s.loadNat k (fmtWidth f / 8); let said := waitOutcome s p; let st := fillState s k
    let word := fun n : Nat => some (⟨none, BitVec.ofNat 64 n, 0, []⟩ : Outcome)
    let fault := fun c : FaultCode => some (⟨some c, 0, 0, []⟩ : Outcome)
    (∀ kind w filled t, p.wait = .lth kind w filled [t] → kind < 5 →
      Spec.barred s k (Spec.kindOf s k = kind ∧ fmtWidth f = w ∧ x.gran = 0 ∧ Spec.named s k = false) False = none →
      ¬ ((kind = 0 ∨ kind = 1 ∨ kind = 4) ∧ ¬ (8 ≤ f ∧ f < 12) ∧ t.toNat = absentCode f) → t.toNat < 2 ^ fmtWidth f →
      (Spec.reached kind f v t.toNat → said = word 0) ∧
      (¬ Spec.reached kind f v t.toNat → said = if frozen then word 14 else none)) ∧
    (∀ w filled ts, p.wait = .lth 5 w filled ts →
      Spec.barred s k (Spec.kindOf s k = 5 ∧ fmtWidth f = w ∧ x.gran = 0 ∧ Spec.named s k = false) False = none →
      let hit := fun n : Nat => filled = true ∧ n = 0 ∨ filled = false ∧ (∃ t, ts[n]? = some t ∧ t.toNat = v) ∧ ∀ i < n, ∀ t, ts[i]? = some t → t.toNat ≠ v
      (∀ n, st = 1 → hit n → said = some ⟨none, BitVec.ofNat 64 n, BitVec.ofNat 64 v, []⟩) ∧
      (st = 1 → (∀ n, ¬ hit n) → said = if frozen then word 14 else none) ∧
      (st = 2 → said = word 15) ∧ (st = 3 → said = word 14) ∧ (st = 0 → said = if frozen then word 14 else none)) ∧
    (∀ gran, p.wait = .ldtAddr gran → Spec.barred s k (Spec.kindOf s k = 5 ∧ x.gran = gran ∧ Spec.named s k = false) False = none →
      let gone := fun c => some (⟨none, BitVec.ofNat 64 (codeNum c), 0, absentBytes f (2 ^ gran)⟩ : Outcome)
      (st = 1 → said = some ⟨none, 0, 0, s.loads k (2 ^ gran)⟩) ∧ (st = 2 → said = gone .latticeTop) ∧ (st = 3 → said = gone .neverProduced) ∧
      (st = 0 → said = if frozen then gone .neverProduced else none)) ∧
    (p.wait = .macc → Spec.barred s k (Spec.kindOf s k = 5 ∧ x.gran = 12 ∧ f = 0x0B) False = none →
      (st = 1 → said = some ⟨none, 0, 0, s.loads k 4096⟩) ∧ (st = 2 → said = fault .latticeTop) ∧ (st = 3 → said = fault .neverProduced) ∧
      (st = 0 → said = if frozen then fault .neverProduced else none)) ∧
    (∀ core job t, p.wait = .arm core job t → Spec.barred s k (Spec.kindOf s k = 4 ∧ f = 7) False = none →
      (t.toNat ≤ s.loadNat k 8 → said = word 0) ∧ (s.loadNat k 8 < t.toNat → said = if frozen then fault .neverProduced else none))

/-- R53, R110-R112: when bytes of a home change, every registration on them that need wait no longer is answered, each once and in the
order of their arrival, and no other. -/
def Sys2Proof.Spec.Woken : Prop :=
  ∀ (s : State) (k n : Nat), let due := fun p : RegPkt => decide (k ≤ gaKey p.ga ∧ gaKey p.ga < k + n) && (waitOutcome s p).isSome
    Machine.touched s k n = (s.waiters.filter due).foldl (fun t p => match waitOutcome s p with | some o => sendOutcome t p o | none => t)
      { s with waiters := s.waiters.filter fun p => !due p }

/-- R53, R104, R105, R107, R108, R110-R112, R122, R275, R277, R287, R326: what a home does with a join and with a tile fill: a rejected
one changes nothing, and each is acknowledged. A fill of an unfilled unit is stored, an equal second one changes nothing, a different
one makes TOP. What a change wakes are the registrations on the changed bytes whose condition holds now. -/
def Obligations.JoinsAndFillsAtHome : Prop := Spec.Waits ∧ Spec.Woken ∧
  (∀ (s : State) (p : JoinPkt), let k := gaKey p.ga; let n := fmtWidth p.fmt / 8
    let c := Spec.barred s k (Spec.kindOf s k = p.kind ∧ Spec.fmtOf s k = p.fmt ∧ (s.plot k).gran = 0 ∧ Spec.named s k = false) True
    let ends := fun (t : State) (c : Option FaultCode) => (.next (t.ack (s.homeDie k) p.req p.xid p.ack k c) : Out)
    (c ≠ none → exec (.joinPacket p) s = ends s c) ∧
    (c = none → p.kind ≠ 5 → exec (.joinPacket p) s =
      ends (touched (s.stores k (bytesOf n (joinCode p.kind p.fmt (s.loadNat k n) p.value.toNat))) k n) none) ∧
    (c = none → p.kind = 5 → let r := fillUnit s k p.fmt (bytesOf n p.value.toNat) true
      exec (.joinPacket p) s = ends r.2 r.1)) ∧
  (∀ (s : State) (p : FillPkt), let k := gaKey p.ga
    let same := Spec.kindOf s k = 5 ∧ (s.plot k).gran = p.gran ∧ Spec.fmtOf s k = p.fmt
    let ends := fun (t : State) (c : Option FaultCode) => (.next (t.ack (s.homeDie k) p.req p.xid p.ack k c) : Out)
    let r := fillUnit s k p.fmt p.bytes false
    (p.named = none → let c := Spec.barred s k (same ∧ Spec.named s k = false) True
      (c ≠ none → exec (.tileFill p) s = ends s c) ∧ (c = none → exec (.tileFill p) s = ends r.2 r.1)) ∧
    (∀ name bs, p.named = some name →
      let c := Spec.barred s k (same ∧ Spec.named s k = true ∧ ((s.plot k).attr.extractLsb' 0 16).toNat = (name.extractLsb' 48 16).toNat) True
      (c ≠ none → exec (.tileFill p) s = ends s c) ∧
      (c = none → resolve s name = some bs → iterState bs (name.extractLsb' 32 16).toNat = 2 → exec (.tileFill p) s = ends s (some .afterFreeze)) ∧
      (c = none → resolve s name = some bs → iterState bs (name.extractLsb' 32 16).toNat ≠ 2 →
        exec (.tileFill p) s = ends (tellWants r.2 name k p.gran p.fmt) r.1))) ∧
  (∀ (s : State) (k f : Nat) (bs : List Byte) (word : Bool), let r := fillUnit s k f bs word; let old := fillState s k
    let idle := word = true ∧ ¬ (8 ≤ f ∧ f < 12) ∧ natOf bs = absentCode f
    (old = 0 → ¬ idle → r.1 = none ∧ fillState r.2 k = 1 ∧ r.2.loads k bs.length = bs) ∧
    (old = 0 → idle → r = (none, s)) ∧
    (old = 1 → s.loads k bs.length = bs → r = (none, s)) ∧
    (old = 1 → s.loads k bs.length ≠ bs → let gone := absentBytes f bs.length
      r.1 = some .latticeTop ∧ fillState r.2 k = 2 ∧ r.2.loads k gone.length = gone) ∧
    (old = 2 → r = (some .latticeTop, s)) ∧ (old = 3 → r = (some .afterFreeze, s)) ∧
    (∀ a, a < k ∨ k + max bs.length (absentBytes f bs.length).length ≤ a → r.2.load a = s.load a))

/-- R54, R110-R112, R270, R277, R287, R326, R449: a registration is answered at once where it need not wait, to its task, its matrix unit
or its carter, and otherwise takes a place among the waiters of its home, or is set aside. A FILL location answers with its word and the
number of the trigger that equals it, with 15 when it is TOP, and with 14 when it is NEVER, or frozen with no trigger reached. -/
def Sys2Proof.Spec.Thresholds : Prop :=
  (∀ (s : State) (p : RegPkt), let die := s.homeDie (gaKey p.ga)
    (∀ o, waitOutcome s p = some o → exec (.thresholdRegistration p) s = .next (match p.wait with
      | .macc => s.post die (placeOf s p.req).die (.maccSlotReady (placeOf s p.req).coreKey ⟨p.xid, o.code, p.ga, o.a, o.b, o.bytes⟩)
      | .arm core job _ => s.post die (core / 8192) (.armFire core job o.code)
      | _ => s.reply die p.req ⟨p.xid, o.code, p.ga, o.a, o.b, o.bytes⟩)) ∧
    (waitOutcome s p = none → waiterRoom s die = true → exec (.thresholdRegistration p) s = .next { s with waiters := s.waiters ++ [p] }) ∧
    (waitOutcome s p = none → waiterRoom s die = false →
      exec (.thresholdRegistration p) s = .next (setAside s die (.thresholdRegistration p)))) ∧
  (∀ (s : State) (p : RegPkt) (w : Nat) (filled : Bool) (ts : List Word), let k := gaKey p.ga; let f := Spec.fmtOf s k
    let v := s.loadNat k (fmtWidth f / 8); let frozen := (s.plot k).attr.getLsbD 62
    let c := Spec.barred s k (Spec.kindOf s k = 5 ∧ fmtWidth f = w ∧ (s.plot k).gran = 0 ∧ Spec.named s k = false) False
    let ends := fun (c : Option FaultCode) (n v : Nat) => (.next (s.reply (s.homeDie k) p.req ⟨p.xid, c, p.ga, BitVec.ofNat 64 n, BitVec.ofNat 64 v, []⟩) : Out)
    p.wait = .lth 5 w filled ts →
    (c ≠ none → exec (.thresholdRegistration p) s = ends c 0 0) ∧
    (c = none →
      (filled = true → fillState s k = 1 → exec (.thresholdRegistration p) s = ends none 0 v) ∧
      (∀ a t b, filled = false → fillState s k = 1 → ts = a ++ t :: b → t.toNat = v → (∀ u ∈ a, u.toNat ≠ v) →
        exec (.thresholdRegistration p) s = ends none a.length v) ∧
      (fillState s k = 2 → exec (.thresholdRegistration p) s = ends none 15 0) ∧
      (fillState s k = 3 → exec (.thresholdRegistration p) s = ends none 14 0) ∧
      (fillState s k = 0 ∨ fillState s k = 1 ∧ filled = false ∧ (∀ u ∈ ts, u.toNat ≠ v) →
        (frozen = true → exec (.thresholdRegistration p) s = ends none 14 0) ∧
        (frozen = false → waiterRoom s (s.homeDie k) = true →
          exec (.thresholdRegistration p) s = .next { s with waiters := s.waiters ++ [p] }))))

/-- The requests of a round in ascending lane: each is answered with the value before its own increment (R116). -/
def Sys2Proof.Spec.prefixed (f : Nat) : List CountPkt → Nat → State → Nat × State
  | [], v, t => (v, t)
  | q :: l, v, t => Spec.prefixed f l (joinCode 4 f v q.inc.toNat)
      (t.reply (t.homeDie (gaKey q.ga)) q.req ⟨q.xid, none, q.ga, BitVec.ofNat 64 v, 0, []⟩)

/-- R115, R116, R118: a request enters the round it names, the first one opening it with the members of the group; a lane that takes no
part, has left or has requested fails. A round is answered when every participant has requested or left, in ascending lane, and the next
follows. A plot that freezes fails the requests of its unanswered rounds, those set aside among them. -/
def Sys2Proof.Spec.Rounds : Prop :=
  (∀ (s : State) (p : CountPkt) (ls : List Nat) (r : CountRound), let k := gaKey p.ga; let a := (s.plot k).attr
    let ends := fun (c : FaultCode) => (.next (s.reply (s.homeDie k) p.req ⟨p.xid, some c, p.ga, 0, 0, []⟩) : Out)
    Spec.barred s k (Spec.kindOf s k = 4 ∧ Spec.fmtOf s k = p.fmt) True = none → isRepro s p.req.launch = true → a.getLsbD 48 = true →
    groupLanesOf s a = some ls → lowRound s k ≤ p.round → p.round ≤ lowRound s k + 15 → roundOf s k p.round = some r →
    (p.lane ∉ r.members ∨ p.lane ∈ r.left → exec (.valueCountRequest p) s = ends .groupNotMember) ∧
    (p.lane ∈ r.members → p.lane ∉ r.left → (∃ q ∈ r.reqs, q.lane = p.lane) → exec (.valueCountRequest p) s = ends .illegal) ∧
    (p.lane ∈ r.members → p.lane ∉ r.left → (∀ q ∈ r.reqs, q.lane ≠ p.lane) → exec (.valueCountRequest p) s = .next { s with
      rounds := (s.rounds.filter fun x => decide (¬ (x.ga = r.ga ∧ x.round = r.round))) ++ [{ r with reqs := r.reqs ++ [p] }] })) ∧
  (∀ (s : State) (k : Nat), (roundOf s k (lowRound s k) = none → nextRound s k = none) ∧
    ∀ r, roundOf s k (lowRound s k) = some r →
      ((∀ l ∈ r.members, l ∈ r.left ∨ ∃ q ∈ r.reqs, q.lane = l) → nextRound s k = some r) ∧
      ((∃ l ∈ r.members, l ∉ r.left ∧ ∀ q ∈ r.reqs, q.lane ≠ l) → nextRound s k = none)) ∧
  (∀ (s : State) (ga : Word) (r : CountRound) (qs : List CountPkt), nextRound s (gaKey ga) = some r →
    qs.Perm r.reqs → qs.Pairwise (fun x y => x.lane < y.lane) →
    let k := gaKey ga; let f := Spec.fmtOf s k; let n := fmtWidth f / 8
    let e := Spec.prefixed f qs (s.loadNat k n) { s with rounds := s.rounds.filter fun x => decide (¬ (x.ga = r.ga ∧ x.round = r.round)) }
    exec (.countRoundAnswer ga) s = .next (Machine.touched ((e.2.setPlot k { e.2.plot k with
      low := SMap.set (e.2.plot k).low 0 (k % 4096) (r.round + 1) }).stores k (bytesOf n e.1)) k n)) ∧
  (∀ (s : State) (k : Nat), let here := fun ga : Word => decide (gaKey ga / 4096 = k / 4096)
    let asked := fun m : Instr => match m with | .valueCountRequest p => if here p.ga then some p else none | _ => none
    let a := takeAside { s with rounds := s.rounds.filter fun r => !here r.ga } fun m => (asked m).isSome
    failRounds s k = (((s.rounds.filter fun r => here r.ga).flatMap CountRound.reqs) ++ a.1.filterMap asked).foldl
      (fun t p => t.reply (t.homeDie (gaKey p.ga)) p.req ⟨p.xid, some .afterFreeze, p.ga, 0, 0, []⟩) a.2) ∧
  (∀ (s : State) (f : Instr → Bool), let a := takeAside s f
    (∀ m, m ∈ a.1 ↔ f m = true ∧ (m ∈ s.gstore ∨ (∃ d ∈ s.dies, m ∈ d.2.store) ∨ ∃ x ∈ s.stuck, x.2.2 = m)) ∧
    (∀ m, m ∈ a.2.gstore ↔ m ∈ s.gstore ∧ f m = false) ∧ (∀ x, x ∈ a.2.stuck ↔ x ∈ s.stuck ∧ f x.2.2 = false) ∧
    (∀ d ∈ a.2.dies, ∀ m ∈ d.2.store, f m = false) ∧
    ∀ e c, (a.2.link e).give.getD c 0 = (s.link e).give.getD c 0 +
      if c = 1 then (s.stuck.filter fun x => decide (x.2.1 = e) && f x.2.2).length else 0)

/-- R54, R106, R108, R110-R118, R191, R192, R194, R265, R270, R271, R273, R274, R350, R449: loads, stores, exact reads, thresholds,
plots, freezes and value-returning counts at their home. That a request for an answered round fails as ILLEGAL before its lane is looked
at, and one beyond the window is set aside before participants are taken, is the model's reading (log 55); so are the plot entry of a
GRAN of 16 (log 16), the refusal of one of 17 to 31 (log 60), and what a load sees of its own task's stores (log 7). -/
def Obligations.ReadsAndWritesAtHome : Prop := Spec.Thresholds ∧ Spec.Rounds ∧
  (∀ (s : State) (p : LoadPkt) (k n : Nat) (t : List (Nat × Nat)), p.parts = (k, n) :: t →
    let ends := fun a : Answer => (.next (s.post (s.homeDie k) (placeOf s p.req).die (.loadReply ⟨p.req, a⟩)) : Out)
    ((∀ x ∈ p.parts, s.isRetired x.1 = false ∧ s.hasUe x.1 x.2 = none) →
      exec (.loadRequest p) s = ends ⟨p.xid, none, gaOf s k, 0, 0, p.parts.flatMap fun x => s.seenAs p.req.task p.xid x.1 x.2⟩) ∧
    (s.isRetired k = true → s.hasUe k n = none → exec (.loadRequest p) s = ends ⟨p.xid, some .memUe, gaOf s k, 0, 0, []⟩) ∧
    (∀ b, s.hasUe k n = some b → exec (.loadRequest p) s = ends ⟨p.xid, some .memUe, gaOf s b, 0, 0, []⟩)) ∧
  (∀ (s : State) (p : StorePkt) (k : Nat) (bs : List Byte) (t : List (Nat × List Byte)), p.parts = (k, bs) :: t →
    ((∀ x ∈ p.parts, s.isRetired x.1 = false ∧ s.hasUe x.1 x.2.length = none) → exec (.storeData p) s =
      .next ((p.parts.foldl (fun (t : State) x => t.stores x.1 x.2) (overtake s p.req.slot p.req.task p.xid (p.parts.map fun x => (x.1, x.2.length)))).ack
        (s.homeDie k) p.req p.xid p.ack k none)) ∧
    (s.isRetired k = true → s.hasUe k bs.length = none →
      exec (.storeData p) s = .next (s.ack (s.homeDie k) p.req p.xid p.ack k (some .memUe)))) ∧
  (∀ (s : State) (p : ExactPkt), let k := gaKey p.ga; let f := Spec.fmtOf s k; let n := fmtWidth f / 8
    let c := Spec.barred s k (Spec.kindOf s k = p.kind ∧ fmtWidth f = fmtWidth p.fmt) False
    let ends := fun (c : Option FaultCode) (v : Nat) => (.next (s.reply (s.homeDie k) p.req ⟨p.xid, c, p.ga, BitVec.ofNat 64 v, 0, []⟩) : Out)
    (c ≠ none → exec (.exactRead p) s = ends c 0) ∧
    (c = none → (s.plot k).attr.getLsbD 62 = false → exec (.exactRead p) s = ends (some .unfrozenRead) 0) ∧
    (c = none → (s.plot k).attr.getLsbD 62 = true →
      (p.kind ≠ 5 ∨ fillState s k = 1 → exec (.exactRead p) s = ends none (s.loadNat k n)) ∧
      (p.kind = 5 → fillState s k = 2 → exec (.exactRead p) s = ends (some .latticeTop) 0) ∧
      (p.kind = 5 → fillState s k ≠ 1 → fillState s k ≠ 2 → exec (.exactRead p) s = ends none (natOf (absentBytes f n))))) ∧
  (∀ (s : State) (p : RegPkt) (kind w : Nat) (filled : Bool) (t : Word), let k := gaKey p.ga; let f := Spec.fmtOf s k
    let v := s.loadNat k (fmtWidth f / 8); let frozen := (s.plot k).attr.getLsbD 62
    let c := Spec.barred s k (Spec.kindOf s k = kind ∧ fmtWidth f = w ∧ (s.plot k).gran = 0 ∧ Spec.named s k = false) False
    let ends := fun (c : Option FaultCode) (n : Nat) => (.next (s.reply (s.homeDie k) p.req ⟨p.xid, c, p.ga, BitVec.ofNat 64 n, 0, []⟩) : Out)
    p.wait = .lth kind w filled [t] → kind < 5 →
    (c ≠ none → exec (.thresholdRegistration p) s = ends c 0) ∧
    (c = none → (kind = 0 ∨ kind = 1 ∨ kind = 4) → ¬ (8 ≤ f ∧ f < 12) → t.toNat = absentCode f →
      exec (.thresholdRegistration p) s = ends (some .triggerCompat) 0) ∧
    (c = none → ¬ ((kind = 0 ∨ kind = 1 ∨ kind = 4) ∧ ¬ (8 ≤ f ∧ f < 12) ∧ t.toNat = absentCode f) → t.toNat < 2 ^ fmtWidth f →
      (Spec.reached kind f v t.toNat → exec (.thresholdRegistration p) s = ends none 0) ∧
      (¬ Spec.reached kind f v t.toNat → frozen = true → exec (.thresholdRegistration p) s = ends none 14) ∧
      (¬ Spec.reached kind f v t.toNat → frozen = false → waiterRoom s (s.homeDie k) = true →
        exec (.thresholdRegistration p) s = .next { s with waiters := s.waiters ++ [p] }) ∧
      (¬ Spec.reached kind f v t.toNat → frozen = false → waiterRoom s (s.homeDie k) = false →
        exec (.thresholdRegistration p) s = .next (setAside s (s.homeDie k) (.thresholdRegistration p))))) ∧
  (∀ (s : State) (p : PlotPkt), let k := gaKey p.ga; let a := (s.plot k).attr; let v := p.desc
    let ends := fun (t : State) (c : Option FaultCode) => (.next (t.reply (s.homeDie k) p.req ⟨p.xid, c, p.ga, 0, 0, []⟩) : Out)
    let spoilt := s.isRetired k = true ∨ a.getLsbD 61 = true
    let taken := (a.getLsbD 63 = true ∧ a.getLsbD 62 = false) ∨ a.getLsbD 31 = true
    (spoilt → exec (.plotRequest p) s = ends s (some .memUe) ∧ exec (.freezeRequest p) s = ends s (some .memUe)) ∧
    (¬ spoilt → taken ∨ descAdmits v = false → exec (.plotRequest p) s = ends s (some .kindMismatch)) ∧
    (¬ spoilt → ¬ taken → descAdmits v = true → let f := (v.extractLsb' 8 5).toNat; let kind := (v.extractLsb' 13 3).toNat
      let g := (v.extractLsb' 0 5).toNat
      let w := plotAttr kind f g (v.getLsbD 48) (v.extractLsb' 32 16).toNat false 0
      let formed := (s.stores k (bottomBytes kind f 4096)).setPlot k ⟨w, g, [], []⟩
      (a.getLsbD 62 = false → exec (.plotRequest p) s = ends formed none) ∧
      (a.getLsbD 62 = true → ∃ t : State, exec (.plotRequest p) s = ends t none ∧ t.mem = formed.mem ∧ t.plots = formed.plots ∧
        (∀ x, x ∈ t.past ↔ x ∈ formed.past ∧ x.2.1 / 4096 ≠ k / 4096) ∧
        ∀ n w, w ∈ (t.core n).consts ↔ w ∈ (s.core n).consts ∧ w.key / 4096 ≠ k / 4096)) ∧
    (¬ spoilt → a.getLsbD 63 = false ∨ a.getLsbD 31 = true → exec (.freezeRequest p) s = ends s (some .kindMismatch)) ∧
    (¬ spoilt → a.getLsbD 63 = true → a.getLsbD 31 = false → a.getLsbD 62 = true → exec (.freezeRequest p) s = ends s none) ∧
    (¬ spoilt → a.getLsbD 63 = true → a.getLsbD 31 = false → a.getLsbD 62 = false → exec (.freezeRequest p) s =
      ends (touched (failRounds (s.setPlot k { s.plot k with attr := a ||| 0x4000000000000000#64 }) k) (k / 4096 * 4096) 4096) none)) ∧
  (∀ (s : State) (p : CountPkt), let k := gaKey p.ga; let a := (s.plot k).attr; let n := fmtWidth p.fmt / 8; let v := s.loadNat k n
    let c := Spec.barred s k (Spec.kindOf s k = 4 ∧ Spec.fmtOf s k = p.fmt) True
    let ends := fun (t : State) (c : Option FaultCode) (v : Nat) =>
      (.next (t.reply (s.homeDie k) p.req ⟨p.xid, c, p.ga, BitVec.ofNat 64 v, 0, []⟩) : Out)
    (c ≠ none → exec (.valueCountRequest p) s = ends s c 0) ∧
    (c = none → isRepro s p.req.launch = false ∨ a.getLsbD 48 = false → exec (.valueCountRequest p) s =
      ends (touched (s.stores k (bytesOf n (joinCode 4 p.fmt v p.inc.toNat))) k n) none v) ∧
    (c = none → isRepro s p.req.launch = true → a.getLsbD 48 = true →
      (groupLanesOf s a = none → exec (.valueCountRequest p) s = ends s (some .groupNotMember) 0) ∧
      (∀ ls, groupLanesOf s a = some ls → p.round < lowRound s k → exec (.valueCountRequest p) s = ends s (some .illegal) 0) ∧
      (∀ ls, groupLanesOf s a = some ls → lowRound s k + 15 < p.round →
        exec (.valueCountRequest p) s = .next (setAside s (s.homeDie k) (.valueCountRequest p))) ∧
      (∀ ls, groupLanesOf s a = some ls → lowRound s k ≤ p.round → p.round ≤ lowRound s k + 15 → roundOf s k p.round = none →
        (p.lane ∉ ls → exec (.valueCountRequest p) s = ends s (some .groupNotMember) 0) ∧
        (p.lane ∈ ls → exec (.valueCountRequest p) s = .next { s with
          rounds := (s.rounds.filter fun x => decide (¬ (x.ga = p.ga ∧ x.round = p.round))) ++ [⟨p.ga, p.round, ls, [], [p]⟩] })))) ∧
  (∀ (s : State) (ga : Word), nextRound s (gaKey ga) = none → exec (.countRoundAnswer ga) s = .next s)

/-- The one parked instruction of a slot may complete: the answers `as` that it waits for have come, and none carries a fault (R51). -/
def Sys2Proof.Spec.arrived (s : State) (r : SlotRef) (p : Park) (as : List Answer) : Prop :=
  let x := s.slot r
  x.occupied = true ∧ x.halt = .no ∧ x.ending = false ∧ x.parks = [p] ∧ (∀ a ∈ as, a.code = none) ∧
  ∃ ns, (p.cond = .answers ns ∨ ∃ w, p.cond = .loads w ∧ w.reqs.map Prod.fst = ns) ∧
    as.map some = ns.map fun n => x.answers.find? fun a => decide (a.xid = n)

/-- The bytes that a load brings: those of its replies in order, or those it has kept since a store of its own bundle (R142). -/
def Sys2Proof.Spec.brought (p : Park) (as : List Answer) : List Byte :=
  match p.cond with | .loads w => w.held.getD (as.flatMap Answer.bytes) | _ => as.flatMap Answer.bytes

/-- The task whose park is gone with the answers it took; its next turn is a cycle away (R52). -/
def Sys2Proof.Spec.resumed (s : State) (r : SlotRef) (as : List Answer) : Slot :=
  let x := s.slot r
  { x with parks := [], answers := x.answers.filter (fun b => decide (b.xid ∉ as.map Answer.xid)), readyAt := max x.readyAt (s.cycle + 1) }

/-- The parked instruction completes: its own slot changes by `f` and memory is that of `m`; no other slot changes. -/
def Sys2Proof.Spec.completes (s : State) (r : SlotRef) (as : List Answer) (f : Slot → Slot) (m : State) : Prop :=
  ∃ t, exec (.wakeAccept r) s = .next (wakeSlot r t) ∧ t.slot r = f (Spec.resumed s r as) ∧
    (∀ q, skey q ≠ skey r → t.slot q = s.slot q) ∧ t.mem = m.mem ∧ t.focus.disp = .done

/-- R51, R52, R190, R192, R198, R199, R215, R219, R221, R255, R265, R270, R271, R277: what each instruction that waits for answers takes
when they have come. Where a vector load's elements go is the reading of log 25. -/
def Sys2Proof.Spec.Completions : Prop :=
  ∀ (s : State) (r : SlotRef) (p : Park) (as : List Answer), Spec.arrived s r p as →
    let bs := Spec.brought p as; let a := as.headD ⟨0, none, 0, 0, 0, []⟩; let num := fun lo n => natOf ((bs.drop lo).take n)
    let ends := fun f : Slot → Slot => Spec.completes s r as f s
    (∀ o, p.instr = .ld o → ends fun z => z.setG o.d (toReg (isI o.ty) (BitVec.ofNat (width o.sz) (natOf bs)))) ∧
    (∀ d m, p.instr = .ldp d m → ends fun z => (z.setG d (BitVec.ofNat 64 (num 0 8))).setG (d + 1) (BitVec.ofNat 64 (num 8 8))) ∧
    (∀ d m, p.instr = .segld d m → let g := BitVec.ofNat 128 (natOf bs)
      Spec.imageAccepted g → isRepro s (s.slot r).launch = false ∨ ¬ Spec.overlapping s r g → ends fun z => z.setS d g) ∧
    (∀ d m, p.instr = .sdset d m → Spec.imageTaken (BitVec.ofNat 256 (natOf bs)) → ends fun z => z.setSd d ⟨BitVec.ofNat 256 (natOf bs), 0⟩) ∧
    (∀ d m, p.instr = .fmtld d m → tableOk ((List.range 256).map fun k => BitVec.ofNat 32 (num (4 * k) 4)) = true →
      Spec.completes s r as id (s.stores (localKey r.coreKey (0x70400 + 5120 * r.slot + 1024 * (d.toNat - 3))) bs)) ∧
    (∀ o w, p.instr = .vld o ∨ p.instr = .vlds o ∨ p.instr = .vgath o → p.cond = .loads w → let f := o.fmt.toNat
      let js := (List.range (64 / fmtBytes f)).filter fun j => p.ea.getLsbD j
      let new := Spec.loadedElem f fun j => (js.idxOf? j).map fun i => num (i * fmtBytes f) (fmtBytes f)
      f < 20 → (w.dst = none → ends fun z => z.setV o.d (Spec.merge (fmtWidth f) (z.getV o.d) new)) ∧
      (∀ i q (at_ : Nat → Nat), w.dst = some (i, q) → segSpace ((s.slot r).getS (sdSeg i)) = false →
        (∀ j < fmtElems f, new j ≠ none → q + j < sdBound0 i * sdBound1 i →
          Spec.reach ((s.slot r).getS (sdSeg i)) (sdElem i (q + j)) (fmtWidth f / 8) false true = some (at_ j)) →
        Spec.completes s r as id ((List.range (fmtElems f)).foldl (fun (t : State) j => match new j with
          | some e => if q + j < sdBound0 i * sdBound1 i then t.stores (localKey r.coreKey (at_ j)) (bytesOf (fmtWidth f / 8) e) else t
          | none => t) s))) ∧
    (∀ jt d e m, p.instr = .joinf jt d e m → ends fun z => z.setG d a.a) ∧
    (∀ o, p.instr = .lth o → ends fun z => let y := z.setG o.d a.a; if o.kind = 5 then y.setG (o.d + 1) a.b else y) ∧
    (∀ o, p.instr = .ldf o → let f := jtFmt o.jt
      ends fun z => z.setG o.d (if f < 4 then (BitVec.ofNat (fmtWidth f) a.a.toNat).signExtend 64 else a.a)) ∧
    (∀ n x m, p.instr = .ldt n x m → Spec.completes s r as (fun z => { z with cause := a.a }) (s.stores (localKey r.coreKey p.ea.toNat) a.bytes)) ∧
    (∀ n x e m, p.instr = .ldtAddr n x e m →
      Spec.completes s r as (fun z => { z with cause := a.a }) (s.stores (localKey r.coreKey p.ea.toNat) a.bytes))

/-- R51, R52, R55, R107, R190, R192, R198, R199, R215, R219, R221, R255, R265, R266, R270, R271, R277, R406: an answer reaches the task that
waits for it, and the instruction that waited takes from it what it loads, to its registers, its table or its tile; an acknowledgement
lowers the counter of its scope, and one with a fault records it, marks the launch and sets the pending bit, once the buffer has room.
Where a vector load's elements go is the reading of log 25. -/
def Obligations.AnswersAtTask : Prop := Spec.Completions ∧
  (∀ (s : State) (p : WakePkt), isHere s p.req = true →
    let t := s.modSlot p.req.slot fun x => { x with answers := x.answers ++ [p.answer] }
    exec (.loadReply p) s = .next t ∧ exec (.wake p) s = .next t) ∧
  (∀ (s : State) (p : AckPkt) (n : Nat), isHere s p.req = true → p.ack = .scope n → n < 8 →
    (p.code = none → exec (.acknowledgement p) s = .next ((s.modSlot p.req.slot fun x =>
      { x with unack := x.unack.setIfInBounds n (x.unack.getD n 0 - 1) }).paid p.req.launch 1)) ∧
    (∀ c, p.code = some c → (s.die p.req.slot.die).faults.length < 64 → (s.die p.req.slot.die).faultWait = [] →
      exec (.acknowledgement p) s = .next (((s.record p.req.slot.die (recordOf s p.req 0 false c ⟨0, none, some p.ga, 0⟩)).modSlot p.req.slot fun x =>
        { x with unack := x.unack.setIfInBounds n (x.unack.getD n 0 - 1), faultPending := x.faultPending ||| (1#8 <<< n) }).paid p.req.launch 1)) ∧
    (∀ c, p.code = some c → 64 ≤ (s.die p.req.slot.die).faults.length →
      exec (.acknowledgement p) s = .next { s with agenda := s.agenda ++ [.acknowledgement p] })) ∧
  (∀ (s : State) (r : SlotRef) (p : Park) (n : Nat) (a : Answer), let x := s.slot r
    x.occupied = true → x.halt = .no → x.ending = false → x.parks = [p] → p.cond = .answers [n] →
    x.answers.find? (fun a => decide (a.xid = n)) = some a → a.code = none → ∀ (jt : BitVec 7) (d : Reg) (e : Reg) (m : MemR), p.instr = .joinf jt d e m →
    let y : Slot := { x with parks := [], answers := x.answers.filter fun b => decide (b.xid ≠ n) }
    let ready := max x.readyAt (s.cycle + 1)
    ∃ t, exec (.wakeAccept r) s = .next (wakeSlot r t) ∧ t.slot r = { y.setG d a.a with readyAt := ready } ∧
      (∀ q, skey q ≠ skey r → t.slot q = s.slot q) ∧ t.mem = s.mem ∧ t.focus.disp = .done) ∧
  (∀ (s : State) (r : SlotRef), readyPark s r = none → exec (.wakeAccept r) s = .next s)

/-! ## Named tiles -/

/-- A field of a tensor table entry (R120). -/
def Sys2Proof.Spec.entry (bs : List Byte) (lo n : Nat) : Nat := natOf ((bs.drop lo).take n)

/-- The home of tile x of iteration i (R121): the homes in order, each with a ring of iterations. -/
def Sys2Proof.Spec.tileHome (bs : List Byte) (i x : Nat) : Nat :=
  let e := Spec.entry bs
  if e 8 1 = 0 then
    2 * 2 ^ 50 + (e 18 2 + x % 512) % 512 * 2 ^ 41 + (e 20 4 + (x / 512 * e 9 1 + i % e 9 1) * 2 ^ e 7 1)
  else
    let h := x % (e 17 1 * 512)
    2 ^ 50 + ((e 16 1 + h % e 17 1) * 512 + h / e 17 1 % 512) * 2 ^ 37 +
      (e 20 4 + (x / (e 17 1 * 512) * e 9 1 + i % e 9 1) * 2 ^ e 7 1)

/-- How far an iteration lies from NEXT, as a signed 16-bit number: open from 0 to RING - 1, closed below, future above (R122). -/
def Sys2Proof.Spec.ahead (bs : List Byte) (name : Word) : Int :=
  (name.extractLsb' 32 16 - BitVec.ofNat 16 (Spec.entry bs 10 2)).toInt

/-- A name that resolves to an entry (R119), with one iteration open at least. -/
def Sys2Proof.Spec.resolves (s : State) (name : Word) (bs : List Byte) : Prop :=
  let t := (name.extractLsb' 48 16).toNat
  t < 4096 ∧ s.tensor t = bs ∧ Spec.entry bs 0 2 % 2 = 1 ∧ (name.extractLsb' 0 32).toNat < Spec.entry bs 12 4 ∧
  1 ≤ Spec.entry bs 9 1 ∧ Spec.entry bs 9 1 ≤ 16

/-- The interests of a router's own cores, in its table and set aside beside it (R125, R126). -/
def Sys2Proof.Spec.asking (s : State) (router : Nat) : List InterestPkt :=
  (s.router router).table.flatMap Interest.own ++ (s.die (router / 512)).store.filterMap fun m => match m with
    | .interest a b p => if a = router ∧ b = router then some p else none
    | _ => none

/-- R119, R124, R125, R127, R277, R279: an interest at a router, of one of its own cores or from another router: a tile of an iteration
that is not closed and that the rick holds is delivered at once; otherwise the interest joins the entry of its name, which notes where
it came from once, or takes an entry and travels on, or is set aside when the table is full. A name that does not resolve, and a tile
of another size than the core asks for, are answered there. -/
def Sys2Proof.Spec.AtRouter : Prop :=
  (∀ (s : State) (router child : Nat) (p : InterestPkt) (bs tile : List Byte) (a b : List (Word × List Byte)), let r := s.router router
    router < 8192 → Spec.resolves s p.name bs → (child = router → Spec.entry bs 7 1 = p.n) → 0 ≤ Spec.ahead bs p.name →
    r.rick = a ++ (p.name, tile) :: b → (∀ x ∈ a, x.1 ≠ p.name) →
    (child ≠ router → exec (.interest router child p) s =
      .next (s.post (router / 512) (child / 512) (.tileDelivery child ⟨p.name, none, false, tile⟩))) ∧
    (child = router → isHere s p.req = true → tile.length = 2 ^ p.n →
      (p.tag = none → exec (.interest router child p) s =
        .next (s.modSlot p.req.slot fun x => { x with answers := x.answers ++ [⟨p.xid, none, 0, 0, 0, tile⟩] })) ∧
      (∀ t, p.tag = some t → exec (.interest router child p) s =
        .next ((s.stores (localKey p.req.slot.coreKey p.dst.toNat) tile).modSlot p.req.slot (tagDone t 0))))) ∧
  (∀ (s : State) (router child : Nat) (p : InterestPkt) (bs : List Byte), let r := s.router router
    let add := fun e : Interest => if child = router then { e with own := e.own ++ [p] }
      else if child ∈ e.ports then e else { e with ports := e.ports ++ [child] }
    router < 8192 → Spec.resolves s p.name bs → (child = router → Spec.entry bs 7 1 = p.n) →
    (∀ x ∈ r.rick, x.1 ≠ p.name) ∨ Spec.ahead bs p.name < 0 →
    (∀ e t u, r.table = t ++ e :: u → e.name = p.name → (∀ x ∈ t ++ u, x.name ≠ p.name) →
      exec (.interest router child p) s = .next (s.setRouter router { r with table := t ++ add e :: u })) ∧
    ((∀ e ∈ r.table, e.name ≠ p.name) → r.table.length < 256 →
      let k := Spec.tileHome bs (p.name.extractLsb' 32 16).toNat (p.name.extractLsb' 0 32).toNat
      let next := if k / 2 ^ 50 = 1 ∧ k % 2 ^ 50 / 2 ^ 37 ≠ router then k % 2 ^ 50 / 2 ^ 37 else homeRouter
      exec (.interest router child p) s = .next ((s.setRouter router { r with table := r.table ++ [add ⟨p.name, [], []⟩] }).post
        (router / 512) (if next = homeRouter then s.homeDie k else next / 512) (.interest next router p))) ∧
    ((∀ e ∈ r.table, e.name ≠ p.name) → 256 ≤ r.table.length →
      exec (.interest router child p) s = .next (setAside s (router / 512) (.interest router child p)))) ∧
  (∀ (s : State) (router child : Nat) (p : InterestPkt) (c : FaultCode), let t := (p.name.extractLsb' 48 16).toNat
    router < 8192 →
    (c = .nameUnknown ∧ (4096 ≤ t ∨ Spec.entry (s.tensor t) 0 2 % 2 = 0 ∨ Spec.entry (s.tensor t) 12 4 ≤ (p.name.extractLsb' 0 32).toNat)) ∨
      (c = .kindMismatch ∧ child = router ∧ ∃ bs, Spec.resolves s p.name bs ∧ Spec.entry bs 7 1 ≠ p.n) →
    (child ≠ router → exec (.interest router child p) s =
      .next (s.post (router / 512) (child / 512) (.neverAnswer child ⟨p.name, some c, false, []⟩))) ∧
    (child = router → isHere s p.req = true → p.tag = none → exec (.interest router child p) s =
      .next (s.modSlot p.req.slot fun x => { x with answers := x.answers ++ [⟨p.xid, some c, 0, 0, 0, []⟩] })))

/-- R118, R125, R449: a waiting store gives up the packet at a place that may leave, or, asked for the place after its last, lets the
first packet that may leave a slot buffer go, whose credit returns; a packet that has to wait enters the store, or, where it is full,
stays. -/
def Sys2Proof.Spec.WaitingStores : Prop :=
  (∀ (s : State) (die idx : Nat) (m : Instr), die < 16 → releasable s die idx = some m → exec (.waitingStoreRelease die idx) s =
    .next ((s.modDie die fun d => { d with store := d.store.eraseIdx idx }).again m)) ∧
  (∀ (s : State) (die idx : Nat), die < 16 → releasable s die idx = none →
    let held := fun x : Nat × LinkEnd × Instr => x.1 ≠ die ∨ 16777216 ≤ (s.die die).store.length ∧ mayLeave s x.2.2 = false
    (idx ≠ (s.die die).store.length ∨ (∀ x ∈ s.stuck, held x) → exec (.waitingStoreRelease die idx) s = .next s) ∧
    (∀ e q l u, idx = (s.die die).store.length → s.stuck = l ++ (die, e, q) :: u → (∀ x ∈ l, held x) → ¬ held (die, e, q) →
      exec (.waitingStoreRelease die idx) s =
        .next { s.setLink e { s.link e with give := (s.link e).give.setIfInBounds 1 ((s.link e).give.getD 1 0 + 1), due := true } with
          stuck := l ++ u, agenda := s.agenda ++ [q] })) ∧
  (∀ (s : State) (die idx : Nat), die < 16 → ∀ m, releasable s die idx = some m ↔ (s.die die).store[idx]? = some m ∧ mayLeave s m = true ∧
    ∀ q ∈ (s.die die).store.take idx, sameResource s m q = false) ∧
  (∀ (s : State) (p : RegPkt) (q : CountPkt), (mayLeave s (.thresholdRegistration p) = true ↔ waitOutcome s p ≠ none ∨
      waiterRoom s (s.homeDie (gaKey p.ga)) = true) ∧ (mayLeave s (.valueCountRequest q) = true ↔ q.round ≤ lowRound s (gaKey q.ga) + 15)) ∧
  (∀ (s : State) (die : Nat) (m : Instr), die < 16 →
    ((s.die die).store.length < 16777216 → setAside s die m = s.modDie die fun d => { d with store := d.store ++ [m] }) ∧
    (16777216 ≤ (s.die die).store.length → setAside s die m = s.again m))

/-- R119, R121-R128, R277-R281, R449: names at the tensor table, interests on their way to a tile's home, and tiles on their way back.
The path of an interest, what the ARG of an INTEREST_STALL record holds and the steps of a deletion are the model's reading (logs 9, 31,
32). -/
def Obligations.NamedTiles : Prop := Spec.AtRouter ∧ Spec.WaitingStores ∧
  (∀ (s : State) (p : NamePkt) (bs : List Byte), let ends := fun a : Answer => (.next (s.reply granaryDie p.req a) : Out)
    Spec.resolves s p.name bs →
    (Spec.entry bs 7 1 ≠ p.n → exec (.nameResolution p) s = ends ⟨p.xid, some .kindMismatch, 0, 0, 0, []⟩) ∧
    (Spec.entry bs 7 1 = p.n → (Spec.entry bs 9 1 : Int) ≤ Spec.ahead bs p.name → exec (.nameResolution p) s = .next { s with namers := s.namers ++ [p] }) ∧
    (Spec.entry bs 7 1 = p.n → Spec.ahead bs p.name < Spec.entry bs 9 1 → exec (.nameResolution p) s = ends ⟨p.xid, none,
      gaOf s (Spec.tileHome bs (p.name.extractLsb' 32 16).toNat (p.name.extractLsb' 0 32).toNat), p.name,
      BitVec.ofNat 64 (Spec.entry bs 6 1 + Spec.entry bs 7 1 * 256), []⟩)) ∧
  (∀ (s : State) (p : NamePkt), let t := (p.name.extractLsb' 48 16).toNat
    4096 ≤ t ∨ Spec.entry (s.tensor t) 0 2 % 2 = 0 ∨ Spec.entry (s.tensor t) 12 4 ≤ (p.name.extractLsb' 0 32).toNat →
    exec (.nameResolution p) s = .next (s.reply granaryDie p.req ⟨p.xid, some .nameUnknown, 0, 0, 0, []⟩)) ∧
  (∀ (s : State) (p : ClosePkt), let bs := s.tensor p.tensor; let d := (BitVec.ofNat 16 p.iter - BitVec.ofNat 16 (Spec.entry bs 10 2)).toInt
    let ends := fun c : Option FaultCode => (.next (s.reply granaryDie p.req ⟨p.xid, c, 0, 0, 0, []⟩) : Out)
    let after := if closing s p.tensor then .next { s with agenda := s.agenda ++ [.closeRequest { p with done := true }] } else ends none
    (p.done = true → exec (.closeRequest p) s = after) ∧
    (p.done = false → 4096 ≤ p.tensor ∨ Spec.entry bs 0 2 % 2 = 0 → exec (.closeRequest p) s = ends (some .nameUnknown)) ∧
    (p.done = false → p.tensor < 4096 → Spec.entry bs 0 2 % 2 = 1 → p.iter < 65536 → Spec.entry bs 9 1 ≤ 16 →
      ((Spec.entry bs 9 1 : Int) ≤ d → exec (.closeRequest p) s = ends (some .illegal)) ∧
      (d < 0 → exec (.closeRequest p) s = after) ∧
      (0 ≤ d → d < Spec.entry bs 9 1 → bs.length = 64 → ∃ t, exec (.closeRequest p) s = .next t ∧
        Spec.entry (t.tensor p.tensor) 10 2 = (p.iter + 1) % 65536 ∧ (∀ n, n ≠ p.tensor → t.tensor n = s.tensor n) ∧
        .closeRequest { p with done := true } ∈ t.agenda))) ∧
  (∀ (s : State) (p : TensorPkt), let n := p.num.toNat; let bs := p.image; let old := s.tensor n
    let ends := fun (t : State) (c : Option FaultCode) => (.next (t.reply granaryDie p.req ⟨p.xid, c, 0, 0, 0, []⟩) : Out)
    let clean := Spec.entry bs 0 2 < 2 ∧ Spec.entry bs 24 40 = 0 ∧ Spec.entry bs 10 2 = 0
    (4096 ≤ n ∨ ¬ clean → exec (.tensorTableWrite p) s = ends s (some .illegal)) ∧
    (n < 4096 → clean → Spec.entry bs 0 2 = 1 → (Spec.entry old 0 2 % 2 = 1 ∨ tensorOk bs = false ∨ ringTaken s bs = true) →
      exec (.tensorTableWrite p) s = ends s (some .illegal)) ∧
    (n < 4096 → clean → Spec.entry bs 0 2 = 1 → Spec.entry old 0 2 % 2 = 0 → tensorOk bs = true → ringTaken s bs = false →
      exec (.tensorTableWrite p) s = ends (createTensor s n bs) none ∧ (createTensor s n bs).tensor n = bs ∧
      ∀ k ∈ ringPlots bs, fillState (createTensor s n bs) k = 0) ∧
    (n < 4096 → clean → Spec.entry bs 0 2 = 0 → Spec.entry old 0 2 % 2 = 0 → exec (.tensorTableWrite p) s = ends s (some .nameUnknown)) ∧
    (n < 4096 → clean → Spec.entry bs 0 2 = 0 → Spec.entry old 0 2 % 2 = 1 → fillsFlying s n = false → namersResolved s n = false →
      exec (.tensorTableWrite p) s = ends (deleteTensor s n old) none ∧ (deleteTensor s n old).tensor n = [])) ∧
  (∀ (s : State) (child : Nat) (p : InterestPkt) (bs : List Byte), Spec.resolves s p.name bs →
    let k := Spec.tileHome bs (p.name.extractLsb' 32 16).toNat (p.name.extractLsb' 0 32).toNat
    let d := Spec.ahead bs p.name; let gone := absentBytes (Spec.entry bs 6 1) (2 ^ Spec.entry bs 7 1)
    s.isRetired k = false → (s.plot k).attr.getLsbD 61 = false →
    (d < 0 → exec (.interest homeRouter child p) s =
      .next (s.post (s.homeDie k) (child / 512) (.neverAnswer child ⟨p.name, some .neverProduced, true, gone⟩))) ∧
    (0 ≤ d → d < Spec.entry bs 9 1 → fillState s k = 1 → exec (.interest homeRouter child p) s =
      .next (s.post (s.homeDie k) (child / 512) (.tileDelivery child ⟨p.name, none, false, s.loads k (2 ^ Spec.entry bs 7 1)⟩))) ∧
    (0 ≤ d → d < Spec.entry bs 9 1 → fillState s k = 2 → exec (.interest homeRouter child p) s =
      .next (s.post (s.homeDie k) (child / 512) (.neverAnswer child ⟨p.name, some .latticeTop, false, gone⟩))) ∧
    ((0 ≤ d ∧ d < Spec.entry bs 9 1 ∧ fillState s k = 0) ∨ (Spec.entry bs 9 1 : Int) ≤ d →
      exec (.interest homeRouter child p) s = .next { s with wants := s.wants ++ [(p.name, child)] })) ∧
  (∀ (s : State) (router : Nat) (d : DeliverPkt) (e : Interest) (q : InterestPkt) (cs : List Nat), let r := s.router router
    r.table = [e] → e.name = d.name → e.ports = cs → e.own = [q] → q.tag = none → d.code = none → isHere s q.req = true →
    let a : Answer := if d.bytes.length = 2 ^ q.n then ⟨q.xid, none, 0, 0, 0, d.bytes⟩ else ⟨q.xid, some .kindMismatch, 0, 0, 0, []⟩
    ∃ t, exec (.tileDelivery router d) s = .next t ∧ (t.router router).table = [] ∧
      t.slot q.req.slot = { s.slot q.req.slot with answers := (s.slot q.req.slot).answers ++ [a] } ∧
      (cs = [] → t.agenda = s.agenda ∧ t.transits = s.transits) ∧
      (∀ x ∈ (t.router router).rick, (x = (d.name, d.bytes) ∧ tileCurrent s d = true) ∨ (x ∈ r.rick ∧ x.1 ≠ d.name) ∨
        (x ∈ r.rick ∧ (t.router router).rick = r.rick)) ∧
      ((r.rick.map fun x => x.2.length).sum ≤ 262144 → d.bytes.length ≤ 262144 →
        ((t.router router).rick.map fun x => x.2.length).sum ≤ 262144)) ∧
  (∀ (s : State) (router : Nat) (d : DeliverPkt) (e : Interest) (c : Nat) (f : FaultCode), let r := s.router router
    r.table = [e] → e.name = d.name → e.ports = [c] → e.own = [] → d.code = some f →
    exec (.neverAnswer router d) s = .next ((s.setRouter router { r with table := [] }).post (router / 512) (c / 512) (.neverAnswer c d))) ∧
  (∀ (s : State) (router tensor lo hi : Nat), hi < 65536 → lo < 65536 → ∃ t, exec (.purge router tensor lo hi) s = .next t ∧
    (t.router router).table = (s.router router).table ∧
    ∀ e, e ∈ (t.router router).rick ↔ e ∈ (s.router router).rick ∧ ¬ ((e.1.extractLsb' 48 16).toNat = tensor ∧
      (e.1.extractLsb' 32 16 - BitVec.ofNat 16 lo).toNat ≤ (BitVec.ofNat 16 hi - BitVec.ofNat 16 lo).toNat)) ∧
  (∀ (s : State) (router : Nat) (name : Word), let all := Spec.asking s router
    let due := fun q : InterestPkt => q.name = name ∧ q.stalled = false ∧ q.born + 2 ^ 24 ≤ s.cycle
    ((∀ q ∈ all, ¬ due q) → exec (.interestStall router name) s = .next s) ∧
    (∀ l q u, all = l ++ q :: u → (∀ x ∈ l, ¬ due x) → due q → s.hasRoom (router / 512) = true → ∃ t : State,
      exec (.interestStall router name) s = .next (t.record (router / 512) (recordOf s q.req 1 false .interestStall ⟨0, none, none, name⟩)) ∧
      Spec.asking t router = all.map fun x => if x.req.task = q.req.task ∧ x.xid = q.xid then { x with stalled := true } else x))

/-! ## The carter and the Thresher -/

/-- R282, R287, R288, R331: the carter takes the first entry of the first mailbox after the one it served last, passing over those of
halted tasks and the arms for which it has no place; it starts a copy, registers an arm at its trigger's home or sends a sort to the
Thresher, and counts it for its launch. -/
def Sys2Proof.Spec.Taking : Prop :=
  ∀ (s : State) (core i : Nat) (e : CopyReq) (rest : List CopyReq), let at_ := fun i : Nat => refOf core (((s.core core).lastServed + 1 + i) % 8)
    let full := 256 ≤ ((s.core core).jobs.filter Job.armed).length; let r := at_ i
    let arm := ∃ src dst len loc v, e.kind = .arm src dst len loc v; let sort := ∃ ks ps po to_ n kb pw, e.kind = .sort ks ps po to_ n kb pw
    core < 131072 → i < 8 → (∀ x ∈ (s.core core).jobs, x.fault = none) → (s.slot r).mailbox = e :: rest → (s.slot r).halt ≠ .preempt → ¬ (arm ∧ full) →
    (∀ h < i, (s.slot (at_ h)).mailbox = [] ∨ (s.slot (at_ h)).halt = .preempt ∨
      ∃ f t src dst len loc v, (s.slot (at_ h)).mailbox = f :: t ∧ f.kind = .arm src dst len loc v ∧ full) →
    let q : Requester := { e.req with slot := r }
    let taken := fun armed ends => ((({ s with xid := s.xid + 1 } : State).modSlot r fun x => { x with mailbox := rest }).modCore core fun c =>
      { c with jobs := c.jobs ++ [⟨s.xid, { e with req := q }, 0, 0, [], 0, 0, ends, none, none, none, armed, false⟩], lastServed := r.slot }).owe
        e.req.launch 1
    (¬ arm → ¬ sort → exec (.mailboxTake core) s = .next (taken false 0)) ∧
    (∀ src dst len loc v, e.kind = .arm src dst len loc v → exec (.mailboxTake core) s =
      .next (({ taken true 0 with xid := s.xid + 2 } : State).post (core / 8192) (s.homeDie (gaKey loc))
        (.thresholdRegistration ⟨q, s.xid + 1, loc, .arm core s.xid v⟩))) ∧
    (∀ ks ps po to_ n kb pw, e.kind = .sort ks ps po to_ n kb pw → exec (.mailboxTake core) s =
      .next ((taken false 1).post (core / 8192) granaryDie (.thresherSort ⟨q, s.xid, ks, ps, po, to_, n, kb, pw⟩)))

/-- A 64-byte descriptor's fields, unsigned and signed (R285, R286). -/
def Sys2Proof.Spec.field (d : BitVec 512) (lo n : Nat) : Nat := (d.extractLsb' (8 * lo) (8 * n)).toNat
def Sys2Proof.Spec.fieldS (d : BitVec 512) (lo n : Nat) : Int := (d.extractLsb' (8 * lo) (8 * n)).toInt

/-- R283, R285, R286, R287: the destination ranges of a copy, the source byte of each byte of them, none where a tile lies outside its
tensor, and the notify locations with the bytes that each counts. -/
def Sys2Proof.Spec.CopyShapes : Prop :=
  (∀ (src dst len o : Nat) (loc v : Word), let p : CopyKind := .plain src dst len; let a : CopyKind := .arm src dst len loc v
    runsOf p = [(dst, len)] ∧ runsOf a = [(dst, len)] ∧ sourceAt p 0 o = some (src + o) ∧ sourceAt a 0 o = some (src + o)) ∧
  (∀ (d : BitVec 512) (row o : Nat), let f := Spec.field d 36 1; let w := fmtWidth f / 8; let rows := Spec.field d 32 2; let cols := Spec.field d 34 2
    let tr := Spec.fieldS d 24 4 + row; let tc := Spec.fieldS d 28 4 + (o / w : Nat)
    f < 20 → f ≠ 18 → row < rows → o < cols * w →
    (runsOf (.tile d)).length = rows ∧ (runsOf (.tile d))[row]? = some (Spec.field d 48 8 + row * Spec.field d 56 4, cols * w) ∧
    (0 ≤ tr ∧ tr < Spec.field d 16 4 ∧ 0 ≤ tc ∧ tc < Spec.field d 20 4 → sourceAt (.tile d) row o =
      some ((((Spec.field d 0 8 : Int) + tr * Spec.fieldS d 8 8 + tc * w) % 2 ^ 64).toNat + o % w)) ∧
    (¬ (0 ≤ tr ∧ tr < Spec.field d 16 4 ∧ 0 ≤ tc ∧ tc < Spec.field d 20 4) → sourceAt (.tile d) row o = none ∧
      absentOf (.tile d) o = (absentBytes f w).getD (o % w) 0)) ∧
  (∀ (d : BitVec 512) (i o : Nat), let block := Spec.field d 24 4; let n := Spec.field d 28 4; let m := Spec.field d 32 1
    let blocks := ((List.range n).filter fun k => decide (k % m = i)).length
    1 ≤ block → 1 ≤ m → i < m → i < n →
    (runsOf (.deal d)).length = min m n ∧
    (runsOf (.deal d))[i]? = some (((Spec.field d 8 8 + i * Spec.fieldS d 16 8) % 2 ^ 64).toNat, blocks * block) ∧
    sourceAt (.deal d) i o = some (Spec.field d 0 8 + (o / block * m + i) * block + o % block)) ∧
  (∀ (c : CopyReq), (c.notify = none → notifiesOf c = []) ∧ ∀ off, c.notify = some off →
    (∀ src dst len, c.kind = .plain src dst len → notifiesOf c = [(off, len)]) ∧
    (∀ d, c.kind = .tile d → notifiesOf c = [(off, Spec.field d 32 2 * Spec.field d 34 2 * (fmtWidth (Spec.field d 36 1) / 8))]) ∧
    (∀ d i, c.kind = .deal d → i < Spec.field d 32 1 → i < Spec.field d 28 4 → (notifiesOf c)[i]? =
      some (((Spec.field d 40 8 + i * Spec.fieldS d 48 8) % 2 ^ 64).toNat,
        ((List.range (Spec.field d 28 4)).filter fun k => decide (k % Spec.field d 32 1 = i)).length * Spec.field d 24 4)))

/-- Where a copy finds byte `off` of a segment: in its core's memory, or through a leaf of its cluster that admits the access (R289). -/
def Sys2Proof.Spec.copyKey (s : State) (core : Nat) (c : CopyReq) (seg : BitVec 128) (off need : Nat) : Option Nat :=
  let va := (segBase seg + off) % 2 ^ 56
  if segSpace seg = false then some (core * 2 ^ 33 + va)
  else (s.lookup (core / 16) c.req.launch va).bind fun e =>
    if rightsOk need e.rights = true ∧ copyGa s e va = none then some (gaKey (BitVec.ofNat 64 (leafGa e va))) else none

/-- R285, R286, R288, R289, R360: a copy of any kind, in local or global memory, reads what it takes of the aligned 64 bytes that hold the
next byte it needs, waits for a walk where no leaf leads there, and writes aligned 64 bytes from bytes it has read, or the absent code. -/
def Sys2Proof.Spec.CopyBytes : Prop :=
  ∀ (s : State) (core : Nat) (j : Job), let c := j.copy
    core < 131072 → jobOf s core j.id = some j → (∀ x ∈ (s.core core).jobs, x.fault = none) →
    (∀ x x0 : Nat, copyTurn j = .read x → let here := fun y : Nat => reads c.kind y = true ∧ (segBase c.sseg + y) / 64 = (segBase c.sseg + x) / 64
      here x0 → (∀ y, here y → x0 ≤ y) → (∀ d, c.kind = .tile d → ∀ y, here y → segOk c.sseg y 1 true false = true) →
      (∀ k, Spec.copyKey s core c c.sseg x0 1 = some k → (s.isLattice k = true → (s.plot k).attr.getLsbD 63 = true ∧ (s.plot k).attr.getLsbD 62 = true) →
        (∀ y, here y → s.hasUe (k + (y - x0)) 1 = none) → ∃ bs, exec (.copyComplete core j.id) s = .next (setJob s core { j with got := j.got ++ bs }) ∧
          ∀ y v, (y, v) ∈ bs ↔ here y ∧ v = s.load (k + (y - x0))) ∧
      (segSpace c.sseg = true → s.lookup (core / 16) c.req.launch ((segBase c.sseg + x0) % 2 ^ 56) = none →
        exec (.copyComplete core j.id) s = .next { setJob s core { j with waiting := true } with agenda := s.agenda ++ [.translationWalk
          ⟨core / 16, c.req.launch, BitVec.ofNat 64 ((segBase c.sseg + x0) % 2 ^ 56 / 2 ^ 16 * 2 ^ 16), 1, none, .job core j.id, [], []⟩] })) ∧
    (∀ (cells : List (Nat × Nat × Nat)) (n first k : Nat), copyTurn j = .write cells n → cells.head?.map Prod.fst = some first →
      Spec.copyKey s core c c.dseg first 2 = some k → s.isLattice k = false → ∃ (t : Job) (bs : List (Option Byte)),
        exec (.copyComplete core j.id) s = .next ((setJob s core t).post (core / 8192) (s.homeDie k) (.copyData core j.id (gaOf s k) bs)) ∧
        t.id = j.id ∧ t.copy = c ∧ t.flying = j.flying + 1 ∧ t.sent = j.sent ∧ t.notifies = j.notifies ∧ t.code = none ∧
        (∀ i v, bs[i]? = some (some v) → ∃ run o r, (runsOf c.kind)[run]? = some r ∧ o < r.2 ∧ first + i = r.1 + o ∧
          (segBase c.dseg + (first + i)) / 64 = (segBase c.dseg + first) / 64 ∧
          (∀ x, sourceAt c.kind run o = some x → ∃ g, j.got.find? (fun g => decide (g.1 = x)) = some g ∧ g.2 = v) ∧
          (sourceAt c.kind run o = none → v = absentOf c.kind o)) ∧
        ∀ off, (segBase c.dseg + off) / 64 = (segBase c.dseg + first) / 64 → (∃ r ∈ runsOf c.kind, r.1 ≤ off ∧ off < r.1 + r.2) →
          first ≤ off ∧ ∃ v, bs[off - first]? = some (some v)) ∧
    (∀ off bytes k, copyTurn j = .notify off bytes → segSpace c.nseg = true → segBase c.nseg % 8 = 0 → off % 8 = 0 → Spec.copyKey s core c c.nseg off 2 = some k → s.isLattice k = true →
      exec (.copyComplete core j.id) s = .next ((setJob { s with xid := s.xid + 1 } core { j with sent := j.sent + 1, notifies := j.notifies + 1 }).post
        (core / 8192) (s.homeDie k) (.joinPacket ⟨c.req, s.xid, .job j.id, gaOf s k, 4, 7, BitVec.ofNat 64 bytes⟩)))

/-- R288, R289, R410: the order of a copy's work: nothing while it is armed or waits for a walk; the bytes of its ranges first, then,
when all that is written is visible, its notify-joins in order, and when they are acknowledged its end; a copy with a fault ends when
what it sent has come back. -/
def Sys2Proof.Spec.CopyOrder : Prop :=
  ∀ j : Job, (j.armed = true ∨ j.waiting = true → copyTurn j = .wait) ∧
    (j.armed = false → j.waiting = false → j.fault = none →
      (j.code ≠ none → copyTurn j = if j.flying = 0 ∧ j.notifies = 0 then .finish else .wait) ∧
      (j.code = none → (runsOf j.copy.kind)[j.run]? = none →
        (j.flying ≠ 0 → copyTurn j = .wait) ∧
        (∀ n, j.flying = 0 → (notifiesOf j.copy)[j.sent]? = some n → copyTurn j = .notify n.1 n.2) ∧
        (j.flying = 0 → (notifiesOf j.copy)[j.sent]? = none → copyTurn j = if j.notifies = 0 then .finish else .wait)) ∧
      (j.code = none → ∀ r, (runsOf j.copy.kind)[j.run]? = some r → j.pos < r.2 →
        (∀ x, copyTurn j = .read x → (∀ g ∈ j.got, g.1 ≠ x) ∧ ∃ run o, sourceAt j.copy.kind run o = some x) ∧
        ((∃ x, copyTurn j = .read x) ∨ (∃ cells n, copyTurn j = .write cells n) ∨ ∃ n, 0 < n ∧ copyTurn j = .pass n)))

/-- R282, R283, R285-R289, R305, R331-R333: THRESH files its sort; the carter takes entries in turn, moves a copy's bytes, learns
that they are visible and completes the tag; a fired arm is copied; the Thresher sorts stably and fills whole tiles. Aligned 64
bytes are read, and are written, in one step (R360). When a sort's fills are counted is the model's reading (log 38);
which of several source bytes a copy writes where its ranges overlap is free (log 54). -/
def Obligations.CarterAndThresher : Prop := Spec.Taking ∧ Spec.CopyShapes ∧ Spec.CopyOrder ∧ Spec.CopyBytes ∧
  (∀ (s : State) (tag : Tag) (k : SReg) (b c e : Reg) (opts : BitVec 64) (m : MemR) (keys pays payOut tabOut o1 o2 : List (Nat × Nat)),
    let x := s.cur; let n := (opts.extractLsb' 0 20).toNat + 1; let kb := (opts.extractLsb' 20 5).toNat
    let pw := if opts.getLsbD 25 then 8 else 4; let ea := (Spec.eaOfR s m).toNat; let tab := (x.getG b).toNat
    opts.extractLsb' 26 38 = 0 → 1 ≤ kb → kb ≤ 16 → x.tagBusy.getLsbD tag.toNat = false →
    Spec.lattice s (x.getS k) (x.getG c).toNat (2 * n) 2 true false = some keys →
    Spec.lattice s (x.getS k) (x.getG e).toNat (n * pw) pw true false = some pays →
    Spec.lattice s (x.getS m.seg) ea 1 1 false true = some o1 → let g := (s.plot (Spec.first o1)).gran
    Spec.lattice s (x.getS m.seg) ea ((n * pw + 2 ^ g - 1) / 2 ^ g * 2 ^ g) (2 ^ g) false true = some payOut →
    Spec.lattice s (x.getS m.seg) tab 1 1 false true = some o2 → let h := (s.plot (Spec.first o2)).gran
    Spec.lattice s (x.getS m.seg) tab (((2 ^ kb + 1) * 8 + 2 ^ h - 1) / 2 ^ h * 2 ^ h) (2 ^ h) false true = some tabOut →
    exec (.thresh tag k b c e opts m) s = Spec.filed (s.modCur (Spec.startTag tag)) (.thresh tag k b c e opts m)
      ⟨tag.toNat, s.asker, .sort keys pays payOut tabOut n kb pw, x.getS m.seg, x.getS k, 0, none⟩) ∧
  (∀ (s : State) (core j : Nat) (e : CopyReq) (t : List CopyReq) (src dst len : Nat), let r := refOf core j
    core < 131072 → j < 8 → (s.slot r).mailbox = e :: t → (s.slot r).halt ≠ .preempt → (∀ i < 8, i ≠ j → (s.slot (refOf core i)).mailbox = []) →
    (∀ x ∈ (s.core core).jobs, x.fault = none) → e.kind = .plain src dst len →
    exec (.mailboxTake core) s = .next (((({ s with xid := s.xid + 1 } : State).modSlot r fun x => { x with mailbox := t }).modCore core fun c =>
      { c with jobs := c.jobs ++ [⟨s.xid, { e with req := { e.req with slot := r } }, 0, 0, [], 0, 0, 0, none, none, none, false, false⟩],
               lastServed := j }).owe e.req.launch 1)) ∧
  (∀ (s : State) (core : Nat), (∀ i < 8, (s.slot (refOf core i)).mailbox = []) ∨ (∃ x ∈ (s.core core).jobs, x.fault ≠ none) →
    exec (.mailboxTake core) s = .next s) ∧
  (∀ (s : State) (core : Nat) (j : Job) (src dst len : Nat), let c := j.copy
    let a := fun y => core * 2 ^ 33 + (segBase c.sseg + y) % 2 ^ 56
    let b := core * 2 ^ 33 + (segBase c.dseg + (dst + j.pos)) % 2 ^ 56; let n := min (len - j.pos) (64 - (segBase c.dseg + (dst + j.pos)) % 64)
    jobOf s core j.id = some j → j.armed = false → j.waiting = false → j.code = none → c.kind = .plain src dst len → j.run = 0 →
    (∀ x ∈ (s.core core).jobs, x.fault = none) → segSpace c.sseg = false → segSpace c.dseg = false → j.pos < len →
    j.pos = 0 ∨ (segBase c.dseg + (dst + j.pos)) % 64 = 0 →
    (∀ i < n, j.got.find? (fun g => decide (g.1 = src + j.pos + i)) = none →
      (∀ m < i, j.got.find? (fun g => decide (g.1 = src + j.pos + m)) ≠ none) → let x := src + j.pos + i; s.isLattice (a x) = false →
      (∀ y, src ≤ y → y < src + len → (segBase c.sseg + y) / 64 = (segBase c.sseg + x) / 64 → s.hasUe (a y) 1 = none) →
      ∃ bs, exec (.copyComplete core j.id) s = .next (setJob s core { j with got := j.got ++ bs }) ∧ ∀ y v, (y, v) ∈ bs ↔
        src ≤ y ∧ y < src + len ∧ (segBase c.sseg + y) / 64 = (segBase c.sseg + x) / 64 ∧ v = s.load (a y)) ∧
    (∀ vs : List Byte, vs.length = n → (∀ i < n, j.got.find? (fun g => decide (g.1 = src + j.pos + i)) = some (src + j.pos + i, vs.getD i 0)) →
      s.isLattice b = false → ∃ t : Job, exec (.copyComplete core j.id) s =
          .next ((setJob s core t).post (core / 8192) (s.homeDie b) (.copyData core j.id (gaOf s b) (vs.map some))) ∧
        t.id = j.id ∧ t.copy = j.copy ∧ t.flying = j.flying + 1 ∧ t.sent = j.sent ∧ t.notifies = j.notifies ∧ t.code = none ∧
        (if len ≤ j.pos + n then t.run = 1 else t.run = 0 ∧ t.pos = j.pos + n ∧
          ∀ g, g ∈ t.got ↔ g ∈ j.got ∧ src + j.pos + n ≤ g.1))) ∧
  (∀ (s : State) (core : Nat) (j : Job) (src dst len : Nat), let c := j.copy
    jobOf s core j.id = some j → j.armed = false → j.waiting = false → (∀ x ∈ (s.core core).jobs, x.fault = none) →
    c.kind = .plain src dst len → 1 ≤ j.run →
    (j.flying ≠ 0 → exec (.copyComplete core j.id) s = .next s) ∧
    (∀ off k, j.flying = 0 → j.code = none → c.notify = some off → j.sent = 0 → reach s core c.req.launch c.nseg off 8 rightsWr = .at [(k, 8)] →
      s.isLattice k = true → exec (.copyComplete core j.id) s =
        .next ((setJob { s with xid := s.xid + 1 } core { j with sent := 1, notifies := j.notifies + 1 }).post (core / 8192) (s.homeDie k)
          (.joinPacket ⟨c.req, s.xid, .job j.id, gaOf s k, 4, 7, BitVec.ofNat 64 len⟩))) ∧
    (j.flying = 0 → j.code ≠ none ∨ c.notify = none ∨ j.sent = 1 → j.notifies ≠ 0 → exec (.copyComplete core j.id) s = .next s) ∧
    (j.flying = 0 → j.code ≠ none ∨ c.notify = none ∨ j.sent = 1 → j.notifies = 0 → isHere s c.req = true →
      exec (.copyComplete core j.id) s = .next (((s.modCore core fun x => { x with jobs := x.jobs.filter fun y => decide (y.id ≠ j.id) }).modSlot c.req.slot
        fun x => tagDone c.tag (match j.code, j.note with | some f, _ => codeNum f | none, some f => codeNum f | none, none => 0) x).paid
          c.req.launch 1))) ∧
  (∀ (s : State) (core id : Nat) (ga : Word) (bs : List (Option Byte)) (j : Job), let k := gaKey ga
    (jobOf s core id = none → exec (.copyData core id ga bs) s = .next s) ∧
    (jobOf s core id = some j → exec (.copyData core id ga bs) s = .next
      ((if s.isRetired k then s else s.storePart k bs).post (s.homeDie k) (core / 8192)
        (.acknowledgement ⟨j.copy.req, 0, .job id, ga, if s.isRetired k then some .memUe else none⟩)))) ∧
  (∀ (s : State) (k : Nat) (bs : List (Option Byte)) (a : Nat), k ≤ a →
    (∀ b, bs[a - k]? = some (some b) → (s.storePart k bs).load a = b) ∧
    (bs[a - k]? = some none ∨ bs.length ≤ a - k → (s.storePart k bs).load a = s.load a)) ∧
  (∀ (s : State) (core id : Nat) (j : Job) (l : Launch), let t := setJob s core { j with armed := false, code := none }
    jobOf s core id = some j → s.launch j.copy.req.launch = some l →
    (l.phase = .running → (∀ c ∈ l.saved, c.slot.task ≠ j.copy.req.task) → exec (.armFire core id none) s = .next t) ∧
    (l.phase = .running → (∃ c ∈ l.saved, c.slot.task = j.copy.req.task) →
      exec (.armFire core id none) s = .next { s with agenda := s.agenda ++ [.armFire core id none] }) ∧
    (l.phase ≠ .running → l.phase ≠ .tearing →
      exec (.armFire core id none) s = .next { s with agenda := s.agenda ++ [.armFire core id none] }) ∧
    (l.phase = .running → (∀ c ∈ l.saved, c.slot.task ≠ j.copy.req.task) → ∀ f : FaultCode, f ≠ .kindMismatch → f ≠ .memUe →
      exec (.armFire core id (some f)) s = .next (setJob s core { j with armed := false, code := some f })) ∧
    (∀ (src dst len : Nat) (loc v : Word) (f : FaultCode), l.phase = .running → (∀ c ∈ l.saved, c.slot.task ≠ j.copy.req.task) →
      j.copy.kind = .arm src dst len loc v → f = .kindMismatch ∨ f = .memUe → s.hasRoom (core / 8192) = true →
      let u := setJob s core { j with armed := false, code := some f, fault := none }
      exec (.armFire core id (some f)) s = .next (u.record (core / 8192) (recordOf u j.copy.req 0 false f ⟨0, none, some loc, 0⟩)))) ∧
  (∀ (s : State) (core id : Nat), (∀ x ∈ s.cores, ∀ j ∈ x.2.jobs, j.id ≠ id) → jobOf s core id = none →
    exec (.armFire core id none) s = .next s) ∧
  (∀ (s : State) (q : SortReq) (j : Job) (sorted : List (Nat × Nat)) (tab : List Byte),
    let ks := (List.range q.n).map fun i => natOf (((readPieces s q.keys).drop (2 * i)).take 2)
    let ps := (List.range q.n).map fun i => natOf (((readPieces s q.pays).drop (q.pw * i)).take q.pw)
    let present := ks.filter fun k => decide (k ≠ 65535)
    let t := setJob s q.req.slot.coreKey { j with notifies := sortTiles s q }
    sortFault s q = none →
    sorted.Pairwise (fun a b => a.1 ≤ b.1) → (∀ v, sorted.filter (fun p => decide (p.1 = v)) = (ks.zip ps).filter (fun p => decide (p.1 = v))) →
    tab.length = 8 * (2 ^ q.kb + 1) → (∀ v < 2 ^ q.kb, Spec.entry tab (8 * v) 4 = (present.filter fun k => decide (k < v)).length % 2 ^ 32 ∧
      Spec.entry tab (8 * v + 4) 4 = (present.filter fun k => decide (k = v)).length % 2 ^ 32) →
    Spec.entry tab (8 * 2 ^ q.kb) 4 = present.length % 2 ^ 32 → Spec.entry tab (8 * 2 ^ q.kb + 4) 4 = (q.n - present.length) % 2 ^ 32 →
    let out := fun t : State => (.next (sortFills (sortFills t q q.payOut (if q.pw = 8 then 7 else 6) (sorted.flatMap fun p => bytesOf q.pw p.2)) q q.tabOut 6 tab) : Out)
    (jobOf s q.req.slot.coreKey q.job = some j → exec (.thresherSort q) s = out t) ∧
    (jobOf s q.req.slot.coreKey q.job = none → exec (.thresherSort q) s = out s)) ∧
  (∀ (s : State) (q : SortReq) (c : FaultCode) (k : Nat), let core := q.req.slot.coreKey
    sortFault s q = some (c, k) →
    exec (.thresherSort q) s = .next (s.post granaryDie (core / 8192) (.acknowledgement ⟨q.req, 1, .job q.job, gaOf s k, some c⟩)))

/-! ## Binding, capsules between cores, budgets -/

/-- The slot of a fresh task (R36, R56, R57): everything zero but what its launch and its arguments give, a launch whose lane
stores, if any, are core-local. -/
def Sys2Proof.Spec.fresh (s : State) (l : Launch) (r : SlotRef) (lane : Nat) (args : List Word) : Slot :=
  { Slot.empty with
    occupied := true, task := s.nextTask, launch := l.num, lane := lane
    g := Vector.ofFn fun k => args.getD k.val 0
    s := #v[l.seg 0, mkSeg l.frame false false true true (0x20000 + 0x8000 * r.slot), 0, l.seg 1, l.seg 2, l.seg 3, l.seg 4,
      if l.lsbytes = 0 then l.seg 5 else mkSeg l.lsbytes false false true true (l.lsbase + r.slot * l.lsbytes)]
    rmode := BitVec.ofNat 64 (l.rm % 16), fa := BitVec.ofNat 64 (l.fab 0 % 8), fb := BitVec.ofNat 64 (l.fab 1 % 8)
    fs := BitVec.ofNat 64 (l.fab 2 % 16), cw := Vector.ofFn fun k => l.windows.getD k.val 0, frame := l.frame
    mailbox := (s.slot r).mailbox, readyAt := s.cycle + 8, since := l.since }

/-- R36, R39, R43-R45, R132, R134, R295-R297, R300, R375, R381, R382, R386: records and capsules bind to slots with the state R36
gives; capsules ask for a berth, move and return; a channel changes at its gleaner; a budget rises by A each 1,024 cycles. The
codes at fenced and dead places are the model's reading (log 35). -/
def Obligations.BindingAndCapsules : Prop :=
  (∀ (s : State) (c i : Nat) (q : Record) (l : Launch) (r : SlotRef), nextRecord s c = some (i, q, l, r) → l.repro = false →
    isRepro s l.num = false → l.lsspace = false ∨ l.lsbytes = 0 → ∃ t, exec (.recordBind c) s = .next t ∧
      t.slot r = { Spec.fresh s l r q.lane [q.arg0, q.arg1, q.arg2, q.arg3, q.data, q.key] with
        pc := q.entry, key := q.key, since := q.since, written := (t.slot r).written } ∧
      t.queue c = (s.queue c).eraseIdx i ∧ t.nextTask = s.nextTask + 1 ∧ (t.port r.clusterKey).asleep = false ∧ nextRecord t c = none) ∧
  (∀ (s : State) (c : Nat), nextRecord s c = none → exec (.recordBind c) s = .next s) ∧
  (∀ (s : State) (core : Nat) (b : BitVec 2), let e := s.chan core (capChannel s core b); let n := capField s core b 24 2
    nextCapsule s core = none → nextArrival s core = some b →
    (e.getLsbD 63 = false ∨ (e.extractLsb' 64 16).toNat ≠ n → exec (.gleanerBind core) s =
      .next (returnCapsule (s.modCore core fun c => { c with arrivals := c.arrivals.filter fun a => decide (a ≠ b) }) core b .capsuleChannel none)) ∧
    (e.getLsbD 63 = true → (e.extractLsb' 64 16).toNat = n → e.getLsbD 62 = true →
      exec (.gleanerBind core) s = .next (s.modCore core fun c => c.setBerth b .pending)) ∧
    (e.getLsbD 63 = true → (e.extractLsb' 64 16).toNat = n → e.getLsbD 62 = false →
      (s.launch n = none → exec (.gleanerBind core) s = .next (s.modCore core fun c => c.setBerth b .ready)) ∧
      (∀ l, s.launch n = some l → capsuleSlot s l core = none →
        exec (.gleanerBind core) s = .next (s.modCore core fun c => c.setBerth b .ready)) ∧
      (∀ l r lane, s.launch n = some l → capsuleSlot s l core = some (r, lane) →
        exec (.gleanerBind core) s = .next (bindCapsule s core b l r lane)))) ∧
  (∀ (s : State) (core lane : Nat) (b : BitVec 2) (l : Launch) (r : SlotRef), nextCapsule s core = some (b, l, r, lane) →
    exec (.gleanerBind core) s = .next (bindCapsule s core b l r lane) ∧ (b, l, r, lane) ∈ bindable s core ∧
    ∀ x ∈ bindable s core, capPri s core x.1 ≤ capPri s core b) ∧
  (∀ (s : State) (core lane : Nat) (b : BitVec 2) (l : Launch) (r : SlotRef), r.coreKey = core → r.slot < 8 → l.repro = false →
    isRepro s l.num = false → l.lsspace = false ∨ l.lsbytes = 0 →
    let e := s.chan core (capChannel s core b); let k := capField s core b 26 1; let step := capStepAt s core b k
    let tb := capField s core b 4 4; let t := bindCapsule s core b l r lane
    (t.core core).berth b = .held ∧ b ∉ (t.core core).arrivals ∧
      t.slot r = { (Spec.fresh s l r lane [(step.extractLsb' 0 16).setWidth 64, BitVec.ofNat 64 k, BitVec.ofNat 64 (capField s core b 16 8),
          BitVec.ofNat 64 tb]).setS 2 (mkSeg tb false false true true (0x60000 + 16640 * b.toNat + 256)) with
        pc := (e.extractLsb' 0 56).setWidth 64, capsule := some b, capStep := some k, prio := e.extractLsb' 60 2, written := (t.slot r).written }) ∧
  (∀ (s : State) (core : Nat), nextArrival s core = none → nextCapsule s core = none → exec (.gleanerBind core) s = .next s) ∧
  (∀ (s : State) (die i c : Nat) (q : Record), nextSpilled s die = some (i, c, q) →
    let t := s.modDie die fun d => { d with spill := d.spill.eraseIdx i }
    (∀ l, s.launch q.launch = some l → l.phase ≠ .tearing → exec (.spillReturn die) s = .next (t.setQueue c (t.queue c ++ [q]))) ∧
    (s.launch q.launch = none → exec (.spillReturn die) s = .next t)) ∧
  (∀ (s : State) (die : Nat), nextSpilled s die = none → exec (.spillReturn die) s = .next s) ∧
  (∀ (s : State) (core : Nat), let c := s.core core; let n := s.cycle / 1024 - c.refills
    (s.cycle / 1024 ≤ c.refills → exec (.budgetRefill core) s = .next s) ∧
    (0 < n → exec (.budgetRefill core) s = .next (s.setCore core { c with
      refills := s.cycle / 1024, budget := match refillAmount s core with | some a => min 65535 (c.budget + a * n) | none => 65535 }))) ∧
  (∀ (s : State) (p : ReservePkt), let c := stepCore p.step; let d := (p.step.extractLsb' 50 4).toNat
    let p' := { p with born := s.xid }
    (s.absent d = true → (p.step.extractLsb' 54 10).toNat = s.pkgid → exec (.berthReservation p) s = .next (refuse s p' .capsuleReset)) ∧
    (s.absent d = false ∨ (p.step.extractLsb' 54 10).toNat ≠ s.pkgid → placeOk s p.step = false →
      exec (.berthReservation p) s = .next (refuse s p' .capsulePlace)) ∧
    (s.absent d = false → placeOk s p.step = true → p.step.getLsbD 36 = false →
      (∀ b, (s.core c).asks = [] → (∀ a ∈ s.anyAsks, stepCluster a.step ≠ c / 16) → (s.core c).freeBerth = some b →
        exec (.berthReservation p) s =
          .next (((s.setCore c { s.core c with asks := [] }).modCore c fun x => x.setBerth b .reserved).post (c / 8192) (p.src / 8192)
            (.berthGrant ⟨p.src, p.berth, c, b.toNat⟩))) ∧
      ((s.core c).freeBerth = none →
        exec (.berthReservation p) s = .next (s.modCore c fun x => { x with asks := x.asks ++ [.capsule p'] }))) ∧
    (s.absent d = false → placeOk s p.step = true → p.step.getLsbD 36 = true → (∀ k < 16, (s.core (stepCluster p.step * 16 + k)).freeBerth = none) →
      exec (.berthReservation p) s = .next { s with anyAsks := s.anyAsks ++ [p'], xid := s.xid + 1 })) ∧
  (∀ (s : State) (p : GrantPkt), p.berth < 4 → let st := (s.core p.src).berth (BitVec.ofNat 2 p.berth)
    (st = .leaving → exec (.berthGrant p) s = .next (freeBerth (s.post (p.src / 8192) (p.dst / 8192)
      (.capsuleTransfer ⟨p.src, p.dst, p.dstBerth, s.loads (berthKey p.src p.berth) 16640⟩)) p.src (BitVec.ofNat 2 p.berth))) ∧
    (st ≠ .leaving → exec (.berthGrant p) s = .next (freeBerth s p.dst (BitVec.ofNat 2 p.dstBerth)))) ∧
  (∀ (s : State) (p : CapsulePkt), let b := BitVec.ofNat 2 p.dstBerth; let n := Spec.entry p.bytes 24 2
    (s.launch n = none → exec (.capsuleTransfer p) s = .next (freeBerth s p.dst b)) ∧
    (∀ l, s.launch n = some l → l.phase ≠ .tearing → ∃ t, exec (.capsuleTransfer p) s = .next t ∧
      t.loads (berthKey p.dst p.dstBerth) p.bytes.length = p.bytes ∧ (t.core p.dst).berth b = .arrived ∧
      (t.core p.dst).arrivals = (s.core p.dst).arrivals ++ [b])) ∧
  (∀ (s : State) (p : ReturnPkt) (l : Launch) (d : Nat), let o := Spec.entry p.bytes 8 8 / 2 ^ 49 % 16; let x := s.die d
    s.launch p.launch = some l → l.phase ≠ .tearing → s.dead d = false →
    d = o ∨ (s.dead o = true ∧ d < 16 ∧ l.dies.testBit d = true ∧ ∀ i < d, l.dies.testBit i = true → s.dead i = true) →
    (x.cfqHeld < 1024 → s.hasRoom d = true → x.returns = [] → let e := (x.cfqHead + x.cfqHeld) % 1024
      let t := (s.stores (cfqKey d e) (returnedImage p)).modDie d fun y => { y with cfqHeld := y.cfqHeld + 1 }
      let u := t.record d (returnRecord t p e)
      (p.src = none → exec (.capsuleReturn p) s = .next u) ∧
      (∀ core b, p.src = some (core, b) → exec (.capsuleReturn p) s = .next (freeBerth u core (BitVec.ofNat 2 b)))) ∧
    (let t := s.modDie d fun y => { y with returns := y.returns ++ [p] };
      (1024 ≤ x.cfqHeld → exec (.capsuleReturn p) s = .next (t.enterHold d)) ∧
      (x.cfqHeld < 1024 → s.hasRoom d = false ∨ x.returns ≠ [] → exec (.capsuleReturn p) s = .next t))) ∧
  (∀ (s : State) (p : ReturnPkt), s.launch p.launch = none → p.src = none → exec (.capsuleReturn p) s = .next s) ∧
  (∀ (s : State) (p : ChanPkt), let r := applyChan s p.req.launch p.core p.chan p.op
    (∀ a, p.ack = some a → exec (.channelChange p) s = .next (r.2.ack (p.core / 8192) p.req p.xid a (p.core * 2 ^ 33) r.1)) ∧
    (p.ack = none → exec (.channelChange p) s = .next r.2)) ∧
  (∀ (s : State) (core k : Nat), let t := (applyChan s 0 core k .block).2; let u := (applyChan s 0 core k .unblock).2
    (t.chan core k).getLsbD 62 = true ∧ (u.chan core k).getLsbD 62 = false ∧ ∀ i < 128, i ≠ 62 →
      (t.chan core k).getLsbD i = (s.chan core k).getLsbD i ∧ (u.chan core k).getLsbD i = (s.chan core k).getLsbD i)

/-! ## Fetch and issue -/

/-- A line of code at an address (R135-R139, R144): S0 admits it, and it parses, as it stood at a time that R186 leaves open. -/
def Sys2Proof.Spec.lineAt (s : State) (line : Nat) (l : Line) : Prop :=
  let g := s.cur.getS 0
  g.getLsbD 62 = true ∧ segSpace g = false ∧ 0 < segLimit g ∧ segBase g ≤ line ∧ line - segBase g + 64 ≤ segLimit g ∧
  s.hasUe (Spec.here s line) 64 = none ∧ parseLine (s.loadsAt (s.seen s.cur.since (Spec.here s line)) (Spec.here s line) 64) = some l

/-- R144, R145, R49, R50, R384, R389: in its turn a slot fetches the head its PC names in a line that S0 admits, decodes it and,
when its charge is granted, executes it; a body bundle of a repetition then moves REPST on. The order of the next moves and
the version of the line that is read are free (logs 1, 20). -/
def Obligations.StepRunsDecoded : Prop :=
  ∀ (s : State) (r : SlotRef) (l : Line) (n : Nat) (h : BitVec 16) (tail : BitVec 128) (i : Instr),
    let x := s.slot r; let c := turnAt r.slot (max s.cycle x.readyAt)
    let s0 : State := { advanceTo c s with focus := ⟨r, x.pc, x.pc, .done, none⟩ }
    let line := x.pc.toNat / 64 * 64
    s.turn = .slot r → x.occupied = true → x.parks = [] → x.halt = .no → x.ending = false → s.dead r.die = false → (s.die r.die).hold = false →
    x.rep.act = false → x.rep.body = [] → Spec.lineAt s0 line l → x.pc.toNat % 64 = 2 + 2 * n → l[n]? = some (h, tail) →
    h.getLsbD 15 = false → (∀ m, n = m + 1 → headBit l m = false) → decodeWord h tail = some i →
    let b : Bundle := ⟨x.pc, if n + 1 < l.length then x.pc + 2 else BitVec.ofNat 64 (line + 66), i, none⟩
    let s1 : State := { s0 with focus := ⟨r, x.pc, b.succ, .done, some b⟩ }
    let ch := charge s1 r.coreKey r.slot (issueCharge i)
    exec (.fetch r) (advanceTo c s) = .next s1 ∧
    step s = if ch.1 then Out.map reschedule (Out.map (repeatBody (grant r ch.2)) (exec i (grant r ch.2))) else .next (reschedule (deny r ch.2))

/-! ## Translation -/

/-- Address of a translation entry at a level of a table (R393). -/
def Sys2Proof.Spec.slotOf (t : Word) (lvl va : Nat) : Nat :=
  t.toNat % 2 ^ 54 + 8 * (if lvl = 0 then va / 2 ^ 42 % 16384 else if lvl = 1 then va / 2 ^ 29 % 8192 else va / 2 ^ 16 % 8192)

/-- A table word that the walker reads: in this package, at a home that works, with no error. -/
def Sys2Proof.Spec.reads (s : State) (t : Word) (lvl va : Nat) (e : Word) : Prop :=
  let k := Spec.slotOf t lvl va
  gaPkg t = s.pkgid ∧ frameOk s (gaOf s k) = true ∧ s.dead (s.homeDie k) = false ∧ s.isRetired k = false ∧ s.hasUe k 8 = none ∧ s.loadWord k = e

/-- A table entry, which leads on (R394, R395). -/
def Sys2Proof.Spec.leads (s : State) (e : Word) (lvl : Nat) : Prop := e.getLsbD 0 = true ∧ e.getLsbD 1 = false ∧ malformed s e lvl = false

/-- The entry that a walk from a root meets at a level, through entries that lead on. -/
def Sys2Proof.Spec.meets (s : State) (root : Word) (va lvl : Nat) (e : Word) : Prop :=
  let next := fun e : Word => e &&& ~~~0xFFFF#64
  if lvl = 0 then Spec.reads s root 0 va e
  else ∃ e0, Spec.reads s root 0 va e0 ∧ Spec.leads s e0 0 ∧
    if lvl = 1 then Spec.reads s (next e0) 1 va e
    else ∃ e1, Spec.reads s (next e0) 1 va e1 ∧ Spec.leads s e1 1 ∧ Spec.reads s (next e1) 2 va e

/-- The leaf that an entry of a level makes: a page of 4 TiB, 512 MiB or 64 KiB (R393). -/
def Sys2Proof.Spec.leaf (launch va lvl : Nat) (e : Word) : Leaf :=
  let page := if lvl = 0 then 2 ^ 42 else if lvl = 1 then 2 ^ 29 else 2 ^ 16
  ⟨launch, lvl, va / page * page, (e.extractLsb' 2 3).toNat, e.toNat / 65536 * 65536, e.getLsbD 8, (e.extractLsb' 9 2).toNat⟩

/-- A page request of a cause (R402): it joins the entry of its page; or it takes an entry and a record of CLASS 2, where the table
and the buffer have room; or it waits for a place. -/
def Sys2Proof.Spec.pageAsked (s : State) (q : WalkReq) (cause : Nat) : Prop :=
  let die := q.cluster / 512; let d := s.die die; let e : PageReq := ⟨d.nextSeq, q.launch, q.va, cause, q.need, [q]⟩
  ((∃ g ∈ d.pages, g.page = q.va) → ∃ t, exec (.translationWalk q) s = .next t ∧ (t.die die).faults = d.faults ∧
    (t.die die).pages = d.pages.map fun g => if g.page = q.va then { g with who := g.who ++ [q] } else g) ∧
  ((∀ g ∈ d.pages, g.page ≠ q.va) → d.pages.length < 256 → s.hasRoom die = true → ∃ t, exec (.translationWalk q) s = .next t ∧
    (t.die die).pages = d.pages ++ [e] ∧ ∃ f, (t.die die).faults = d.faults ++ [f] ∧ f.code = 2 ∧ f.cls = 2 ∧ f.va = q.va ∧
      f.arg = BitVec.ofNat 64 (cause + 4 * q.need) ∧ f.seq = d.nextSeq) ∧
  ((∀ g ∈ d.pages, g.page ≠ q.va) → 256 ≤ d.pages.length → ∃ t, exec (.translationWalk q) s = .next t ∧ (t.die die).faults = d.faults ∧
    (t.die die).pages = d.pages ∧ (t.die die).pageWait = d.pageWait ++ [{ e with seq := 0 }])

/-- R393-R395, R397-R403: a walk that finds a good leaf, of any page size, fills the TLB and lets its task or its copy go on; one
that finds an entry not present or malformed, or rights of reading, writing or executing that do not suffice, makes a page
request, and one whose frame disagrees faults; the host retries or denies a request; a shoot-down removes the named leaves of
every awake cluster and is done once each has acknowledged. The lowest page first, one entry for each page and what a table in
memory that no task reaches holds are the model's reading (logs 27, 34, 51). -/
def Obligations.Translation : Prop :=
  (∀ (s : State) (q : WalkReq) (l : Launch) (lvl : Nat) (e : Word), let va := q.va.toNat; let p := s.port q.cluster
    s.launch q.launch = some l → lvl < 3 → p.stale = true ∨ p.walks = [] → Spec.meets s (BitVec.ofNat 64 l.troot) va lvl e →
    let f := Spec.leaf q.launch va lvl e; let ga : Word := BitVec.ofNat 64 (leafGa f va)
    let good := e.getLsbD 0 = true ∧ malformed s e lvl = false ∧ e.getLsbD 1 = true
    let enough := ∀ i < 3, q.need.testBit i = true → e.getLsbD (2 + i) = true
    (walkWanted s q = true → (e.getLsbD 0 = false → Spec.pageAsked s q 0) ∧
      (e.getLsbD 0 = true → malformed s e lvl = true → Spec.pageAsked s q 2) ∧
      (q.need < 8 → good → ¬ enough → Spec.pageAsked s q 1)) ∧
    (q.need < 8 → good → enough → q.bad = [] →
      (∀ r task, q.who = .task r task → isHere s ⟨r, task, q.launch, 0, 0⟩ = true →
        let told := fun (t : State) (c : Option FaultCode) (ga : Word) =>
          t.slot r = { s.slot r with answers := (s.slot r).answers ++ [⟨0, c, ga, q.va, 0, []⟩] }
        (frameFault s f va q.space = none → ∃ t, exec (.translationWalk q) s = .next t ∧ f ∈ (t.port q.cluster).tlb ∧ told t none 0) ∧
        (∀ c, frameFault s f va q.space = some c → q.pages = [q.va] → ∃ t, exec (.translationWalk q) s = .next t ∧
          (∀ x ∈ (t.port q.cluster).tlb, x ∈ p.tlb) ∧ told t (some c) ga)) ∧
      (∀ core id j, q.who = .job core id → jobOf s core id = some j → frameFault s f va q.space = none →
        ∃ t, exec (.translationWalk q) s = .next t ∧ f ∈ (t.port q.cluster).tlb ∧ jobOf t core id = some { j with waiting := false }))) ∧
  (∀ (s : State) (q : WalkReq), s.launch q.launch = none → exec (.translationWalk q) s = .next s) ∧
  (∀ (s : State) (die seq : Nat), (∀ e ∈ (s.die die).pages, e.seq ≠ seq) →
    let t := s.modDie die fun d => { d with lerr := d.lerr ||| 2 }
    exec (.prespRetry die seq) s = .next t ∧ exec (.prespDeny die seq) s = .next t) ∧
  (∀ (s : State) (die : Nat) (e : PageReq) (q : WalkReq) (r : SlotRef) (task : Nat), (s.die die).pages = [e] → e.who = [q] → q.who = .task r task →
    isHere s ⟨r, task, q.launch, 0, 0⟩ = true → (s.die die).pageWait = [] →
    (∃ t, exec (.prespRetry die e.seq) s = .next t ∧ (t.die die).pages = [] ∧
      t.slot r = { s.slot r with answers := (s.slot r).answers ++ [⟨0, none, 0, q.va, 0, []⟩] }) ∧
    (∃ t, exec (.prespDeny die e.seq) s = .next t ∧ (t.die die).pages = [] ∧
      t.slot r = { s.slot r with answers := (s.slot r).answers ++ [⟨0, some .page, 0, q.va, 0, []⟩] })) ∧
  (∀ (s : State) (die : Nat), let d := s.die die; let cs := ((List.range 512).map fun c => die * 512 + c).filter fun c => !(s.port c).asleep
    (d.tsBusy = true → exec (.tsgo die) s = .next (s.modDie die fun d => { d with lerr := d.lerr ||| 2 })) ∧
    (d.tsBusy = false → cs = [] → exec (.tsgo die) s = .next (s.modDie die fun d => { d with tsCount := (d.tsCount + 1) % 2 ^ 32 })) ∧
    (d.tsBusy = false → cs ≠ [] → exec (.tsgo die) s = .next ({ (s.modDie die fun d => { d with tsBusy := true, tsWait := cs.map fun c => (c, 0, []) }) with
      agenda := s.agenda ++ cs.map fun c => .shootDown die c } : State))) ∧
  (∀ (s : State) (die c : Nat), let d := s.die die
    ((∀ w ∈ d.tsWait, w.1 ≠ c) → exec (.shootDown die c) s = .next s ∧ exec (.shootDownAck die c) s = .next s) ∧
    ((∃ w ∈ d.tsWait, w.1 = c) → ∃ t, exec (.shootDown die c) s = .next t ∧
      (∀ e, e ∈ (t.port c).tlb ↔ e ∈ (s.port c).tlb ∧ shootHit d e = false) ∧
      (∀ e, e ∈ (t.port c).walks ↔ e ∈ (s.port c).walks ∧ shootLaunch d e.launch = false) ∧ t.agenda = s.agenda ++ [.shootDownAck die c]) ∧
    (∀ n gone, d.tsWait = [(c, n, gone)] → accessesOpen s c n gone = false → exec (.shootDownAck die c) s =
      .next (s.modDie die fun d => { d with tsWait := [], tsBusy := false, tsCount := (d.tsCount + 1) % 2 ^ 32 }))) ∧
  (∀ (d : Die) (e : Leaf), let n := (d.tslen.extractLsb' 0 32).toNat; let l := (d.tslen.extractLsb' 32 16).toNat
    (shootHit d e = true ↔ (l = 0 ∨ l = e.launch) ∧ (n = 0 ∨ (d.tsva.toNat < e.va + 2 ^ pageBits e.level ∧ e.va < d.tsva.toNat + n * 65536)))) ∧
  (∀ (s : State) (c : Nat), let p := s.port c
    exec (.clusterSleep c) s = .next (if p.asleep = false ∧ clusterIdle s c = true then s.setPort c { p with asleep := true } else s) ∧
    exec (.clusterWake c) s = .next (if p.asleep then s.setPort c { p with asleep := false, stale := true } else s))

/-! ## Launches -/

/-- R373-R376: the expansion of a submission whose record and object are good. The plots of type 5 are formed at their homes in order,
then tensors; channels stand on every bound core, the root group exists, and a record of each lane waits in the queue of its lane, or
of the bound clusters in turn. The generation of the root group is that of its identifier, which the model keeps (log 30). -/
def Sys2Proof.Spec.Expansion : Prop :=
  (∀ (s t1 t2 : State) (d n : Nat) (bs : List Byte) (rest : List (Nat × Nat × List Byte)) (plan : Plan) (ks ts : List Nat),
    let s' := (setLstat s d (n % 64) (2, 0)).modDie d fun x => { x with subs := (n, 3, bs) :: rest }
    s.dead d = false → (s.die d).subs = (n, 2, bs) :: rest → planOf s' d (n % 64) bs = .ok plan → let l := plan.launch
    formPlots l plan.plots (s', []) = (.ok (), t1, ks) → formTensors plan.tensors t1 = (.ok (), t2, ts) →
    let cs := l.clusters s; let record := fun lane => (⟨l.entry, BitVec.ofNat 64 lane, 0, 0, 0, 0, 0, l.num, if l.repro then lane else 0, t2.draws + 1⟩ : Record)
    let clear := ∀ c ∈ cs, t2.absent (c / 512) = false ∧ t2.queue c = [] ∧ ∀ x ∈ (t2.die (c / 512)).spill, x.1 ≠ c
    ∃ u m, exec (.launchExpansion d) s = .next u ∧ u.launch l.num = some m ∧ m.bytes = bs ∧ m.phase = .running ∧
      m.plots = ks.map (gaOf t2) ∧ m.tensors = ts ∧ m.since = t2.draws + 1 ∧ m.faulted = false ∧
      (∀ core ∈ l.cores s, ∀ a r b, plan.channels = a ++ r :: b → (∀ q ∈ b, Spec.entry q 0 1 ≠ Spec.entry r 0 1) →
        u.chan core (Spec.entry r 0 1) = BitVec.ofNat 128 (l.num * 2 ^ 64 + 2 ^ 63 + Spec.entry r 1 1 * 2 ^ 60 + Spec.entry r 8 7)) ∧
      (u.group l.grp0).phase = 1 ∧ (u.group l.grp0).root = true ∧ (u.group l.grp0).launch = l.num ∧
      (u.group l.grp0).gen = (t2.group l.grp0).gen ∧ (u.group l.grp0).members = [] ∧
      (clear → l.repro = false → 0 < cs.length → l.lanes ≤ 256 * cs.length → lstatOf u d (n % 64) = (3, 0) ∧ m.posted = l.lanes ∧
        ∀ i c, cs[i]? = some c → u.queue c = ((List.range l.lanes).filter fun lane => decide (lane % cs.length = i)).map record) ∧
      (clear → l.repro = true →
        (∀ c, ((List.range l.lanes).filter fun lane => (l.laneSlot s lane).map SlotRef.clusterKey == some c).length ≤ 256) →
        lstatOf u d (n % 64) = (3, 0) ∧ m.posted = l.lanes ∧
        ∀ lane < l.lanes, ∃ r, l.laneSlot s lane = some r ∧ record lane ∈ u.queue r.clusterKey)) ∧
  (∀ (s : State) (l : Launch) (r : List Byte) (ps ks : List Nat), let v := wordOf r 8
    plotRange s l (recordPlots r) = .ok ps → descAdmits v = true → (ps.map fun k => k / 4096).Nodup →
    (∀ k ∈ ps, s.dead (s.homeDie k) = false ∧ s.isRetired k = false ∧ (s.plot k).attr.getLsbD 61 = false ∧ (s.plot k).attr.getLsbD 31 = false ∧
      ((s.plot k).attr.getLsbD 63 = true → (s.plot k).attr.getLsbD 62 = true)) →
    ∃ t, formPlots l [r] (s, ks) = (.ok (), t, ks ++ ps) ∧ ∀ k ∈ ps, (t.plot k).attr = plotAttr (v.extractLsb' 13 3).toNat
      (v.extractLsb' 8 5).toNat (v.extractLsb' 0 5).toNat (v.getLsbD 48) (v.extractLsb' 32 16).toNat false 0 ∧ (t.plot k).fill = []) ∧
  (∀ (s : State) (l : Launch) (r : List Byte) (rs : List (List Byte)) (ks : List Nat) (e : FaultCode × Option Word),
    plotRange s l (recordPlots r) = .error e → formPlots l (r :: rs) (s, ks) = (.error e, s, ks)) ∧
  (∀ (s : State) (r : List Byte), let n := Spec.entry r 0 2; let bs := r.drop 64
    n < 4096 → Spec.entry bs 0 2 = 1 → Spec.entry bs 24 40 = 0 → Spec.entry bs 10 2 = 0 → Spec.entry (s.tensor n) 0 2 % 2 = 0 →
    tensorOk bs = true → ringTaken s bs = false → formTensors [r] s = (.ok (), createTensor s n bs, [n]))

/-- R41, R366, R369, R370, R372-R377: a submission is accepted into the next slot, filled, counted and expanded; a launch that is
complete ends; a release frees the slot. What a tear-down leaves, when draining groups let a launch end and that the identifiers of a
complete launch keep their generations are the model's reading (logs 30, 37, 38); so are that the last of two records of one channel
stands (log 45), that a refusal's record marks no launch (log 47) and that a channel's ENTRY has a top byte of zero (log 60). -/
def Obligations.LaunchLife : Prop := Spec.Expansion ∧
  (∀ (s : State) (d : Nat), let x := s.die d; let slot := x.lnext % 64
    (s.dead d = true → exec (.lsubmit d) s = .next s) ∧
    (s.dead d = false → (lstatOf s d slot).1 ≠ 0 → exec (.lsubmit d) s = .next (s.modDie d fun x => { x with lerr := x.lerr ||| 1 })) ∧
    (s.dead d = false → (lstatOf s d slot).1 = 0 → ∃ t, exec (.lsubmit d) s = .next t ∧ lstatOf t d slot = (1, 0) ∧ (t.die d).lnext = x.lnext + 1 ∧
      ∃ bs, (t.die d).subs = x.subs ++ [(x.lnext, 0, bs)] ∧ bs.length = 4096 ∧ ∀ i < 4096, bs.getD i 0 = SMap.get x.lwin 0 (4096 * slot + i))) ∧
  (∀ (s : State) (d n p : Nat) (bs : List Byte), pendingSub (s.die d) = some (n, p, bs) →
    let k := hbmKey d (0xBFFF00000 + 4096 * (n % 64)); let c := hbmKey d 0xBFFF40000
    (p % 4 = 0 → exec (.lcountJoin d) s = .next s ∧
      exec (.submissionFill d) s = .next ((fillUnit s k 0x0B bs false).2.modDie d fun x => advanceSub x n)) ∧
    (p % 4 = 1 → exec (.submissionFill d) s = .next s ∧ exec (.lcountJoin d) s =
      .next ((touched (s.stores c (bytesOf 8 (joinCode 4 7 (s.loadNat c 8) 1))) c 8).modDie d fun x => { advanceSub x n with lcount := x.lcount + 1 }))) ∧
  (∀ (s : State) (d : Nat), pendingSub (s.die d) = none → exec (.submissionFill d) s = .next s ∧ exec (.lcountJoin d) s = .next s) ∧
  (∀ (s : State) (d n : Nat) (bs : List Byte) (t : List (Nat × Nat × List Byte)) (e : FaultCode × Option Word), let x := s.die d
    s.dead d = false → x.subs = (n, 2, bs) :: t →
    let s' := (setLstat s d (n % 64) (2, 0)).modDie d fun x => { x with subs := (n, 3, bs) :: t }
    planOf s' d (n % 64) bs = .error e → s.hasRoom d = true → ∃ u, exec (.launchExpansion d) s = .next u ∧
      lstatOf u d (n % 64) = (7, codeNum e.1) ∧ (u.die d).subs = t ∧ u.launches = s.launches ∧
      ∃ f, (u.die d).faults = x.faults ++ [f] ∧ f.code = codeNum e.1 ∧ f.cls = 0 ∧ f.launch = Spec.entry bs 16 2) ∧
  (∀ (s : State) (d : Nat), s.dead d = true ∨ (s.die d).subs = [] → exec (.launchExpansion d) s = .next s) ∧
  (∀ (s : State) (d n : Nat) (bs : List Byte) (t : List (Nat × Nat × List Byte)) (l : Launch), s.dead d = false → (s.die d).subs = (n, 3, bs) :: t →
    s.launch (Spec.entry bs 16 2) = some l →
    (l.phase = .running → l.num = Spec.entry bs 16 2 → l.posted = l.lanes → l.die = d → l.plotSlot = n % 64 →
      ∃ u, exec (.launchExpansion d) s = .next u ∧ (∀ m, u.launch m = s.launch m) ∧ { u with launches := s.launches } =
        (setLstat s d (n % 64) (3, (lstatOf s d (n % 64)).2)).modDie d fun x => { x with subs := t, expanded := x.expanded + 1 }) ∧
    (l.phase = .tearing ∨ l.die ≠ d ∨ l.plotSlot ≠ n % 64 → exec (.launchExpansion d) s =
      .next (s.modDie d fun x => { x with subs := t, expanded := x.expanded + 1 }))) ∧
  (∀ (s : State) (n : Nat), s.launch n = none → exec (.launchCompletion n) s = .next s) ∧
  (∀ (s : State) (n : Nat) (l : Launch), s.launch n = some l →
    (isComplete s l = false → exec (.launchCompletion n) s = .next s) ∧
    (isComplete s l = true → ∃ t, exec (.launchCompletion n) s = .next t ∧ t.launch n = none ∧
      lstatOf t l.die l.plotSlot = (if l.faulted = true ∨ l.phase = .tearing then 6 else 5, (lstatOf s l.die l.plotSlot).2) ∧
      (∀ c k, (chanLaunch (t.chan c k) = n → t.chan c k = 0) ∧ (chanLaunch (s.chan c k) ≠ n → t.chan c k = s.chan c k)) ∧
      (∀ m, m ≠ n → t.launch m = s.launch m) ∧
      ∀ g, l.owns g = true → (t.group g).phase = 0 ∧ (t.group g).gen = (s.group g).gen)) ∧
  (∀ (s : State) (l : Launch), isComplete s l = true → l.phase = .running → l.outstanding = 0 ∧ l.posted = l.lanes ∧
    (∀ x ∈ s.slots, x.2.occupied = true → x.2.launch ≠ l.num) ∧ (∀ c q, q ∈ s.queue c → q.launch ≠ l.num) ∧
    ∀ x ∈ s.slots, ∀ e ∈ x.2.mailbox, e.req.launch ≠ l.num) ∧
  (∀ (s : State) (d slot : Nat), let st := (lstatOf s d slot).1
    (st = 0 ∨ 4 < st → exec (.lcmdTearDown d slot) s = .next (s.modDie d fun x => { x with lerr := x.lerr ||| 2 })) ∧
    (∀ l, 1 ≤ st → st ≤ 4 → launchAt s d slot = some l → l.phase = .tearing → exec (.lcmdTearDown d slot) s = .next s) ∧
    (1 ≤ st → st ≤ 4 → launchAt s d slot = none → exec (.lcmdTearDown d slot) s = .next (s.modDie d fun x => { x with
      subs := x.subs.map fun y => if y.1 % 64 = slot ∧ y.2.1 < 3 then (y.1, y.2.1 + 4, y.2.2) else y })) ∧
    (∀ l, 1 ≤ st → st ≤ 4 → launchAt s d slot = some l → l.phase ≠ .tearing → ∃ t, exec (.lcmdTearDown d slot) s = .next t ∧
      (∀ c, ∀ q ∈ t.queue c, q.launch ≠ l.num) ∧ (∀ w ∈ t.waiters, w.req.launch ≠ l.num) ∧ (∀ w ∈ t.namers, w.req.launch ≠ l.num) ∧
      (∀ r, (t.slot r).occupied = true → (t.slot r).launch ≠ l.num) ∧
      (s.launch l.num = some l → ∃ m, t.launch l.num = some m ∧ m.phase = .tearing ∧ m.faulted = true ∧ m.saved = [])) ∧
    (st < 5 → exec (.lcmdRelease d slot) s = .next (s.modDie d fun x => { x with lerr := x.lerr ||| 2 })) ∧
    (5 ≤ st → let k := hbmKey d (0xBFFF00000 + 4096 * slot); ∃ t, exec (.lcmdRelease d slot) s = .next t ∧ lstatOf t d slot = (0, 0) ∧
      t.plot k = ⟨plotAttr 5 0x0B 12 false 0 false 0, 12, [], []⟩ ∧ t.loads k 4096 = List.replicate 4096 0))

/-- A repair that must pre-empt the machine's one launch: refused without a good save area, else the launch halts and the repair waits
(R466). -/
def Sys2Proof.Spec.PreemptsFor (s : State) (l : Launch) (v : Word) (i : Instr) : Prop :=
  let area := SMap.get (s.die l.die).lsave 0 l.plotSlot
  (areaOk s l area = false → exec i s = .next { s with repairRefused := true }) ∧
  (areaOk s l area = true → ∃ t, exec i s = .next t ∧ t.repairBusy = true ∧ t.repairRefused = false ∧ t.repairsDone = s.repairsDone ∧
    t.repairWait = some v ∧ t.launch l.num = some { l with phase := .halting, repair := true } ∧
    t.agenda = s.agenda ++ if l.phase = .running then l.boundDies.map fun e => .preemptTriggerArrival e l.num else [])

/-- R415, R416: when every slot of a halting launch is saved its area is sealed: the lane stores of core local memory stand behind the
records, the check code is over the whole area and STATE is 4. -/
def Sys2Proof.Spec.Sealing : Prop :=
  ∀ (s : State) (l : Launch), let base := saveKey s l; let ns := l.ns s; let local_ := l.lsspace = false ∧ l.lsbytes ≠ 0
    let at_ := fun i : Nat => base + 0x10000 + 0xE000 * ns + l.lsbytes * i
    let store := fun r : SlotRef => localKey r.coreKey (l.lsbase + l.lsbytes * r.slot)
    let len := 0x10000 + 0xE000 * ns + if l.lsspace then 0 else l.lsbytes * ns
    s.launch l.num = some l → l.phase = .halting → saveReady s l = true → nextSave s l = none → s.repairWait = none → l.die < 16 →
    ∃ t y, exec (.contextSave l.num) s = .next t ∧ (lstatOf t l.die l.plotSlot).1 = 4 ∧ t.launch l.num = some y ∧ y.phase = .halted ∧
      y.saved = l.saved ∧ y.areaLen = len ∧ y.check = Config.checkCode (t.loads base len) ∧
      (local_ → ∀ i r, i < ns → l.slotAt s i = some r → t.loads (at_ i) l.lsbytes = s.loads (store r) l.lsbytes) ∧
      (l.repro = false → ∀ x, x ∈ y.laneStores ↔ local_ ∧ ∃ r, x.1 < ns ∧ l.slotAt s x.1 = some r ∧ x.2 = s.loads (store r) l.lsbytes) ∧
      ∀ a, a < base ∨ (base + 0x10000 ≤ a ∧ a < at_ 0) ∨ base + len ≤ a → t.load a = s.load a

/-- R195, R305, R417, R418: a saved context goes back to its slot: its registers, its frame, its tables and its copies, in the state it
had; a segment of its frame follows the frame, and a load whose answers had not all come is issued again. -/
def Sys2Proof.Spec.Restoring : Prop :=
  ∀ (s : State) (l : Launch) (c : Context) (r : SlotRef), let x := c.slot; let k := r.coreKey
    let old := 0x20000 + 0x8000 * c.place.slot; let new := 0x20000 + 0x8000 * r.slot
    s.launch l.num = some l → l.phase = .running → placeUnit s l (restoreUnit l) = some ([(c, r)], []) → x.capsule = none → berthXids x = [] →
    r.die < 16 → r.cluster < 512 → r.core < 16 → r.slot < 8 → (s.core k).asks = [] → l.laneStores = [] →
    ∃ t y, exec (.contextSave l.num) s = .next t ∧ t.slot r = { x with
        s := (t.slot r).s, parks := (t.slot r).parks, mailbox := (t.slot r).mailbox
        halt := if x.halt = .preempt then .no else x.halt, readyAt := max s.cycle (s.slot r).readyAt + 8 } ∧
      t.launch l.num = some y ∧ (y.saved = l.saved.filter fun d => decide (d.slot.task ≠ x.task)) ∧
      (∀ i : SReg, let g := x.getS i
        (segSpace g = true ∨ segLimit g = 0 → (t.slot r).getS i = g) ∧
        (segSpace g = false → segLimit g ≠ 0 → old ≤ segBase g → segBase g + segLimit g ≤ old + x.frame →
          (t.slot r).getS i = mkSeg (segLimit g) false (segEx g) (segWr g) (segRd g) (segBase g - old + new))) ∧
      (t.slot r).mailbox.map (fun e => (e.tag, e.kind, e.notify)) =
        ((s.slot r).mailbox ++ x.mailbox).map (fun e => (e.tag, e.kind, e.notify)) ∧
      (t.slot r).parks.map Park.instr = x.parks.map Park.instr ∧
      (∀ p w, x.parks = [p] → p.cond = .loads w → ∃ q, (t.slot r).parks = [q] ∧
        q.cond = if ∀ z ∈ w.reqs, ∃ a ∈ x.answers, a.xid = z.1 then p.cond else .again w false) ∧
      (∀ off, off < x.frame → off < 0x8000 → off < c.frame.length → t.load (localKey k (new + off)) =
        if x.written.getLsbD (off / 64) then c.frame.getD off 0 else 0) ∧
      (c.frame.length ≤ 0x8000 → t.loads (localKey k (tableOff r.slot 3)) c.tables.length = c.tables)

/-- R305, R414-R418, R466, R467: a pre-emption halts each bound die, saves its slots and seals the area; a resume restores it, one
context or one ring at a time. Repairs move, fence or refuse; one that must pre-empt a launch waits until it is halted and resumes it.
The spare a repair takes, the place of a restored context and what a repair refuses are the model's
choice (logs 3, 11, 39). -/
def Obligations.PreemptionAndRepair : Prop :=
  (∀ (s : State) (d slot : Nat), let refuse : Out := .next (s.modDie d fun x => { x with lerr := x.lerr ||| 2 })
    (launchAt s d slot = none → exec (.lcmdPreempt d slot) s = refuse ∧ exec (.lcmdResume d slot) s = refuse) ∧
    ∀ l, launchAt s d slot = some l → let area := SMap.get (s.die d).lsave 0 slot
      ((lstatOf s d slot).1 ≠ 3 ∨ areaOk s l area = false → exec (.lcmdPreempt d slot) s = refuse) ∧
      ((lstatOf s d slot).1 = 3 → l.phase ≠ .running → areaOk s l area = true → exec (.lcmdPreempt d slot) s = .next s) ∧
      ((lstatOf s d slot).1 = 3 → l.phase = .running → areaOk s l area = true → ∃ t, exec (.lcmdPreempt d slot) s = .next t ∧
        t = { s with launches := t.launches, agenda := s.agenda ++ l.boundDies.map fun e => .preemptTriggerArrival e l.num } ∧
        t.launch l.num = (s.launch l.num).map fun y => { y with phase := .halting }) ∧
      ((lstatOf s d slot).1 ≠ 4 ∨ l.phase ≠ .halted ∨ l.lostDie = true ∨ (l.repro = true ∧ l.ns s < l.lanes) ∨
          Config.checkCode (s.loads (saveKey s l) l.areaLen) ≠ l.check →
        exec (.lcmdResume d slot) s = refuse) ∧
      ((lstatOf s d slot).1 = 4 → resumable s l = true → l.saved = [] → l.repro = false → s.launch l.num = some l → l.die < 16 →
        ∃ t, exec (.lcmdResume d slot) s = .next t ∧ (lstatOf t l.die l.plotSlot).1 = 3 ∧
          ∃ y, t.launch l.num = some y ∧ y.phase = .running ∧ y.laneStores = [] ∧ y.saved = []) ∧
      ((lstatOf s d slot).1 = 4 → resumable s l = true → l.saved ≠ [] → l.repro = false → s.launch l.num = some l →
        exec (.lcmdResume d slot) s = exec (.contextSave l.num)
          ((setLaunchState s l.die l.plotSlot 3).modLaunch l.num fun y => { y with phase := .running, repair := false }))) ∧
  Spec.Sealing ∧ Spec.Restoring ∧
  (∀ (s : State) (d n : Nat), (∀ l, s.launch n = some l → l.phase ≠ .halting) → exec (.preemptTriggerArrival d n) s = .next s) ∧
  (∀ (s : State) (d n : Nat) (l : Launch) (r : SlotRef), s.launch n = some l → l.phase = .halting → s.slots = [(skey r, s.slot r)] →
    r.die < 16 → r.cluster < 512 → r.core < 16 → r.slot < 8 → (s.slot r).occupied = true → (s.slot r).launch = n → r.die = d →
    ∃ t, exec (.preemptTriggerArrival d n) s = .next t ∧
      t.slot r = { s.slot r with
        halt := if (s.slot r).halt = .no then .preempt else (s.slot r).halt
        readyAt := if (s.slot r).parks = [] then (s.slot r).readyAt else max (s.slot r).readyAt (s.cycle + 1) } ∧
      ∀ c ∈ (t.core r.coreKey).claims, c.1 ≠ r.slot) ∧
  (∀ (s : State) (n : Nat), n ≠ 0 → s.launch n = none → exec (.contextSave n) s = .next s) ∧
  (∀ (s : State) (n : Nat) (l : Launch), s.launch n = some l → (saveReady s l = false → exec (.contextSave n) s = .next s) ∧
    (∀ r, saveReady s l = true → l.phase = .halting → l.num = n → nextSave s l = some r → (s.slot r).capsule = none → berthXids (s.slot r) = [] →
      ∃ t y c, exec (.contextSave n) s = .next t ∧ (t.slot r).occupied = false ∧ t.launch n = some y ∧ y.saved = l.saved ++ [c] ∧
        c.place = r ∧ c.idx = l.indexOf s r ∧
        (areaOk s l (SMap.get (s.die l.die).lsave 0 l.plotSlot) = true → c.idx < l.ns s →
          t.loads (saveKey s l + 0x10000 + 0xE000 * c.idx) 0xE000 = contextBytes s c) ∧
        c.frame = s.loads (localKey r.coreKey (0x20000 + 0x8000 * r.slot)) (s.slot r).frame ∧ c.slot = { s.slot r with mailbox := (s.slot r).mailbox.filter fun e => decide (e.req.task = (s.slot r).task) })) ∧
  (∀ (s : State) (c : Context), let x := c.slot; let bs := contextBytes s c
    bs.length = 57344 ∧ Spec.entry bs 0 8 = x.pc.toNat ∧ (∀ i : Reg, Spec.entry bs (0x100 + 8 * i.toNat) 8 = (x.getG i).toNat) ∧
    Spec.entry bs 0x198 8 = x.flags.toNat ∧ Spec.entry bs 0x1A0 8 = x.rmode.toNat ∧
    (∀ i : SReg, Spec.entry bs (0x300 + 16 * i.toNat) 16 = (x.getS i).toNat) ∧
    ∀ i : BitVec 3, Spec.entry bs (0x400 + 64 * i.toNat) 64 = (x.getV i).toNat) ∧
  (∀ (s : State) (v : Word), let kind := (v.extractLsb' 0 4).toNat; let no : Out := .next { s with repairRefused := true }
    (kind ≠ 1 ∨ s.repairBusy = true → exec (.repairCore v) s = no) ∧ (kind ≠ 2 ∨ s.repairBusy = true → exec (.repairDie v) s = no) ∧
    (kind ≠ 3 ∨ s.repairBusy = true → exec (.repairSlice v) s = no) ∧ (kind ≠ 4 ∨ s.repairBusy = true → exec (.repairPort v) s = no) ∧
    (kind ≠ 5 ∨ s.repairBusy = true → exec (.repairWavelength v) s = no)) ∧
  (∀ (s : State) (d c k : Nat), s.repairBusy = false → d < 16 → c < 512 → k < 16 → (∀ l ∈ s.live, l.binds s ((d * 512 + c) * 16 + k) = false) →
    let core := (d * 512 + c) * 16 + k; let v := BitVec.ofNat 64 (k * 2 ^ 32 + c * 2 ^ 16 + d * 2 ^ 8 + 1)
    (∀ l ∈ s.live, l.repair = false) →
    ∃ t, exec (.repairCore v) s = .next t ∧ t.repairBusy = false ∧ t.repairRefused = false ∧ t.repairsDone = s.repairsDone + 1 ∧
      (∀ p, freeSpare s d = some p → (t.core core).spare = some p) ∧ (freeSpare s d = none → (t.core core).fenced = true) ∧
      pcoreOf s core ∈ (t.die d).worn) ∧
  (∀ (s : State) (l : Launch) (d c k : Nat), let core := (d * 512 + c) * 16 + k
    let v1 := BitVec.ofNat 64 (k * 2 ^ 32 + c * 2 ^ 16 + d * 2 ^ 8 + 1); let v2 := BitVec.ofNat 64 (d * 2 ^ 8 + 2)
    s.live = [l] → s.launch l.num = some l → d < 16 → c < 512 → k < 16 →
    (s.repairBusy = false → l.phase = .running ∨ l.phase = .halting →
      (l.binds s core = true → Spec.PreemptsFor s l v1 (.repairCore v1)) ∧ (d ∈ l.boundDies → Spec.PreemptsFor s l v2 (.repairDie v2))) ∧
    (∀ p, l.num ≠ 0 → s.launch 0 = none → s.repairWait = some v1 → freeSpare s d = some p → l.repair = true → resumable s l = true →
      l.repro = false → l.saved = [] → l.die < 16 → ∃ t y, exec (.contextSave 0) s = .next t ∧ t.repairBusy = false ∧ t.repairWait = none ∧
        t.repairsDone = s.repairsDone + 1 ∧ (t.core core).spare = some p ∧ t.launch l.num = some y ∧ y.phase = .running ∧
        y.repair = false ∧ (lstatOf t l.die l.plotSlot).1 = 3) ∧
    (l.phase = .halting → l.repair = true → s.launch 0 = none → exec (.contextSave 0) s = .next s)) ∧
  (∀ (s : State) (d : Nat), s.repairBusy = false → d < 16 → (∀ l ∈ s.live, d ∉ l.boundDies ∧ l.repair = false) →
    let v : Word := BitVec.ofNat 64 (d * 2 ^ 8 + 2)
    (copiesOn s d = false → ∃ t, exec (.repairDie v) s = .next t ∧ (t.die d).fenced = true ∧ t.repairsDone = s.repairsDone + 1 ∧
      t.repairBusy = false) ∧
    (copiesOn s d = true → exec (.repairDie v) s = .next { s with repairBusy := true, repairRefused := false, repairWait := some v })) ∧
  (∀ (s : State) (k : Nat), s.repairBusy = false → k < 512 → s.dead (k % 16) = false → s.ue = [] →
    exec (.repairSlice (BitVec.ofNat 64 (k * 2 ^ 8 + 3))) s =
      .next { s with sliceMoved := SMap.put s.sliceMoved k true, repairRefused := false, repairsDone := s.repairsDone + 1 }) ∧
  (∀ (s : State) (d p : Nat), s.repairBusy = false → d < 16 → p < 32 →
    exec (.repairPort (BitVec.ofNat 64 (p * 2 ^ 16 + d * 2 ^ 8 + 4))) s = .next { fencePort s (32 * d + p) with
      repairRefused := false, repairsDone := (fencePort s (32 * d + p)).repairsDone + 1 }) ∧
  (∀ (s : State) (p f w : Nat), s.repairBusy = false → p < 64 → f < 2 → w < 16 → let t := failWave s ⟨p, f, w⟩
    exec (.repairWavelength (BitVec.ofNat 64 (w * 2 ^ 20 + f * 2 ^ 16 + p * 2 ^ 8 + 5))) s =
      .next { t with repairRefused := false, repairsDone := t.repairsDone + 1 })

/-! ## Faults and the host -/

/-- R405-R408, R410: a synchronous fault with room for its record writes it, marks the launch with the code of its first record
and ends the task, which frees the slot; with no room the task keeps its slot and its record waits. A capsule is marked RETURNED
with the code and the step, and goes back. Which half's fault a bundle reports is not part of it (log 6). -/
def Obligations.TakingAFault : Prop :=
  (∀ (s : State) (r : SlotRef) (c : FaultCode) (d : Detail), let x := s.slot r; let y := s.die r.die
    (s.hasRoom r.die = true → x.capsule = none → ∃ f : FaultRec, ((faultTask s r c d).die r.die).faults = y.faults ++ [f] ∧
      f.code = codeNum c ∧ f.cls = 0 ∧ f.flags = (1 + (if d.va = none then 0 else 2) + (if d.ga = none then 0 else 4)) ∧
      f.launch = x.launch ∧ f.source = physLane s r ∧ f.llane = (if isRepro s x.launch then BitVec.ofNat 32 x.lane else BitVec.allOnes 32) ∧
      f.seq = y.nextSeq ∧ f.pc = d.pc ∧ f.va = d.va.getD 0 ∧ f.ga = d.ga.getD 0 ∧ f.key = x.key ∧ f.arg = d.arg ∧
      ((faultTask s r c d).slot r).occupied = false ∧ ((faultTask s r c d).die r.die).nextSeq = (y.nextSeq + 1) % 2 ^ 32 ∧
      ((faultTask s r c d).die r.die).hold = (y.hold || decide (y.faults.length = 63)) ∧
      ∀ l, s.launch x.launch = some l → ∃ m, (faultTask s r c d).launch x.launch = some m ∧ (l.code = 0 ∨ l.faulted = true → m.faulted = true) ∧
        m.code = if l.code = 0 then codeNum c else l.code) ∧
    (s.hasRoom r.die = false → faultTask s r c d = ((countParked r s).modDie r.die fun y => { y with
      faultWait := y.faultWait ++ [⟨recordOf s (requesterOf s r) 0 true c d, some (r, c)⟩] }).modSlot r fun x => { x with
        ending := true, parks := [], answers := [] })) ∧
  (∀ (s : State) (r : SlotRef) (c : FaultCode) (d : Detail) (b : BitVec 2) (k : Nat), (s.slot r).capsule = some b → (s.slot r).capStep = some k →
    s.hasRoom r.die = true → r.die < 16 → r.cluster < 512 → r.core < 16 → r.slot < 8 → k < 64 →
    let t := faultTask s r c d; let a := berthKey r.coreKey b.toNat
    (t.slot r).occupied = false ∧ t.loadNat (a + 2) 2 = 1 ∧ t.loadNat (a + 28) 4 = codeNum c + 256 * k ∧ t.loadNat (a + 26) 1 = k ∧
    ∃ q, (t.core r.coreKey).berth b = .returning c (some q) ∧ q.task = (s.slot r).task)

/-- R409-R412: the first record of a buffer goes to the ring in SEQ order, or is offered again 4,096 cycles after it found the
ring full. -/
def Obligations.FaultBuffer : Prop :=
  (∀ (s : State) (d : Nat), let x := s.die d; let lg := (x.eqsize.extractLsb' 0 5).toNat
    let full := ¬(6 ≤ lg ∧ lg ≤ 16) ∨ (x.eqtail - x.eqhead).toNat = 2 ^ lg
    let fresh := x.blocked = false; let due := x.blocked = true ∧ x.lastOffer + 4096 ≤ s.cycle
    (¬fresh ∨ x.faults = [] ∨ s.dead d = true → exec (.faultRecordDrain d) s = .next s) ∧
    (¬due ∨ x.faults = [] ∨ s.dead d = true → exec (.faultRecordOffer d) s = .next s) ∧
    ∀ i, (i = .faultRecordDrain d ∧ fresh) ∨ (i = .faultRecordOffer d ∧ due) → s.dead d = false → x.faults ≠ [] →
      (full → exec i s = .next (s.modDie d fun y => { y with blocked := true, lastOffer := s.cycle })) ∧
      (∀ f t, x.faults = f :: t → x.faultWait = [] → x.pageWait = [] → x.returns = [] → ¬full →
        exec i s = .next ({ (s.stores (5 * 2 ^ 50 + x.eqbase.toNat + 64 * (x.eqtail.toNat % 2 ^ lg)) f.bytes).modDie d fun y => { y with
          faults := t, eqtail := y.eqtail + 1, blocked := false, hold := y.hold && !decide (t.length ≤ 32 ∧ y.cfqHeld ≤ 512) } with
            msix := s.msix ++ [(d, 0)] } : State))) ∧
  (∀ (s : State) (d : Nat) (v : Word), let x := s.die d
    let beyond (base size : Word) : Prop := let lg := (size.extractLsb' 0 5).toNat; 6 ≤ lg ∧ lg ≤ 16 ∧ 2 ^ 50 < base.toNat + 64 * 2 ^ lg
    let bad : Out := .next (s.modDie d fun y => { y with lerr := y.lerr ||| 2 })
    (s.dead d = true → exec (.eqbase d v) s = .next s ∧ exec (.eqsize d v) s = .next s ∧ exec (.eqhead d v) s = .next s ∧
      exec (.cfqpop d v) s = .next s ∧ exec (.dbggo d) s = .next s) ∧
    (s.dead d = false →
      (v.extractLsb' 0 12 = 0 ∧ x.eqtail = x.eqhead ∧ ¬beyond v x.eqsize → exec (.eqbase d v) s = .next (s.modDie d fun y => { y with eqbase := v })) ∧
      (¬(v.extractLsb' 0 12 = 0 ∧ x.eqtail = x.eqhead ∧ ¬beyond v x.eqsize) → exec (.eqbase d v) s = bad) ∧
      (v.toNat < 32 ∧ x.eqtail = x.eqhead ∧ ¬beyond x.eqbase v → exec (.eqsize d v) s = .next (s.modDie d fun y => { y with eqsize := v })) ∧
      (¬(v.toNat < 32 ∧ x.eqtail = x.eqhead ∧ ¬beyond x.eqbase v) → exec (.eqsize d v) s = bad) ∧
      (v.toNat < 2 ^ 32 → exec (.eqhead d v) s = .next (s.modDie d fun y => { y with eqhead := BitVec.ofNat 32 v.toNat })) ∧
      (2 ^ 32 ≤ v.toNat → exec (.eqhead d v) s = bad) ∧
      (v.toNat = 0 ∨ x.cfqHeld < v.toNat → exec (.cfqpop d v) s = bad) ∧
      (0 < v.toNat → v.toNat ≤ x.cfqHeld → x.returns = [] → ∃ t, exec (.cfqpop d v) s = .next t ∧
        (t.die d).cfqHead = (x.cfqHead + v.toNat) % 1024 ∧ (t.die d).cfqHeld = x.cfqHeld - v.toNat ∧
        (t.die d).hold = (x.hold && !decide (x.faults.length ≤ 32 ∧ x.cfqHeld - v.toNat ≤ 512))))) ∧
  (∀ (s : State) (d : Nat), exec (.lerrRead d) s = .next ({ s.modDie d (fun y => { y with lerr := 0 }) with
    hostReply := some (bytesOf 8 (s.die d).lerr.toNat) } : State)) ∧
  (∀ (s : State) (d : Nat), let v := (s.die d).dbgsel
    let r : SlotRef := ⟨d, (v.extractLsb' 0 9).toNat, (v.extractLsb' 12 4).toNat, (v.extractLsb' 16 3).toNat⟩; let x := s.slot r
    s.dead d = false →
    (x.occupied = false ∨ x.halt ≠ .debug → exec (.dbggo d) s = .next (s.modDie d fun y => { y with lerr := y.lerr ||| 2 })) ∧
    (x.occupied = true → x.halt = .debug → (∀ l, s.launch x.launch = some l → l.phase ≠ .halting) →
      exec (.dbggo d) s = .next (s.setSlot r { x with halt := .no, readyAt := max x.readyAt (s.cycle + 1) })) ∧
    (x.occupied = true → x.halt = .debug → (∃ l, s.launch x.launch = some l ∧ l.phase = .halting) →
      exec (.dbggo d) s = .next (s.setSlot r { x with halt := .preempt, readyAt := max x.readyAt (s.cycle + 1) }))) ∧
  (∀ s, exec .scrub s = .next s) ∧
  (∀ (s : State) (ga : Word), let k := ga.toNat % 2 ^ 54
    (1 ≤ k / 2 ^ 50 → k / 2 ^ 50 ≤ 4 → ∃ t, exec (.uncorrectableError ga none) s = .next t ∧ t.isRetired k = true ∧
      SMap.get t.ue false k = true ∧ t.mem = s.mem ∧ (∀ p ∈ t.rounds, gaKey p.ga / 65536 ≠ k / 65536) ∧
      (∀ i < 16, (SMap.get t.plots Plot.reset (k / 65536 * 16 + i)).attr = (SMap.get s.plots Plot.reset (k / 65536 * 16 + i)).attr ||| (1#64 <<< 61)) ∧
      ∀ q, isHere t q = true → exec (.uncorrectableError ga (some q)) s =
        .next ((asyncFault t q.slot.die q .memUe none (some (gaOf t k))).modSlot q.slot fun x => { x with
          faultPending := x.faultPending ||| (1#8 <<< scopeOf t.sliceMoved q.slot k) })) ∧
    (k / 2 ^ 50 = 0 → let core := k / 2 ^ 33; let atWord (w : BankWait) : Prop := w.off / 8 = k % 2 ^ 19 / 8;
      ∃ t, exec (.uncorrectableError ga none) s = .next t ∧ t.mem = s.mem ∧ t.frameAttr = s.frameAttr ∧ SMap.get t.ue false k = true ∧
        ((∀ w ∈ (s.core core).banks, ¬atWord w) → t = { s with ue := SMap.set s.ue false k true }) ∧
        (∀ w, (s.core core).banks = [w] → atWord w → isHere s w.req = true → (t.core core).banks = [] ∧
          t.slot w.req.slot = { s.slot w.req.slot with
            answers := (s.slot w.req.slot).answers ++ [⟨w.xid, some .memUe, gaOf s k, 0, 0, []⟩] }) ∧
        ∀ q, isHere t q = true → core = q.slot.coreKey →
          exec (.uncorrectableError ga (some q)) s = .next (faultTask t q.slot .memUe ⟨(t.slot q.slot).pc, none, some (gaOf t k), 0⟩)))

/-- R203, R361, R367-R370, R396, R399, R403, R409-R412, R415, R460, R463-R465: the registers at their addresses, host accesses to
memory, FABEN, PKGID, FATTR and snapshots. The two ways that the model numbers BAR 4 (CXL.mem) and 6, an absent function's ones, FATTR
in one step, also on an expander's frame, and what a lost die answers are the model's choice (logs 13, 14, 18, 44, 52, 56, 59). -/
def Obligations.HostInterface : Prop :=
  (∀ (s : State) (d : Nat) (v : Word), d < 16 → s.dead d = false →
    let bad : Out := .next (s.modDie d fun y => { y with lerr := y.lerr ||| 2 }); let n := (v.extractLsb' 0 6).toNat
    let cmd := v.extractLsb' 8 3; let seq := (v.extractLsb' 0 32).toNat; let act := v.extractLsb' 32 2
    (exec (.controlRegisterWrite d 0x41000 v) s = exec (.lsubmit d) s) ∧
    (exec (.controlRegisterWrite d 0x41010 v) s = if v &&& ~~~0x73F#64 ≠ 0 then bad else if cmd = 1 then exec (.lcmdPreempt d n) s
      else if cmd = 2 then exec (.lcmdResume d n) s else if cmd = 3 then exec (.lcmdTearDown d n) s
      else if cmd = 4 then exec (.lcmdRelease d n) s else bad) ∧
    (exec (.controlRegisterWrite d 0x51010 v) s = exec (.tsgo d) s) ∧
    (exec (.controlRegisterWrite d 0x52000 v) s = if v &&& ~~~0x3FFFFFFFF#64 ≠ 0 then bad else if act = 1 then exec (.prespRetry d seq) s
      else if act = 2 then exec (.prespDeny d seq) s else bad) ∧
    (exec (.controlRegisterWrite d 0x53008 v) s = exec (.eqbase d v) s) ∧ (exec (.controlRegisterWrite d 0x53010 v) s = exec (.eqsize d v) s) ∧
    (exec (.controlRegisterWrite d 0x53018 v) s = exec (.eqhead d v) s) ∧ (exec (.controlRegisterWrite d 0x54008 v) s = exec (.cfqpop d v) s) ∧
    (exec (.controlRegisterWrite d 0x55010 v) s = exec (.dbggo d) s) ∧
    (exec (.controlRegisterWrite d 0x51000 v) s = if v &&& ~~~0xFFFFFFFFFF0000#64 = 0 then .next (s.modDie d fun y => { y with tsva := v }) else bad) ∧
    (exec (.controlRegisterWrite d 0x51008 v) s = if v &&& ~~~0xFFFFFFFFFFFF#64 = 0 then .next (s.modDie d fun y => { y with tslen := v }) else bad) ∧
    (exec (.controlRegisterWrite d 0x55000 v) s = if v &&& ~~~0x7F1FF#64 = 0 then .next (s.modDie d fun y => { y with dbgsel := v }) else bad) ∧
    (∀ off, off + 8 ≤ 0x40000 → ∃ t, exec (.controlRegisterWrite d off v) s = .next t ∧ t = s.modDie d (fun y => { y with lwin := (t.die d).lwin }) ∧
      ∀ i, SMap.get (t.die d).lwin 0 i = if off ≤ i ∧ i < off + 8 ∧ (lstatOf s d (i / 4096)).1 = 0 then v.extractLsb' (8 * (i - off)) 8
        else SMap.get (s.die d).lwin 0 i) ∧
    ∀ j < 64, (v.extractLsb' 0 16 ≠ 0 → exec (.controlRegisterWrite d (0x50000 + 8 * j) v) s = bad) ∧
      (v.extractLsb' 0 16 = 0 → ∃ t, exec (.controlRegisterWrite d (0x50000 + 8 * j) v) s = .next t ∧ SMap.get (t.die d).lsave 0 j = v)) ∧
  (∀ (s : State) (d off : Nat) (v : Word), d < 16 → s.dead d = true → exec (.controlRegisterWrite d off v) s = .next s) ∧
  (∀ (s : State) (v : Word), let unit := fun (off : Nat) => exec (.controlRegisterWrite 0x3F off v) s; let kind := v.extractLsb' 0 4
    (unit 0 = .next (if v.toNat < 1024 ∧ s.faben = false then { s with pkgid := v.toNat } else s)) ∧
    (unit 8 = exec (.faben v) s) ∧ (unit 0x100 = exec (.snapctlTrigger v) s) ∧ (unit 0x200 = exec (.fattr v) s) ∧
    (unit 0x300 = if kind = 1 then exec (.repairCore v) s else if kind = 2 then exec (.repairDie v) s else if kind = 3 then exec (.repairSlice v) s
      else if kind = 4 then exec (.repairPort v) s else if kind = 5 then exec (.repairWavelength v) s else .next { s with repairRefused := true })) ∧
  (∀ (s : State) (ctl off : Nat) (v : Word), exec (.controlRegisterWrite 16 off v) s = .next s ∧
    (¬(ctl ≤ 0x10 ∨ (0x18 ≤ ctl ∧ ctl ≤ 0x21) ∨ ctl = 0x3F) → exec (.controlRegisterWrite ctl off v) s = .next s) ∧
    (0x18 ≤ ctl → ctl ≤ 0x21 → off % 8 = 0 → off < 2 ^ 24 → ∃ t, exec (.controlRegisterWrite ctl off v) s = .next t ∧
    t = { s with ioRegs := t.ioRegs } ∧ ∀ i < 8, SMap.get t.ioRegs 0 (ctl * 2 ^ 24 + off + i) = v.extractLsb' (8 * i) 8)) ∧
  (∀ (s : State) (a : BarAcc) (n : Nat), let x := s.die a.fn; let unit := if a.fn < 16 then a.fn else 0x3F
    (a.bar ≤ 2 → a.fn < 16 → s.dead a.fn = true → ∀ bs, exec (.hostWrite a bs) s = .next s ∧ ∃ t r, exec (.hostRead a n) s = .next t ∧
      t.hostReply = some r ∧ r.length = n ∧ t = { s with hostReply := t.hostReply, draws := t.draws }) ∧
    (a.fn ≤ 16 → s.dead a.fn = false → a.bar = 0 → a.off % 8 = 0 → a.off < 2 ^ 24 →
      (∀ v : Word, 0x40000 ≤ a.off ∨ a.fn = 16 → exec (.hostWrite a (bytesOf 8 v.toNat)) s = exec (.controlRegisterWrite unit a.off v) s) ∧
      (∀ bs, a.fn < 16 → a.off + bs.length ≤ 0x40000 → ∃ t, exec (.hostWrite a bs) s = .next t ∧
        ∀ i < bs.length, SMap.get (t.die a.fn).lwin 0 (a.off + i) =
          if (lstatOf s a.fn ((a.off + i) / 4096)).1 = 0 then bs.getD i 0 else SMap.get x.lwin 0 (a.off + i)) ∧
      (a.fn < 16 → a.off ≠ 0x41018 → (a.off < 0x60000 ∨ 0x6E000 ≤ a.off) → exec (.hostRead a 8) s = .next { s with hostReply := some (bytesOf 8 (dieRegister s a.fn a.off)) }) ∧
      (a.fn < 16 → a.off = 0x41018 → exec (.hostRead a 8) s = exec (.lerrRead a.fn) s) ∧
      (a.fn = 16 → exec (.hostRead a 8) s = .next { s with hostReply := some (bytesOf 8 (packageRegister s a.off)) })) ∧
    ((a.bar = 0 ∧ 16 < a.fn) ∨ (a.bar = 6 ∧ ¬(a.fn ≤ 0x10 ∨ (0x18 ≤ a.fn ∧ a.fn ≤ 0x21) ∨ a.fn = 0x3F)) ∨
        (a.bar = 0 ∧ a.fn ≤ 16 ∧ s.dead a.fn = false ∧ 2 ^ 24 ≤ a.off) → exec (.hostRead a n) s = .next { s with hostReply := some (List.replicate n 0xFF) } ∧
      ∀ bs, exec (.hostWrite a bs) s = .next s) ∧
    (∀ k, a.bar = 2 → a.fn = 16 → a.off + n ≤ 0x30000000 → k = 2 * 2 ^ 50 + a.off / 0x180000 * 2 ^ 41 + a.off % 0x180000 →
      a.off % 0x180000 + n ≤ 0x180000 → s.dead (s.homeDie k) = false → (∀ i < n, s.isRetired (k + i) = false ∧ s.isLattice (k + i) = false) →
      exec (.hostRead a n) s = .next { s with hostReply := some (s.loads k n) } ∧ ∀ bs, bs.length = n → exec (.hostWrite a bs) s = .next (s.stores k bs)) ∧
    (∀ k, (a.bar = 2 ∧ a.fn < 16 ∧ s.dead a.fn = false ∧ a.off + n ≤ 0xB80000000 ∧ k = 3 * 2 ^ 50 + a.fn * 2 ^ 46 + a.off) ∨
        (a.bar = 4 ∧ a.fn < 2 ∧ a.off + n ≤ 1536 * 2 ^ 30 - b2n (decide (a.fn = 1)) * 8 * 2 ^ 30 ∧ k = 4 * 2 ^ 50 + a.fn * (1536 * 2 ^ 30) + a.off) →
      ((∀ i < n, s.isRetired (k + i) = false ∧ s.isLattice (k + i) = false) →
        exec (.hostRead a n) s = .next { s with hostReply := some (s.loads k n) } ∧
        ∀ bs, bs.length = n → exec (.hostWrite a bs) s = .next (s.stores k bs)) ∧
      (n = 1 → a.bar = 2 → s.isRetired k = false → s.isLattice k = true → plotValid (s.plot k).attr = true → plotFrozen (s.plot k).attr = false →
        exec (.hostRead a n) s = .next { s.record a.fn (recordFor 0 1 .unfrozenRead none (some (gaOf s k)) 0) with hostReply := some [0xFF] } ∧
        ∀ b, exec (.hostWrite a [b]) s = .next (s.record a.fn (recordFor 0 1 .prot none (some (gaOf s k)) 0))) ∧
      (n = 1 → a.bar = 2 → s.isRetired k = true →
        exec (.hostRead a n) s = .next { s.record a.fn (recordFor 0 1 .memUe none (some (gaOf s k)) 0) with hostReply := some [0xFF] } ∧
        ∀ b, exec (.hostWrite a [b]) s = .next (s.record a.fn (recordFor 0 1 .memUe none (some (gaOf s k)) 0))))) ∧
  (∀ (s : State) (e : Nat), e < 64 → exec (.hostRead ⟨16, 6, 0x8000 + 32 * e⟩ 32) s = .next { s with hostReply := some (match SMap.get s.seeds none e with
    | some x => bytesOf 8 x.seed.toNat ++ bytesOf 8 x.base.toNat ++ bytesOf 8 x.len.toNat ++ bytesOf 2 x.launch ++ [1, 0, 0, 0, 0, 0]
    | none => List.replicate 32 0) }) ∧
  (∀ (s : State) (v : Word), (v ≠ 1 ∨ s.faben = true → exec (.faben v) s = .next s) ∧
    (v = 1 → s.faben = false → ∃ t, exec (.faben v) s = .next t ∧
      t = { s with faben := true, discDone := t.discDone, links := t.links, transits := t.transits, xid := t.xid, draws := s.draws + 64 } ∧
      (∀ e : LinkEnd, ¬(e.granary = true ∧ 1024 ≤ e.port ∧ e.port < 1088) → t.link e = s.link e) ∧
      (∀ i < 64, t.link ⟨1024 + i, true⟩ = if Config.trains (s.draws + i) then { Link.reset with
        trained := true, fenced := true, credits := Vector.replicate 4 64 } else s.link ⟨1024 + i, true⟩) ∧
      (t.discDone = true ↔ s.discDone = true ∨ ∀ i < 64, (t.link ⟨1024 + i, true⟩).trained = false ∨ (t.link ⟨1024 + i, true⟩).heard = true))) ∧
  (∀ (s : State) (v : Word), let t : State := { s with snapEnable := v.toNat % 65536 }
    exec (.snapctlTrigger v) s = .next (if (v.extractLsb' 17 15).toNat ≠ 0 then s else if v.getLsbD 16 then
      match s.snapAt with | some _ => t | none => { t with snapAt := some (s.cycle + 128) } else t)) ∧
  (∀ (s : State), ((∀ c, s.snapAt = some c → s.cycle < c) → exec .snapshotLatch s = .next s) ∧
    (∀ c, s.snapAt = some c → c ≤ s.cycle → ∃ t, exec .snapshotLatch s = .next t ∧ t.snapSeq = s.snapSeq + 1 ∧ t.snapAt = none ∧
      ∀ k, t.core k = { s.core k with latched := { (s.core k).snap with
        parked := (s.core k).snap.parked + BitVec.ofNat 64 ((List.range 8).map fun j => lostTurns s (refOf k j)).sum } })) ∧
  (∀ (s : State) (v : Word), let k := v.toNat % 2 ^ 54 / 65536 * 65536; let low := v.toNat % 65536
    let here := v.toNat / 2 ^ 54 = s.pkgid ∧ 1 ≤ k / 2 ^ 50 ∧ k / 2 ^ 50 ≤ 4 ∧ coordsOk (k / 2 ^ 50) (k % 2 ^ 50) = true ∧ reservedKey k = false
    let idle := ∀ i < 16, plotValid (s.plot (k + 4096 * i)).attr = true → plotFrozen (s.plot (k + 4096 * i)).attr = true
    (here ∧ low < 3 ∧ s.isRetired k = false ∧ idle → ∃ t, exec (.fattr v) s = .next t ∧ t.fattrRefused = false ∧
      t = { s with plots := t.plots, frameAttr := t.frameAttr, fattrRefused := false } ∧ t.attr k = BitVec.ofNat 64 low ∧
      (∀ j, j / 65536 ≠ k / 65536 → t.attr j = s.attr j ∧ t.plot j = s.plot j) ∧ ∀ i < 16, plotValid (t.plot (k + 4096 * i)).attr = false) ∧
    (¬(here ∧ low < 3 ∧ s.isRetired k = false ∧ idle) → exec (.fattr v) s = .next { s with fattrRefused := true }))

/-! ## Links -/

/-- The TYPE of a message's packet (R447; those of requests that R447 does not name are log 2's). -/
def Sys2Proof.Spec.typeOf (m : Instr) : Option Nat :=
  match m with
  | .storeData _ => some 0x01
  | .loadReply _ => some 0x02
  | .tileFill _ => some 0x03
  | .tileDelivery _ _ => some 0x04
  | .copyData _ _ _ _ => some 0x05
  | .joinPacket _ => some 0x10
  | .valueCountRequest _ => some 0x11
  | .thresholdRegistration _ => some 0x12
  | .exactRead _ => some 0x13
  | .interest _ _ _ => some 0x14
  | .plotRequest _ => some 0x15
  | .freezeRequest _ => some 0x15
  | .closeRequest _ => some 0x15
  | .nameResolution _ => some 0x15
  | .tensorTableWrite _ => some 0x15
  | .thresherSort _ => some 0x15
  | .seedRegistryRequest _ => some 0x15
  | .loadRequest _ => some 0x16
  | .berthReservation _ => some 0x20
  | .capsuleTransfer _ => some 0x21
  | .capsuleReturn _ => some 0x21
  | .acknowledgement _ => some 0x30
  | .wake _ => some 0x31
  | .maccSlotReady _ _ => some 0x31
  | .armFire _ _ _ => some 0x31
  | .neverAnswer _ _ => some 0x32
  | .purge _ _ _ _ => some 0x33
  | .berthGrant _ => some 0x34
  | .channelChange _ => some 0x35
  | .shootDown _ _ => some 0x36
  | .pressPacket _ => some 0x37
  | .discover _ _ => some 0x38
  | .portsync _ _ => some 0x39
  | _ => none

/-- One bit of a CRC by the polynomial of IEEE 802.3, the register's highest bit first. -/
def Sys2Proof.Spec.crcBit (c : BitVec 32) (b : Bool) : BitVec 32 := if c.getLsbD 31 != b then (c <<< 1) ^^^ 0x04C11DB7#32 else c <<< 1

/-- The 268 bytes that CHK covers (R445). -/
def Sys2Proof.Spec.checked (f : Flit) : List Byte :=
  ((List.range 12).map fun i => f.ctrl.extractLsb' (8 * i) 8) ++ f.slots.flatMap fun x => (List.range 64).map fun i => x.extractLsb' (8 * i) 8

/-- R445: CHK is the CRC-32 of IEEE 802.3; a flit passes when it agrees, no reserved bit is set and no slot without data has CONT or LAST. -/
def Sys2Proof.Spec.Check : Prop :=
  (∀ (bs : List Byte) (i : Nat), i < 32 → (crc32 bs).getLsbD i =
    !((bs.flatMap fun b => (List.range 8).map b.getLsbD).foldl Spec.crcBit (BitVec.allOnes 32)).getLsbD (31 - i)) ∧
  ∀ f : Flit, flitOk f = true ↔ f.slots.length = 4 ∧ f.ctrl.extractLsb' 96 32 = crc32 (Spec.checked f) ∧ f.ctrl.extractLsb' 20 12 = 0 ∧
    f.ctrl.extractLsb' 65 15 = 0 ∧ ∀ k < 4, f.ctrl.getLsbD (8 + k) = false → f.ctrl.getLsbD (12 + k) = false ∧ f.ctrl.getLsbD (16 + k) = false

/-- R448: which channel a slot position takes, a new flit's bits and slots, and the queues that packets enter. -/
def Sys2Proof.Spec.SlotOrder : Prop :=
  (∀ (l : Link) (c : Nat), let ready := fun c : Nat => c < 4 ∧ l.out.getD c [] ≠ [] ∧ 0 < l.credits.getD c 0
    let starved := fun c => ready c ∧ 15 ≤ l.idle.getD c 0
    (nextChannel l false = some c ↔ ready c ∧ ∀ d, ready d → d ≤ c) ∧
    (nextChannel l true = some c ↔ (starved c ∧ ∀ d, starved d → d ≤ c) ∨ ((∀ d, ¬ starved d) ∧ ready c ∧ ∀ d, ready d → d ≤ c))) ∧
  (∀ (l : Link) (n : Nat) (first : Bool),
    (nextChannel l first = none → fillSlots n first l = ([], l)) ∧
    ∀ c p t x xs, nextChannel l first = some c → l.out.getD c [] = p :: t → p.slots = x :: xs →
      let m : Link := { l with
        out := l.out.setIfInBounds c (if xs = [] then t else { p with slots := xs } :: t), begun := l.begun.setIfInBounds c (decide (xs ≠ []))
        credits := l.credits.setIfInBounds c (l.credits.getD c 0 - 1) }
      fillSlots (n + 1) first l = (⟨c, x, l.begun.getD c false || p.goesOn, decide (xs = [])⟩ :: (fillSlots n false m).1, (fillSlots n false m).2)) ∧
  (∀ l : Link, let xs := (fillSlots 4 true l).1; let f := (newFlit l).1
    (∀ k < 4, f.ctrl.getLsbD (8 + k) = decide (k < xs.length) ∧ (f.slots.getD k 0) = ((xs[k]?).map Filled.data).getD 0 ∧
      f.ctrl.extractLsb' (2 * k) 2 = BitVec.ofNat 2 (((xs[k]?).map Filled.chan).getD 0) ∧
      f.ctrl.getLsbD (12 + k) = ((xs[k]?).map Filled.cont).getD false ∧ f.ctrl.getLsbD (16 + k) = ((xs[k]?).map Filled.last).getD false) ∧
    ∀ c < 4, (newFlit l).2.idle.getD c 0 =
      if ∃ x ∈ xs, x.chan = c then 0 else if l.out.getD c [] ≠ [] ∧ 0 < l.credits.getD c 0 then l.idle.getD c 0 + 1 else 0) ∧
  ∀ (s : State) (e : LinkEnd) (c : Nat), c < 4 → (enqueue s e).out.getD c [] = (s.link e).out.getD c [] ++
    (((s.transits.filter fun t => decide (t.hops.head? = some e ∧ ((s.link e).isOpen = true ∨ Spec.typeOf t.msg = some 0x38))).filter fun t =>
      decide (t.xid ∉ (s.link e).taken)).map (packetOf s)).filter fun p => decide (p.chan = c)

/-- R444, R445, R448, R450: a flit that is sent carries the next SEQ, the last SEQ accepted, a sound CHK, and is kept until it is
acknowledged; a sound flit in order is accepted, a duplicate is discarded and any other asks for replay. -/
def Sys2Proof.Spec.Flits : Prop :=
  (∀ (s : State) (e : LinkEnd), let l := enqueue s e; let far : LinkEnd := ⟨e.port, !e.granary⟩
    (sendReady s e = false → exec (.flitSend e) s = .next s) ∧
    (sendReady s e = true → (∀ f t, l.again = f :: t → exec (.flitSend e) s = .next { (s.setLink e { l with
        again := t, resent := if l.replay.head? = some f then l.resent + 1 else l.resent }) with agenda := s.agenda ++ [.flitReceive far f] }) ∧
      (l.again = [] → ∃ f t, exec (.flitSend e) s = .next t ∧ t.agenda = s.agenda ++ [.flitReceive far f] ∧ flitOk f = true ∧ f = (newFlit l).1 ∧
        f.ctrl.extractLsb' 32 16 = l.seq + 1 ∧ f.ctrl.extractLsb' 48 16 = l.lastRx ∧ f.ctrl.getLsbD 64 = l.nak ∧ f.slots.length = 4 ∧
        (t.link e).seq = l.seq + 1 ∧ (t.link e).replay = l.replay ++ [f] ∧ (t.link e).lastRx = l.lastRx ∧ (t.link e).due = false ∧
        (∀ c < 4, (f.ctrl.extractLsb' (80 + 4 * c) 4).toNat = min 15 (l.give.getD c 0)) ∧
        (∀ c < 4, (t.link e).credits.getD c 0 + ((List.range 4).filter fun k => f.ctrl.getLsbD (8 + k) && decide ((f.ctrl.extractLsb' (2 * k) 2).toNat = c)).length =
          l.credits.getD c 0)))) ∧
  (∀ (s : State) (e : LinkEnd) (f : Flit), let l := s.link e; let seq := f.ctrl.extractLsb' 32 16; let ack := f.ctrl.extractLsb' 48 16
    (l.trained = false → exec (.flitReceive e f) s = .next s) ∧
    (l.trained = true → flitOk f = false → exec (.flitReceive e f) s = .next (s.setLink e { l with nak := true, due := true })) ∧
    (l.trained = true → flitOk f = true → seq ≠ l.lastRx + 1 → exec (.flitReceive e f) s = .next (s.setLink e
      (if (l.lastRx - seq).toNat < 2 ^ 15 then { l with due := true } else { l with nak := true, due := true }))) ∧
    (l.trained = true → flitOk f = true → seq = l.lastRx + 1 → ∃ t, exec (.flitReceive e f) s = .next t ∧
      (t.link e).lastRx = seq ∧ (t.link e).nak = false ∧
      (∀ g, g ∈ (t.link e).replay ↔ g ∈ l.replay ∧ 2 ^ 15 ≤ (ack - g.ctrl.extractLsb' 32 16).toNat) ∧
      (∀ c < 4, (t.link e).credits.getD c 0 = l.credits.getD c 0 + (f.ctrl.extractLsb' (80 + 4 * c) 4).toNat) ∧
      (t.stuck = s.stuck → ∀ c < 4, (t.link e).give.getD c 0 = l.give.getD c 0 +
        ((List.range 4).filter fun k => f.ctrl.getLsbD (8 + k) && decide ((f.ctrl.extractLsb' (2 * k) 2).toNat = c)).length) ∧
      (∃ held, t.stuck = s.stuck ++ held ∧ (∀ x ∈ held, x.2.1 = e ∧ storePlaces x.1 ≤ (storeOf s x.1).length ∧ typeChannel (contents s x.2.2).kind = some 1) ∧
        ((List.range 4).map fun c => (t.link e).give.getD c 0).sum + held.length = ((List.range 4).map fun c => l.give.getD c 0).sum +
          ((List.range 4).filter fun k => f.ctrl.getLsbD (8 + k)).length) ∧
      (f.ctrl.getLsbD 64 = true → (t.link e).again = (t.link e).replay) ∧ (t.link e).out = l.out ∧
      (∀ d, d ≠ e → t.link d = s.link d)))

/-- R447: the TYPE of every message, the channel of every TYPE, and what becomes of a packet on another channel. -/
def Sys2Proof.Spec.Types : Prop :=
  (∀ (s : State) (m : Instr) (k : Nat), Spec.typeOf m = some k → (envelope s m).kind = k) ∧
  (∀ k c : Nat, typeChannel k = some c ↔ (c, k) ∈ ([1, 2, 3, 4, 5, 6].map fun k => (0, k)) ++
    ([0x10, 0x11, 0x12, 0x13, 0x14, 0x15, 0x16].map fun k => (1, k)) ++ [(2, 0x20), (2, 0x21)] ++
    ([0x30, 0x31, 0x32, 0x33, 0x34, 0x35, 0x36, 0x37, 0x38, 0x39].map fun k => (3, k))) ∧
  ∀ (s : State) (e : LinkEnd) (f : Flit), let l := s.link e; let c := (f.ctrl.extractLsb' 0 2).toNat
    let kind := ((f.slots.getD 0 0).extractLsb' 0 8).toNat
    l.trained = true → flitOk f = true → f.ctrl.extractLsb' 32 16 = l.lastRx + 1 → f.ctrl.extractLsb' 8 4 = 1 → f.ctrl.getLsbD 12 = false →
    f.ctrl.getLsbD 16 = true → l.parts.getD c [] = [] → typeChannel kind ≠ some c →
    ∃ t, exec (.flitReceive e f) s = .next t ∧ t.agenda = s.agenda ∧ t.transits = s.transits ∧ t.stuck = s.stuck ∧
      (t.link e).errors = l.errors + 1 ∧ (t.link e).parts.getD c [] = []

/-- R12, R446, R447: the packet of a message: its TYPE, CODE, slot count, transaction, GA, source and ARG, then its data, cut in
slots of 64 bytes; and the channel that the TYPE fixes. Requests without a TYPE of their own use 0x15 (log 2). -/
def Sys2Proof.Spec.Packets : Prop :=
  ∀ (s : State) (t : Transit), let v := envelope s t.msg; let p := packetOf s t
    p.xid = t.xid ∧ p.slots.length = 1 + (v.data.length - 32 + 63) / 64 ∧ typeChannel v.kind = some p.chan ∧
    ((v.code.map codeNum).getD 0 < 256 ∧ ∀ h ∈ p.slots.head?, h.extractLsb' 0 8 = BitVec.ofNat 8 v.kind ∧
      (h.extractLsb' 8 8).toNat = (v.code.map codeNum).getD 0 ∧ h.extractLsb' 16 16 = BitVec.ofNat 16 p.slots.length ∧
      h.extractLsb' 32 32 = BitVec.ofNat 32 t.xid ∧ h.extractLsb' 64 64 = v.ga ∧ h.extractLsb' 128 64 = v.src ∧
      h.extractLsb' 192 64 = v.arg) ∧
    ∀ i, 32 + i < 64 * p.slots.length → (p.slots.getD ((32 + i) / 64) 0).extractLsb' (8 * ((32 + i) % 64)) 8 = v.data.getD i 0

/-- R444, R445, R448, R450: a flit that is sent carries the next SEQ, the last SEQ accepted, a sound CHK, and is kept until it
is acknowledged; its slots are taken from the highest channels that may send, a starved one first; a sound flit in order is accepted,
a duplicate is discarded and any other asks for replay. R12, R446, R447: the TYPE of every message and the channel that it fixes; the
packet of a message: its TYPE, CODE, slot count, transaction, GA, source and ARG, then its data, cut in slots of 64 bytes. The TYPEs of
requests that R447 does not name, and the start, bit order and end of the CRC, are the model's (log 2). -/
def Obligations.Links : Prop := Spec.Check ∧ Spec.SlotOrder ∧ Spec.Flits ∧ Spec.Types ∧ Spec.Packets

/-- R444, R450, R451, R454-R457: an end that trains starts anew and sends its descriptor; a descriptor opens the end or keeps it
fenced, and the last one of a die initialises it; a port fails, trains again or is fenced, both ends say what they accepted, and what
was not accepted takes another port; a spare takes the symbols of a failed wavelength, or their lane is shut. Which ports train and
which port a packet takes are free (logs 10, 13); whose buffer a LINK_LOST record enters is the model's choice (log 13). -/
def Obligations.PortsAndWaves : Prop :=
  (∀ (s : State) (e : LinkEnd), exec (.portTrained e) s = .next { (s.setLink e { Link.reset with
      trained := true, fenced := true, credits := Vector.replicate 4 64 }) with
    xid := s.xid + 1
    transits := s.transits ++ [⟨s.xid, .discover ⟨e.port, !e.granary⟩ (descriptor s e), [e]⟩] }) ∧
  (∀ (s : State) (e : LinkEnd) (x : BitVec 512), let l := s.link e; let d := portDie e.port; let bs := bytesOf 64 x.toNat; let cls := (x.extractLsb' 0 8).toNat
    let s1 := settleFabric (s.setLink e { l with heard := true }); let calm := 16 ≤ d ∨ (s.die d).inReset = false
    (l.trained = false → exec (.discover e x) s = .next s) ∧
    (l.trained = true → calm →
      (descriptorOk bs = false → exec (.discover e x) s = .next (portRecord s1 e)) ∧
      (descriptorOk bs = true → classFits e cls = false → (e.granary = false ∨ 592 ≤ e.port) → exec (.discover e x) s = .next s1) ∧
      (descriptorOk bs = true → classFits e cls = false → e.granary = true → e.port < 592 → ∃ t, exec (.discover e x) s = .next t ∧
        (∀ p ∈ portsOf d, ∀ g, (t.link ⟨p, g⟩).fenced = true ∧ (t.link ⟨p, g⟩).trained = false) ∧ (d < 16 → (t.die d).fenced = true)) ∧
      (descriptorOk bs = true → classFits e cls = true → e.port < 1024 →
        exec (.discover e x) s = .next (s1.setLink e { l with heard := true, fenced := false })) ∧
      (descriptorOk bs = true → cls = 2 → 1024 ≤ e.port → exec (.discover e x) s =
        .next (if (x.extractLsb' 32 10).toNat = s.pkgid then { s1 with discConflict := true }
          else s1.setLink e { l with heard := true, fenced := false }))) ∧
    (l.trained = true → d < 16 → (s.die d).inReset = true → (s.die d).fenced = false → descriptorOk bs = true → classFits e cls = true → e.port < 512 →
      let t := s1.setLink e { l with heard := true, fenced := false }
      exec (.discover e x) s = .next (if discovered t d = true then initDie t d else t))) ∧
  (∀ (s : State) (e : LinkEnd), (s.discDone = true → (settleFabric s).discDone = true) ∧
    (s.discDone = false → ((settleFabric s).discDone = true ↔ s.faben = true ∧ ∀ i < 64, (s.link ⟨1024 + i, true⟩).trained = false ∨ (s.link ⟨1024 + i, true⟩).heard = true)) ∧
    settleFabric s = { s with discDone := (settleFabric s).discDone } ∧
    portRecord s e = s.record (if e.port < 512 then portDie e.port else ((List.range 16).find? fun d => !s.dead d).getD 0) (recordFor 0 1 .linkLost none none 0)) ∧
  (∀ (s : State) (d : Nat), ∃ t, initDie s d = t ∧ (t.die d) = { s.die d with inReset := false } ∧
    (∀ i < 64, plotValid (t.plot (slotPlotKey d i)).attr = true ∧ t.isLattice (slotPlotKey d i) = true) ∧
    plotValid (t.plot (lcountKey d)).attr = true ∧ t.isLattice (lcountKey d) = true) ∧
  (∀ (s : State) (e : LinkEnd), let l := s.link e; let d := portDie e.port
    (l.trained = false ∨ l.heard = true → exec (.discoverTimeout e) s = .next s) ∧
    (l.trained = true → l.heard = false → (16 ≤ d ∨ (s.die d).inReset = false) →
      exec (.discoverTimeout e) s = .next (portRecord (settleFabric (s.setLink e { l with heard := true })) e))) ∧
  (∀ (s : State), (s.booted = true → exec .packageBoot s = .next s) ∧
    (s.booted = false → ∃ t, exec .packageBoot s = .next t ∧
      t = { s with booted := true, links := t.links, transits := t.transits, xid := t.xid, draws := s.draws + 592 } ∧
      (∀ e : LinkEnd, 592 ≤ e.port → t.link e = s.link e) ∧
      ∀ p < 592, if Config.trains (s.draws + p) then (t.link ⟨p, true⟩).trained = true ∧ (t.link ⟨p, false⟩).trained = true
        else t.link ⟨p, true⟩ = s.link ⟨p, true⟩ ∧ t.link ⟨p, false⟩ = s.link ⟨p, false⟩)) ∧
  (∀ (s : State) (e : LinkEnd), let l := s.link e; let t : State := { s with draws := s.draws + 1 }
    (l.trained = false ∨ l.resent < 16 → exec (.portRetrain e) s = .next s) ∧
    (l.trained = true → 16 ≤ l.resent → Config.trains s.draws = true →
      exec (.portRetrain e) s = .next (t.setLink e { l with resent := 0, again := l.replay })) ∧
    (l.trained = true → 16 ≤ l.resent → Config.trains s.draws = false → exec (.portRetrain e) s = exec (.portFence e) t)) ∧
  (∀ (s : State) (e : LinkEnd), let d := portDie e.port; let f := fenceEnds s e.port
    (∀ g, let l := s.link ⟨e.port, g⟩; f.link ⟨e.port, g⟩ = { l with trained := false, fenced := true, again := [] }) ∧
    (592 ≤ e.port → exec (.portFence e) s = .next f) ∧
    (e.port < 592 → f.working d = [] → exec (.portFence e) s = .next (if d < 16 then loseDie f d else f)) ∧
    (e.port < 592 → f.working d ≠ [] → ∃ t r1 r2, exec (.portFence e) s = .next t ∧ t = { f with
      xid := s.xid + 2, transits := s.transits ++ [⟨s.xid, .portsync ⟨e.port, false⟩ (s.link ⟨e.port, true⟩).lastRx, r1⟩,
        ⟨s.xid + 1, .portsync ⟨e.port, true⟩ (s.link ⟨e.port, false⟩).lastRx, r2⟩] } ∧
      (∀ x ∈ r1 ++ r2, x.port ∈ f.working d))) ∧
  (∀ (s : State) (e : LinkEnd) (last : BitVec 16), (s.transits.map Transit.xid).Nodup → ∃ t, exec (.portsync e last) s = .next t ∧
    (t.link e).replay = [] ∧ (t.link e).out = Vector.replicate 4 [] ∧ (t.link e).taken = [] ∧
    t.transits.map Transit.xid = s.transits.map Transit.xid ∧ t.transits.map Transit.msg = s.transits.map Transit.msg ∧
    (∀ (i : Nat) (x y : Transit), s.transits[i]? = some x → t.transits[i]? = some y →
      y.hops.tail = x.hops.tail ∧ (x.hops.head? ≠ some e → y = x) ∧
      (x.hops.head? = some e → (s.link e).isOpen = false → s.working (portDie e.port) ≠ [] →
        ∃ p ∈ s.working (portDie e.port), y.hops.head? = some ⟨p, e.granary⟩))) ∧
  (∀ (l : Link) (last : BitVec 16) (c : Nat), c < 4 → l.replay = [] → l.begun.getD c false = false →
    (∀ p ∈ l.out.getD c [], p.chan = c ∧ p.slots ≠ [] ∧ p.goesOn = false) →
    unsent l last c = (l.out.getD c []).map fun p => { p with xid := 0 }) ∧
  (∀ (l : Link) (f : Flit) (last : BitVec 16) (c : Nat), l.replay = [f] → flitSeq f = last → unsent l last c = unsent { l with replay := [] } last c) ∧
  (∀ (s : State) (w : Wave) (n : Nat), exec (.symbolWindow w n) s = if 2048 < n then exec (.lossOfSignal w) s else .next s) ∧
  (∀ (s : State) (w : Wave), let k := 2 * w.port + w.fibre; let m := SMap.get s.waves Fibre.reset k; let e : LinkEnd := ⟨1024 + w.port, true⟩
    let spare := fun (j : Nat) => m.bad.getLsbD (16 + j) = false ∧ m.serves.getD j none = none ∧ 16 + j ≠ w.lambda
    let served := if w.lambda < 16 then some w.lambda else m.serves.getD (w.lambda - 16) none
    (18 ≤ w.lambda ∨ m.bad.getLsbD w.lambda = true → exec (.lossOfSignal w) s = .next s) ∧
    (w.lambda < 18 → m.bad.getLsbD w.lambda = false → ∃ t n, exec (.lossOfSignal w) s = .next t ∧ n = SMap.get t.waves Fibre.reset k ∧
      n.bad = m.bad ||| (1#18 <<< w.lambda) ∧
      (∀ d : LinkEnd, d.port ≠ 1024 + w.port → t.link d = s.link d) ∧ (t.link e).lanes = min (s.link e).lanes n.lanes ∧
      (t.link e).fenced = ((s.link e).fenced || decide (n.lanes = 0)) ∧
      (served = none → n.serves = m.serves ∧ n.shut = m.shut) ∧
      (∀ o, served = some o → m.shut.getLsbD (o / 8) = false → (∀ j < 2, ¬spare j) → n.shut = m.shut ||| (1#2 <<< (o / 8))) ∧
      (∀ o, served = some o → m.shut.getLsbD (o / 8) = false → (∃ j < 2, spare j) → n.shut = m.shut ∧ ∃ j < 2, spare j ∧ n.serves.getD j none = some o) ∧
      (∀ o, served = some o → m.shut.getLsbD (o / 8) = true → n.shut = m.shut))) ∧
  (∀ m : Fibre, m.lanes = ((List.range 2).filter fun j => !m.shut.getLsbD j).length)

/-! ## Resets -/

/-- R28, R386, R419-R422, R461, R464, R468: a die reset loses its tasks, its memories with the slices that repair moved to it, its
keys and its registers, and its function is in ERROR; the TDISP states follow one another; a hot junction halves the refill; a
critical one resets the die; the package function's reset clears its registers alone. What a package function reset clears and
when a function gets its keys are the model's choice (logs 43, 56). -/
def Obligations.Resets : Prop :=
  (∀ (s : State) (d : Nat), 16 ≤ d → exec (.dieReset d) s = .next s) ∧
  (∀ (s : State) (d : Nat), exec (.junctionCritical d) s = exec (.dieReset d) s) ∧
  (∀ (s : State) (d : Nat), d < 16 → ∃ t, exec (.dieReset d) s = .next t ∧
    t.die d = { Die.reset with tdisp := .error, fenced := (s.die d).fenced, hot := (s.die d).hot, worn := (s.die d).worn } ∧
    (∀ r : SlotRef, r.die = d → r.cluster < 512 → r.core < 16 → r.slot < 8 → t.slot r = Slot.empty) ∧
    (∀ c, c / 512 = d → t.port c = Port.reset ∧ t.queue c = []) ∧
    (∀ k, keyRegion k ≤ 3 → s.homeDie k = d →
      SMap.get t.mem 0 k = 0 ∧ SMap.get t.frameAttr 0 (k / 65536) = 0 ∧ SMap.get t.plots Plot.reset (k / 4096) = Plot.reset ∧ SMap.get t.ue false k = false) ∧
    ((∀ l ∈ s.live, l.saved = []) → ∀ k, keyRegion k = 4 ∨ keyRegion k = 5 ∨ s.homeDie k ≠ d →
      SMap.get t.mem 0 k = SMap.get s.mem 0 k)) ∧
  (∀ (s : State) (d : Nat), let x := s.die d
    exec (.stopInterface d) s = .next (s.setDie d { x with tdisp := .configUnlocked }) ∧
    (x.tdisp ≠ .configUnlocked → exec (.lockInterface d) s = .next s) ∧
    (x.tdisp = .configUnlocked → exec (.lockInterface d) s = .next ({ s.setDie d { x with
      tdisp := .configLocked, keys := some (x.keys.getD (Config.ideKey s.draws)) } with draws := s.draws + 1 } : State)) ∧
    exec (.startInterface d) s = .next (s.setDie d { x with tdisp := if x.tdisp = .configLocked then .run else x.tdisp })) ∧
  (∀ (s : State) (d : Nat), exec (.junctionCool d) s = .next (s.modDie d fun x => { x with hot := false }) ∧
    ∃ t, exec (.junctionHot d) s = .next t ∧ t = { s with dies := t.dies, cores := t.cores } ∧ t.die d = { s.die d with hot := true } ∧
      (∀ e, e ≠ d → t.die e = s.die e) ∧
      ∀ k, t.core k = if k / 8192 = d ∧ refillAmount s k = none then { s.core k with budget := 65535 } else s.core k) ∧
  (∀ (s : State) (core : Nat), leastEbud s core = none →
    refillAmount (s.modDie (core / 8192) fun x => { x with hot := false }) core = none ∧
    refillAmount (s.modDie (core / 8192) fun x => { x with hot := true }) core = some 32768) ∧
  (∀ (s : State) (core a : Nat), leastEbud s core = some a →
    refillAmount (s.modDie (core / 8192) fun x => { x with hot := false }) core = some a ∧
    refillAmount (s.modDie (core / 8192) fun x => { x with hot := true }) core = some (max 64 (a / 2))) ∧
  (∀ s : State, exec .packageFunctionReset s = .next { s with
    pkgid := 0, faben := false, discDone := false, discConflict := false, snapEnable := 0, snapSeq := 0, snapAt := none,
    fattrRefused := false, repairRefused := false, repairsDone := 0 })

/-! ## Encodings and the machine as a whole -/

/-- R147-R155, R170, R258, R269: words that the spec writes out, and what they decode to. -/
def Obligations.DecodeWords : Prop :=
  decodeWord 0x306A 0x00003079 = some (.rem ⟨.n, .s64, 10, 9, .ri 3⟩) ∧
  decodeWord 0x1162 0x0F0A = some (.ctz ⟨.s64, 2, 10⟩) ∧
  decodeWord 0x2262 0x000020 = some (.bc 2 ⟨1, 0⟩) ∧
  decodeWord 0x229C 0xFFFFC6 = some (.loop 12 ⟨0x7FFFE, 6⟩) ∧
  decodeWord 0x22A0 0x000049 = some (.call ⟨2, 9⟩) ∧
  decodeWord 0x32D1 0x0000413A = some (.ldTake ⟨.i, .s64, 1, ⟨4, 10, .ms 0⟩⟩) ∧
  decodeWord 0x37F4 0x009030D2 = some (.vtopk false 13 4 2 (.ri 0x903)) ∧
  decodeWord 0x3461 0x3E8000D0 = some (.vbcast 13 0 1 (.ri 0x3E800)) ∧
  decodeWord 0x3A0C 0x0828467E = some (.join ⟨0x67, 12, ⟨4, 14, .ms 0x1050⟩⟩) ∧
  decodeWord 0x5A13 0x00001000000467C2 = some (.joinf 0x67 3 12 ⟨4, 2, 0x1000⟩) ∧
  decodeWord 0x5A28 0x00000000000442BE = some (.lth ⟨1, 0, false, 2, 8, 11, none, ⟨4, 14, 0⟩⟩) ∧
  decodeWord 0x1BC0 0x0074 = some (.capstep 4 7) ∧
  decodeWord 0x3D10 0x00001081 = some (.mma ⟨false, 1, 0, 0, 1, .imm 1⟩) ∧
  decodeWord 0x3D40 0x00001019 = some (.mdrain false 1 0 ⟨1, 9, .ms 0⟩)

/-- R147-R155: decoding what the encoder writes for a well-formed instruction gives it back, whichever half of a bundle it is; and
a word that decodes at all decodes to a well-formed instruction, whose encoding is that word with P = 0 and the tail cut to its
length. So no operand bit is dropped, and no two words that differ name one instruction. -/
def Obligations.DecodeEncode : Prop :=
  (∀ i : Instr, i.wf = true → ∃ h t, encode i = some (h, t) ∧ h.getLsbD 15 = false ∧ t.toNat < 2 ^ (8 * tailBytes (headTL h)) ∧
    decodeWord h t = some i ∧ decodeWord (h ||| 0x8000) t = some i) ∧
  (∀ (h : BitVec 16) (t : BitVec 128) (i : Instr), decodeWord h t = some i →
    i.wf = true ∧ encode i = some (h &&& 0x7FFF, t &&& BitVec.ofNat 128 (2 ^ (8 * tailBytes (headTL h)) - 1)))

/-- The memory of the machine at power-on is in its canonical form and every byte reads zero; outside the compute dies the zero is
the model's choice (log 5). -/
def Obligations.ResetMemoryWf : Prop := Memory.wf State.reset.mem = true ∧ ∀ k, State.reset.load k = 0

/-- Whatever a step does, the memory stays in its one canonical form: addresses rise strictly and no listed byte is zero. -/
def Obligations.StepKeepsMemory : Prop := ∀ s t : State, Memory.wf s.mem = true → step s = .next t → Memory.wf t.mem = true

/-- R49, R63, R353, R405-R410, R421: a step performs the one move whose turn it is (a message that is delivered, a unit that acts, a
slot that issues, time that passes) and nothing else, and then one of the moves that are possible comes next; a slot issues only
when no other could issue sooner, in a cycle of its number; and nothing stops the machine, for every error is reported as an
effect. Which of the possible moves comes next is free (log 1). -/
def Obligations.StepsAreMoves : Prop :=
  (∀ s : State, ∃ u, step s = .next { u with
      turn := (moves u).getD (Config.pick u.draws % (moves u).length) .tick, draws := u.draws + 1 } ∧
    (s.turn = .tick → u = advanceTo (s.cycle + 1) s) ∧
    (∀ i, s.turn = .act i → exec i s = .next u) ∧
    (∀ n, s.turn = .deliver n → s.agenda[n]? = none → u = s) ∧
    (∀ n m, s.turn = .deliver n → s.agenda[n]? = some m → let s1 : State := { s with agenda := s.agenda.eraseIdx n };
      (isLost s1 m = true → u = lostMessage s1 m) ∧ (isLost s1 m = false → exec m s1 = .next u)) ∧
    (∀ r, s.turn = .slot r → mayIssue s r = false → u = s)) ∧
  (∀ s t : State, step s = .next t → t.turn ∈ moves t ∨ (moves t = [] ∧ t.turn = .tick)) ∧
  (∀ (s : State) (r : SlotRef), Turn.slot r ∈ moves s → let c := turnAt r.slot (max s.cycle (s.slot r).readyAt);
    mayIssue s r = true ∧ s.cycle ≤ c ∧ (s.slot r).readyAt ≤ c ∧ (r.slot < 8 → c % 8 = r.slot) ∧
    ∀ x ∈ s.slots, let q := refOf (x.1 / 8) (x.1 % 8); mayIssue s q = true → c ≤ turnAt q.slot (max s.cycle (s.slot q).readyAt)) ∧
  (∀ (s : State) (n : Nat) (m : Instr), Turn.deliver n ∈ moves s → s.agenda[n]? = some m → ∀ (j : Nat) (m' : Instr), j < n → s.agenda[j]? = some m' →
    pressWaits s m' = false → sameOrder m' m = false) ∧
  (∀ (i : Instr) (s : State), ∃ t, exec i s = .next t) ∧ ∀ (s : State) (n : Nat), Runs s n

/-! ## Frames -/

/-- The general registers that an instruction on general registers alone writes; none for every other instruction. -/
def Sys2Proof.Spec.onlyG (i : Instr) : Option (List Reg) :=
  match i with
  | .add o | .sub o | .mul o | .mulh o | .min o | .max o | .and o | .or o | .xor o | .andn o | .shl o | .shr o | .sar o | .rol o
  | .ror o | .ext o | .ins o | .setc _ o => some [o.d]
  | .neg o | .abs o | .not o => some [o.d]
  | .clz o | .ctz o | .ffs o | .popc o | .brev o | .sext o | .zext o => some [o.d]
  | .cmp _ => some []
  | .sel _ d _ _ | .mov d _ | .movi _ d _ | .movl _ d _ | .lea d _ | .loop d _ | .segrd _ d _ => some [d]
  | .b _ | .bc _ _ | .bz _ _ | .bnz _ _ | .jmp _ | .ret => some []
  | .call _ => some [15]
  | _ => none

/-- The vector registers that an instruction on vector registers alone writes. -/
def Sys2Proof.Spec.onlyV (i : Instr) : Option (List VReg) :=
  match i with
  | .vadd o | .vsub o | .vmul o | .vmax o | .vmin o | .viadd o | .visub o | .vimul o | .vimax o | .vimin o | .vand o | .vor o | .vxor o
  | .vshl o | .vshr o | .vsar o | .vrot o | .vselgt o | .vselge o => some [o.d]
  | .vfma o | .vfms o | .vcps o | .vsel o | .vperm o => some [o.d]
  | .vabs o | .vneg o | .vclz o | .vctz o | .vpopc o | .vfilla o | .vcompr o => some [o.d]
  | .vcvt o | .vpack o | .vunpk o => some [o.d]
  | .vred o | .vscan o => some [o.d]
  | .vzip o | .vuzp o => some [o.d]
  | .vsort _ _ d _ | .vmrgk _ _ d _ _ => some [d, d + 1]
  | _ => none

/-- R141, R142, R172, R209, R212: an instruction on registers alone that goes on leaves everything but its own slot, and in it
everything but the registers it names, FLAGS and the PC: no byte of memory, no special register, no accumulator, no other task. A
scalar one leaves FLAGS above V; a vector one, with nothing bound, sets FLAGS, clears none, and may count draws in RMODE. -/
def Obligations.RegisterFrame : Prop :=
  ∀ (i : Instr) (s t : State), exec i s = .next t → t.focus.disp = .done →
    (∀ ds, Spec.onlyG i = some ds →
      t = { s with slots := t.slots, focus := t.focus } ∧ (∀ k, k ≠ skey s.me → SMap.get t.slots Slot.empty k = SMap.get s.slots Slot.empty k) ∧
      t.slot s.me = { s.cur with g := (t.slot s.me).g, flags := (t.slot s.me).flags, pc := (t.slot s.me).pc } ∧
      (∀ r, r ∉ ds → (t.slot s.me).getG r = s.cur.getG r) ∧ (t.slot s.me).flags >>> 4 = s.cur.flags >>> 4) ∧
    (∀ ds, Spec.onlyV i = some ds → s.cur.bind6 = none → s.cur.bind7 = none →
      t = { s with slots := t.slots, focus := t.focus } ∧ (∀ k, k ≠ skey s.me → SMap.get t.slots Slot.empty k = SMap.get s.slots Slot.empty k) ∧
      t.slot s.me = { s.cur with v := (t.slot s.me).v, rmode := (t.slot s.me).rmode, flags := (t.slot s.me).flags, pc := (t.slot s.me).pc } ∧
      (∀ r, r ∉ ds → (t.slot s.me).getV r = s.cur.getV r) ∧ s.cur.flags &&& ~~~(t.slot s.me).flags = 0 ∧
      (t.slot s.me).rmode.extractLsb' 0 16 = s.cur.rmode.extractLsb' 0 16)
end

