-- ==== Sys2Proof/Laws/Maps.lean ====
section
/-! SUPPORT. Laws of the sparse maps: what a read gives after a write, and that every operation keeps the canonical form. -/

namespace Sys2Proof

variable {α : Type}

@[simp] theorem SMap.get_nil (d : α) (k : Nat) : SMap.get ([] : SMap α) d k = d := rfl

/-- A read after a write: the value written at its key, the old value elsewhere. -/
theorem SMap.get_put (m : SMap α) (d v : α) (k j : Nat) :
    SMap.get (SMap.put m k v) d j = if j = k then v else SMap.get m d j := by
  induction m with
  | nil => simp only [SMap.put, SMap.get, eq_comm (a := k)]
  | cons x t ih =>
    obtain ⟨i, w⟩ := x
    simp only [SMap.put]
    split
    · by_cases h : k = j <;> simp [SMap.get, h, eq_comm (a := j)]
    · split
      · rename_i h; subst h; by_cases h : i = j <;> simp [SMap.get, h, eq_comm (a := j)]
      · rename_i h; simp only [SMap.get, ih]
        by_cases h1 : i = j
        · subst h1; simp [h]
        · simp [h1]

@[simp] theorem SMap.get_put_self (m : SMap α) (d v : α) (k : Nat) : SMap.get (SMap.put m k v) d k = v := by
  simp [SMap.get_put]

theorem SMap.get_put_of_ne (m : SMap α) (d v : α) {k j : Nat} (h : j ≠ k) :
    SMap.get (SMap.put m k v) d j = SMap.get m d j := by simp [SMap.get_put, h]

/-- The second of two writes at one key is the one that stands. -/
@[simp] theorem SMap.put_put (m : SMap α) (k : Nat) (v w : α) : SMap.put (SMap.put m k v) k w = SMap.put m k w := by
  induction m with
  | nil => simp [SMap.put]
  | cons x t ih =>
    obtain ⟨i, u⟩ := x
    simp only [SMap.put]
    split
    · simp [SMap.put]
    · split
      · rename_i h; subst h; simp [SMap.put]
      · simp_all [SMap.put]

theorem SMap.get_drop (m : SMap α) (d : α) (k j : Nat) :
    SMap.get (SMap.drop m k) d j = if j = k then d else SMap.get m d j := by
  induction m with
  | nil => simp [SMap.drop]
  | cons x t ih =>
    obtain ⟨i, w⟩ := x
    simp only [SMap.drop]
    split
    · rename_i h; subst h; rw [ih]; by_cases h : i = j <;> simp [SMap.get, h, eq_comm (a := j)]
    · rename_i h; by_cases h1 : i = j
      · subst h1; simp [SMap.get, h]
      · simp [SMap.get, h1, ih]

variable [DecidableEq α]

/-- `set` reads back as `put` does: the default too, which it does not list. -/
theorem SMap.get_set (m : SMap α) (d v : α) (k j : Nat) :
    SMap.get (SMap.set m d k v) d j = if j = k then v else SMap.get m d j := by
  unfold SMap.set
  split
  · rename_i h; subst h; exact SMap.get_drop m v k j
  · exact SMap.get_put m d v k j

@[simp] theorem SMap.get_set_self (m : SMap α) (d v : α) (k : Nat) : SMap.get (SMap.set m d k v) d k = v := by
  simp [SMap.get_set]

theorem SMap.get_set_of_ne (m : SMap α) (d v : α) {k j : Nat} (h : j ≠ k) :
    SMap.get (SMap.set m d k v) d j = SMap.get m d j := by simp [SMap.get_set, h]

/-- A lower bound below the keys of a map. -/
def SMap.above (lo : Option Nat) (k : Nat) : Prop := match lo with | none => True | some l => l < k

theorem SMap.wfFrom_cons (d : α) (lo : Option Nat) (k : Nat) (v : α) (t : SMap α) :
    SMap.wfFrom d lo ((k, v) :: t) = true ↔ SMap.above lo k ∧ v ≠ d ∧ SMap.wfFrom d (some k) t = true := by
  cases lo <;> simp [SMap.wfFrom, SMap.above, and_assoc]

theorem SMap.above_trans {lo : Option Nat} {a b : Nat} (h : SMap.above lo a) (hab : a < b) : SMap.above lo b := by
  cases lo with
  | none => trivial
  | some l => exact Nat.lt_trans (show l < a from h) hab

/-- A canonical map stays one above a lower bound. -/
theorem SMap.wfFrom_weaken (d : α) (lo : Option Nat) (a : Nat) (m : SMap α) (h : SMap.above lo a)
    (hm : SMap.wfFrom d (some a) m = true) : SMap.wfFrom d lo m = true := by
  cases m with
  | nil => rfl
  | cons x t =>
    obtain ⟨k, v⟩ := x
    rw [SMap.wfFrom_cons] at hm ⊢
    exact ⟨SMap.above_trans h hm.1, hm.2⟩

theorem SMap.wfFrom_put (d v : α) (k : Nat) (hv : v ≠ d) (m : SMap α) :
    ∀ lo, SMap.above lo k → SMap.wfFrom d lo m = true → SMap.wfFrom d lo (SMap.put m k v) = true := by
  induction m with
  | nil => intro lo h _; simp only [SMap.put, SMap.wfFrom_cons]; exact ⟨h, hv, rfl⟩
  | cons x t ih =>
    obtain ⟨j, w⟩ := x
    intro lo h hm
    rw [SMap.wfFrom_cons] at hm
    simp only [SMap.put]
    split
    · rename_i hkj; simp only [SMap.wfFrom_cons]; exact ⟨h, hv, hkj, hm.2⟩
    · split
      · rename_i hjk; subst hjk; rw [SMap.wfFrom_cons]; exact ⟨h, hv, hm.2.2⟩
      · rw [SMap.wfFrom_cons]
        exact ⟨hm.1, hm.2.1, ih (some j) (by show j < k; omega) hm.2.2⟩

theorem SMap.wfFrom_drop (d : α) (k : Nat) (m : SMap α) :
    ∀ lo, SMap.wfFrom d lo m = true → SMap.wfFrom d lo (SMap.drop m k) = true := by
  induction m with
  | nil => intro lo h; exact h
  | cons x t ih =>
    obtain ⟨j, w⟩ := x
    intro lo hm
    rw [SMap.wfFrom_cons] at hm
    simp only [SMap.drop]
    split
    · exact SMap.wfFrom_weaken d lo j _ hm.1 (ih _ hm.2.2)
    · rw [SMap.wfFrom_cons]; exact ⟨hm.1, hm.2.1, ih _ hm.2.2⟩

theorem SMap.wfFrom_filter (d : α) (p : Nat × α → Bool) (m : SMap α) :
    ∀ lo, SMap.wfFrom d lo m = true → SMap.wfFrom d lo (m.filter p) = true := by
  induction m with
  | nil => intro lo h; exact h
  | cons x t ih =>
    obtain ⟨j, w⟩ := x
    intro lo hm
    rw [SMap.wfFrom_cons] at hm
    simp only [List.filter]
    split
    · rw [SMap.wfFrom_cons]; exact ⟨hm.1, hm.2.1, ih _ hm.2.2⟩
    · exact SMap.wfFrom_weaken d lo j _ hm.1 (ih _ hm.2.2)

theorem SMap.wf_put (d v : α) (k : Nat) (m : SMap α) (hv : v ≠ d) (h : SMap.wf d m = true) :
    SMap.wf d (SMap.put m k v) = true := SMap.wfFrom_put d v k hv m none trivial h

theorem SMap.wf_drop (d : α) (k : Nat) (m : SMap α) (h : SMap.wf d m = true) : SMap.wf d (SMap.drop m k) = true :=
  SMap.wfFrom_drop d k m none h

/-- Writing any value, the default among them, keeps the canonical form. -/
theorem SMap.wf_set (d v : α) (k : Nat) (m : SMap α) (h : SMap.wf d m = true) : SMap.wf d (SMap.set m d k v) = true := by
  unfold SMap.set
  split
  · exact SMap.wf_drop d k m h
  · exact SMap.wf_put d v k m ‹_› h

theorem SMap.wf_filter (d : α) (p : Nat × α → Bool) (m : SMap α) (h : SMap.wf d m = true) :
    SMap.wf d (m.filter p) = true := SMap.wfFrom_filter d p m none h

/-- A key that a canonical map lists is one it does not read as the default. -/
theorem SMap.wfFrom_get_ne (d : α) (m : SMap α) :
    ∀ lo k v, SMap.wfFrom d lo m = true → (k, v) ∈ m → SMap.get m d k = v := by
  induction m with
  | nil => intro _ _ _ _ h; cases h
  | cons x t ih =>
    obtain ⟨j, w⟩ := x
    intro lo k v hm h
    rw [SMap.wfFrom_cons] at hm
    rcases List.mem_cons.mp h with h | h
    · cases h; simp [SMap.get]
    · have hjk : ∀ (t : SMap α) (lo k : Nat) (v : α), SMap.wfFrom d (some lo) t = true → (k, v) ∈ t → lo < k := by
        intro t
        induction t with
        | nil => intro _ _ _ _ h; cases h
        | cons y u ihu =>
          obtain ⟨i, z⟩ := y
          intro lo k v hw hk
          rw [SMap.wfFrom_cons] at hw
          rcases List.mem_cons.mp hk with e | e
          · cases e; exact hw.1
          · exact Nat.lt_trans hw.1 (ihu i k v hw.2.2 e)
      have := hjk t j k v hm.2.2 h
      simp only [SMap.get]
      rw [if_neg (by omega)]
      exact ih _ k v hm.2.2 h

end Sys2Proof

namespace Sys2Proof.Machine

/-! ## Bytes of memory -/

theorem zeroBytes_wf (k n : Nat) (m : SMap Byte) (h : Memory.wf m = true) : Memory.wf (zeroBytes m k n) = true := by
  induction n generalizing m with
  | zero => exact h
  | succ n ih => exact ih _ (SMap.wf_set 0 0 (k + n) m h)

/-- A store of one byte keeps the canonical form. -/
theorem State.store_wf (s : State) (k : Nat) (b : Byte) (h : Memory.wf s.mem = true) : Memory.wf (s.store k b).mem = true := by
  unfold State.store
  split
  · dsimp only
    split
    · exact SMap.wf_set 0 b k _ h
    · exact SMap.wf_set 0 b k _ (zeroBytes_wf _ 64 _ h)
  · exact SMap.wf_set 0 b k _ h

theorem State.stores_wf (bs : List Byte) : ∀ (s : State) (k : Nat), Memory.wf s.mem = true → Memory.wf (s.stores k bs).mem = true := by
  induction bs with
  | nil => intro s k h; exact h
  | cons b t ih => intro s k h; exact ih _ (k + 1) (State.store_wf s k b h)

theorem State.storeNat_wf (s : State) (k n v : Nat) (h : Memory.wf s.mem = true) : Memory.wf (s.storeNat k n v).mem = true :=
  State.stores_wf _ s k h

theorem setCapField_wf (s : State) (core : Nat) (b : BitVec 2) (lo n v : Nat) (h : Memory.wf s.mem = true) :
    Memory.wf (setCapField s core b lo n v).mem = true := State.storeNat_wf s _ n v h

/-- Bytes read in one go are those read in two. -/
theorem State.loads_add (s : State) (k m n : Nat) : s.loads k (m + n) = s.loads k m ++ s.loads (k + m) n := by
  induction m generalizing k with
  | zero => simp [State.loads]
  | succ m ih =>
    rw [show m + 1 + n = (m + n) + 1 by omega]
    simp only [State.loads, ih, List.cons_append, show k + 1 + m = k + (m + 1) by omega]

/-- A store changes bytes of memory, what they were before and the written bits of a slot, nothing else (R56). -/
theorem State.store_frame (s : State) (k : Nat) (b : Byte) :
    ∃ m p x, s.store k b = ({ s with mem := m, past := p, slots := x } : State) := by
  unfold State.store
  split
  · dsimp only
    split
    · exact ⟨_, _, s.slots, rfl⟩
    · exact ⟨_, _, _, rfl⟩
  · exact ⟨_, _, s.slots, rfl⟩

theorem State.stores_frame (bs : List Byte) : ∀ (s : State) (k : Nat),
    ∃ m p x, s.stores k bs = ({ s with mem := m, past := p, slots := x } : State) := by
  induction bs with
  | nil => intro s k; exact ⟨s.mem, s.past, s.slots, rfl⟩
  | cons b t ih =>
    intro s k
    obtain ⟨m, p, x, h⟩ := State.store_frame s k b
    obtain ⟨m', p', x', h'⟩ := ih (s.store k b) (k + 1)
    exact ⟨m', p', x', by rw [State.stores, h', h]⟩

end Sys2Proof.Machine
end

