-- ==== Sys2Proof/Laws/State.lean ====
section
/-! SUPPORT. One lemma for each field of `State` and each update of it, and for each register of a slot and each write: what the
update leaves in the field. Reads through the accessors after it follow. -/

namespace Sys2Proof.Machine

section
variable (s : State) (r : SlotRef) (x : Slot)

@[simp] theorem State.setSlot_mem : (s.setSlot r x).mem = s.mem := rfl
@[simp] theorem State.setSlot_past : (s.setSlot r x).past = s.past := rfl
@[simp] theorem State.setSlot_fe : (s.setSlot r x).fe = s.fe := rfl
@[simp] theorem State.setSlot_frameAttr : (s.setSlot r x).frameAttr = s.frameAttr := rfl
@[simp] theorem State.setSlot_plots : (s.setSlot r x).plots = s.plots := rfl
@[simp] theorem State.setSlot_ue : (s.setSlot r x).ue = s.ue := rfl
@[simp] theorem State.setSlot_slots : (s.setSlot r x).slots = SMap.put s.slots (skey r) x := rfl
@[simp] theorem State.setSlot_cores : (s.setSlot r x).cores = s.cores := rfl
@[simp] theorem State.setSlot_ports : (s.setSlot r x).ports = s.ports := rfl
@[simp] theorem State.setSlot_routers : (s.setSlot r x).routers = s.routers := rfl
@[simp] theorem State.setSlot_queues : (s.setSlot r x).queues = s.queues := rfl
@[simp] theorem State.setSlot_lastCore : (s.setSlot r x).lastCore = s.lastCore := rfl
@[simp] theorem State.setSlot_boundAt : (s.setSlot r x).boundAt = s.boundAt := rfl
@[simp] theorem State.setSlot_waiters : (s.setSlot r x).waiters = s.waiters := rfl
@[simp] theorem State.setSlot_rounds : (s.setSlot r x).rounds = s.rounds := rfl
@[simp] theorem State.setSlot_tensors : (s.setSlot r x).tensors = s.tensors := rfl
@[simp] theorem State.setSlot_wants : (s.setSlot r x).wants = s.wants := rfl
@[simp] theorem State.setSlot_namers : (s.setSlot r x).namers = s.namers := rfl
@[simp] theorem State.setSlot_anyAsks : (s.setSlot r x).anyAsks = s.anyAsks := rfl
@[simp] theorem State.setSlot_seeds : (s.setSlot r x).seeds = s.seeds := rfl
@[simp] theorem State.setSlot_press : (s.setSlot r x).press = s.press := rfl
@[simp] theorem State.setSlot_groups : (s.setSlot r x).groups = s.groups := rfl
@[simp] theorem State.setSlot_launches : (s.setSlot r x).launches = s.launches := rfl
@[simp] theorem State.setSlot_dies : (s.setSlot r x).dies = s.dies := rfl
@[simp] theorem State.setSlot_gstore : (s.setSlot r x).gstore = s.gstore := rfl
@[simp] theorem State.setSlot_links : (s.setSlot r x).links = s.links := rfl
@[simp] theorem State.setSlot_waves : (s.setSlot r x).waves = s.waves := rfl
@[simp] theorem State.setSlot_transits : (s.setSlot r x).transits = s.transits := rfl
@[simp] theorem State.setSlot_stuck : (s.setSlot r x).stuck = s.stuck := rfl
@[simp] theorem State.setSlot_pkgid : (s.setSlot r x).pkgid = s.pkgid := rfl
@[simp] theorem State.setSlot_faben : (s.setSlot r x).faben = s.faben := rfl
@[simp] theorem State.setSlot_discDone : (s.setSlot r x).discDone = s.discDone := rfl
@[simp] theorem State.setSlot_discConflict : (s.setSlot r x).discConflict = s.discConflict := rfl
@[simp] theorem State.setSlot_snapEnable : (s.setSlot r x).snapEnable = s.snapEnable := rfl
@[simp] theorem State.setSlot_snapSeq : (s.setSlot r x).snapSeq = s.snapSeq := rfl
@[simp] theorem State.setSlot_snapAt : (s.setSlot r x).snapAt = s.snapAt := rfl
@[simp] theorem State.setSlot_fattrRefused : (s.setSlot r x).fattrRefused = s.fattrRefused := rfl
@[simp] theorem State.setSlot_repairBusy : (s.setSlot r x).repairBusy = s.repairBusy := rfl
@[simp] theorem State.setSlot_repairRefused : (s.setSlot r x).repairRefused = s.repairRefused := rfl
@[simp] theorem State.setSlot_repairsDone : (s.setSlot r x).repairsDone = s.repairsDone := rfl
@[simp] theorem State.setSlot_repairWait : (s.setSlot r x).repairWait = s.repairWait := rfl
@[simp] theorem State.setSlot_sliceMoved : (s.setSlot r x).sliceMoved = s.sliceMoved := rfl
@[simp] theorem State.setSlot_ioRegs : (s.setSlot r x).ioRegs = s.ioRegs := rfl
@[simp] theorem State.setSlot_msix : (s.setSlot r x).msix = s.msix := rfl
@[simp] theorem State.setSlot_hostReply : (s.setSlot r x).hostReply = s.hostReply := rfl
@[simp] theorem State.setSlot_booted : (s.setSlot r x).booted = s.booted := rfl
@[simp] theorem State.setSlot_cycle : (s.setSlot r x).cycle = s.cycle := rfl
@[simp] theorem State.setSlot_nextTask : (s.setSlot r x).nextTask = s.nextTask := rfl
@[simp] theorem State.setSlot_xid : (s.setSlot r x).xid = s.xid := rfl
@[simp] theorem State.setSlot_draws : (s.setSlot r x).draws = s.draws := rfl
@[simp] theorem State.setSlot_agenda : (s.setSlot r x).agenda = s.agenda := rfl
@[simp] theorem State.setSlot_turn : (s.setSlot r x).turn = s.turn := rfl
@[simp] theorem State.setSlot_focus : (s.setSlot r x).focus = s.focus := rfl
@[simp] theorem State.setSlot_core_read (n : Nat) : (s.setSlot r x).core n = s.core n := rfl
@[simp] theorem State.setSlot_die_read (n : Nat) : (s.setSlot r x).die n = s.die n := rfl
@[simp] theorem State.setSlot_port_read (n : Nat) : (s.setSlot r x).port n = s.port n := rfl
@[simp] theorem State.setSlot_router_read (n : Nat) : (s.setSlot r x).router n = s.router n := rfl
@[simp] theorem State.setSlot_queue_read (n : Nat) : (s.setSlot r x).queue n = s.queue n := rfl
@[simp] theorem State.setSlot_group_read (n : Nat) : (s.setSlot r x).group n = s.group n := rfl
@[simp] theorem State.setSlot_launch_read (n : Nat) : (s.setSlot r x).launch n = s.launch n := rfl
@[simp] theorem State.setSlot_tensor_read (n : Nat) : (s.setSlot r x).tensor n = s.tensor n := rfl
@[simp] theorem State.setSlot_link_read (q : LinkEnd) : (s.setSlot r x).link q = s.link q := rfl
@[simp] theorem State.setSlot_plot_read (n : Nat) : (s.setSlot r x).plot n = s.plot n := rfl
@[simp] theorem State.setSlot_full_read (n m : Nat) : (s.setSlot r x).full n m = s.full n m := rfl
@[simp] theorem State.setSlot_attr_read (n : Nat) : (s.setSlot r x).attr n = s.attr n := rfl
@[simp] theorem State.setSlot_me_read : (s.setSlot r x).me = s.me := rfl
@[simp] theorem State.setSlot_hasUe_read (n m : Nat) : (s.setSlot r x).hasUe n m = s.hasUe n m := rfl

end

section
variable (s : State) (k : Nat) (x : Core)

@[simp] theorem State.setCore_mem : (s.setCore k x).mem = s.mem := rfl
@[simp] theorem State.setCore_past : (s.setCore k x).past = s.past := rfl
@[simp] theorem State.setCore_fe : (s.setCore k x).fe = s.fe := rfl
@[simp] theorem State.setCore_frameAttr : (s.setCore k x).frameAttr = s.frameAttr := rfl
@[simp] theorem State.setCore_plots : (s.setCore k x).plots = s.plots := rfl
@[simp] theorem State.setCore_ue : (s.setCore k x).ue = s.ue := rfl
@[simp] theorem State.setCore_slots : (s.setCore k x).slots = s.slots := rfl
@[simp] theorem State.setCore_cores : (s.setCore k x).cores = SMap.put s.cores k x := rfl
@[simp] theorem State.setCore_ports : (s.setCore k x).ports = s.ports := rfl
@[simp] theorem State.setCore_routers : (s.setCore k x).routers = s.routers := rfl
@[simp] theorem State.setCore_queues : (s.setCore k x).queues = s.queues := rfl
@[simp] theorem State.setCore_lastCore : (s.setCore k x).lastCore = s.lastCore := rfl
@[simp] theorem State.setCore_boundAt : (s.setCore k x).boundAt = s.boundAt := rfl
@[simp] theorem State.setCore_waiters : (s.setCore k x).waiters = s.waiters := rfl
@[simp] theorem State.setCore_rounds : (s.setCore k x).rounds = s.rounds := rfl
@[simp] theorem State.setCore_tensors : (s.setCore k x).tensors = s.tensors := rfl
@[simp] theorem State.setCore_wants : (s.setCore k x).wants = s.wants := rfl
@[simp] theorem State.setCore_namers : (s.setCore k x).namers = s.namers := rfl
@[simp] theorem State.setCore_anyAsks : (s.setCore k x).anyAsks = s.anyAsks := rfl
@[simp] theorem State.setCore_seeds : (s.setCore k x).seeds = s.seeds := rfl
@[simp] theorem State.setCore_press : (s.setCore k x).press = s.press := rfl
@[simp] theorem State.setCore_groups : (s.setCore k x).groups = s.groups := rfl
@[simp] theorem State.setCore_launches : (s.setCore k x).launches = s.launches := rfl
@[simp] theorem State.setCore_dies : (s.setCore k x).dies = s.dies := rfl
@[simp] theorem State.setCore_gstore : (s.setCore k x).gstore = s.gstore := rfl
@[simp] theorem State.setCore_links : (s.setCore k x).links = s.links := rfl
@[simp] theorem State.setCore_waves : (s.setCore k x).waves = s.waves := rfl
@[simp] theorem State.setCore_transits : (s.setCore k x).transits = s.transits := rfl
@[simp] theorem State.setCore_stuck : (s.setCore k x).stuck = s.stuck := rfl
@[simp] theorem State.setCore_pkgid : (s.setCore k x).pkgid = s.pkgid := rfl
@[simp] theorem State.setCore_faben : (s.setCore k x).faben = s.faben := rfl
@[simp] theorem State.setCore_discDone : (s.setCore k x).discDone = s.discDone := rfl
@[simp] theorem State.setCore_discConflict : (s.setCore k x).discConflict = s.discConflict := rfl
@[simp] theorem State.setCore_snapEnable : (s.setCore k x).snapEnable = s.snapEnable := rfl
@[simp] theorem State.setCore_snapSeq : (s.setCore k x).snapSeq = s.snapSeq := rfl
@[simp] theorem State.setCore_snapAt : (s.setCore k x).snapAt = s.snapAt := rfl
@[simp] theorem State.setCore_fattrRefused : (s.setCore k x).fattrRefused = s.fattrRefused := rfl
@[simp] theorem State.setCore_repairBusy : (s.setCore k x).repairBusy = s.repairBusy := rfl
@[simp] theorem State.setCore_repairRefused : (s.setCore k x).repairRefused = s.repairRefused := rfl
@[simp] theorem State.setCore_repairsDone : (s.setCore k x).repairsDone = s.repairsDone := rfl
@[simp] theorem State.setCore_repairWait : (s.setCore k x).repairWait = s.repairWait := rfl
@[simp] theorem State.setCore_sliceMoved : (s.setCore k x).sliceMoved = s.sliceMoved := rfl
@[simp] theorem State.setCore_ioRegs : (s.setCore k x).ioRegs = s.ioRegs := rfl
@[simp] theorem State.setCore_msix : (s.setCore k x).msix = s.msix := rfl
@[simp] theorem State.setCore_hostReply : (s.setCore k x).hostReply = s.hostReply := rfl
@[simp] theorem State.setCore_booted : (s.setCore k x).booted = s.booted := rfl
@[simp] theorem State.setCore_cycle : (s.setCore k x).cycle = s.cycle := rfl
@[simp] theorem State.setCore_nextTask : (s.setCore k x).nextTask = s.nextTask := rfl
@[simp] theorem State.setCore_xid : (s.setCore k x).xid = s.xid := rfl
@[simp] theorem State.setCore_draws : (s.setCore k x).draws = s.draws := rfl
@[simp] theorem State.setCore_agenda : (s.setCore k x).agenda = s.agenda := rfl
@[simp] theorem State.setCore_turn : (s.setCore k x).turn = s.turn := rfl
@[simp] theorem State.setCore_focus : (s.setCore k x).focus = s.focus := rfl
@[simp] theorem State.setCore_slot_read (q : SlotRef) : (s.setCore k x).slot q = s.slot q := rfl
@[simp] theorem State.setCore_die_read (n : Nat) : (s.setCore k x).die n = s.die n := rfl
@[simp] theorem State.setCore_port_read (n : Nat) : (s.setCore k x).port n = s.port n := rfl
@[simp] theorem State.setCore_router_read (n : Nat) : (s.setCore k x).router n = s.router n := rfl
@[simp] theorem State.setCore_queue_read (n : Nat) : (s.setCore k x).queue n = s.queue n := rfl
@[simp] theorem State.setCore_group_read (n : Nat) : (s.setCore k x).group n = s.group n := rfl
@[simp] theorem State.setCore_launch_read (n : Nat) : (s.setCore k x).launch n = s.launch n := rfl
@[simp] theorem State.setCore_tensor_read (n : Nat) : (s.setCore k x).tensor n = s.tensor n := rfl
@[simp] theorem State.setCore_link_read (q : LinkEnd) : (s.setCore k x).link q = s.link q := rfl
@[simp] theorem State.setCore_plot_read (n : Nat) : (s.setCore k x).plot n = s.plot n := rfl
@[simp] theorem State.setCore_full_read (n m : Nat) : (s.setCore k x).full n m = s.full n m := rfl
@[simp] theorem State.setCore_attr_read (n : Nat) : (s.setCore k x).attr n = s.attr n := rfl
@[simp] theorem State.setCore_me_read : (s.setCore k x).me = s.me := rfl
@[simp] theorem State.setCore_cur_read : (s.setCore k x).cur = s.cur := rfl
@[simp] theorem State.setCore_load_read (n : Nat) : (s.setCore k x).load n = s.load n := rfl
@[simp] theorem State.setCore_hasUe_read (n m : Nat) : (s.setCore k x).hasUe n m = s.hasUe n m := rfl

end

section
variable (s : State) (d : Nat) (x : Die)

@[simp] theorem State.setDie_mem : (s.setDie d x).mem = s.mem := rfl
@[simp] theorem State.setDie_past : (s.setDie d x).past = s.past := rfl
@[simp] theorem State.setDie_fe : (s.setDie d x).fe = s.fe := rfl
@[simp] theorem State.setDie_frameAttr : (s.setDie d x).frameAttr = s.frameAttr := rfl
@[simp] theorem State.setDie_plots : (s.setDie d x).plots = s.plots := rfl
@[simp] theorem State.setDie_ue : (s.setDie d x).ue = s.ue := rfl
@[simp] theorem State.setDie_slots : (s.setDie d x).slots = s.slots := rfl
@[simp] theorem State.setDie_cores : (s.setDie d x).cores = s.cores := rfl
@[simp] theorem State.setDie_ports : (s.setDie d x).ports = s.ports := rfl
@[simp] theorem State.setDie_routers : (s.setDie d x).routers = s.routers := rfl
@[simp] theorem State.setDie_queues : (s.setDie d x).queues = s.queues := rfl
@[simp] theorem State.setDie_lastCore : (s.setDie d x).lastCore = s.lastCore := rfl
@[simp] theorem State.setDie_boundAt : (s.setDie d x).boundAt = s.boundAt := rfl
@[simp] theorem State.setDie_waiters : (s.setDie d x).waiters = s.waiters := rfl
@[simp] theorem State.setDie_rounds : (s.setDie d x).rounds = s.rounds := rfl
@[simp] theorem State.setDie_tensors : (s.setDie d x).tensors = s.tensors := rfl
@[simp] theorem State.setDie_wants : (s.setDie d x).wants = s.wants := rfl
@[simp] theorem State.setDie_namers : (s.setDie d x).namers = s.namers := rfl
@[simp] theorem State.setDie_anyAsks : (s.setDie d x).anyAsks = s.anyAsks := rfl
@[simp] theorem State.setDie_seeds : (s.setDie d x).seeds = s.seeds := rfl
@[simp] theorem State.setDie_press : (s.setDie d x).press = s.press := rfl
@[simp] theorem State.setDie_groups : (s.setDie d x).groups = s.groups := rfl
@[simp] theorem State.setDie_launches : (s.setDie d x).launches = s.launches := rfl
@[simp] theorem State.setDie_dies : (s.setDie d x).dies = SMap.put s.dies d x := rfl
@[simp] theorem State.setDie_gstore : (s.setDie d x).gstore = s.gstore := rfl
@[simp] theorem State.setDie_links : (s.setDie d x).links = s.links := rfl
@[simp] theorem State.setDie_waves : (s.setDie d x).waves = s.waves := rfl
@[simp] theorem State.setDie_transits : (s.setDie d x).transits = s.transits := rfl
@[simp] theorem State.setDie_stuck : (s.setDie d x).stuck = s.stuck := rfl
@[simp] theorem State.setDie_pkgid : (s.setDie d x).pkgid = s.pkgid := rfl
@[simp] theorem State.setDie_faben : (s.setDie d x).faben = s.faben := rfl
@[simp] theorem State.setDie_discDone : (s.setDie d x).discDone = s.discDone := rfl
@[simp] theorem State.setDie_discConflict : (s.setDie d x).discConflict = s.discConflict := rfl
@[simp] theorem State.setDie_snapEnable : (s.setDie d x).snapEnable = s.snapEnable := rfl
@[simp] theorem State.setDie_snapSeq : (s.setDie d x).snapSeq = s.snapSeq := rfl
@[simp] theorem State.setDie_snapAt : (s.setDie d x).snapAt = s.snapAt := rfl
@[simp] theorem State.setDie_fattrRefused : (s.setDie d x).fattrRefused = s.fattrRefused := rfl
@[simp] theorem State.setDie_repairBusy : (s.setDie d x).repairBusy = s.repairBusy := rfl
@[simp] theorem State.setDie_repairRefused : (s.setDie d x).repairRefused = s.repairRefused := rfl
@[simp] theorem State.setDie_repairsDone : (s.setDie d x).repairsDone = s.repairsDone := rfl
@[simp] theorem State.setDie_repairWait : (s.setDie d x).repairWait = s.repairWait := rfl
@[simp] theorem State.setDie_sliceMoved : (s.setDie d x).sliceMoved = s.sliceMoved := rfl
@[simp] theorem State.setDie_ioRegs : (s.setDie d x).ioRegs = s.ioRegs := rfl
@[simp] theorem State.setDie_msix : (s.setDie d x).msix = s.msix := rfl
@[simp] theorem State.setDie_hostReply : (s.setDie d x).hostReply = s.hostReply := rfl
@[simp] theorem State.setDie_booted : (s.setDie d x).booted = s.booted := rfl
@[simp] theorem State.setDie_cycle : (s.setDie d x).cycle = s.cycle := rfl
@[simp] theorem State.setDie_nextTask : (s.setDie d x).nextTask = s.nextTask := rfl
@[simp] theorem State.setDie_xid : (s.setDie d x).xid = s.xid := rfl
@[simp] theorem State.setDie_draws : (s.setDie d x).draws = s.draws := rfl
@[simp] theorem State.setDie_agenda : (s.setDie d x).agenda = s.agenda := rfl
@[simp] theorem State.setDie_turn : (s.setDie d x).turn = s.turn := rfl
@[simp] theorem State.setDie_focus : (s.setDie d x).focus = s.focus := rfl
@[simp] theorem State.setDie_slot_read (q : SlotRef) : (s.setDie d x).slot q = s.slot q := rfl
@[simp] theorem State.setDie_core_read (n : Nat) : (s.setDie d x).core n = s.core n := rfl
@[simp] theorem State.setDie_port_read (n : Nat) : (s.setDie d x).port n = s.port n := rfl
@[simp] theorem State.setDie_router_read (n : Nat) : (s.setDie d x).router n = s.router n := rfl
@[simp] theorem State.setDie_queue_read (n : Nat) : (s.setDie d x).queue n = s.queue n := rfl
@[simp] theorem State.setDie_group_read (n : Nat) : (s.setDie d x).group n = s.group n := rfl
@[simp] theorem State.setDie_launch_read (n : Nat) : (s.setDie d x).launch n = s.launch n := rfl
@[simp] theorem State.setDie_tensor_read (n : Nat) : (s.setDie d x).tensor n = s.tensor n := rfl
@[simp] theorem State.setDie_link_read (q : LinkEnd) : (s.setDie d x).link q = s.link q := rfl
@[simp] theorem State.setDie_plot_read (n : Nat) : (s.setDie d x).plot n = s.plot n := rfl
@[simp] theorem State.setDie_full_read (n m : Nat) : (s.setDie d x).full n m = s.full n m := rfl
@[simp] theorem State.setDie_attr_read (n : Nat) : (s.setDie d x).attr n = s.attr n := rfl
@[simp] theorem State.setDie_me_read : (s.setDie d x).me = s.me := rfl
@[simp] theorem State.setDie_cur_read : (s.setDie d x).cur = s.cur := rfl
@[simp] theorem State.setDie_load_read (n : Nat) : (s.setDie d x).load n = s.load n := rfl
@[simp] theorem State.setDie_hasUe_read (n m : Nat) : (s.setDie d x).hasUe n m = s.hasUe n m := rfl

end

section
variable (s : State) (k : Nat) (x : Port)

@[simp] theorem State.setPort_mem : (s.setPort k x).mem = s.mem := rfl
@[simp] theorem State.setPort_past : (s.setPort k x).past = s.past := rfl
@[simp] theorem State.setPort_fe : (s.setPort k x).fe = s.fe := rfl
@[simp] theorem State.setPort_frameAttr : (s.setPort k x).frameAttr = s.frameAttr := rfl
@[simp] theorem State.setPort_plots : (s.setPort k x).plots = s.plots := rfl
@[simp] theorem State.setPort_ue : (s.setPort k x).ue = s.ue := rfl
@[simp] theorem State.setPort_slots : (s.setPort k x).slots = s.slots := rfl
@[simp] theorem State.setPort_cores : (s.setPort k x).cores = s.cores := rfl
@[simp] theorem State.setPort_ports : (s.setPort k x).ports = SMap.put s.ports k x := rfl
@[simp] theorem State.setPort_routers : (s.setPort k x).routers = s.routers := rfl
@[simp] theorem State.setPort_queues : (s.setPort k x).queues = s.queues := rfl
@[simp] theorem State.setPort_lastCore : (s.setPort k x).lastCore = s.lastCore := rfl
@[simp] theorem State.setPort_boundAt : (s.setPort k x).boundAt = s.boundAt := rfl
@[simp] theorem State.setPort_waiters : (s.setPort k x).waiters = s.waiters := rfl
@[simp] theorem State.setPort_rounds : (s.setPort k x).rounds = s.rounds := rfl
@[simp] theorem State.setPort_tensors : (s.setPort k x).tensors = s.tensors := rfl
@[simp] theorem State.setPort_wants : (s.setPort k x).wants = s.wants := rfl
@[simp] theorem State.setPort_namers : (s.setPort k x).namers = s.namers := rfl
@[simp] theorem State.setPort_anyAsks : (s.setPort k x).anyAsks = s.anyAsks := rfl
@[simp] theorem State.setPort_seeds : (s.setPort k x).seeds = s.seeds := rfl
@[simp] theorem State.setPort_press : (s.setPort k x).press = s.press := rfl
@[simp] theorem State.setPort_groups : (s.setPort k x).groups = s.groups := rfl
@[simp] theorem State.setPort_launches : (s.setPort k x).launches = s.launches := rfl
@[simp] theorem State.setPort_dies : (s.setPort k x).dies = s.dies := rfl
@[simp] theorem State.setPort_gstore : (s.setPort k x).gstore = s.gstore := rfl
@[simp] theorem State.setPort_links : (s.setPort k x).links = s.links := rfl
@[simp] theorem State.setPort_waves : (s.setPort k x).waves = s.waves := rfl
@[simp] theorem State.setPort_transits : (s.setPort k x).transits = s.transits := rfl
@[simp] theorem State.setPort_stuck : (s.setPort k x).stuck = s.stuck := rfl
@[simp] theorem State.setPort_pkgid : (s.setPort k x).pkgid = s.pkgid := rfl
@[simp] theorem State.setPort_faben : (s.setPort k x).faben = s.faben := rfl
@[simp] theorem State.setPort_discDone : (s.setPort k x).discDone = s.discDone := rfl
@[simp] theorem State.setPort_discConflict : (s.setPort k x).discConflict = s.discConflict := rfl
@[simp] theorem State.setPort_snapEnable : (s.setPort k x).snapEnable = s.snapEnable := rfl
@[simp] theorem State.setPort_snapSeq : (s.setPort k x).snapSeq = s.snapSeq := rfl
@[simp] theorem State.setPort_snapAt : (s.setPort k x).snapAt = s.snapAt := rfl
@[simp] theorem State.setPort_fattrRefused : (s.setPort k x).fattrRefused = s.fattrRefused := rfl
@[simp] theorem State.setPort_repairBusy : (s.setPort k x).repairBusy = s.repairBusy := rfl
@[simp] theorem State.setPort_repairRefused : (s.setPort k x).repairRefused = s.repairRefused := rfl
@[simp] theorem State.setPort_repairsDone : (s.setPort k x).repairsDone = s.repairsDone := rfl
@[simp] theorem State.setPort_repairWait : (s.setPort k x).repairWait = s.repairWait := rfl
@[simp] theorem State.setPort_sliceMoved : (s.setPort k x).sliceMoved = s.sliceMoved := rfl
@[simp] theorem State.setPort_ioRegs : (s.setPort k x).ioRegs = s.ioRegs := rfl
@[simp] theorem State.setPort_msix : (s.setPort k x).msix = s.msix := rfl
@[simp] theorem State.setPort_hostReply : (s.setPort k x).hostReply = s.hostReply := rfl
@[simp] theorem State.setPort_booted : (s.setPort k x).booted = s.booted := rfl
@[simp] theorem State.setPort_cycle : (s.setPort k x).cycle = s.cycle := rfl
@[simp] theorem State.setPort_nextTask : (s.setPort k x).nextTask = s.nextTask := rfl
@[simp] theorem State.setPort_xid : (s.setPort k x).xid = s.xid := rfl
@[simp] theorem State.setPort_draws : (s.setPort k x).draws = s.draws := rfl
@[simp] theorem State.setPort_agenda : (s.setPort k x).agenda = s.agenda := rfl
@[simp] theorem State.setPort_turn : (s.setPort k x).turn = s.turn := rfl
@[simp] theorem State.setPort_focus : (s.setPort k x).focus = s.focus := rfl
@[simp] theorem State.setPort_slot_read (q : SlotRef) : (s.setPort k x).slot q = s.slot q := rfl
@[simp] theorem State.setPort_core_read (n : Nat) : (s.setPort k x).core n = s.core n := rfl
@[simp] theorem State.setPort_die_read (n : Nat) : (s.setPort k x).die n = s.die n := rfl
@[simp] theorem State.setPort_router_read (n : Nat) : (s.setPort k x).router n = s.router n := rfl
@[simp] theorem State.setPort_queue_read (n : Nat) : (s.setPort k x).queue n = s.queue n := rfl
@[simp] theorem State.setPort_group_read (n : Nat) : (s.setPort k x).group n = s.group n := rfl
@[simp] theorem State.setPort_launch_read (n : Nat) : (s.setPort k x).launch n = s.launch n := rfl
@[simp] theorem State.setPort_tensor_read (n : Nat) : (s.setPort k x).tensor n = s.tensor n := rfl
@[simp] theorem State.setPort_link_read (q : LinkEnd) : (s.setPort k x).link q = s.link q := rfl
@[simp] theorem State.setPort_plot_read (n : Nat) : (s.setPort k x).plot n = s.plot n := rfl
@[simp] theorem State.setPort_full_read (n m : Nat) : (s.setPort k x).full n m = s.full n m := rfl
@[simp] theorem State.setPort_attr_read (n : Nat) : (s.setPort k x).attr n = s.attr n := rfl
@[simp] theorem State.setPort_me_read : (s.setPort k x).me = s.me := rfl
@[simp] theorem State.setPort_cur_read : (s.setPort k x).cur = s.cur := rfl
@[simp] theorem State.setPort_load_read (n : Nat) : (s.setPort k x).load n = s.load n := rfl
@[simp] theorem State.setPort_hasUe_read (n m : Nat) : (s.setPort k x).hasUe n m = s.hasUe n m := rfl

end

section
variable (s : State) (k : Nat) (x : Router)

@[simp] theorem State.setRouter_mem : (s.setRouter k x).mem = s.mem := rfl
@[simp] theorem State.setRouter_past : (s.setRouter k x).past = s.past := rfl
@[simp] theorem State.setRouter_fe : (s.setRouter k x).fe = s.fe := rfl
@[simp] theorem State.setRouter_frameAttr : (s.setRouter k x).frameAttr = s.frameAttr := rfl
@[simp] theorem State.setRouter_plots : (s.setRouter k x).plots = s.plots := rfl
@[simp] theorem State.setRouter_ue : (s.setRouter k x).ue = s.ue := rfl
@[simp] theorem State.setRouter_slots : (s.setRouter k x).slots = s.slots := rfl
@[simp] theorem State.setRouter_cores : (s.setRouter k x).cores = s.cores := rfl
@[simp] theorem State.setRouter_ports : (s.setRouter k x).ports = s.ports := rfl
@[simp] theorem State.setRouter_routers : (s.setRouter k x).routers = SMap.put s.routers k x := rfl
@[simp] theorem State.setRouter_queues : (s.setRouter k x).queues = s.queues := rfl
@[simp] theorem State.setRouter_lastCore : (s.setRouter k x).lastCore = s.lastCore := rfl
@[simp] theorem State.setRouter_boundAt : (s.setRouter k x).boundAt = s.boundAt := rfl
@[simp] theorem State.setRouter_waiters : (s.setRouter k x).waiters = s.waiters := rfl
@[simp] theorem State.setRouter_rounds : (s.setRouter k x).rounds = s.rounds := rfl
@[simp] theorem State.setRouter_tensors : (s.setRouter k x).tensors = s.tensors := rfl
@[simp] theorem State.setRouter_wants : (s.setRouter k x).wants = s.wants := rfl
@[simp] theorem State.setRouter_namers : (s.setRouter k x).namers = s.namers := rfl
@[simp] theorem State.setRouter_anyAsks : (s.setRouter k x).anyAsks = s.anyAsks := rfl
@[simp] theorem State.setRouter_seeds : (s.setRouter k x).seeds = s.seeds := rfl
@[simp] theorem State.setRouter_press : (s.setRouter k x).press = s.press := rfl
@[simp] theorem State.setRouter_groups : (s.setRouter k x).groups = s.groups := rfl
@[simp] theorem State.setRouter_launches : (s.setRouter k x).launches = s.launches := rfl
@[simp] theorem State.setRouter_dies : (s.setRouter k x).dies = s.dies := rfl
@[simp] theorem State.setRouter_gstore : (s.setRouter k x).gstore = s.gstore := rfl
@[simp] theorem State.setRouter_links : (s.setRouter k x).links = s.links := rfl
@[simp] theorem State.setRouter_waves : (s.setRouter k x).waves = s.waves := rfl
@[simp] theorem State.setRouter_transits : (s.setRouter k x).transits = s.transits := rfl
@[simp] theorem State.setRouter_stuck : (s.setRouter k x).stuck = s.stuck := rfl
@[simp] theorem State.setRouter_pkgid : (s.setRouter k x).pkgid = s.pkgid := rfl
@[simp] theorem State.setRouter_faben : (s.setRouter k x).faben = s.faben := rfl
@[simp] theorem State.setRouter_discDone : (s.setRouter k x).discDone = s.discDone := rfl
@[simp] theorem State.setRouter_discConflict : (s.setRouter k x).discConflict = s.discConflict := rfl
@[simp] theorem State.setRouter_snapEnable : (s.setRouter k x).snapEnable = s.snapEnable := rfl
@[simp] theorem State.setRouter_snapSeq : (s.setRouter k x).snapSeq = s.snapSeq := rfl
@[simp] theorem State.setRouter_snapAt : (s.setRouter k x).snapAt = s.snapAt := rfl
@[simp] theorem State.setRouter_fattrRefused : (s.setRouter k x).fattrRefused = s.fattrRefused := rfl
@[simp] theorem State.setRouter_repairBusy : (s.setRouter k x).repairBusy = s.repairBusy := rfl
@[simp] theorem State.setRouter_repairRefused : (s.setRouter k x).repairRefused = s.repairRefused := rfl
@[simp] theorem State.setRouter_repairsDone : (s.setRouter k x).repairsDone = s.repairsDone := rfl
@[simp] theorem State.setRouter_repairWait : (s.setRouter k x).repairWait = s.repairWait := rfl
@[simp] theorem State.setRouter_sliceMoved : (s.setRouter k x).sliceMoved = s.sliceMoved := rfl
@[simp] theorem State.setRouter_ioRegs : (s.setRouter k x).ioRegs = s.ioRegs := rfl
@[simp] theorem State.setRouter_msix : (s.setRouter k x).msix = s.msix := rfl
@[simp] theorem State.setRouter_hostReply : (s.setRouter k x).hostReply = s.hostReply := rfl
@[simp] theorem State.setRouter_booted : (s.setRouter k x).booted = s.booted := rfl
@[simp] theorem State.setRouter_cycle : (s.setRouter k x).cycle = s.cycle := rfl
@[simp] theorem State.setRouter_nextTask : (s.setRouter k x).nextTask = s.nextTask := rfl
@[simp] theorem State.setRouter_xid : (s.setRouter k x).xid = s.xid := rfl
@[simp] theorem State.setRouter_draws : (s.setRouter k x).draws = s.draws := rfl
@[simp] theorem State.setRouter_agenda : (s.setRouter k x).agenda = s.agenda := rfl
@[simp] theorem State.setRouter_turn : (s.setRouter k x).turn = s.turn := rfl
@[simp] theorem State.setRouter_focus : (s.setRouter k x).focus = s.focus := rfl
@[simp] theorem State.setRouter_slot_read (q : SlotRef) : (s.setRouter k x).slot q = s.slot q := rfl
@[simp] theorem State.setRouter_core_read (n : Nat) : (s.setRouter k x).core n = s.core n := rfl
@[simp] theorem State.setRouter_die_read (n : Nat) : (s.setRouter k x).die n = s.die n := rfl
@[simp] theorem State.setRouter_port_read (n : Nat) : (s.setRouter k x).port n = s.port n := rfl
@[simp] theorem State.setRouter_queue_read (n : Nat) : (s.setRouter k x).queue n = s.queue n := rfl
@[simp] theorem State.setRouter_group_read (n : Nat) : (s.setRouter k x).group n = s.group n := rfl
@[simp] theorem State.setRouter_launch_read (n : Nat) : (s.setRouter k x).launch n = s.launch n := rfl
@[simp] theorem State.setRouter_tensor_read (n : Nat) : (s.setRouter k x).tensor n = s.tensor n := rfl
@[simp] theorem State.setRouter_link_read (q : LinkEnd) : (s.setRouter k x).link q = s.link q := rfl
@[simp] theorem State.setRouter_plot_read (n : Nat) : (s.setRouter k x).plot n = s.plot n := rfl
@[simp] theorem State.setRouter_full_read (n m : Nat) : (s.setRouter k x).full n m = s.full n m := rfl
@[simp] theorem State.setRouter_attr_read (n : Nat) : (s.setRouter k x).attr n = s.attr n := rfl
@[simp] theorem State.setRouter_me_read : (s.setRouter k x).me = s.me := rfl
@[simp] theorem State.setRouter_cur_read : (s.setRouter k x).cur = s.cur := rfl
@[simp] theorem State.setRouter_load_read (n : Nat) : (s.setRouter k x).load n = s.load n := rfl
@[simp] theorem State.setRouter_hasUe_read (n m : Nat) : (s.setRouter k x).hasUe n m = s.hasUe n m := rfl

end

section
variable (s : State) (k : Nat) (x : List Record)

@[simp] theorem State.setQueue_mem : (s.setQueue k x).mem = s.mem := rfl
@[simp] theorem State.setQueue_past : (s.setQueue k x).past = s.past := rfl
@[simp] theorem State.setQueue_fe : (s.setQueue k x).fe = s.fe := rfl
@[simp] theorem State.setQueue_frameAttr : (s.setQueue k x).frameAttr = s.frameAttr := rfl
@[simp] theorem State.setQueue_plots : (s.setQueue k x).plots = s.plots := rfl
@[simp] theorem State.setQueue_ue : (s.setQueue k x).ue = s.ue := rfl
@[simp] theorem State.setQueue_slots : (s.setQueue k x).slots = s.slots := rfl
@[simp] theorem State.setQueue_cores : (s.setQueue k x).cores = s.cores := rfl
@[simp] theorem State.setQueue_ports : (s.setQueue k x).ports = s.ports := rfl
@[simp] theorem State.setQueue_routers : (s.setQueue k x).routers = s.routers := rfl
@[simp] theorem State.setQueue_queues : (s.setQueue k x).queues = SMap.put s.queues k x := rfl
@[simp] theorem State.setQueue_lastCore : (s.setQueue k x).lastCore = s.lastCore := rfl
@[simp] theorem State.setQueue_boundAt : (s.setQueue k x).boundAt = s.boundAt := rfl
@[simp] theorem State.setQueue_waiters : (s.setQueue k x).waiters = s.waiters := rfl
@[simp] theorem State.setQueue_rounds : (s.setQueue k x).rounds = s.rounds := rfl
@[simp] theorem State.setQueue_tensors : (s.setQueue k x).tensors = s.tensors := rfl
@[simp] theorem State.setQueue_wants : (s.setQueue k x).wants = s.wants := rfl
@[simp] theorem State.setQueue_namers : (s.setQueue k x).namers = s.namers := rfl
@[simp] theorem State.setQueue_anyAsks : (s.setQueue k x).anyAsks = s.anyAsks := rfl
@[simp] theorem State.setQueue_seeds : (s.setQueue k x).seeds = s.seeds := rfl
@[simp] theorem State.setQueue_press : (s.setQueue k x).press = s.press := rfl
@[simp] theorem State.setQueue_groups : (s.setQueue k x).groups = s.groups := rfl
@[simp] theorem State.setQueue_launches : (s.setQueue k x).launches = s.launches := rfl
@[simp] theorem State.setQueue_dies : (s.setQueue k x).dies = s.dies := rfl
@[simp] theorem State.setQueue_gstore : (s.setQueue k x).gstore = s.gstore := rfl
@[simp] theorem State.setQueue_links : (s.setQueue k x).links = s.links := rfl
@[simp] theorem State.setQueue_waves : (s.setQueue k x).waves = s.waves := rfl
@[simp] theorem State.setQueue_transits : (s.setQueue k x).transits = s.transits := rfl
@[simp] theorem State.setQueue_stuck : (s.setQueue k x).stuck = s.stuck := rfl
@[simp] theorem State.setQueue_pkgid : (s.setQueue k x).pkgid = s.pkgid := rfl
@[simp] theorem State.setQueue_faben : (s.setQueue k x).faben = s.faben := rfl
@[simp] theorem State.setQueue_discDone : (s.setQueue k x).discDone = s.discDone := rfl
@[simp] theorem State.setQueue_discConflict : (s.setQueue k x).discConflict = s.discConflict := rfl
@[simp] theorem State.setQueue_snapEnable : (s.setQueue k x).snapEnable = s.snapEnable := rfl
@[simp] theorem State.setQueue_snapSeq : (s.setQueue k x).snapSeq = s.snapSeq := rfl
@[simp] theorem State.setQueue_snapAt : (s.setQueue k x).snapAt = s.snapAt := rfl
@[simp] theorem State.setQueue_fattrRefused : (s.setQueue k x).fattrRefused = s.fattrRefused := rfl
@[simp] theorem State.setQueue_repairBusy : (s.setQueue k x).repairBusy = s.repairBusy := rfl
@[simp] theorem State.setQueue_repairRefused : (s.setQueue k x).repairRefused = s.repairRefused := rfl
@[simp] theorem State.setQueue_repairsDone : (s.setQueue k x).repairsDone = s.repairsDone := rfl
@[simp] theorem State.setQueue_repairWait : (s.setQueue k x).repairWait = s.repairWait := rfl
@[simp] theorem State.setQueue_sliceMoved : (s.setQueue k x).sliceMoved = s.sliceMoved := rfl
@[simp] theorem State.setQueue_ioRegs : (s.setQueue k x).ioRegs = s.ioRegs := rfl
@[simp] theorem State.setQueue_msix : (s.setQueue k x).msix = s.msix := rfl
@[simp] theorem State.setQueue_hostReply : (s.setQueue k x).hostReply = s.hostReply := rfl
@[simp] theorem State.setQueue_booted : (s.setQueue k x).booted = s.booted := rfl
@[simp] theorem State.setQueue_cycle : (s.setQueue k x).cycle = s.cycle := rfl
@[simp] theorem State.setQueue_nextTask : (s.setQueue k x).nextTask = s.nextTask := rfl
@[simp] theorem State.setQueue_xid : (s.setQueue k x).xid = s.xid := rfl
@[simp] theorem State.setQueue_draws : (s.setQueue k x).draws = s.draws := rfl
@[simp] theorem State.setQueue_agenda : (s.setQueue k x).agenda = s.agenda := rfl
@[simp] theorem State.setQueue_turn : (s.setQueue k x).turn = s.turn := rfl
@[simp] theorem State.setQueue_focus : (s.setQueue k x).focus = s.focus := rfl
@[simp] theorem State.setQueue_slot_read (q : SlotRef) : (s.setQueue k x).slot q = s.slot q := rfl
@[simp] theorem State.setQueue_core_read (n : Nat) : (s.setQueue k x).core n = s.core n := rfl
@[simp] theorem State.setQueue_die_read (n : Nat) : (s.setQueue k x).die n = s.die n := rfl
@[simp] theorem State.setQueue_port_read (n : Nat) : (s.setQueue k x).port n = s.port n := rfl
@[simp] theorem State.setQueue_router_read (n : Nat) : (s.setQueue k x).router n = s.router n := rfl
@[simp] theorem State.setQueue_group_read (n : Nat) : (s.setQueue k x).group n = s.group n := rfl
@[simp] theorem State.setQueue_launch_read (n : Nat) : (s.setQueue k x).launch n = s.launch n := rfl
@[simp] theorem State.setQueue_tensor_read (n : Nat) : (s.setQueue k x).tensor n = s.tensor n := rfl
@[simp] theorem State.setQueue_link_read (q : LinkEnd) : (s.setQueue k x).link q = s.link q := rfl
@[simp] theorem State.setQueue_plot_read (n : Nat) : (s.setQueue k x).plot n = s.plot n := rfl
@[simp] theorem State.setQueue_full_read (n m : Nat) : (s.setQueue k x).full n m = s.full n m := rfl
@[simp] theorem State.setQueue_attr_read (n : Nat) : (s.setQueue k x).attr n = s.attr n := rfl
@[simp] theorem State.setQueue_me_read : (s.setQueue k x).me = s.me := rfl
@[simp] theorem State.setQueue_cur_read : (s.setQueue k x).cur = s.cur := rfl
@[simp] theorem State.setQueue_load_read (n : Nat) : (s.setQueue k x).load n = s.load n := rfl
@[simp] theorem State.setQueue_hasUe_read (n m : Nat) : (s.setQueue k x).hasUe n m = s.hasUe n m := rfl

end

section
variable (s : State) (k : Nat) (x : Group)

@[simp] theorem State.setGroup_mem : (s.setGroup k x).mem = s.mem := rfl
@[simp] theorem State.setGroup_past : (s.setGroup k x).past = s.past := rfl
@[simp] theorem State.setGroup_fe : (s.setGroup k x).fe = s.fe := rfl
@[simp] theorem State.setGroup_frameAttr : (s.setGroup k x).frameAttr = s.frameAttr := rfl
@[simp] theorem State.setGroup_plots : (s.setGroup k x).plots = s.plots := rfl
@[simp] theorem State.setGroup_ue : (s.setGroup k x).ue = s.ue := rfl
@[simp] theorem State.setGroup_slots : (s.setGroup k x).slots = s.slots := rfl
@[simp] theorem State.setGroup_cores : (s.setGroup k x).cores = s.cores := rfl
@[simp] theorem State.setGroup_ports : (s.setGroup k x).ports = s.ports := rfl
@[simp] theorem State.setGroup_routers : (s.setGroup k x).routers = s.routers := rfl
@[simp] theorem State.setGroup_queues : (s.setGroup k x).queues = s.queues := rfl
@[simp] theorem State.setGroup_lastCore : (s.setGroup k x).lastCore = s.lastCore := rfl
@[simp] theorem State.setGroup_boundAt : (s.setGroup k x).boundAt = s.boundAt := rfl
@[simp] theorem State.setGroup_waiters : (s.setGroup k x).waiters = s.waiters := rfl
@[simp] theorem State.setGroup_rounds : (s.setGroup k x).rounds = s.rounds := rfl
@[simp] theorem State.setGroup_tensors : (s.setGroup k x).tensors = s.tensors := rfl
@[simp] theorem State.setGroup_wants : (s.setGroup k x).wants = s.wants := rfl
@[simp] theorem State.setGroup_namers : (s.setGroup k x).namers = s.namers := rfl
@[simp] theorem State.setGroup_anyAsks : (s.setGroup k x).anyAsks = s.anyAsks := rfl
@[simp] theorem State.setGroup_seeds : (s.setGroup k x).seeds = s.seeds := rfl
@[simp] theorem State.setGroup_press : (s.setGroup k x).press = s.press := rfl
@[simp] theorem State.setGroup_groups : (s.setGroup k x).groups = SMap.put s.groups k x := rfl
@[simp] theorem State.setGroup_launches : (s.setGroup k x).launches = s.launches := rfl
@[simp] theorem State.setGroup_dies : (s.setGroup k x).dies = s.dies := rfl
@[simp] theorem State.setGroup_gstore : (s.setGroup k x).gstore = s.gstore := rfl
@[simp] theorem State.setGroup_links : (s.setGroup k x).links = s.links := rfl
@[simp] theorem State.setGroup_waves : (s.setGroup k x).waves = s.waves := rfl
@[simp] theorem State.setGroup_transits : (s.setGroup k x).transits = s.transits := rfl
@[simp] theorem State.setGroup_stuck : (s.setGroup k x).stuck = s.stuck := rfl
@[simp] theorem State.setGroup_pkgid : (s.setGroup k x).pkgid = s.pkgid := rfl
@[simp] theorem State.setGroup_faben : (s.setGroup k x).faben = s.faben := rfl
@[simp] theorem State.setGroup_discDone : (s.setGroup k x).discDone = s.discDone := rfl
@[simp] theorem State.setGroup_discConflict : (s.setGroup k x).discConflict = s.discConflict := rfl
@[simp] theorem State.setGroup_snapEnable : (s.setGroup k x).snapEnable = s.snapEnable := rfl
@[simp] theorem State.setGroup_snapSeq : (s.setGroup k x).snapSeq = s.snapSeq := rfl
@[simp] theorem State.setGroup_snapAt : (s.setGroup k x).snapAt = s.snapAt := rfl
@[simp] theorem State.setGroup_fattrRefused : (s.setGroup k x).fattrRefused = s.fattrRefused := rfl
@[simp] theorem State.setGroup_repairBusy : (s.setGroup k x).repairBusy = s.repairBusy := rfl
@[simp] theorem State.setGroup_repairRefused : (s.setGroup k x).repairRefused = s.repairRefused := rfl
@[simp] theorem State.setGroup_repairsDone : (s.setGroup k x).repairsDone = s.repairsDone := rfl
@[simp] theorem State.setGroup_repairWait : (s.setGroup k x).repairWait = s.repairWait := rfl
@[simp] theorem State.setGroup_sliceMoved : (s.setGroup k x).sliceMoved = s.sliceMoved := rfl
@[simp] theorem State.setGroup_ioRegs : (s.setGroup k x).ioRegs = s.ioRegs := rfl
@[simp] theorem State.setGroup_msix : (s.setGroup k x).msix = s.msix := rfl
@[simp] theorem State.setGroup_hostReply : (s.setGroup k x).hostReply = s.hostReply := rfl
@[simp] theorem State.setGroup_booted : (s.setGroup k x).booted = s.booted := rfl
@[simp] theorem State.setGroup_cycle : (s.setGroup k x).cycle = s.cycle := rfl
@[simp] theorem State.setGroup_nextTask : (s.setGroup k x).nextTask = s.nextTask := rfl
@[simp] theorem State.setGroup_xid : (s.setGroup k x).xid = s.xid := rfl
@[simp] theorem State.setGroup_draws : (s.setGroup k x).draws = s.draws := rfl
@[simp] theorem State.setGroup_agenda : (s.setGroup k x).agenda = s.agenda := rfl
@[simp] theorem State.setGroup_turn : (s.setGroup k x).turn = s.turn := rfl
@[simp] theorem State.setGroup_focus : (s.setGroup k x).focus = s.focus := rfl
@[simp] theorem State.setGroup_slot_read (q : SlotRef) : (s.setGroup k x).slot q = s.slot q := rfl
@[simp] theorem State.setGroup_core_read (n : Nat) : (s.setGroup k x).core n = s.core n := rfl
@[simp] theorem State.setGroup_die_read (n : Nat) : (s.setGroup k x).die n = s.die n := rfl
@[simp] theorem State.setGroup_port_read (n : Nat) : (s.setGroup k x).port n = s.port n := rfl
@[simp] theorem State.setGroup_router_read (n : Nat) : (s.setGroup k x).router n = s.router n := rfl
@[simp] theorem State.setGroup_queue_read (n : Nat) : (s.setGroup k x).queue n = s.queue n := rfl
@[simp] theorem State.setGroup_launch_read (n : Nat) : (s.setGroup k x).launch n = s.launch n := rfl
@[simp] theorem State.setGroup_tensor_read (n : Nat) : (s.setGroup k x).tensor n = s.tensor n := rfl
@[simp] theorem State.setGroup_link_read (q : LinkEnd) : (s.setGroup k x).link q = s.link q := rfl
@[simp] theorem State.setGroup_plot_read (n : Nat) : (s.setGroup k x).plot n = s.plot n := rfl
@[simp] theorem State.setGroup_full_read (n m : Nat) : (s.setGroup k x).full n m = s.full n m := rfl
@[simp] theorem State.setGroup_attr_read (n : Nat) : (s.setGroup k x).attr n = s.attr n := rfl
@[simp] theorem State.setGroup_me_read : (s.setGroup k x).me = s.me := rfl
@[simp] theorem State.setGroup_cur_read : (s.setGroup k x).cur = s.cur := rfl
@[simp] theorem State.setGroup_load_read (n : Nat) : (s.setGroup k x).load n = s.load n := rfl
@[simp] theorem State.setGroup_hasUe_read (n m : Nat) : (s.setGroup k x).hasUe n m = s.hasUe n m := rfl

end

section
variable (s : State) (k : Nat) (x : Launch)

@[simp] theorem State.setLaunch_mem : (s.setLaunch k x).mem = s.mem := rfl
@[simp] theorem State.setLaunch_past : (s.setLaunch k x).past = s.past := rfl
@[simp] theorem State.setLaunch_fe : (s.setLaunch k x).fe = s.fe := rfl
@[simp] theorem State.setLaunch_frameAttr : (s.setLaunch k x).frameAttr = s.frameAttr := rfl
@[simp] theorem State.setLaunch_plots : (s.setLaunch k x).plots = s.plots := rfl
@[simp] theorem State.setLaunch_ue : (s.setLaunch k x).ue = s.ue := rfl
@[simp] theorem State.setLaunch_slots : (s.setLaunch k x).slots = s.slots := rfl
@[simp] theorem State.setLaunch_cores : (s.setLaunch k x).cores = s.cores := rfl
@[simp] theorem State.setLaunch_ports : (s.setLaunch k x).ports = s.ports := rfl
@[simp] theorem State.setLaunch_routers : (s.setLaunch k x).routers = s.routers := rfl
@[simp] theorem State.setLaunch_queues : (s.setLaunch k x).queues = s.queues := rfl
@[simp] theorem State.setLaunch_lastCore : (s.setLaunch k x).lastCore = s.lastCore := rfl
@[simp] theorem State.setLaunch_boundAt : (s.setLaunch k x).boundAt = s.boundAt := rfl
@[simp] theorem State.setLaunch_waiters : (s.setLaunch k x).waiters = s.waiters := rfl
@[simp] theorem State.setLaunch_rounds : (s.setLaunch k x).rounds = s.rounds := rfl
@[simp] theorem State.setLaunch_tensors : (s.setLaunch k x).tensors = s.tensors := rfl
@[simp] theorem State.setLaunch_wants : (s.setLaunch k x).wants = s.wants := rfl
@[simp] theorem State.setLaunch_namers : (s.setLaunch k x).namers = s.namers := rfl
@[simp] theorem State.setLaunch_anyAsks : (s.setLaunch k x).anyAsks = s.anyAsks := rfl
@[simp] theorem State.setLaunch_seeds : (s.setLaunch k x).seeds = s.seeds := rfl
@[simp] theorem State.setLaunch_press : (s.setLaunch k x).press = s.press := rfl
@[simp] theorem State.setLaunch_groups : (s.setLaunch k x).groups = s.groups := rfl
@[simp] theorem State.setLaunch_launches : (s.setLaunch k x).launches = SMap.put s.launches k (some x) := rfl
@[simp] theorem State.setLaunch_dies : (s.setLaunch k x).dies = s.dies := rfl
@[simp] theorem State.setLaunch_gstore : (s.setLaunch k x).gstore = s.gstore := rfl
@[simp] theorem State.setLaunch_links : (s.setLaunch k x).links = s.links := rfl
@[simp] theorem State.setLaunch_waves : (s.setLaunch k x).waves = s.waves := rfl
@[simp] theorem State.setLaunch_transits : (s.setLaunch k x).transits = s.transits := rfl
@[simp] theorem State.setLaunch_stuck : (s.setLaunch k x).stuck = s.stuck := rfl
@[simp] theorem State.setLaunch_pkgid : (s.setLaunch k x).pkgid = s.pkgid := rfl
@[simp] theorem State.setLaunch_faben : (s.setLaunch k x).faben = s.faben := rfl
@[simp] theorem State.setLaunch_discDone : (s.setLaunch k x).discDone = s.discDone := rfl
@[simp] theorem State.setLaunch_discConflict : (s.setLaunch k x).discConflict = s.discConflict := rfl
@[simp] theorem State.setLaunch_snapEnable : (s.setLaunch k x).snapEnable = s.snapEnable := rfl
@[simp] theorem State.setLaunch_snapSeq : (s.setLaunch k x).snapSeq = s.snapSeq := rfl
@[simp] theorem State.setLaunch_snapAt : (s.setLaunch k x).snapAt = s.snapAt := rfl
@[simp] theorem State.setLaunch_fattrRefused : (s.setLaunch k x).fattrRefused = s.fattrRefused := rfl
@[simp] theorem State.setLaunch_repairBusy : (s.setLaunch k x).repairBusy = s.repairBusy := rfl
@[simp] theorem State.setLaunch_repairRefused : (s.setLaunch k x).repairRefused = s.repairRefused := rfl
@[simp] theorem State.setLaunch_repairsDone : (s.setLaunch k x).repairsDone = s.repairsDone := rfl
@[simp] theorem State.setLaunch_repairWait : (s.setLaunch k x).repairWait = s.repairWait := rfl
@[simp] theorem State.setLaunch_sliceMoved : (s.setLaunch k x).sliceMoved = s.sliceMoved := rfl
@[simp] theorem State.setLaunch_ioRegs : (s.setLaunch k x).ioRegs = s.ioRegs := rfl
@[simp] theorem State.setLaunch_msix : (s.setLaunch k x).msix = s.msix := rfl
@[simp] theorem State.setLaunch_hostReply : (s.setLaunch k x).hostReply = s.hostReply := rfl
@[simp] theorem State.setLaunch_booted : (s.setLaunch k x).booted = s.booted := rfl
@[simp] theorem State.setLaunch_cycle : (s.setLaunch k x).cycle = s.cycle := rfl
@[simp] theorem State.setLaunch_nextTask : (s.setLaunch k x).nextTask = s.nextTask := rfl
@[simp] theorem State.setLaunch_xid : (s.setLaunch k x).xid = s.xid := rfl
@[simp] theorem State.setLaunch_draws : (s.setLaunch k x).draws = s.draws := rfl
@[simp] theorem State.setLaunch_agenda : (s.setLaunch k x).agenda = s.agenda := rfl
@[simp] theorem State.setLaunch_turn : (s.setLaunch k x).turn = s.turn := rfl
@[simp] theorem State.setLaunch_focus : (s.setLaunch k x).focus = s.focus := rfl
@[simp] theorem State.setLaunch_slot_read (q : SlotRef) : (s.setLaunch k x).slot q = s.slot q := rfl
@[simp] theorem State.setLaunch_core_read (n : Nat) : (s.setLaunch k x).core n = s.core n := rfl
@[simp] theorem State.setLaunch_die_read (n : Nat) : (s.setLaunch k x).die n = s.die n := rfl
@[simp] theorem State.setLaunch_port_read (n : Nat) : (s.setLaunch k x).port n = s.port n := rfl
@[simp] theorem State.setLaunch_router_read (n : Nat) : (s.setLaunch k x).router n = s.router n := rfl
@[simp] theorem State.setLaunch_queue_read (n : Nat) : (s.setLaunch k x).queue n = s.queue n := rfl
@[simp] theorem State.setLaunch_group_read (n : Nat) : (s.setLaunch k x).group n = s.group n := rfl
@[simp] theorem State.setLaunch_tensor_read (n : Nat) : (s.setLaunch k x).tensor n = s.tensor n := rfl
@[simp] theorem State.setLaunch_link_read (q : LinkEnd) : (s.setLaunch k x).link q = s.link q := rfl
@[simp] theorem State.setLaunch_plot_read (n : Nat) : (s.setLaunch k x).plot n = s.plot n := rfl
@[simp] theorem State.setLaunch_full_read (n m : Nat) : (s.setLaunch k x).full n m = s.full n m := rfl
@[simp] theorem State.setLaunch_attr_read (n : Nat) : (s.setLaunch k x).attr n = s.attr n := rfl
@[simp] theorem State.setLaunch_me_read : (s.setLaunch k x).me = s.me := rfl
@[simp] theorem State.setLaunch_cur_read : (s.setLaunch k x).cur = s.cur := rfl
@[simp] theorem State.setLaunch_load_read (n : Nat) : (s.setLaunch k x).load n = s.load n := rfl
@[simp] theorem State.setLaunch_hasUe_read (n m : Nat) : (s.setLaunch k x).hasUe n m = s.hasUe n m := rfl

end

section
variable (s : State) (k : Nat) (x : List Byte)

@[simp] theorem State.setTensor_mem : (s.setTensor k x).mem = s.mem := rfl
@[simp] theorem State.setTensor_past : (s.setTensor k x).past = s.past := rfl
@[simp] theorem State.setTensor_fe : (s.setTensor k x).fe = s.fe := rfl
@[simp] theorem State.setTensor_frameAttr : (s.setTensor k x).frameAttr = s.frameAttr := rfl
@[simp] theorem State.setTensor_plots : (s.setTensor k x).plots = s.plots := rfl
@[simp] theorem State.setTensor_ue : (s.setTensor k x).ue = s.ue := rfl
@[simp] theorem State.setTensor_slots : (s.setTensor k x).slots = s.slots := rfl
@[simp] theorem State.setTensor_cores : (s.setTensor k x).cores = s.cores := rfl
@[simp] theorem State.setTensor_ports : (s.setTensor k x).ports = s.ports := rfl
@[simp] theorem State.setTensor_routers : (s.setTensor k x).routers = s.routers := rfl
@[simp] theorem State.setTensor_queues : (s.setTensor k x).queues = s.queues := rfl
@[simp] theorem State.setTensor_lastCore : (s.setTensor k x).lastCore = s.lastCore := rfl
@[simp] theorem State.setTensor_boundAt : (s.setTensor k x).boundAt = s.boundAt := rfl
@[simp] theorem State.setTensor_waiters : (s.setTensor k x).waiters = s.waiters := rfl
@[simp] theorem State.setTensor_rounds : (s.setTensor k x).rounds = s.rounds := rfl
@[simp] theorem State.setTensor_tensors : (s.setTensor k x).tensors = SMap.put s.tensors k x := rfl
@[simp] theorem State.setTensor_wants : (s.setTensor k x).wants = s.wants := rfl
@[simp] theorem State.setTensor_namers : (s.setTensor k x).namers = s.namers := rfl
@[simp] theorem State.setTensor_anyAsks : (s.setTensor k x).anyAsks = s.anyAsks := rfl
@[simp] theorem State.setTensor_seeds : (s.setTensor k x).seeds = s.seeds := rfl
@[simp] theorem State.setTensor_press : (s.setTensor k x).press = s.press := rfl
@[simp] theorem State.setTensor_groups : (s.setTensor k x).groups = s.groups := rfl
@[simp] theorem State.setTensor_launches : (s.setTensor k x).launches = s.launches := rfl
@[simp] theorem State.setTensor_dies : (s.setTensor k x).dies = s.dies := rfl
@[simp] theorem State.setTensor_gstore : (s.setTensor k x).gstore = s.gstore := rfl
@[simp] theorem State.setTensor_links : (s.setTensor k x).links = s.links := rfl
@[simp] theorem State.setTensor_waves : (s.setTensor k x).waves = s.waves := rfl
@[simp] theorem State.setTensor_transits : (s.setTensor k x).transits = s.transits := rfl
@[simp] theorem State.setTensor_stuck : (s.setTensor k x).stuck = s.stuck := rfl
@[simp] theorem State.setTensor_pkgid : (s.setTensor k x).pkgid = s.pkgid := rfl
@[simp] theorem State.setTensor_faben : (s.setTensor k x).faben = s.faben := rfl
@[simp] theorem State.setTensor_discDone : (s.setTensor k x).discDone = s.discDone := rfl
@[simp] theorem State.setTensor_discConflict : (s.setTensor k x).discConflict = s.discConflict := rfl
@[simp] theorem State.setTensor_snapEnable : (s.setTensor k x).snapEnable = s.snapEnable := rfl
@[simp] theorem State.setTensor_snapSeq : (s.setTensor k x).snapSeq = s.snapSeq := rfl
@[simp] theorem State.setTensor_snapAt : (s.setTensor k x).snapAt = s.snapAt := rfl
@[simp] theorem State.setTensor_fattrRefused : (s.setTensor k x).fattrRefused = s.fattrRefused := rfl
@[simp] theorem State.setTensor_repairBusy : (s.setTensor k x).repairBusy = s.repairBusy := rfl
@[simp] theorem State.setTensor_repairRefused : (s.setTensor k x).repairRefused = s.repairRefused := rfl
@[simp] theorem State.setTensor_repairsDone : (s.setTensor k x).repairsDone = s.repairsDone := rfl
@[simp] theorem State.setTensor_repairWait : (s.setTensor k x).repairWait = s.repairWait := rfl
@[simp] theorem State.setTensor_sliceMoved : (s.setTensor k x).sliceMoved = s.sliceMoved := rfl
@[simp] theorem State.setTensor_ioRegs : (s.setTensor k x).ioRegs = s.ioRegs := rfl
@[simp] theorem State.setTensor_msix : (s.setTensor k x).msix = s.msix := rfl
@[simp] theorem State.setTensor_hostReply : (s.setTensor k x).hostReply = s.hostReply := rfl
@[simp] theorem State.setTensor_booted : (s.setTensor k x).booted = s.booted := rfl
@[simp] theorem State.setTensor_cycle : (s.setTensor k x).cycle = s.cycle := rfl
@[simp] theorem State.setTensor_nextTask : (s.setTensor k x).nextTask = s.nextTask := rfl
@[simp] theorem State.setTensor_xid : (s.setTensor k x).xid = s.xid := rfl
@[simp] theorem State.setTensor_draws : (s.setTensor k x).draws = s.draws := rfl
@[simp] theorem State.setTensor_agenda : (s.setTensor k x).agenda = s.agenda := rfl
@[simp] theorem State.setTensor_turn : (s.setTensor k x).turn = s.turn := rfl
@[simp] theorem State.setTensor_focus : (s.setTensor k x).focus = s.focus := rfl
@[simp] theorem State.setTensor_slot_read (q : SlotRef) : (s.setTensor k x).slot q = s.slot q := rfl
@[simp] theorem State.setTensor_core_read (n : Nat) : (s.setTensor k x).core n = s.core n := rfl
@[simp] theorem State.setTensor_die_read (n : Nat) : (s.setTensor k x).die n = s.die n := rfl
@[simp] theorem State.setTensor_port_read (n : Nat) : (s.setTensor k x).port n = s.port n := rfl
@[simp] theorem State.setTensor_router_read (n : Nat) : (s.setTensor k x).router n = s.router n := rfl
@[simp] theorem State.setTensor_queue_read (n : Nat) : (s.setTensor k x).queue n = s.queue n := rfl
@[simp] theorem State.setTensor_group_read (n : Nat) : (s.setTensor k x).group n = s.group n := rfl
@[simp] theorem State.setTensor_launch_read (n : Nat) : (s.setTensor k x).launch n = s.launch n := rfl
@[simp] theorem State.setTensor_link_read (q : LinkEnd) : (s.setTensor k x).link q = s.link q := rfl
@[simp] theorem State.setTensor_plot_read (n : Nat) : (s.setTensor k x).plot n = s.plot n := rfl
@[simp] theorem State.setTensor_full_read (n m : Nat) : (s.setTensor k x).full n m = s.full n m := rfl
@[simp] theorem State.setTensor_attr_read (n : Nat) : (s.setTensor k x).attr n = s.attr n := rfl
@[simp] theorem State.setTensor_me_read : (s.setTensor k x).me = s.me := rfl
@[simp] theorem State.setTensor_cur_read : (s.setTensor k x).cur = s.cur := rfl
@[simp] theorem State.setTensor_load_read (n : Nat) : (s.setTensor k x).load n = s.load n := rfl
@[simp] theorem State.setTensor_hasUe_read (n m : Nat) : (s.setTensor k x).hasUe n m = s.hasUe n m := rfl

end

section
variable (s : State) (e : LinkEnd) (x : Link)

@[simp] theorem State.setLink_mem : (s.setLink e x).mem = s.mem := rfl
@[simp] theorem State.setLink_past : (s.setLink e x).past = s.past := rfl
@[simp] theorem State.setLink_fe : (s.setLink e x).fe = s.fe := rfl
@[simp] theorem State.setLink_frameAttr : (s.setLink e x).frameAttr = s.frameAttr := rfl
@[simp] theorem State.setLink_plots : (s.setLink e x).plots = s.plots := rfl
@[simp] theorem State.setLink_ue : (s.setLink e x).ue = s.ue := rfl
@[simp] theorem State.setLink_slots : (s.setLink e x).slots = s.slots := rfl
@[simp] theorem State.setLink_cores : (s.setLink e x).cores = s.cores := rfl
@[simp] theorem State.setLink_ports : (s.setLink e x).ports = s.ports := rfl
@[simp] theorem State.setLink_routers : (s.setLink e x).routers = s.routers := rfl
@[simp] theorem State.setLink_queues : (s.setLink e x).queues = s.queues := rfl
@[simp] theorem State.setLink_lastCore : (s.setLink e x).lastCore = s.lastCore := rfl
@[simp] theorem State.setLink_boundAt : (s.setLink e x).boundAt = s.boundAt := rfl
@[simp] theorem State.setLink_waiters : (s.setLink e x).waiters = s.waiters := rfl
@[simp] theorem State.setLink_rounds : (s.setLink e x).rounds = s.rounds := rfl
@[simp] theorem State.setLink_tensors : (s.setLink e x).tensors = s.tensors := rfl
@[simp] theorem State.setLink_wants : (s.setLink e x).wants = s.wants := rfl
@[simp] theorem State.setLink_namers : (s.setLink e x).namers = s.namers := rfl
@[simp] theorem State.setLink_anyAsks : (s.setLink e x).anyAsks = s.anyAsks := rfl
@[simp] theorem State.setLink_seeds : (s.setLink e x).seeds = s.seeds := rfl
@[simp] theorem State.setLink_press : (s.setLink e x).press = s.press := rfl
@[simp] theorem State.setLink_groups : (s.setLink e x).groups = s.groups := rfl
@[simp] theorem State.setLink_launches : (s.setLink e x).launches = s.launches := rfl
@[simp] theorem State.setLink_dies : (s.setLink e x).dies = s.dies := rfl
@[simp] theorem State.setLink_gstore : (s.setLink e x).gstore = s.gstore := rfl
@[simp] theorem State.setLink_links : (s.setLink e x).links = SMap.put s.links (linkKey e) x := rfl
@[simp] theorem State.setLink_waves : (s.setLink e x).waves = s.waves := rfl
@[simp] theorem State.setLink_transits : (s.setLink e x).transits = s.transits := rfl
@[simp] theorem State.setLink_stuck : (s.setLink e x).stuck = s.stuck := rfl
@[simp] theorem State.setLink_pkgid : (s.setLink e x).pkgid = s.pkgid := rfl
@[simp] theorem State.setLink_faben : (s.setLink e x).faben = s.faben := rfl
@[simp] theorem State.setLink_discDone : (s.setLink e x).discDone = s.discDone := rfl
@[simp] theorem State.setLink_discConflict : (s.setLink e x).discConflict = s.discConflict := rfl
@[simp] theorem State.setLink_snapEnable : (s.setLink e x).snapEnable = s.snapEnable := rfl
@[simp] theorem State.setLink_snapSeq : (s.setLink e x).snapSeq = s.snapSeq := rfl
@[simp] theorem State.setLink_snapAt : (s.setLink e x).snapAt = s.snapAt := rfl
@[simp] theorem State.setLink_fattrRefused : (s.setLink e x).fattrRefused = s.fattrRefused := rfl
@[simp] theorem State.setLink_repairBusy : (s.setLink e x).repairBusy = s.repairBusy := rfl
@[simp] theorem State.setLink_repairRefused : (s.setLink e x).repairRefused = s.repairRefused := rfl
@[simp] theorem State.setLink_repairsDone : (s.setLink e x).repairsDone = s.repairsDone := rfl
@[simp] theorem State.setLink_repairWait : (s.setLink e x).repairWait = s.repairWait := rfl
@[simp] theorem State.setLink_sliceMoved : (s.setLink e x).sliceMoved = s.sliceMoved := rfl
@[simp] theorem State.setLink_ioRegs : (s.setLink e x).ioRegs = s.ioRegs := rfl
@[simp] theorem State.setLink_msix : (s.setLink e x).msix = s.msix := rfl
@[simp] theorem State.setLink_hostReply : (s.setLink e x).hostReply = s.hostReply := rfl
@[simp] theorem State.setLink_booted : (s.setLink e x).booted = s.booted := rfl
@[simp] theorem State.setLink_cycle : (s.setLink e x).cycle = s.cycle := rfl
@[simp] theorem State.setLink_nextTask : (s.setLink e x).nextTask = s.nextTask := rfl
@[simp] theorem State.setLink_xid : (s.setLink e x).xid = s.xid := rfl
@[simp] theorem State.setLink_draws : (s.setLink e x).draws = s.draws := rfl
@[simp] theorem State.setLink_agenda : (s.setLink e x).agenda = s.agenda := rfl
@[simp] theorem State.setLink_turn : (s.setLink e x).turn = s.turn := rfl
@[simp] theorem State.setLink_focus : (s.setLink e x).focus = s.focus := rfl
@[simp] theorem State.setLink_slot_read (q : SlotRef) : (s.setLink e x).slot q = s.slot q := rfl
@[simp] theorem State.setLink_core_read (n : Nat) : (s.setLink e x).core n = s.core n := rfl
@[simp] theorem State.setLink_die_read (n : Nat) : (s.setLink e x).die n = s.die n := rfl
@[simp] theorem State.setLink_port_read (n : Nat) : (s.setLink e x).port n = s.port n := rfl
@[simp] theorem State.setLink_router_read (n : Nat) : (s.setLink e x).router n = s.router n := rfl
@[simp] theorem State.setLink_queue_read (n : Nat) : (s.setLink e x).queue n = s.queue n := rfl
@[simp] theorem State.setLink_group_read (n : Nat) : (s.setLink e x).group n = s.group n := rfl
@[simp] theorem State.setLink_launch_read (n : Nat) : (s.setLink e x).launch n = s.launch n := rfl
@[simp] theorem State.setLink_tensor_read (n : Nat) : (s.setLink e x).tensor n = s.tensor n := rfl
@[simp] theorem State.setLink_plot_read (n : Nat) : (s.setLink e x).plot n = s.plot n := rfl
@[simp] theorem State.setLink_full_read (n m : Nat) : (s.setLink e x).full n m = s.full n m := rfl
@[simp] theorem State.setLink_attr_read (n : Nat) : (s.setLink e x).attr n = s.attr n := rfl
@[simp] theorem State.setLink_me_read : (s.setLink e x).me = s.me := rfl
@[simp] theorem State.setLink_cur_read : (s.setLink e x).cur = s.cur := rfl
@[simp] theorem State.setLink_load_read (n : Nat) : (s.setLink e x).load n = s.load n := rfl
@[simp] theorem State.setLink_hasUe_read (n m : Nat) : (s.setLink e x).hasUe n m = s.hasUe n m := rfl

end

section
variable (s : State) (k : Nat) (x : Plot)

@[simp] theorem State.setPlot_mem : (s.setPlot k x).mem = s.mem := rfl
@[simp] theorem State.setPlot_past : (s.setPlot k x).past = s.past := rfl
@[simp] theorem State.setPlot_fe : (s.setPlot k x).fe = s.fe := rfl
@[simp] theorem State.setPlot_frameAttr : (s.setPlot k x).frameAttr = s.frameAttr := rfl
@[simp] theorem State.setPlot_plots : (s.setPlot k x).plots = SMap.put s.plots (k / 4096) x := rfl
@[simp] theorem State.setPlot_ue : (s.setPlot k x).ue = s.ue := rfl
@[simp] theorem State.setPlot_slots : (s.setPlot k x).slots = s.slots := rfl
@[simp] theorem State.setPlot_cores : (s.setPlot k x).cores = s.cores := rfl
@[simp] theorem State.setPlot_ports : (s.setPlot k x).ports = s.ports := rfl
@[simp] theorem State.setPlot_routers : (s.setPlot k x).routers = s.routers := rfl
@[simp] theorem State.setPlot_queues : (s.setPlot k x).queues = s.queues := rfl
@[simp] theorem State.setPlot_lastCore : (s.setPlot k x).lastCore = s.lastCore := rfl
@[simp] theorem State.setPlot_boundAt : (s.setPlot k x).boundAt = s.boundAt := rfl
@[simp] theorem State.setPlot_waiters : (s.setPlot k x).waiters = s.waiters := rfl
@[simp] theorem State.setPlot_rounds : (s.setPlot k x).rounds = s.rounds := rfl
@[simp] theorem State.setPlot_tensors : (s.setPlot k x).tensors = s.tensors := rfl
@[simp] theorem State.setPlot_wants : (s.setPlot k x).wants = s.wants := rfl
@[simp] theorem State.setPlot_namers : (s.setPlot k x).namers = s.namers := rfl
@[simp] theorem State.setPlot_anyAsks : (s.setPlot k x).anyAsks = s.anyAsks := rfl
@[simp] theorem State.setPlot_seeds : (s.setPlot k x).seeds = s.seeds := rfl
@[simp] theorem State.setPlot_press : (s.setPlot k x).press = s.press := rfl
@[simp] theorem State.setPlot_groups : (s.setPlot k x).groups = s.groups := rfl
@[simp] theorem State.setPlot_launches : (s.setPlot k x).launches = s.launches := rfl
@[simp] theorem State.setPlot_dies : (s.setPlot k x).dies = s.dies := rfl
@[simp] theorem State.setPlot_gstore : (s.setPlot k x).gstore = s.gstore := rfl
@[simp] theorem State.setPlot_links : (s.setPlot k x).links = s.links := rfl
@[simp] theorem State.setPlot_waves : (s.setPlot k x).waves = s.waves := rfl
@[simp] theorem State.setPlot_transits : (s.setPlot k x).transits = s.transits := rfl
@[simp] theorem State.setPlot_stuck : (s.setPlot k x).stuck = s.stuck := rfl
@[simp] theorem State.setPlot_pkgid : (s.setPlot k x).pkgid = s.pkgid := rfl
@[simp] theorem State.setPlot_faben : (s.setPlot k x).faben = s.faben := rfl
@[simp] theorem State.setPlot_discDone : (s.setPlot k x).discDone = s.discDone := rfl
@[simp] theorem State.setPlot_discConflict : (s.setPlot k x).discConflict = s.discConflict := rfl
@[simp] theorem State.setPlot_snapEnable : (s.setPlot k x).snapEnable = s.snapEnable := rfl
@[simp] theorem State.setPlot_snapSeq : (s.setPlot k x).snapSeq = s.snapSeq := rfl
@[simp] theorem State.setPlot_snapAt : (s.setPlot k x).snapAt = s.snapAt := rfl
@[simp] theorem State.setPlot_fattrRefused : (s.setPlot k x).fattrRefused = s.fattrRefused := rfl
@[simp] theorem State.setPlot_repairBusy : (s.setPlot k x).repairBusy = s.repairBusy := rfl
@[simp] theorem State.setPlot_repairRefused : (s.setPlot k x).repairRefused = s.repairRefused := rfl
@[simp] theorem State.setPlot_repairsDone : (s.setPlot k x).repairsDone = s.repairsDone := rfl
@[simp] theorem State.setPlot_repairWait : (s.setPlot k x).repairWait = s.repairWait := rfl
@[simp] theorem State.setPlot_sliceMoved : (s.setPlot k x).sliceMoved = s.sliceMoved := rfl
@[simp] theorem State.setPlot_ioRegs : (s.setPlot k x).ioRegs = s.ioRegs := rfl
@[simp] theorem State.setPlot_msix : (s.setPlot k x).msix = s.msix := rfl
@[simp] theorem State.setPlot_hostReply : (s.setPlot k x).hostReply = s.hostReply := rfl
@[simp] theorem State.setPlot_booted : (s.setPlot k x).booted = s.booted := rfl
@[simp] theorem State.setPlot_cycle : (s.setPlot k x).cycle = s.cycle := rfl
@[simp] theorem State.setPlot_nextTask : (s.setPlot k x).nextTask = s.nextTask := rfl
@[simp] theorem State.setPlot_xid : (s.setPlot k x).xid = s.xid := rfl
@[simp] theorem State.setPlot_draws : (s.setPlot k x).draws = s.draws := rfl
@[simp] theorem State.setPlot_agenda : (s.setPlot k x).agenda = s.agenda := rfl
@[simp] theorem State.setPlot_turn : (s.setPlot k x).turn = s.turn := rfl
@[simp] theorem State.setPlot_focus : (s.setPlot k x).focus = s.focus := rfl
@[simp] theorem State.setPlot_slot_read (q : SlotRef) : (s.setPlot k x).slot q = s.slot q := rfl
@[simp] theorem State.setPlot_core_read (n : Nat) : (s.setPlot k x).core n = s.core n := rfl
@[simp] theorem State.setPlot_die_read (n : Nat) : (s.setPlot k x).die n = s.die n := rfl
@[simp] theorem State.setPlot_port_read (n : Nat) : (s.setPlot k x).port n = s.port n := rfl
@[simp] theorem State.setPlot_router_read (n : Nat) : (s.setPlot k x).router n = s.router n := rfl
@[simp] theorem State.setPlot_queue_read (n : Nat) : (s.setPlot k x).queue n = s.queue n := rfl
@[simp] theorem State.setPlot_group_read (n : Nat) : (s.setPlot k x).group n = s.group n := rfl
@[simp] theorem State.setPlot_launch_read (n : Nat) : (s.setPlot k x).launch n = s.launch n := rfl
@[simp] theorem State.setPlot_tensor_read (n : Nat) : (s.setPlot k x).tensor n = s.tensor n := rfl
@[simp] theorem State.setPlot_link_read (q : LinkEnd) : (s.setPlot k x).link q = s.link q := rfl
@[simp] theorem State.setPlot_full_read (n m : Nat) : (s.setPlot k x).full n m = s.full n m := rfl
@[simp] theorem State.setPlot_attr_read (n : Nat) : (s.setPlot k x).attr n = s.attr n := rfl
@[simp] theorem State.setPlot_me_read : (s.setPlot k x).me = s.me := rfl
@[simp] theorem State.setPlot_cur_read : (s.setPlot k x).cur = s.cur := rfl
@[simp] theorem State.setPlot_load_read (n : Nat) : (s.setPlot k x).load n = s.load n := rfl
@[simp] theorem State.setPlot_hasUe_read (n m : Nat) : (s.setPlot k x).hasUe n m = s.hasUe n m := rfl

end

section
variable (s : State) (k j : Nat) (x : Bool)

@[simp] theorem State.setFull_mem : (s.setFull k j x).mem = s.mem := rfl
@[simp] theorem State.setFull_past : (s.setFull k j x).past = s.past := rfl
@[simp] theorem State.setFull_fe : (s.setFull k j x).fe = SMap.set s.fe false (k * 65536 + j / 8) x := rfl
@[simp] theorem State.setFull_frameAttr : (s.setFull k j x).frameAttr = s.frameAttr := rfl
@[simp] theorem State.setFull_plots : (s.setFull k j x).plots = s.plots := rfl
@[simp] theorem State.setFull_ue : (s.setFull k j x).ue = s.ue := rfl
@[simp] theorem State.setFull_slots : (s.setFull k j x).slots = s.slots := rfl
@[simp] theorem State.setFull_cores : (s.setFull k j x).cores = s.cores := rfl
@[simp] theorem State.setFull_ports : (s.setFull k j x).ports = s.ports := rfl
@[simp] theorem State.setFull_routers : (s.setFull k j x).routers = s.routers := rfl
@[simp] theorem State.setFull_queues : (s.setFull k j x).queues = s.queues := rfl
@[simp] theorem State.setFull_lastCore : (s.setFull k j x).lastCore = s.lastCore := rfl
@[simp] theorem State.setFull_boundAt : (s.setFull k j x).boundAt = s.boundAt := rfl
@[simp] theorem State.setFull_waiters : (s.setFull k j x).waiters = s.waiters := rfl
@[simp] theorem State.setFull_rounds : (s.setFull k j x).rounds = s.rounds := rfl
@[simp] theorem State.setFull_tensors : (s.setFull k j x).tensors = s.tensors := rfl
@[simp] theorem State.setFull_wants : (s.setFull k j x).wants = s.wants := rfl
@[simp] theorem State.setFull_namers : (s.setFull k j x).namers = s.namers := rfl
@[simp] theorem State.setFull_anyAsks : (s.setFull k j x).anyAsks = s.anyAsks := rfl
@[simp] theorem State.setFull_seeds : (s.setFull k j x).seeds = s.seeds := rfl
@[simp] theorem State.setFull_press : (s.setFull k j x).press = s.press := rfl
@[simp] theorem State.setFull_groups : (s.setFull k j x).groups = s.groups := rfl
@[simp] theorem State.setFull_launches : (s.setFull k j x).launches = s.launches := rfl
@[simp] theorem State.setFull_dies : (s.setFull k j x).dies = s.dies := rfl
@[simp] theorem State.setFull_gstore : (s.setFull k j x).gstore = s.gstore := rfl
@[simp] theorem State.setFull_links : (s.setFull k j x).links = s.links := rfl
@[simp] theorem State.setFull_waves : (s.setFull k j x).waves = s.waves := rfl
@[simp] theorem State.setFull_transits : (s.setFull k j x).transits = s.transits := rfl
@[simp] theorem State.setFull_stuck : (s.setFull k j x).stuck = s.stuck := rfl
@[simp] theorem State.setFull_pkgid : (s.setFull k j x).pkgid = s.pkgid := rfl
@[simp] theorem State.setFull_faben : (s.setFull k j x).faben = s.faben := rfl
@[simp] theorem State.setFull_discDone : (s.setFull k j x).discDone = s.discDone := rfl
@[simp] theorem State.setFull_discConflict : (s.setFull k j x).discConflict = s.discConflict := rfl
@[simp] theorem State.setFull_snapEnable : (s.setFull k j x).snapEnable = s.snapEnable := rfl
@[simp] theorem State.setFull_snapSeq : (s.setFull k j x).snapSeq = s.snapSeq := rfl
@[simp] theorem State.setFull_snapAt : (s.setFull k j x).snapAt = s.snapAt := rfl
@[simp] theorem State.setFull_fattrRefused : (s.setFull k j x).fattrRefused = s.fattrRefused := rfl
@[simp] theorem State.setFull_repairBusy : (s.setFull k j x).repairBusy = s.repairBusy := rfl
@[simp] theorem State.setFull_repairRefused : (s.setFull k j x).repairRefused = s.repairRefused := rfl
@[simp] theorem State.setFull_repairsDone : (s.setFull k j x).repairsDone = s.repairsDone := rfl
@[simp] theorem State.setFull_repairWait : (s.setFull k j x).repairWait = s.repairWait := rfl
@[simp] theorem State.setFull_sliceMoved : (s.setFull k j x).sliceMoved = s.sliceMoved := rfl
@[simp] theorem State.setFull_ioRegs : (s.setFull k j x).ioRegs = s.ioRegs := rfl
@[simp] theorem State.setFull_msix : (s.setFull k j x).msix = s.msix := rfl
@[simp] theorem State.setFull_hostReply : (s.setFull k j x).hostReply = s.hostReply := rfl
@[simp] theorem State.setFull_booted : (s.setFull k j x).booted = s.booted := rfl
@[simp] theorem State.setFull_cycle : (s.setFull k j x).cycle = s.cycle := rfl
@[simp] theorem State.setFull_nextTask : (s.setFull k j x).nextTask = s.nextTask := rfl
@[simp] theorem State.setFull_xid : (s.setFull k j x).xid = s.xid := rfl
@[simp] theorem State.setFull_draws : (s.setFull k j x).draws = s.draws := rfl
@[simp] theorem State.setFull_agenda : (s.setFull k j x).agenda = s.agenda := rfl
@[simp] theorem State.setFull_turn : (s.setFull k j x).turn = s.turn := rfl
@[simp] theorem State.setFull_focus : (s.setFull k j x).focus = s.focus := rfl
@[simp] theorem State.setFull_slot_read (q : SlotRef) : (s.setFull k j x).slot q = s.slot q := rfl
@[simp] theorem State.setFull_core_read (n : Nat) : (s.setFull k j x).core n = s.core n := rfl
@[simp] theorem State.setFull_die_read (n : Nat) : (s.setFull k j x).die n = s.die n := rfl
@[simp] theorem State.setFull_port_read (n : Nat) : (s.setFull k j x).port n = s.port n := rfl
@[simp] theorem State.setFull_router_read (n : Nat) : (s.setFull k j x).router n = s.router n := rfl
@[simp] theorem State.setFull_queue_read (n : Nat) : (s.setFull k j x).queue n = s.queue n := rfl
@[simp] theorem State.setFull_group_read (n : Nat) : (s.setFull k j x).group n = s.group n := rfl
@[simp] theorem State.setFull_launch_read (n : Nat) : (s.setFull k j x).launch n = s.launch n := rfl
@[simp] theorem State.setFull_tensor_read (n : Nat) : (s.setFull k j x).tensor n = s.tensor n := rfl
@[simp] theorem State.setFull_link_read (q : LinkEnd) : (s.setFull k j x).link q = s.link q := rfl
@[simp] theorem State.setFull_plot_read (n : Nat) : (s.setFull k j x).plot n = s.plot n := rfl
@[simp] theorem State.setFull_attr_read (n : Nat) : (s.setFull k j x).attr n = s.attr n := rfl
@[simp] theorem State.setFull_me_read : (s.setFull k j x).me = s.me := rfl
@[simp] theorem State.setFull_cur_read : (s.setFull k j x).cur = s.cur := rfl
@[simp] theorem State.setFull_load_read (n : Nat) : (s.setFull k j x).load n = s.load n := rfl
@[simp] theorem State.setFull_hasUe_read (n m : Nat) : (s.setFull k j x).hasUe n m = s.hasUe n m := rfl

end

section
variable (s : State) (x : Instr)

@[simp] theorem State.again_mem : (s.again x).mem = s.mem := rfl
@[simp] theorem State.again_past : (s.again x).past = s.past := rfl
@[simp] theorem State.again_fe : (s.again x).fe = s.fe := rfl
@[simp] theorem State.again_frameAttr : (s.again x).frameAttr = s.frameAttr := rfl
@[simp] theorem State.again_plots : (s.again x).plots = s.plots := rfl
@[simp] theorem State.again_ue : (s.again x).ue = s.ue := rfl
@[simp] theorem State.again_slots : (s.again x).slots = s.slots := rfl
@[simp] theorem State.again_cores : (s.again x).cores = s.cores := rfl
@[simp] theorem State.again_ports : (s.again x).ports = s.ports := rfl
@[simp] theorem State.again_routers : (s.again x).routers = s.routers := rfl
@[simp] theorem State.again_queues : (s.again x).queues = s.queues := rfl
@[simp] theorem State.again_lastCore : (s.again x).lastCore = s.lastCore := rfl
@[simp] theorem State.again_boundAt : (s.again x).boundAt = s.boundAt := rfl
@[simp] theorem State.again_waiters : (s.again x).waiters = s.waiters := rfl
@[simp] theorem State.again_rounds : (s.again x).rounds = s.rounds := rfl
@[simp] theorem State.again_tensors : (s.again x).tensors = s.tensors := rfl
@[simp] theorem State.again_wants : (s.again x).wants = s.wants := rfl
@[simp] theorem State.again_namers : (s.again x).namers = s.namers := rfl
@[simp] theorem State.again_anyAsks : (s.again x).anyAsks = s.anyAsks := rfl
@[simp] theorem State.again_seeds : (s.again x).seeds = s.seeds := rfl
@[simp] theorem State.again_press : (s.again x).press = s.press := rfl
@[simp] theorem State.again_groups : (s.again x).groups = s.groups := rfl
@[simp] theorem State.again_launches : (s.again x).launches = s.launches := rfl
@[simp] theorem State.again_dies : (s.again x).dies = s.dies := rfl
@[simp] theorem State.again_gstore : (s.again x).gstore = s.gstore := rfl
@[simp] theorem State.again_links : (s.again x).links = s.links := rfl
@[simp] theorem State.again_waves : (s.again x).waves = s.waves := rfl
@[simp] theorem State.again_transits : (s.again x).transits = s.transits := rfl
@[simp] theorem State.again_stuck : (s.again x).stuck = s.stuck := rfl
@[simp] theorem State.again_pkgid : (s.again x).pkgid = s.pkgid := rfl
@[simp] theorem State.again_faben : (s.again x).faben = s.faben := rfl
@[simp] theorem State.again_discDone : (s.again x).discDone = s.discDone := rfl
@[simp] theorem State.again_discConflict : (s.again x).discConflict = s.discConflict := rfl
@[simp] theorem State.again_snapEnable : (s.again x).snapEnable = s.snapEnable := rfl
@[simp] theorem State.again_snapSeq : (s.again x).snapSeq = s.snapSeq := rfl
@[simp] theorem State.again_snapAt : (s.again x).snapAt = s.snapAt := rfl
@[simp] theorem State.again_fattrRefused : (s.again x).fattrRefused = s.fattrRefused := rfl
@[simp] theorem State.again_repairBusy : (s.again x).repairBusy = s.repairBusy := rfl
@[simp] theorem State.again_repairRefused : (s.again x).repairRefused = s.repairRefused := rfl
@[simp] theorem State.again_repairsDone : (s.again x).repairsDone = s.repairsDone := rfl
@[simp] theorem State.again_repairWait : (s.again x).repairWait = s.repairWait := rfl
@[simp] theorem State.again_sliceMoved : (s.again x).sliceMoved = s.sliceMoved := rfl
@[simp] theorem State.again_ioRegs : (s.again x).ioRegs = s.ioRegs := rfl
@[simp] theorem State.again_msix : (s.again x).msix = s.msix := rfl
@[simp] theorem State.again_hostReply : (s.again x).hostReply = s.hostReply := rfl
@[simp] theorem State.again_booted : (s.again x).booted = s.booted := rfl
@[simp] theorem State.again_cycle : (s.again x).cycle = s.cycle := rfl
@[simp] theorem State.again_nextTask : (s.again x).nextTask = s.nextTask := rfl
@[simp] theorem State.again_xid : (s.again x).xid = s.xid := rfl
@[simp] theorem State.again_draws : (s.again x).draws = s.draws := rfl
@[simp] theorem State.again_agenda : (s.again x).agenda = s.agenda ++ [x] := rfl
@[simp] theorem State.again_turn : (s.again x).turn = s.turn := rfl
@[simp] theorem State.again_focus : (s.again x).focus = s.focus := rfl
@[simp] theorem State.again_slot_read (q : SlotRef) : (s.again x).slot q = s.slot q := rfl
@[simp] theorem State.again_core_read (n : Nat) : (s.again x).core n = s.core n := rfl
@[simp] theorem State.again_die_read (n : Nat) : (s.again x).die n = s.die n := rfl
@[simp] theorem State.again_port_read (n : Nat) : (s.again x).port n = s.port n := rfl
@[simp] theorem State.again_router_read (n : Nat) : (s.again x).router n = s.router n := rfl
@[simp] theorem State.again_queue_read (n : Nat) : (s.again x).queue n = s.queue n := rfl
@[simp] theorem State.again_group_read (n : Nat) : (s.again x).group n = s.group n := rfl
@[simp] theorem State.again_launch_read (n : Nat) : (s.again x).launch n = s.launch n := rfl
@[simp] theorem State.again_tensor_read (n : Nat) : (s.again x).tensor n = s.tensor n := rfl
@[simp] theorem State.again_link_read (q : LinkEnd) : (s.again x).link q = s.link q := rfl
@[simp] theorem State.again_plot_read (n : Nat) : (s.again x).plot n = s.plot n := rfl
@[simp] theorem State.again_full_read (n m : Nat) : (s.again x).full n m = s.full n m := rfl
@[simp] theorem State.again_attr_read (n : Nat) : (s.again x).attr n = s.attr n := rfl
@[simp] theorem State.again_me_read : (s.again x).me = s.me := rfl
@[simp] theorem State.again_cur_read : (s.again x).cur = s.cur := rfl
@[simp] theorem State.again_load_read (n : Nat) : (s.again x).load n = s.load n := rfl
@[simp] theorem State.again_hasUe_read (n m : Nat) : (s.again x).hasUe n m = s.hasUe n m := rfl

end

/-! ## A read of what an update writes -/

theorem State.slot_setSlot (s : State) (r q : SlotRef) (x : Slot) : (s.setSlot r x).slot q = if skey q = skey r then x else s.slot q := SMap.get_put _ _ _ _ _
@[simp] theorem State.slot_setSlot_self (s : State) (r : SlotRef) (x : Slot) : (s.setSlot r x).slot r = x := SMap.get_put_self _ _ _ _
@[simp] theorem State.setSlot_setSlot (s : State) (r : SlotRef) (x : Slot) (y : Slot) : (s.setSlot r x).setSlot r y = s.setSlot r y := by
  simp [State.setSlot]
theorem State.core_setCore (s : State) (k n : Nat) (x : Core) : (s.setCore k x).core n = if n = k then x else s.core n := SMap.get_put _ _ _ _ _
@[simp] theorem State.core_setCore_self (s : State) (k : Nat) (x : Core) : (s.setCore k x).core k = x := SMap.get_put_self _ _ _ _
@[simp] theorem State.setCore_setCore (s : State) (k : Nat) (x : Core) (y : Core) : (s.setCore k x).setCore k y = s.setCore k y := by
  simp [State.setCore]
theorem State.die_setDie (s : State) (k n : Nat) (x : Die) : (s.setDie k x).die n = if n = k then x else s.die n := SMap.get_put _ _ _ _ _
@[simp] theorem State.die_setDie_self (s : State) (k : Nat) (x : Die) : (s.setDie k x).die k = x := SMap.get_put_self _ _ _ _
@[simp] theorem State.setDie_setDie (s : State) (k : Nat) (x : Die) (y : Die) : (s.setDie k x).setDie k y = s.setDie k y := by
  simp [State.setDie]
theorem State.port_setPort (s : State) (k n : Nat) (x : Port) : (s.setPort k x).port n = if n = k then x else s.port n := SMap.get_put _ _ _ _ _
@[simp] theorem State.port_setPort_self (s : State) (k : Nat) (x : Port) : (s.setPort k x).port k = x := SMap.get_put_self _ _ _ _
@[simp] theorem State.setPort_setPort (s : State) (k : Nat) (x : Port) (y : Port) : (s.setPort k x).setPort k y = s.setPort k y := by
  simp [State.setPort]
theorem State.router_setRouter (s : State) (k n : Nat) (x : Router) : (s.setRouter k x).router n = if n = k then x else s.router n := SMap.get_put _ _ _ _ _
@[simp] theorem State.router_setRouter_self (s : State) (k : Nat) (x : Router) : (s.setRouter k x).router k = x := SMap.get_put_self _ _ _ _
@[simp] theorem State.setRouter_setRouter (s : State) (k : Nat) (x : Router) (y : Router) : (s.setRouter k x).setRouter k y = s.setRouter k y := by
  simp [State.setRouter]
theorem State.queue_setQueue (s : State) (k n : Nat) (x : List Record) : (s.setQueue k x).queue n = if n = k then x else s.queue n := SMap.get_put _ _ _ _ _
@[simp] theorem State.queue_setQueue_self (s : State) (k : Nat) (x : List Record) : (s.setQueue k x).queue k = x := SMap.get_put_self _ _ _ _
@[simp] theorem State.setQueue_setQueue (s : State) (k : Nat) (x : List Record) (y : List Record) : (s.setQueue k x).setQueue k y = s.setQueue k y := by
  simp [State.setQueue]
theorem State.group_setGroup (s : State) (k n : Nat) (x : Group) : (s.setGroup k x).group n = if n = k then x else s.group n := SMap.get_put _ _ _ _ _
@[simp] theorem State.group_setGroup_self (s : State) (k : Nat) (x : Group) : (s.setGroup k x).group k = x := SMap.get_put_self _ _ _ _
@[simp] theorem State.setGroup_setGroup (s : State) (k : Nat) (x : Group) (y : Group) : (s.setGroup k x).setGroup k y = s.setGroup k y := by
  simp [State.setGroup]
theorem State.launch_setLaunch (s : State) (k n : Nat) (x : Launch) : (s.setLaunch k x).launch n = if n = k then some x else s.launch n := SMap.get_put _ _ _ _ _
@[simp] theorem State.launch_setLaunch_self (s : State) (k : Nat) (x : Launch) : (s.setLaunch k x).launch k = some x := SMap.get_put_self _ _ _ _
@[simp] theorem State.setLaunch_setLaunch (s : State) (k : Nat) (x : Launch) (y : Launch) : (s.setLaunch k x).setLaunch k y = s.setLaunch k y := by
  simp [State.setLaunch]
theorem State.tensor_setTensor (s : State) (k n : Nat) (x : List Byte) : (s.setTensor k x).tensor n = if n = k then x else s.tensor n := SMap.get_put _ _ _ _ _
@[simp] theorem State.tensor_setTensor_self (s : State) (k : Nat) (x : List Byte) : (s.setTensor k x).tensor k = x := SMap.get_put_self _ _ _ _
@[simp] theorem State.setTensor_setTensor (s : State) (k : Nat) (x : List Byte) (y : List Byte) : (s.setTensor k x).setTensor k y = s.setTensor k y := by
  simp [State.setTensor]
theorem State.link_setLink (s : State) (e d : LinkEnd) (x : Link) : (s.setLink e x).link d = if linkKey d = linkKey e then x else s.link d := SMap.get_put _ _ _ _ _
@[simp] theorem State.link_setLink_self (s : State) (e : LinkEnd) (x : Link) : (s.setLink e x).link e = x := SMap.get_put_self _ _ _ _
@[simp] theorem State.setLink_setLink (s : State) (e : LinkEnd) (x : Link) (y : Link) : (s.setLink e x).setLink e y = s.setLink e y := by
  simp [State.setLink]
theorem State.plot_setPlot (s : State) (k n : Nat) (x : Plot) : (s.setPlot k x).plot n = if n / 4096 = k / 4096 then x else s.plot n := SMap.get_put _ _ _ _ _
@[simp] theorem State.plot_setPlot_self (s : State) (k : Nat) (x : Plot) : (s.setPlot k x).plot k = x := SMap.get_put_self _ _ _ _
@[simp] theorem State.setPlot_setPlot (s : State) (k : Nat) (x : Plot) (y : Plot) : (s.setPlot k x).setPlot k y = s.setPlot k y := by
  simp [State.setPlot]

theorem State.modSlot_eq (s : State) (r : SlotRef) (f : Slot → Slot) : s.modSlot r f = s.setSlot r (f (s.slot r)) := rfl
theorem State.modCore_eq (s : State) (k : Nat) (f : Core → Core) : s.modCore k f = s.setCore k (f (s.core k)) := rfl
theorem State.modDie_eq (s : State) (d : Nat) (f : Die → Die) : s.modDie d f = s.setDie d (f (s.die d)) := rfl
theorem State.setCur_eq (s : State) (x : Slot) : s.setCur x = s.setSlot s.me x := rfl
theorem State.modCur_eq (s : State) (f : Slot → Slot) : s.modCur f = s.setSlot s.me (f s.cur) := rfl
theorem State.cur_eq (s : State) : s.cur = s.slot s.me := rfl

/-! ## The slot in hand -/

section
variable (s : State) (f : Slot → Slot)

@[simp] theorem State.modCur_cur : (s.modCur f).cur = f s.cur := SMap.get_put_self _ _ _ _
@[simp] theorem State.modCur_focus : (s.modCur f).focus = s.focus := rfl
@[simp] theorem State.modCur_me : (s.modCur f).me = s.me := rfl
@[simp] theorem State.modCur_mem : (s.modCur f).mem = s.mem := rfl
@[simp] theorem State.modCur_modCur (g : Slot → Slot) : (s.modCur f).modCur g = s.modCur fun x => g (f x) := by
  rw [State.modCur_eq, State.modCur_cur, State.modCur_me, State.modCur_eq, State.setSlot_setSlot, State.modCur_eq]

/-- A change of the slot in hand leaves every other slot. -/
theorem State.modCur_slot (r : SlotRef) : (s.modCur f).slot r = if skey r = skey s.me then f s.cur else s.slot r :=
  SMap.get_put _ _ _ _ _

/-- A change of the slot in hand changes `slots` alone. -/
theorem State.modCur_frame : s.modCur f = ({ s with slots := (s.modCur f).slots } : State) := rfl

/-- Moving on changes the PC of the slot in hand and how its issue ended. -/
theorem State.advance_frame : s.advance = ({ s with slots := s.advance.slots, focus := s.advance.focus } : State) := rfl
@[simp] theorem State.advance_cur : s.advance.cur = { s.cur with pc := s.focus.next } := SMap.get_put_self _ _ _ _
@[simp] theorem State.advance_me : s.advance.me = s.me := rfl
@[simp] theorem State.advance_mem : s.advance.mem = s.mem := rfl
@[simp] theorem State.advance_disp : s.advance.focus.disp = .done := rfl
@[simp] theorem State.advance_next : s.advance.focus.next = s.focus.next := rfl
theorem State.advance_slot (r : SlotRef) :
    s.advance.slot r = if skey r = skey s.me then { s.cur with pc := s.focus.next } else s.slot r := SMap.get_put _ _ _ _ _

end

/-! ## Registers of a slot -/

section
variable (x : Slot)

@[simp] theorem Slot.setG_occupied (r : Reg) (w : Word) : (x.setG r w).occupied = x.occupied := rfl
@[simp] theorem Slot.setG_task (r : Reg) (w : Word) : (x.setG r w).task = x.task := rfl
@[simp] theorem Slot.setG_launch (r : Reg) (w : Word) : (x.setG r w).launch = x.launch := rfl
@[simp] theorem Slot.setG_lane (r : Reg) (w : Word) : (x.setG r w).lane = x.lane := rfl
@[simp] theorem Slot.setG_key (r : Reg) (w : Word) : (x.setG r w).key = x.key := rfl
@[simp] theorem Slot.setG_capStep (r : Reg) (w : Word) : (x.setG r w).capStep = x.capStep := rfl
@[simp] theorem Slot.setG_pc (r : Reg) (w : Word) : (x.setG r w).pc = x.pc := rfl
@[simp] theorem Slot.setG_v (r : Reg) (w : Word) : (x.setG r w).v = x.v := rfl
@[simp] theorem Slot.setG_p (r : Reg) (w : Word) : (x.setG r w).p = x.p := rfl
@[simp] theorem Slot.setG_c (r : Reg) (w : Word) : (x.setG r w).c = x.c := rfl
@[simp] theorem Slot.setG_started (r : Reg) (w : Word) : (x.setG r w).started = x.started := rfl
@[simp] theorem Slot.setG_s (r : Reg) (w : Word) : (x.setG r w).s = x.s := rfl
@[simp] theorem Slot.setG_flags (r : Reg) (w : Word) : (x.setG r w).flags = x.flags := rfl
@[simp] theorem Slot.setG_rmode (r : Reg) (w : Word) : (x.setG r w).rmode = x.rmode := rfl
@[simp] theorem Slot.setG_round (r : Reg) (w : Word) : (x.setG r w).round = x.round := rfl
@[simp] theorem Slot.setG_fa (r : Reg) (w : Word) : (x.setG r w).fa = x.fa := rfl
@[simp] theorem Slot.setG_fb (r : Reg) (w : Word) : (x.setG r w).fb = x.fb := rfl
@[simp] theorem Slot.setG_fs (r : Reg) (w : Word) : (x.setG r w).fs = x.fs := rfl
@[simp] theorem Slot.setG_cause (r : Reg) (w : Word) : (x.setG r w).cause = x.cause := rfl
@[simp] theorem Slot.setG_cw (r : Reg) (w : Word) : (x.setG r w).cw = x.cw := rfl
@[simp] theorem Slot.setG_rep (r : Reg) (w : Word) : (x.setG r w).rep = x.rep := rfl
@[simp] theorem Slot.setG_sd (r : Reg) (w : Word) : (x.setG r w).sd = x.sd := rfl
@[simp] theorem Slot.setG_bind6 (r : Reg) (w : Word) : (x.setG r w).bind6 = x.bind6 := rfl
@[simp] theorem Slot.setG_bind7 (r : Reg) (w : Word) : (x.setG r w).bind7 = x.bind7 := rfl
@[simp] theorem Slot.setG_tagSet (r : Reg) (w : Word) : (x.setG r w).tagSet = x.tagSet := rfl
@[simp] theorem Slot.setG_tagBusy (r : Reg) (w : Word) : (x.setG r w).tagBusy = x.tagBusy := rfl
@[simp] theorem Slot.setG_tagStat (r : Reg) (w : Word) : (x.setG r w).tagStat = x.tagStat := rfl
@[simp] theorem Slot.setG_tagCode (r : Reg) (w : Word) : (x.setG r w).tagCode = x.tagCode := rfl
@[simp] theorem Slot.setG_unack (r : Reg) (w : Word) : (x.setG r w).unack = x.unack := rfl
@[simp] theorem Slot.setG_faultPending (r : Reg) (w : Word) : (x.setG r w).faultPending = x.faultPending := rfl
@[simp] theorem Slot.setG_mailbox (r : Reg) (w : Word) : (x.setG r w).mailbox = x.mailbox := rfl
@[simp] theorem Slot.setG_written (r : Reg) (w : Word) : (x.setG r w).written = x.written := rfl
@[simp] theorem Slot.setG_frame (r : Reg) (w : Word) : (x.setG r w).frame = x.frame := rfl
@[simp] theorem Slot.setG_capsule (r : Reg) (w : Word) : (x.setG r w).capsule = x.capsule := rfl
@[simp] theorem Slot.setG_prio (r : Reg) (w : Word) : (x.setG r w).prio = x.prio := rfl
@[simp] theorem Slot.setG_outs (r : Reg) (w : Word) : (x.setG r w).outs = x.outs := rfl
@[simp] theorem Slot.setG_parks (r : Reg) (w : Word) : (x.setG r w).parks = x.parks := rfl
@[simp] theorem Slot.setG_answers (r : Reg) (w : Word) : (x.setG r w).answers = x.answers := rfl
@[simp] theorem Slot.setG_halt (r : Reg) (w : Word) : (x.setG r w).halt = x.halt := rfl
@[simp] theorem Slot.setG_readyAt (r : Reg) (w : Word) : (x.setG r w).readyAt = x.readyAt := rfl
@[simp] theorem Slot.setG_ending (r : Reg) (w : Word) : (x.setG r w).ending = x.ending := rfl
@[simp] theorem Slot.setG_tending (r : Reg) (w : Word) : (x.setG r w).tending = x.tending := rfl
@[simp] theorem Slot.setG_hooped (r : Reg) (w : Word) : (x.setG r w).hooped = x.hooped := rfl
@[simp] theorem Slot.setG_since (r : Reg) (w : Word) : (x.setG r w).since = x.since := rfl
@[simp] theorem Slot.setV_occupied (r : VReg) (w : BitVec 512) : (x.setV r w).occupied = x.occupied := rfl
@[simp] theorem Slot.setV_task (r : VReg) (w : BitVec 512) : (x.setV r w).task = x.task := rfl
@[simp] theorem Slot.setV_launch (r : VReg) (w : BitVec 512) : (x.setV r w).launch = x.launch := rfl
@[simp] theorem Slot.setV_lane (r : VReg) (w : BitVec 512) : (x.setV r w).lane = x.lane := rfl
@[simp] theorem Slot.setV_key (r : VReg) (w : BitVec 512) : (x.setV r w).key = x.key := rfl
@[simp] theorem Slot.setV_capStep (r : VReg) (w : BitVec 512) : (x.setV r w).capStep = x.capStep := rfl
@[simp] theorem Slot.setV_pc (r : VReg) (w : BitVec 512) : (x.setV r w).pc = x.pc := rfl
@[simp] theorem Slot.setV_g (r : VReg) (w : BitVec 512) : (x.setV r w).g = x.g := rfl
@[simp] theorem Slot.setV_p (r : VReg) (w : BitVec 512) : (x.setV r w).p = x.p := rfl
@[simp] theorem Slot.setV_c (r : VReg) (w : BitVec 512) : (x.setV r w).c = x.c := rfl
@[simp] theorem Slot.setV_started (r : VReg) (w : BitVec 512) : (x.setV r w).started = x.started := rfl
@[simp] theorem Slot.setV_s (r : VReg) (w : BitVec 512) : (x.setV r w).s = x.s := rfl
@[simp] theorem Slot.setV_flags (r : VReg) (w : BitVec 512) : (x.setV r w).flags = x.flags := rfl
@[simp] theorem Slot.setV_rmode (r : VReg) (w : BitVec 512) : (x.setV r w).rmode = x.rmode := rfl
@[simp] theorem Slot.setV_round (r : VReg) (w : BitVec 512) : (x.setV r w).round = x.round := rfl
@[simp] theorem Slot.setV_fa (r : VReg) (w : BitVec 512) : (x.setV r w).fa = x.fa := rfl
@[simp] theorem Slot.setV_fb (r : VReg) (w : BitVec 512) : (x.setV r w).fb = x.fb := rfl
@[simp] theorem Slot.setV_fs (r : VReg) (w : BitVec 512) : (x.setV r w).fs = x.fs := rfl
@[simp] theorem Slot.setV_cause (r : VReg) (w : BitVec 512) : (x.setV r w).cause = x.cause := rfl
@[simp] theorem Slot.setV_cw (r : VReg) (w : BitVec 512) : (x.setV r w).cw = x.cw := rfl
@[simp] theorem Slot.setV_rep (r : VReg) (w : BitVec 512) : (x.setV r w).rep = x.rep := rfl
@[simp] theorem Slot.setV_sd (r : VReg) (w : BitVec 512) : (x.setV r w).sd = x.sd := rfl
@[simp] theorem Slot.setV_bind6 (r : VReg) (w : BitVec 512) : (x.setV r w).bind6 = x.bind6 := rfl
@[simp] theorem Slot.setV_bind7 (r : VReg) (w : BitVec 512) : (x.setV r w).bind7 = x.bind7 := rfl
@[simp] theorem Slot.setV_tagSet (r : VReg) (w : BitVec 512) : (x.setV r w).tagSet = x.tagSet := rfl
@[simp] theorem Slot.setV_tagBusy (r : VReg) (w : BitVec 512) : (x.setV r w).tagBusy = x.tagBusy := rfl
@[simp] theorem Slot.setV_tagStat (r : VReg) (w : BitVec 512) : (x.setV r w).tagStat = x.tagStat := rfl
@[simp] theorem Slot.setV_tagCode (r : VReg) (w : BitVec 512) : (x.setV r w).tagCode = x.tagCode := rfl
@[simp] theorem Slot.setV_unack (r : VReg) (w : BitVec 512) : (x.setV r w).unack = x.unack := rfl
@[simp] theorem Slot.setV_faultPending (r : VReg) (w : BitVec 512) : (x.setV r w).faultPending = x.faultPending := rfl
@[simp] theorem Slot.setV_mailbox (r : VReg) (w : BitVec 512) : (x.setV r w).mailbox = x.mailbox := rfl
@[simp] theorem Slot.setV_written (r : VReg) (w : BitVec 512) : (x.setV r w).written = x.written := rfl
@[simp] theorem Slot.setV_frame (r : VReg) (w : BitVec 512) : (x.setV r w).frame = x.frame := rfl
@[simp] theorem Slot.setV_capsule (r : VReg) (w : BitVec 512) : (x.setV r w).capsule = x.capsule := rfl
@[simp] theorem Slot.setV_prio (r : VReg) (w : BitVec 512) : (x.setV r w).prio = x.prio := rfl
@[simp] theorem Slot.setV_outs (r : VReg) (w : BitVec 512) : (x.setV r w).outs = x.outs := rfl
@[simp] theorem Slot.setV_parks (r : VReg) (w : BitVec 512) : (x.setV r w).parks = x.parks := rfl
@[simp] theorem Slot.setV_answers (r : VReg) (w : BitVec 512) : (x.setV r w).answers = x.answers := rfl
@[simp] theorem Slot.setV_halt (r : VReg) (w : BitVec 512) : (x.setV r w).halt = x.halt := rfl
@[simp] theorem Slot.setV_readyAt (r : VReg) (w : BitVec 512) : (x.setV r w).readyAt = x.readyAt := rfl
@[simp] theorem Slot.setV_ending (r : VReg) (w : BitVec 512) : (x.setV r w).ending = x.ending := rfl
@[simp] theorem Slot.setV_tending (r : VReg) (w : BitVec 512) : (x.setV r w).tending = x.tending := rfl
@[simp] theorem Slot.setV_hooped (r : VReg) (w : BitVec 512) : (x.setV r w).hooped = x.hooped := rfl
@[simp] theorem Slot.setV_since (r : VReg) (w : BitVec 512) : (x.setV r w).since = x.since := rfl
@[simp] theorem Slot.setS_occupied (r : SReg) (w : BitVec 128) : (x.setS r w).occupied = x.occupied := rfl
@[simp] theorem Slot.setS_task (r : SReg) (w : BitVec 128) : (x.setS r w).task = x.task := rfl
@[simp] theorem Slot.setS_launch (r : SReg) (w : BitVec 128) : (x.setS r w).launch = x.launch := rfl
@[simp] theorem Slot.setS_lane (r : SReg) (w : BitVec 128) : (x.setS r w).lane = x.lane := rfl
@[simp] theorem Slot.setS_key (r : SReg) (w : BitVec 128) : (x.setS r w).key = x.key := rfl
@[simp] theorem Slot.setS_capStep (r : SReg) (w : BitVec 128) : (x.setS r w).capStep = x.capStep := rfl
@[simp] theorem Slot.setS_pc (r : SReg) (w : BitVec 128) : (x.setS r w).pc = x.pc := rfl
@[simp] theorem Slot.setS_g (r : SReg) (w : BitVec 128) : (x.setS r w).g = x.g := rfl
@[simp] theorem Slot.setS_v (r : SReg) (w : BitVec 128) : (x.setS r w).v = x.v := rfl
@[simp] theorem Slot.setS_p (r : SReg) (w : BitVec 128) : (x.setS r w).p = x.p := rfl
@[simp] theorem Slot.setS_c (r : SReg) (w : BitVec 128) : (x.setS r w).c = x.c := rfl
@[simp] theorem Slot.setS_started (r : SReg) (w : BitVec 128) : (x.setS r w).started = x.started := rfl
@[simp] theorem Slot.setS_flags (r : SReg) (w : BitVec 128) : (x.setS r w).flags = x.flags := rfl
@[simp] theorem Slot.setS_rmode (r : SReg) (w : BitVec 128) : (x.setS r w).rmode = x.rmode := rfl
@[simp] theorem Slot.setS_round (r : SReg) (w : BitVec 128) : (x.setS r w).round = x.round := rfl
@[simp] theorem Slot.setS_fa (r : SReg) (w : BitVec 128) : (x.setS r w).fa = x.fa := rfl
@[simp] theorem Slot.setS_fb (r : SReg) (w : BitVec 128) : (x.setS r w).fb = x.fb := rfl
@[simp] theorem Slot.setS_fs (r : SReg) (w : BitVec 128) : (x.setS r w).fs = x.fs := rfl
@[simp] theorem Slot.setS_cause (r : SReg) (w : BitVec 128) : (x.setS r w).cause = x.cause := rfl
@[simp] theorem Slot.setS_cw (r : SReg) (w : BitVec 128) : (x.setS r w).cw = x.cw := rfl
@[simp] theorem Slot.setS_rep (r : SReg) (w : BitVec 128) : (x.setS r w).rep = x.rep := rfl
@[simp] theorem Slot.setS_sd (r : SReg) (w : BitVec 128) : (x.setS r w).sd = x.sd := rfl
@[simp] theorem Slot.setS_bind6 (r : SReg) (w : BitVec 128) : (x.setS r w).bind6 = x.bind6 := rfl
@[simp] theorem Slot.setS_bind7 (r : SReg) (w : BitVec 128) : (x.setS r w).bind7 = x.bind7 := rfl
@[simp] theorem Slot.setS_tagSet (r : SReg) (w : BitVec 128) : (x.setS r w).tagSet = x.tagSet := rfl
@[simp] theorem Slot.setS_tagBusy (r : SReg) (w : BitVec 128) : (x.setS r w).tagBusy = x.tagBusy := rfl
@[simp] theorem Slot.setS_tagStat (r : SReg) (w : BitVec 128) : (x.setS r w).tagStat = x.tagStat := rfl
@[simp] theorem Slot.setS_tagCode (r : SReg) (w : BitVec 128) : (x.setS r w).tagCode = x.tagCode := rfl
@[simp] theorem Slot.setS_unack (r : SReg) (w : BitVec 128) : (x.setS r w).unack = x.unack := rfl
@[simp] theorem Slot.setS_faultPending (r : SReg) (w : BitVec 128) : (x.setS r w).faultPending = x.faultPending := rfl
@[simp] theorem Slot.setS_mailbox (r : SReg) (w : BitVec 128) : (x.setS r w).mailbox = x.mailbox := rfl
@[simp] theorem Slot.setS_written (r : SReg) (w : BitVec 128) : (x.setS r w).written = x.written := rfl
@[simp] theorem Slot.setS_frame (r : SReg) (w : BitVec 128) : (x.setS r w).frame = x.frame := rfl
@[simp] theorem Slot.setS_capsule (r : SReg) (w : BitVec 128) : (x.setS r w).capsule = x.capsule := rfl
@[simp] theorem Slot.setS_prio (r : SReg) (w : BitVec 128) : (x.setS r w).prio = x.prio := rfl
@[simp] theorem Slot.setS_outs (r : SReg) (w : BitVec 128) : (x.setS r w).outs = x.outs := rfl
@[simp] theorem Slot.setS_parks (r : SReg) (w : BitVec 128) : (x.setS r w).parks = x.parks := rfl
@[simp] theorem Slot.setS_answers (r : SReg) (w : BitVec 128) : (x.setS r w).answers = x.answers := rfl
@[simp] theorem Slot.setS_halt (r : SReg) (w : BitVec 128) : (x.setS r w).halt = x.halt := rfl
@[simp] theorem Slot.setS_readyAt (r : SReg) (w : BitVec 128) : (x.setS r w).readyAt = x.readyAt := rfl
@[simp] theorem Slot.setS_ending (r : SReg) (w : BitVec 128) : (x.setS r w).ending = x.ending := rfl
@[simp] theorem Slot.setS_tending (r : SReg) (w : BitVec 128) : (x.setS r w).tending = x.tending := rfl
@[simp] theorem Slot.setS_hooped (r : SReg) (w : BitVec 128) : (x.setS r w).hooped = x.hooped := rfl
@[simp] theorem Slot.setS_since (r : SReg) (w : BitVec 128) : (x.setS r w).since = x.since := rfl
@[simp] theorem Slot.setSd_occupied (r : BitVec 2) (w : Stream) : (x.setSd r w).occupied = x.occupied := rfl
@[simp] theorem Slot.setSd_task (r : BitVec 2) (w : Stream) : (x.setSd r w).task = x.task := rfl
@[simp] theorem Slot.setSd_launch (r : BitVec 2) (w : Stream) : (x.setSd r w).launch = x.launch := rfl
@[simp] theorem Slot.setSd_lane (r : BitVec 2) (w : Stream) : (x.setSd r w).lane = x.lane := rfl
@[simp] theorem Slot.setSd_key (r : BitVec 2) (w : Stream) : (x.setSd r w).key = x.key := rfl
@[simp] theorem Slot.setSd_capStep (r : BitVec 2) (w : Stream) : (x.setSd r w).capStep = x.capStep := rfl
@[simp] theorem Slot.setSd_pc (r : BitVec 2) (w : Stream) : (x.setSd r w).pc = x.pc := rfl
@[simp] theorem Slot.setSd_g (r : BitVec 2) (w : Stream) : (x.setSd r w).g = x.g := rfl
@[simp] theorem Slot.setSd_v (r : BitVec 2) (w : Stream) : (x.setSd r w).v = x.v := rfl
@[simp] theorem Slot.setSd_p (r : BitVec 2) (w : Stream) : (x.setSd r w).p = x.p := rfl
@[simp] theorem Slot.setSd_c (r : BitVec 2) (w : Stream) : (x.setSd r w).c = x.c := rfl
@[simp] theorem Slot.setSd_started (r : BitVec 2) (w : Stream) : (x.setSd r w).started = x.started := rfl
@[simp] theorem Slot.setSd_s (r : BitVec 2) (w : Stream) : (x.setSd r w).s = x.s := rfl
@[simp] theorem Slot.setSd_flags (r : BitVec 2) (w : Stream) : (x.setSd r w).flags = x.flags := rfl
@[simp] theorem Slot.setSd_rmode (r : BitVec 2) (w : Stream) : (x.setSd r w).rmode = x.rmode := rfl
@[simp] theorem Slot.setSd_round (r : BitVec 2) (w : Stream) : (x.setSd r w).round = x.round := rfl
@[simp] theorem Slot.setSd_fa (r : BitVec 2) (w : Stream) : (x.setSd r w).fa = x.fa := rfl
@[simp] theorem Slot.setSd_fb (r : BitVec 2) (w : Stream) : (x.setSd r w).fb = x.fb := rfl
@[simp] theorem Slot.setSd_fs (r : BitVec 2) (w : Stream) : (x.setSd r w).fs = x.fs := rfl
@[simp] theorem Slot.setSd_cause (r : BitVec 2) (w : Stream) : (x.setSd r w).cause = x.cause := rfl
@[simp] theorem Slot.setSd_cw (r : BitVec 2) (w : Stream) : (x.setSd r w).cw = x.cw := rfl
@[simp] theorem Slot.setSd_rep (r : BitVec 2) (w : Stream) : (x.setSd r w).rep = x.rep := rfl
@[simp] theorem Slot.setSd_bind6 (r : BitVec 2) (w : Stream) : (x.setSd r w).bind6 = x.bind6 := rfl
@[simp] theorem Slot.setSd_bind7 (r : BitVec 2) (w : Stream) : (x.setSd r w).bind7 = x.bind7 := rfl
@[simp] theorem Slot.setSd_tagSet (r : BitVec 2) (w : Stream) : (x.setSd r w).tagSet = x.tagSet := rfl
@[simp] theorem Slot.setSd_tagBusy (r : BitVec 2) (w : Stream) : (x.setSd r w).tagBusy = x.tagBusy := rfl
@[simp] theorem Slot.setSd_tagStat (r : BitVec 2) (w : Stream) : (x.setSd r w).tagStat = x.tagStat := rfl
@[simp] theorem Slot.setSd_tagCode (r : BitVec 2) (w : Stream) : (x.setSd r w).tagCode = x.tagCode := rfl
@[simp] theorem Slot.setSd_unack (r : BitVec 2) (w : Stream) : (x.setSd r w).unack = x.unack := rfl
@[simp] theorem Slot.setSd_faultPending (r : BitVec 2) (w : Stream) : (x.setSd r w).faultPending = x.faultPending := rfl
@[simp] theorem Slot.setSd_mailbox (r : BitVec 2) (w : Stream) : (x.setSd r w).mailbox = x.mailbox := rfl
@[simp] theorem Slot.setSd_written (r : BitVec 2) (w : Stream) : (x.setSd r w).written = x.written := rfl
@[simp] theorem Slot.setSd_frame (r : BitVec 2) (w : Stream) : (x.setSd r w).frame = x.frame := rfl
@[simp] theorem Slot.setSd_capsule (r : BitVec 2) (w : Stream) : (x.setSd r w).capsule = x.capsule := rfl
@[simp] theorem Slot.setSd_prio (r : BitVec 2) (w : Stream) : (x.setSd r w).prio = x.prio := rfl
@[simp] theorem Slot.setSd_outs (r : BitVec 2) (w : Stream) : (x.setSd r w).outs = x.outs := rfl
@[simp] theorem Slot.setSd_parks (r : BitVec 2) (w : Stream) : (x.setSd r w).parks = x.parks := rfl
@[simp] theorem Slot.setSd_answers (r : BitVec 2) (w : Stream) : (x.setSd r w).answers = x.answers := rfl
@[simp] theorem Slot.setSd_halt (r : BitVec 2) (w : Stream) : (x.setSd r w).halt = x.halt := rfl
@[simp] theorem Slot.setSd_readyAt (r : BitVec 2) (w : Stream) : (x.setSd r w).readyAt = x.readyAt := rfl
@[simp] theorem Slot.setSd_ending (r : BitVec 2) (w : Stream) : (x.setSd r w).ending = x.ending := rfl
@[simp] theorem Slot.setSd_tending (r : BitVec 2) (w : Stream) : (x.setSd r w).tending = x.tending := rfl
@[simp] theorem Slot.setSd_hooped (r : BitVec 2) (w : Stream) : (x.setSd r w).hooped = x.hooped := rfl
@[simp] theorem Slot.setSd_since (r : BitVec 2) (w : Stream) : (x.setSd r w).since = x.since := rfl
@[simp] theorem Slot.setC_occupied (k : Acc) (n : Nat) (w : BitVec 128) : (x.setC k n w).occupied = x.occupied := rfl
@[simp] theorem Slot.setC_task (k : Acc) (n : Nat) (w : BitVec 128) : (x.setC k n w).task = x.task := rfl
@[simp] theorem Slot.setC_launch (k : Acc) (n : Nat) (w : BitVec 128) : (x.setC k n w).launch = x.launch := rfl
@[simp] theorem Slot.setC_lane (k : Acc) (n : Nat) (w : BitVec 128) : (x.setC k n w).lane = x.lane := rfl
@[simp] theorem Slot.setC_key (k : Acc) (n : Nat) (w : BitVec 128) : (x.setC k n w).key = x.key := rfl
@[simp] theorem Slot.setC_capStep (k : Acc) (n : Nat) (w : BitVec 128) : (x.setC k n w).capStep = x.capStep := rfl
@[simp] theorem Slot.setC_pc (k : Acc) (n : Nat) (w : BitVec 128) : (x.setC k n w).pc = x.pc := rfl
@[simp] theorem Slot.setC_g (k : Acc) (n : Nat) (w : BitVec 128) : (x.setC k n w).g = x.g := rfl
@[simp] theorem Slot.setC_v (k : Acc) (n : Nat) (w : BitVec 128) : (x.setC k n w).v = x.v := rfl
@[simp] theorem Slot.setC_p (k : Acc) (n : Nat) (w : BitVec 128) : (x.setC k n w).p = x.p := rfl
@[simp] theorem Slot.setC_started (k : Acc) (n : Nat) (w : BitVec 128) : (x.setC k n w).started = x.started := rfl
@[simp] theorem Slot.setC_s (k : Acc) (n : Nat) (w : BitVec 128) : (x.setC k n w).s = x.s := rfl
@[simp] theorem Slot.setC_flags (k : Acc) (n : Nat) (w : BitVec 128) : (x.setC k n w).flags = x.flags := rfl
@[simp] theorem Slot.setC_rmode (k : Acc) (n : Nat) (w : BitVec 128) : (x.setC k n w).rmode = x.rmode := rfl
@[simp] theorem Slot.setC_round (k : Acc) (n : Nat) (w : BitVec 128) : (x.setC k n w).round = x.round := rfl
@[simp] theorem Slot.setC_fa (k : Acc) (n : Nat) (w : BitVec 128) : (x.setC k n w).fa = x.fa := rfl
@[simp] theorem Slot.setC_fb (k : Acc) (n : Nat) (w : BitVec 128) : (x.setC k n w).fb = x.fb := rfl
@[simp] theorem Slot.setC_fs (k : Acc) (n : Nat) (w : BitVec 128) : (x.setC k n w).fs = x.fs := rfl
@[simp] theorem Slot.setC_cause (k : Acc) (n : Nat) (w : BitVec 128) : (x.setC k n w).cause = x.cause := rfl
@[simp] theorem Slot.setC_cw (k : Acc) (n : Nat) (w : BitVec 128) : (x.setC k n w).cw = x.cw := rfl
@[simp] theorem Slot.setC_rep (k : Acc) (n : Nat) (w : BitVec 128) : (x.setC k n w).rep = x.rep := rfl
@[simp] theorem Slot.setC_sd (k : Acc) (n : Nat) (w : BitVec 128) : (x.setC k n w).sd = x.sd := rfl
@[simp] theorem Slot.setC_bind6 (k : Acc) (n : Nat) (w : BitVec 128) : (x.setC k n w).bind6 = x.bind6 := rfl
@[simp] theorem Slot.setC_bind7 (k : Acc) (n : Nat) (w : BitVec 128) : (x.setC k n w).bind7 = x.bind7 := rfl
@[simp] theorem Slot.setC_tagSet (k : Acc) (n : Nat) (w : BitVec 128) : (x.setC k n w).tagSet = x.tagSet := rfl
@[simp] theorem Slot.setC_tagBusy (k : Acc) (n : Nat) (w : BitVec 128) : (x.setC k n w).tagBusy = x.tagBusy := rfl
@[simp] theorem Slot.setC_tagStat (k : Acc) (n : Nat) (w : BitVec 128) : (x.setC k n w).tagStat = x.tagStat := rfl
@[simp] theorem Slot.setC_tagCode (k : Acc) (n : Nat) (w : BitVec 128) : (x.setC k n w).tagCode = x.tagCode := rfl
@[simp] theorem Slot.setC_unack (k : Acc) (n : Nat) (w : BitVec 128) : (x.setC k n w).unack = x.unack := rfl
@[simp] theorem Slot.setC_faultPending (k : Acc) (n : Nat) (w : BitVec 128) : (x.setC k n w).faultPending = x.faultPending := rfl
@[simp] theorem Slot.setC_mailbox (k : Acc) (n : Nat) (w : BitVec 128) : (x.setC k n w).mailbox = x.mailbox := rfl
@[simp] theorem Slot.setC_written (k : Acc) (n : Nat) (w : BitVec 128) : (x.setC k n w).written = x.written := rfl
@[simp] theorem Slot.setC_frame (k : Acc) (n : Nat) (w : BitVec 128) : (x.setC k n w).frame = x.frame := rfl
@[simp] theorem Slot.setC_capsule (k : Acc) (n : Nat) (w : BitVec 128) : (x.setC k n w).capsule = x.capsule := rfl
@[simp] theorem Slot.setC_prio (k : Acc) (n : Nat) (w : BitVec 128) : (x.setC k n w).prio = x.prio := rfl
@[simp] theorem Slot.setC_outs (k : Acc) (n : Nat) (w : BitVec 128) : (x.setC k n w).outs = x.outs := rfl
@[simp] theorem Slot.setC_parks (k : Acc) (n : Nat) (w : BitVec 128) : (x.setC k n w).parks = x.parks := rfl
@[simp] theorem Slot.setC_answers (k : Acc) (n : Nat) (w : BitVec 128) : (x.setC k n w).answers = x.answers := rfl
@[simp] theorem Slot.setC_halt (k : Acc) (n : Nat) (w : BitVec 128) : (x.setC k n w).halt = x.halt := rfl
@[simp] theorem Slot.setC_readyAt (k : Acc) (n : Nat) (w : BitVec 128) : (x.setC k n w).readyAt = x.readyAt := rfl
@[simp] theorem Slot.setC_ending (k : Acc) (n : Nat) (w : BitVec 128) : (x.setC k n w).ending = x.ending := rfl
@[simp] theorem Slot.setC_tending (k : Acc) (n : Nat) (w : BitVec 128) : (x.setC k n w).tending = x.tending := rfl
@[simp] theorem Slot.setC_hooped (k : Acc) (n : Nat) (w : BitVec 128) : (x.setC k n w).hooped = x.hooped := rfl
@[simp] theorem Slot.setC_since (k : Acc) (n : Nat) (w : BitVec 128) : (x.setC k n w).since = x.since := rfl
@[simp] theorem Slot.setP_occupied (r : PReg) (w : Word) : (x.setP r w).occupied = x.occupied := by unfold Slot.setP; split <;> rfl
@[simp] theorem Slot.setP_task (r : PReg) (w : Word) : (x.setP r w).task = x.task := by unfold Slot.setP; split <;> rfl
@[simp] theorem Slot.setP_launch (r : PReg) (w : Word) : (x.setP r w).launch = x.launch := by unfold Slot.setP; split <;> rfl
@[simp] theorem Slot.setP_lane (r : PReg) (w : Word) : (x.setP r w).lane = x.lane := by unfold Slot.setP; split <;> rfl
@[simp] theorem Slot.setP_key (r : PReg) (w : Word) : (x.setP r w).key = x.key := by unfold Slot.setP; split <;> rfl
@[simp] theorem Slot.setP_capStep (r : PReg) (w : Word) : (x.setP r w).capStep = x.capStep := by unfold Slot.setP; split <;> rfl
@[simp] theorem Slot.setP_pc (r : PReg) (w : Word) : (x.setP r w).pc = x.pc := by unfold Slot.setP; split <;> rfl
@[simp] theorem Slot.setP_g (r : PReg) (w : Word) : (x.setP r w).g = x.g := by unfold Slot.setP; split <;> rfl
@[simp] theorem Slot.setP_v (r : PReg) (w : Word) : (x.setP r w).v = x.v := by unfold Slot.setP; split <;> rfl
@[simp] theorem Slot.setP_c (r : PReg) (w : Word) : (x.setP r w).c = x.c := by unfold Slot.setP; split <;> rfl
@[simp] theorem Slot.setP_started (r : PReg) (w : Word) : (x.setP r w).started = x.started := by unfold Slot.setP; split <;> rfl
@[simp] theorem Slot.setP_s (r : PReg) (w : Word) : (x.setP r w).s = x.s := by unfold Slot.setP; split <;> rfl
@[simp] theorem Slot.setP_flags (r : PReg) (w : Word) : (x.setP r w).flags = x.flags := by unfold Slot.setP; split <;> rfl
@[simp] theorem Slot.setP_rmode (r : PReg) (w : Word) : (x.setP r w).rmode = x.rmode := by unfold Slot.setP; split <;> rfl
@[simp] theorem Slot.setP_round (r : PReg) (w : Word) : (x.setP r w).round = x.round := by unfold Slot.setP; split <;> rfl
@[simp] theorem Slot.setP_fa (r : PReg) (w : Word) : (x.setP r w).fa = x.fa := by unfold Slot.setP; split <;> rfl
@[simp] theorem Slot.setP_fb (r : PReg) (w : Word) : (x.setP r w).fb = x.fb := by unfold Slot.setP; split <;> rfl
@[simp] theorem Slot.setP_fs (r : PReg) (w : Word) : (x.setP r w).fs = x.fs := by unfold Slot.setP; split <;> rfl
@[simp] theorem Slot.setP_cause (r : PReg) (w : Word) : (x.setP r w).cause = x.cause := by unfold Slot.setP; split <;> rfl
@[simp] theorem Slot.setP_cw (r : PReg) (w : Word) : (x.setP r w).cw = x.cw := by unfold Slot.setP; split <;> rfl
@[simp] theorem Slot.setP_rep (r : PReg) (w : Word) : (x.setP r w).rep = x.rep := by unfold Slot.setP; split <;> rfl
@[simp] theorem Slot.setP_sd (r : PReg) (w : Word) : (x.setP r w).sd = x.sd := by unfold Slot.setP; split <;> rfl
@[simp] theorem Slot.setP_bind6 (r : PReg) (w : Word) : (x.setP r w).bind6 = x.bind6 := by unfold Slot.setP; split <;> rfl
@[simp] theorem Slot.setP_bind7 (r : PReg) (w : Word) : (x.setP r w).bind7 = x.bind7 := by unfold Slot.setP; split <;> rfl
@[simp] theorem Slot.setP_tagSet (r : PReg) (w : Word) : (x.setP r w).tagSet = x.tagSet := by unfold Slot.setP; split <;> rfl
@[simp] theorem Slot.setP_tagBusy (r : PReg) (w : Word) : (x.setP r w).tagBusy = x.tagBusy := by unfold Slot.setP; split <;> rfl
@[simp] theorem Slot.setP_tagStat (r : PReg) (w : Word) : (x.setP r w).tagStat = x.tagStat := by unfold Slot.setP; split <;> rfl
@[simp] theorem Slot.setP_tagCode (r : PReg) (w : Word) : (x.setP r w).tagCode = x.tagCode := by unfold Slot.setP; split <;> rfl
@[simp] theorem Slot.setP_unack (r : PReg) (w : Word) : (x.setP r w).unack = x.unack := by unfold Slot.setP; split <;> rfl
@[simp] theorem Slot.setP_faultPending (r : PReg) (w : Word) : (x.setP r w).faultPending = x.faultPending := by unfold Slot.setP; split <;> rfl
@[simp] theorem Slot.setP_mailbox (r : PReg) (w : Word) : (x.setP r w).mailbox = x.mailbox := by unfold Slot.setP; split <;> rfl
@[simp] theorem Slot.setP_written (r : PReg) (w : Word) : (x.setP r w).written = x.written := by unfold Slot.setP; split <;> rfl
@[simp] theorem Slot.setP_frame (r : PReg) (w : Word) : (x.setP r w).frame = x.frame := by unfold Slot.setP; split <;> rfl
@[simp] theorem Slot.setP_capsule (r : PReg) (w : Word) : (x.setP r w).capsule = x.capsule := by unfold Slot.setP; split <;> rfl
@[simp] theorem Slot.setP_prio (r : PReg) (w : Word) : (x.setP r w).prio = x.prio := by unfold Slot.setP; split <;> rfl
@[simp] theorem Slot.setP_outs (r : PReg) (w : Word) : (x.setP r w).outs = x.outs := by unfold Slot.setP; split <;> rfl
@[simp] theorem Slot.setP_parks (r : PReg) (w : Word) : (x.setP r w).parks = x.parks := by unfold Slot.setP; split <;> rfl
@[simp] theorem Slot.setP_answers (r : PReg) (w : Word) : (x.setP r w).answers = x.answers := by unfold Slot.setP; split <;> rfl
@[simp] theorem Slot.setP_halt (r : PReg) (w : Word) : (x.setP r w).halt = x.halt := by unfold Slot.setP; split <;> rfl
@[simp] theorem Slot.setP_readyAt (r : PReg) (w : Word) : (x.setP r w).readyAt = x.readyAt := by unfold Slot.setP; split <;> rfl
@[simp] theorem Slot.setP_ending (r : PReg) (w : Word) : (x.setP r w).ending = x.ending := by unfold Slot.setP; split <;> rfl
@[simp] theorem Slot.setP_tending (r : PReg) (w : Word) : (x.setP r w).tending = x.tending := by unfold Slot.setP; split <;> rfl
@[simp] theorem Slot.setP_hooped (r : PReg) (w : Word) : (x.setP r w).hooped = x.hooped := by unfold Slot.setP; split <;> rfl
@[simp] theorem Slot.setP_since (r : PReg) (w : Word) : (x.setP r w).since = x.since := by unfold Slot.setP; split <;> rfl

end

theorem Slot.getG_setG (x : Slot) (r q : Reg) (w : Word) : (x.setG r w).getG q = if q = r then w else x.getG q := by
  simp only [Slot.getG, Slot.setG, Vector.getElem_set, BitVec.toNat_inj, eq_comm (a := r)]
@[simp] theorem Slot.getG_setG_self (x : Slot) (r : Reg) (w : Word) : (x.setG r w).getG r = w := by
  simp [Slot.getG_setG]
theorem Slot.getV_setV (x : Slot) (r q : VReg) (w : BitVec 512) : (x.setV r w).getV q = if q = r then w else x.getV q := by
  simp only [Slot.getV, Slot.setV, Vector.getElem_set, BitVec.toNat_inj, eq_comm (a := r)]
@[simp] theorem Slot.getV_setV_self (x : Slot) (r : VReg) (w : BitVec 512) : (x.setV r w).getV r = w := by
  simp [Slot.getV_setV]
theorem Slot.getS_setS (x : Slot) (r q : SReg) (w : BitVec 128) : (x.setS r w).getS q = if q = r then w else x.getS q := by
  simp only [Slot.getS, Slot.setS, Vector.getElem_set, BitVec.toNat_inj, eq_comm (a := r)]
@[simp] theorem Slot.getS_setS_self (x : Slot) (r : SReg) (w : BitVec 128) : (x.setS r w).getS r = w := by
  simp [Slot.getS_setS]
theorem Slot.getSd_setSd (x : Slot) (r q : BitVec 2) (w : Stream) : (x.setSd r w).getSd q = if q = r then w else x.getSd q := by
  simp only [Slot.getSd, Slot.setSd, Vector.getElem_set, BitVec.toNat_inj, eq_comm (a := r)]
@[simp] theorem Slot.getSd_setSd_self (x : Slot) (r : BitVec 2) (w : Stream) : (x.setSd r w).getSd r = w := by
  simp [Slot.getSd_setSd]
@[simp] theorem Slot.getP_zero (x : Slot) : x.getP 0 = BitVec.allOnes 64 := rfl
/-- P0 takes no write (R156). -/
@[simp] theorem Slot.setP_zero (x : Slot) (w : Word) : x.setP 0 w = x := rfl
theorem Slot.getP_setP (x : Slot) (r q : PReg) (w : Word) :
    (x.setP r w).getP q = if q = 0 then BitVec.allOnes 64 else if q = r then w else x.getP q := by
  unfold Slot.getP
  by_cases hq : q = 0
  · rw [if_pos hq, if_pos hq]
  · by_cases h : r = 0
    · have hqr : ¬q = r := fun e => hq (e.trans h)
      simp only [if_neg hq, if_neg hqr, Slot.setP, if_pos h]
    · simp only [if_neg hq, Slot.setP, if_neg h, Vector.getElem_set, BitVec.toNat_inj, @eq_comm _ r q]
theorem Slot.getC_setC (x : Slot) (k q : Acc) (n m : Nat) (w : BitVec 128) :
    (x.setC k n w).getC q m = if q.toNat * 256 + m = k.toNat * 256 + n then w else x.getC q m := SMap.get_set _ _ _ _ _

end Sys2Proof.Machine
end

