-- ==== Sys2Proof/Laws/Ops.lean ====
section
/-! SUPPORT. What each shared operation can do, said once: how an issue ends, what reading an operand leaves alone, what a
message, an acknowledgement, a record and the end of a task change. -/

namespace Sys2Proof.Machine

/-! ## How an issue ends -/

section
variable {α β : Type} (s : State)

theorem Exec.bind_run (m : Exec α) (f : α → Exec β) :
    (m >>= f) s = match m s with | .ok (a, t) => f a t | .error e => .error e := by
  show (do let (a, t) ← m s; f a t : Except Stop (β × State)) = _
  cases m s <;> rfl

theorem Exec.bind_ok {m : Exec α} {f : α → Exec β} {a : α} {t : State} (h : m s = .ok (a, t)) : (m >>= f) s = f a t := by
  rw [Exec.bind_run, h]

theorem Exec.bind_error {m : Exec α} {f : α → Exec β} {e : Stop} (h : m s = .error e) : (m >>= f) s = .error e := by
  rw [Exec.bind_run, h]

/-- A sequence that goes on has a first part that goes on. -/
theorem Exec.bind_eq_ok {m : Exec α} {f : α → Exec β} {b : β} {u : State} (h : (m >>= f) s = .ok (b, u)) :
    ∃ a t, m s = .ok (a, t) ∧ f a t = .ok (b, u) := by
  rw [Exec.bind_run] at h
  split at h
  · exact ⟨_, _, ‹_›, h⟩
  · cases h

@[simp] theorem Exec.pure_run (a : α) : (pure a : Exec α) s = .ok (a, s) := rfl
@[simp] theorem modify'_run (f : State → State) : modify' f s = .ok ((), f s) := rfl
@[simp] theorem look_run (f : State → α) : look f s = .ok (f s, s) := rfl
@[simp] theorem modMe_run (f : Slot → Slot) : modMe f s = .ok ((), s.modCur f) := rfl
@[simp] theorem readG_run (r : Reg) : readG r s = .ok (s.cur.getG r, s) := rfl
@[simp] theorem writeG_run (r : Reg) (w : Word) : writeG r w s = .ok ((), s.modCur fun x => x.setG r w) := rfl
@[simp] theorem stop_run (e : Stop) : (stop e : Exec α) s = .error e := rfl
@[simp] theorem trap_run (c : FaultCode) : (trap c : Exec α) s = .error (.trap c Detail.zero) := rfl
@[simp] theorem trapVa_run (c : FaultCode) (va : Word) : (trapVa c va : Exec α) s = .error (.trap c ⟨0, some va, none, 0⟩) := rfl
@[simp] theorem require_run (b : Bool) (c : FaultCode) :
    require b c s = if b then .ok ((), s) else .error (.trap c Detail.zero) := rfl
@[simp] theorem setZnvc_run (f : Znvc) : setZnvc f s = .ok ((), s.modCur fun x => { x with flags := withZnvc x.flags f.bits }) := rfl
@[simp] theorem setSticky_run (f : Sticky) :
    setSticky f s = .ok ((), s.modCur fun x => { x with flags := withSticky x.flags f }) := rfl

end

/-- An issue always answers a next state (R143). -/
theorem retire_next (i : Instr) (m : Exec Unit) (s : State) : ∃ t, retire i m s = .next t := by
  unfold retire
  split <;> exact ⟨_, rfl⟩

theorem retire_ok {i : Instr} {m : Exec Unit} {s t : State} (h : m s = .ok ((), t)) : retire i m s = .next t.advance := by
  simp only [retire, h]

theorem retire_trap {i : Instr} {m : Exec Unit} {s : State} {c : FaultCode} {d : Detail} (h : m s = .error (.trap c d)) :
    retire i m s = .next (takeFault s c d) := by simp only [retire, h]

theorem retire_reissue {i : Instr} {m : Exec Unit} {s : State} {c : ParkCond} {w : List WalkReq} (h : m s = .error (.reissue c w)) :
    retire i m s = .next (s.reissue i c w) := by simp only [retire, h]

/-- The three ways an issue ends: the effect and the next bundle, a fault without it, a translation or a
constant's block awaited without it. -/
theorem retire_cases {i : Instr} {m : Exec Unit} {s t : State} (h : retire i m s = .next t) :
    (∃ u, m s = .ok ((), u) ∧ t = u.advance) ∨ (∃ c d, m s = .error (.trap c d) ∧ t = takeFault s c d) ∨
    ∃ c w, m s = .error (.reissue c w) ∧ t = s.reissue i c w := by
  unfold retire at h
  split at h <;> cases h
  · exact .inl ⟨_, ‹_›, rfl⟩
  · exact .inr (.inl ⟨_, _, ‹_›, rfl⟩)
  · exact .inr (.inr ⟨_, _, ‹_›, rfl⟩)

theorem takeFault_disp (s : State) (c : FaultCode) (d : Detail) :
    (takeFault s c d).focus.disp = .trapped c { d with pc := s.focus.pc } := rfl
theorem reissue_disp (s : State) (i : Instr) (c : ParkCond) (w : List WalkReq) : (s.reissue i c w).focus.disp = .reissued := rfl

/-- An issue that goes on has had its whole effect. -/
theorem retire_done {i : Instr} {m : Exec Unit} {s t : State} (h : retire i m s = .next t) (hd : t.focus.disp = .done) :
    ∃ u, m s = .ok ((), u) ∧ t = u.advance := by
  rcases retire_cases h with h | ⟨c, d, _, rfl⟩ | ⟨c, w, _, rfl⟩
  · exact h
  · rw [takeFault_disp] at hd; cases hd
  · rw [reissue_disp] at hd; cases hd

/-! ## Operands -/

/-- `m` only reads: where it goes on, the state is as it was. -/
def Exec.Reads {α : Type} (m : Exec α) : Prop := ∀ s a t, m s = .ok (a, t) → t = s

/-- `m` keeps `P`: where it goes on from a state with `P`, the state it leaves has `P`. -/
def Exec.Keeps {α : Type} (P : State → Prop) (m : Exec α) : Prop := ∀ s a t, P s → m s = .ok (a, t) → P t

section
variable {α β : Type} {P : State → Prop}

theorem Exec.Reads.keeps {m : Exec α} (h : m.Reads) : m.Keeps P := fun s a t hs hm => h s a t hm ▸ hs

theorem Exec.Reads.pure (a : α) : (Pure.pure a : Exec α).Reads := fun _ _ _ h => by cases h; rfl
theorem Exec.Reads.look (f : State → α) : (Machine.look f).Reads := fun _ _ _ h => by cases h; rfl
theorem Exec.Reads.readG (r : Reg) : (Machine.readG r).Reads := .look _
theorem Exec.Reads.stop (e : Stop) : (Machine.stop e : Exec α).Reads := fun _ _ _ h => by cases h
theorem Exec.Reads.trap (c : FaultCode) : (Machine.trap c : Exec α).Reads := .stop _
theorem Exec.Reads.trapVa (c : FaultCode) (va : Word) : (Machine.trapVa c va : Exec α).Reads := .stop _
theorem Exec.Reads.trapSeg (c : FaultCode) (seg : BitVec 128) (ea : Nat) : (Machine.trapSeg c seg ea : Exec α).Reads := .stop _
theorem Exec.Reads.require (b : Bool) (c : FaultCode) : (Machine.require b c).Reads := fun s _ _ h => by
  rw [require_run] at h; split at h <;> cases h; rfl
theorem Exec.Reads.bind {m : Exec α} {f : α → Exec β} (hm : m.Reads) (hf : ∀ a, (f a).Reads) : (m >>= f).Reads := fun s b u h => by
  obtain ⟨a, t, h1, h2⟩ := Exec.bind_eq_ok s h
  cases hm s a t h1; exact hf a _ b u h2
theorem Exec.Reads.ite {p : Prop} [Decidable p] {m n : Exec α} (hm : m.Reads) (hn : n.Reads) : (if p then m else n).Reads := by
  split <;> assumption

theorem Exec.Keeps.bind {m : Exec α} {f : α → Exec β} (hm : m.Keeps P) (hf : ∀ a, (f a).Keeps P) : (m >>= f).Keeps P :=
  fun s b u hs h => by
    obtain ⟨a, t, h1, h2⟩ := Exec.bind_eq_ok s h
    exact hf a t b u (hm s a t hs h1) h2
theorem Exec.Keeps.ite {p : Prop} [Decidable p] {m n : Exec α} (hm : m.Keeps P) (hn : n.Keeps P) : (if p then m else n).Keeps P := by
  split <;> assumption
theorem Exec.Keeps.modify' {f : State → State} (h : ∀ s, P s → P (f s)) : (Machine.modify' f).Keeps P :=
  fun s _ _ hs hm => by cases hm; exact h s hs

/-- Changing the slot that issues keeps whatever the memory alone decides. -/
theorem Exec.Keeps.modMe {Q : SMap Byte → Prop} (f : Slot → Slot) : (Machine.modMe f).Keeps fun s => Q s.mem :=
  .modify' fun _ hs => hs

end

/-- A translation that goes on leaves the state as it is. -/
theorem translate_reads (rs : List (Nat × Nat)) (need : Nat) (sp : Option Bool) : (translate rs need sp).Reads := by
  intro s a t h
  unfold translate at h
  dsimp only at h
  split at h
  · split at h <;> cases h
    rfl
  · cases h

theorem loadNear_reads (off n : Nat) : (loadNear off n).Reads := by
  intro s a t h
  unfold loadNear at h
  dsimp only at h
  split at h <;> cases h
  rfl

theorem privateAt_reads (seg : BitVec 128) (ea z al : Nat) (rd wr : Bool) : (privateAt seg ea z al rd wr).Reads := by
  unfold privateAt
  dsimp only
  repeat' first
    | exact .pure _
    | exact .trapSeg _ _ _
    | exact translate_reads _ _ _
    | refine .ite ?_ ?_
    | refine .bind ?_ fun _ => ?_

theorem latticeAt_reads (seg : BitVec 128) (ea z al : Nat) (rd wr : Bool) : (latticeAt seg ea z al rd wr).Reads := by
  unfold latticeAt
  dsimp only
  repeat' first
    | exact .pure _
    | exact .trapSeg _ _ _
    | exact translate_reads _ _ _
    | refine .ite ?_ ?_

theorem localAt_reads (seg : BitVec 128) (ea n : Nat) (rd wr : Bool) : (localAt seg ea n rd wr).Reads := by
  unfold localAt
  dsimp only
  repeat' first
    | exact .pure _
    | exact .trapSeg _ _ _
    | refine .ite ?_ ?_

theorem constPlaces_reads (far : Bool) (ws : List Nat) : (constPlaces far ws).Reads := .ite (translate_reads _ _ _) (.look _)

theorem readConst_reads (win : BitVec 3) (off : BitVec 17) (n : Nat) : (readConst win off n).Reads := by
  unfold readConst
  dsimp only
  repeat' first
    | exact .pure _
    | exact .look _
    | exact .stop _
    | exact .trapVa _ _
    | exact constPlaces_reads _ _
    | refine .ite ?_ ?_
    | refine .bind ?_ fun _ => ?_
    | split

/-- Reading a second source changes nothing. -/
theorem srcVal_reads (src : Src) (n : Nat) : (srcVal src n).Reads := by
  cases src with
  | rr b => exact .readG b
  | ri x => exact .pure _
  | rl x => exact .pure _
  | rl64 x => exact .pure _
  | rk win off => exact .bind (readConst_reads win off n) fun _ => .pure _

theorem regImmVal_reads (m : RegImm) : (regImmVal m).Reads := by
  cases m with
  | reg a => exact .readG a
  | imm v => exact .pure _

theorem regLitVal_reads (m : RegLit) : (regLitVal m).Reads := by
  cases m with
  | reg a => exact .readG a
  | lit v => exact .pure _

/-- A store that overtakes the task's own changes only the messages it overtakes. -/
theorem outrun_frame (s : State) (task xid : Nat) (rs : List (Nat × Nat)) :
    ∃ ag tr, outrun s task xid rs = ({ s with agenda := ag, transits := tr } : State) := ⟨_, _, rfl⟩
@[simp] theorem outrun_mem (s : State) (task xid : Nat) (rs : List (Nat × Nat)) : (outrun s task xid rs).mem = s.mem := rfl

/-- A store that is about to be performed changes, of its task's earlier accesses, only what they have still to do. -/
theorem overtake_frame (s : State) (q : SlotRef) (task xid : Nat) (rs : List (Nat × Nat)) :
    ∃ ag tr sl co, overtake s q task xid rs = ({ s with agenda := ag, transits := tr, slots := sl, cores := co } : State) := by
  unfold overtake
  dsimp only
  split
  · exact ⟨_, _, _, _, rfl⟩
  · exact ⟨_, _, _, s.cores, rfl⟩
@[simp] theorem overtake_mem (s : State) (q : SlotRef) (task xid : Nat) (rs : List (Nat × Nat)) :
    (overtake s q task xid rs).mem = s.mem := by
  obtain ⟨_, _, _, _, h⟩ := overtake_frame s q task xid rs
  rw [h]

/-- A store to core local memory keeps the canonical form. -/
theorem storeNear_keeps (off : Nat) (bs : List Byte) : (storeNear off bs).Keeps fun s => Memory.wf s.mem = true :=
  .modify' fun s hs => State.stores_wf bs (overtake s s.me s.cur.task s.xid [(nearKey s off, bs.length)]) _
    (by rw [overtake_mem]; exact hs)

theorem writeAlu_run (sgn : Bool) (n : Nat) (d : Reg) (r : Nat × Bool × Bool) (s : State) :
    writeAlu sgn n d r s = .ok ((), s.modCur fun x => { x.setG d (extendTo sgn n r.1) with
      flags := withZnvc x.flags (resultFlags n r.1 r.2.1 r.2.2).bits }) := by
  show Except.ok ((), (s.modCur _).modCur _) = _
  rw [State.modCur_modCur]; rfl

/-- A two-source instruction whose source can be read (R171, R172). -/
theorem alu_run (f : AluFn) (o : Alu) (s : State) (y : Word) (h : srcVal o.src (width o.sz) s = .ok (y, s)) :
    let r := f (tyI o.ty) (width o.sz) (low (width o.sz) (s.cur.getG o.a)) (low (width o.sz) y)
    alu f o s = .ok ((), s.modCur fun x => { x.setG o.d (extendTo (tyI o.ty) (width o.sz) r.1) with
      flags := withZnvc x.flags (resultFlags (width o.sz) r.1 r.2.1 r.2.2).bits }) := by
  dsimp only
  unfold alu
  rw [Exec.bind_ok s (readG_run s o.a), Exec.bind_ok s h, writeAlu_run]

theorem shift_run (f : AluFn) (o : Alu) (s : State) (y : Word) (h : srcVal o.src (width o.sz) s = .ok (y, s)) :
    let r := f (tyI o.ty) (width o.sz) (low (width o.sz) (s.cur.getG o.a)) y.toNat
    shift f o s = .ok ((), s.modCur fun x => { x.setG o.d (extendTo (tyI o.ty) (width o.sz) r.1) with
      flags := withZnvc x.flags (resultFlags (width o.sz) r.1 r.2.1 r.2.2).bits }) := by
  dsimp only
  unfold shift
  rw [Exec.bind_ok s (readG_run s o.a), Exec.bind_ok s h, writeAlu_run]

theorem unary_run (f : AluFn) (o : Un) (s : State) :
    let r := f (tyI o.ty) (width o.sz) (low (width o.sz) (s.cur.getG o.a)) 0
    unary f o s = .ok ((), s.modCur fun x => { x.setG o.d (extendTo (tyI o.ty) (width o.sz) r.1) with
      flags := withZnvc x.flags (resultFlags (width o.sz) r.1 r.2.1 r.2.2).bits }) := by
  dsimp only
  unfold unary
  rw [Exec.bind_ok s (readG_run s o.a), writeAlu_run]

/-! ## Messages and counts -/

/-- Sending changes the messages under way and the transaction numbers. -/
theorem State.post_frame (s : State) (src dst : Nat) (m : Instr) :
    ∃ ag tr x, s.post src dst m = ({ s with agenda := ag, transits := tr, xid := x } : State) := by
  unfold State.post
  split
  · exact ⟨_, s.transits, s.xid, rfl⟩
  · exact ⟨s.agenda, _, _, rfl⟩

theorem State.reply_frame (s : State) (src : Nat) (q : Requester) (a : Answer) :
    ∃ ag tr x, s.reply src q a = ({ s with agenda := ag, transits := tr, xid := x } : State) := State.post_frame s _ _ _

theorem State.ack_frame (s : State) (src : Nat) (q : Requester) (xid : Nat) (dest : AckTo) (k : Nat) (c : Option FaultCode) :
    ∃ ag tr x, s.ack src q xid dest k c = ({ s with agenda := ag, transits := tr, xid := x } : State) := State.post_frame s _ _ _

theorem State.modLaunch_frame (s : State) (n : Nat) (f : Launch → Launch) :
    ∃ l, s.modLaunch n f = ({ s with launches := l } : State) := by
  unfold State.modLaunch
  split
  · exact ⟨_, rfl⟩
  · exact ⟨s.launches, rfl⟩

theorem State.owe_frame (s : State) (n k : Nat) : ∃ l, s.owe n k = ({ s with launches := l } : State) := State.modLaunch_frame s n _
theorem State.paid_frame (s : State) (n k : Nat) : ∃ l, s.paid n k = ({ s with launches := l } : State) := State.modLaunch_frame s n _

@[simp] theorem State.post_mem (s : State) (src dst : Nat) (m : Instr) : (s.post src dst m).mem = s.mem := by
  obtain ⟨_, _, _, h⟩ := State.post_frame s src dst m; rw [h]
@[simp] theorem State.post_slots (s : State) (src dst : Nat) (m : Instr) : (s.post src dst m).slots = s.slots := by
  obtain ⟨_, _, _, h⟩ := State.post_frame s src dst m; rw [h]
@[simp] theorem State.post_focus (s : State) (src dst : Nat) (m : Instr) : (s.post src dst m).focus = s.focus := by
  obtain ⟨_, _, _, h⟩ := State.post_frame s src dst m; rw [h]
@[simp] theorem State.modLaunch_mem (s : State) (n : Nat) (f : Launch → Launch) : (s.modLaunch n f).mem = s.mem := by
  obtain ⟨_, h⟩ := State.modLaunch_frame s n f; rw [h]
@[simp] theorem State.owe_mem (s : State) (n k : Nat) : (s.owe n k).mem = s.mem := State.modLaunch_mem s n _
@[simp] theorem State.paid_mem (s : State) (n k : Nat) : (s.paid n k).mem = s.mem := State.modLaunch_mem s n _

/-! ## Records -/

theorem State.markFaulted_frame (s : State) (n c : Nat) :
    ∃ l d, s.markFaulted n c = ({ s with launches := l, dies := d } : State) := by
  unfold State.markFaulted
  split
  · exact ⟨s.launches, s.dies, rfl⟩
  · split
    · exact ⟨s.launches, s.dies, rfl⟩
    · exact ⟨_, _, rfl⟩

theorem State.enterHold_frame (s : State) (d : Nat) :
    ∃ x c m, s.enterHold d = ({ s with dies := x, cores := c, msix := m } : State) := by
  unfold State.enterHold
  split
  · exact ⟨s.dies, s.cores, s.msix, rfl⟩
  · exact ⟨_, _, _, rfl⟩

/-- A record changes its die's buffer, its launch's mark, and what fault hold changes. -/
theorem State.record_frame (s : State) (d : Nat) (r : FaultRec) :
    ∃ x l c m, s.record d r = ({ s with dies := x, launches := l, cores := c, msix := m } : State) := by
  unfold State.record
  dsimp only
  split
  · generalize hs : s.setDie d _ = s1
    have h1 : ∃ x, s1 = ({ s with dies := x } : State) := ⟨_, hs.symm⟩
    obtain ⟨x1, h1⟩ := h1
    have h2 : ∃ l x, (if r.cls = 0 ∧ !r.quiet then s1.markFaulted r.launch r.code else s1) = ({ s with launches := l, dies := x } : State) := by
      split
      · obtain ⟨l, x, h⟩ := State.markFaulted_frame s1 r.launch r.code
        exact ⟨l, x, by rw [h, h1]⟩
      · exact ⟨s.launches, x1, h1⟩
    obtain ⟨l, x, h2⟩ := h2
    rw [h2]
    split
    · obtain ⟨y, c, m, h⟩ := State.enterHold_frame ({ s with launches := l, dies := x } : State) d
      exact ⟨y, l, c, m, h⟩
    · exact ⟨x, l, s.cores, s.msix, rfl⟩
  · exact ⟨_, s.launches, s.cores, s.msix, rfl⟩

@[simp] theorem State.record_mem (s : State) (d : Nat) (r : FaultRec) : (s.record d r).mem = s.mem := by
  obtain ⟨_, _, _, _, h⟩ := State.record_frame s d r; rw [h]
@[simp] theorem State.record_slots (s : State) (d : Nat) (r : FaultRec) : (s.record d r).slots = s.slots := by
  obtain ⟨_, _, _, _, h⟩ := State.record_frame s d r; rw [h]
@[simp] theorem State.record_focus (s : State) (d : Nat) (r : FaultRec) : (s.record d r).focus = s.focus := by
  obtain ⟨_, _, _, _, h⟩ := State.record_frame s d r; rw [h]

/-! ## Berths and the end of a task -/

@[simp] theorem grantTo_mem (s : State) (core : Nat) (b : BitVec 2) (a : BerthAsk) : (grantTo s core b a).mem = s.mem := by
  cases a with
  | capsule p => unfold grantTo; rw [State.post_mem]; rfl
  | _ => unfold grantTo; dsimp only; (repeat' split) <;> rfl

@[simp] theorem grantBerths_mem (core n : Nat) (s : State) : (grantBerths core n s).mem = s.mem := by
  induction n generalizing s with
  | zero => rfl
  | succ n ih =>
    unfold grantBerths
    dsimp only
    split
    · rfl
    · split
      · rfl
      · rw [ih, grantTo_mem]; rfl
      · rw [ih, grantTo_mem]
      · split
        · rw [ih, grantTo_mem]; rfl
        · rw [ih, grantTo_mem]

@[simp] theorem freeBerth_mem (s : State) (core : Nat) (b : BitVec 2) : (freeBerth s core b).mem = s.mem := by
  unfold freeBerth; rw [grantBerths_mem]; rfl

@[simp] theorem countParked_mem (r : SlotRef) (s : State) : (countParked r s).mem = s.mem := by
  unfold countParked; dsimp only; split <;> rfl

@[simp] theorem freeSlot_mem (s : State) (r : SlotRef) : (freeSlot s r).mem = s.mem := countParked_mem r s

/-! ## Groups left at a task's end -/

theorem foldl_mem {α : Type} {f : State → α → State} (h : ∀ s x, (f s x).mem = s.mem) (l : List α) (s : State) :
    (l.foldl f s).mem = s.mem := by
  induction l generalizing s with
  | nil => rfl
  | cons x t ih => rw [List.foldl_cons, ih, h]

@[simp] theorem onTask_mem (s : State) (q : Requester) (f : Slot → Slot) : (onTask s q f).mem = s.mem := by
  unfold onTask
  split
  · rfl
  · split
    · rfl
    · exact State.modLaunch_mem s _ _

@[simp] theorem setPentry_mem (s : State) (n g : Nat) (e : Option PressEntry) : (s.setPentry n g e).mem = s.mem := rfl

@[simp] theorem rebuild_mem (s : State) (g : Nat) : (rebuild s g).mem = s.mem := by
  unfold rebuild
  exact foldl_mem (fun s r => foldl_mem (fun s l => setPentry_mem s _ _ _) _ s) _ _

/-- A packet placed on a core's port is a step of that port's node to come. -/
theorem pressPlace_frame (s : State) (q : Requester) (p : PressPkt) :
    ∃ m, pressPlace s q p = ({ s with agenda := s.agenda ++ [m] } : State) := ⟨_, rfl⟩
@[simp] theorem pressPlace_mem (s : State) (q : Requester) (p : PressPkt) : (pressPlace s q p).mem = s.mem := rfl
@[simp] theorem dissolve_mem (s : State) (g : Nat) : (dissolve s g).mem = s.mem := rfl

@[simp] theorem leaveGroup_mem (s : State) (q : Requester) (g : Nat) : (leaveGroup s q g).mem = s.mem := by
  unfold leaveGroup
  dsimp only
  split
  · generalize hs : onTask _ q _ = s1
    have h1 : s1.mem = s.mem := by rw [← hs, onTask_mem]; rfl
    simp only [apply_ite State.mem, rebuild_mem, dissolve_mem, State.setGroup_mem, pressPlace_mem, h1, ite_self]
  · rfl

@[simp] theorem leaveAll_mem (s : State) (q : Requester) : (leaveAll s q).mem = s.mem :=
  foldl_mem (fun s (x : Nat × Group) => leaveGroup_mem s q x.1) _ s

/-- The end of a task writes no memory (R40). -/
@[simp] theorem endTask_mem (s : State) (r : SlotRef) (keep : Bool) : (endTask s r keep).mem = s.mem := by
  unfold endTask
  dsimp only
  rw [freeSlot_mem]
  split
  · split
    · exact leaveAll_mem s _
    · rw [freeBerth_mem, leaveAll_mem]
  · exact leaveAll_mem s _

@[simp] theorem returnCapsule_mem (s : State) (core : Nat) (b : BitVec 2) (c : FaultCode) (q : Option Requester) :
    (returnCapsule s core b c q).mem = s.mem := by
  unfold returnCapsule; rw [State.post_mem]; rfl

/-- A task that ends by a fault writes its capsule's header, which keeps the memory canonical (R405). -/
theorem endFaulted_wf (s : State) (r : SlotRef) (c : FaultCode) (h : Memory.wf s.mem = true) :
    Memory.wf (endFaulted s r c).mem = true := by
  unfold endFaulted
  dsimp only
  split
  · rw [endTask_mem]; exact h
  · rw [returnCapsule_mem, endTask_mem]
    split
    · exact setCapField_wf _ _ _ _ _ _ (setCapField_wf _ _ _ _ _ _ (setCapField_wf _ _ _ _ _ _ h))
    · exact setCapField_wf _ _ _ _ _ _ (setCapField_wf _ _ _ _ _ _ h)

theorem faultTask_wf (s : State) (r : SlotRef) (c : FaultCode) (d : Detail) (h : Memory.wf s.mem = true) :
    Memory.wf (faultTask s r c d).mem = true := by
  unfold faultTask
  dsimp only
  split
  · exact endFaulted_wf _ r c (by rw [State.record_mem]; exact h)
  · show Memory.wf (countParked r s).mem = true
    rw [countParked_mem]; exact h

/-- Taking a fault keeps the memory canonical. -/
theorem takeFault_wf (s : State) (c : FaultCode) (d : Detail) (h : Memory.wf s.mem = true) :
    Memory.wf (takeFault s c d).mem = true := faultTask_wf s s.me c _ h

/-- An issue keeps the memory canonical where its effect does. -/
theorem retire_wf {i : Instr} {m : Exec Unit} {s t : State} (hm : m.Keeps fun s => Memory.wf s.mem = true)
    (hs : Memory.wf s.mem = true) (h : retire i m s = .next t) : Memory.wf t.mem = true := by
  rcases retire_cases h with ⟨u, hu, rfl⟩ | ⟨c, d, _, rfl⟩ | ⟨c, w, _, rfl⟩
  · exact hm s () u hs hu
  · exact takeFault_wf s c d hs
  · exact hs

end Sys2Proof.Machine
end

