-- ==== Sys2Proof/Laws/PerInstr.lean ====
section
/-! SUPPORT. One lemma for each constructor of `Instr`: a well-formed instruction has an encoding, and a step of a hidden agent or
of the host, which is none, is not well-formed. -/

namespace Sys2Proof.Laws

/-- A well-formed instruction has an encoding (R154). -/
def Encodable.Statement (i : Instr) : Prop := i.wf = true → ∃ h t, encode i = some (h, t)

theorem Encodable.add (o : Alu) : Encodable.Statement (.add o) := fun _ => ⟨_, _, rfl⟩
theorem Encodable.sub (o : Alu) : Encodable.Statement (.sub o) := fun _ => ⟨_, _, rfl⟩
theorem Encodable.mul (o : Alu) : Encodable.Statement (.mul o) := fun _ => ⟨_, _, rfl⟩
theorem Encodable.mulh (o : Alu) : Encodable.Statement (.mulh o) := fun _ => ⟨_, _, rfl⟩
theorem Encodable.div (o : Alu) : Encodable.Statement (.div o) := fun _ => ⟨_, _, rfl⟩
theorem Encodable.rem (o : Alu) : Encodable.Statement (.rem o) := fun _ => ⟨_, _, rfl⟩
theorem Encodable.divideResult (r : SlotRef) : Encodable.Statement (.divideResult r) := nofun
theorem Encodable.neg (o : Un) : Encodable.Statement (.neg o) := fun _ => ⟨_, _, rfl⟩
theorem Encodable.abs (o : Un) : Encodable.Statement (.abs o) := fun _ => ⟨_, _, rfl⟩
theorem Encodable.min (o : Alu) : Encodable.Statement (.min o) := fun _ => ⟨_, _, rfl⟩
theorem Encodable.max (o : Alu) : Encodable.Statement (.max o) := fun _ => ⟨_, _, rfl⟩
theorem Encodable.and (o : Alu) : Encodable.Statement (.and o) := fun _ => ⟨_, _, rfl⟩
theorem Encodable.or (o : Alu) : Encodable.Statement (.or o) := fun _ => ⟨_, _, rfl⟩
theorem Encodable.xor (o : Alu) : Encodable.Statement (.xor o) := fun _ => ⟨_, _, rfl⟩
theorem Encodable.andn (o : Alu) : Encodable.Statement (.andn o) := fun _ => ⟨_, _, rfl⟩
theorem Encodable.not (o : Un) : Encodable.Statement (.not o) := fun _ => ⟨_, _, rfl⟩
theorem Encodable.shl (o : Alu) : Encodable.Statement (.shl o) := fun _ => ⟨_, _, rfl⟩
theorem Encodable.shr (o : Alu) : Encodable.Statement (.shr o) := fun _ => ⟨_, _, rfl⟩
theorem Encodable.sar (o : Alu) : Encodable.Statement (.sar o) := fun _ => ⟨_, _, rfl⟩
theorem Encodable.rol (o : Alu) : Encodable.Statement (.rol o) := fun _ => ⟨_, _, rfl⟩
theorem Encodable.ror (o : Alu) : Encodable.Statement (.ror o) := fun _ => ⟨_, _, rfl⟩
theorem Encodable.clz (o : Cnt) : Encodable.Statement (.clz o) := fun _ => ⟨_, _, rfl⟩
theorem Encodable.ctz (o : Cnt) : Encodable.Statement (.ctz o) := fun _ => ⟨_, _, rfl⟩
theorem Encodable.ffs (o : Cnt) : Encodable.Statement (.ffs o) := fun _ => ⟨_, _, rfl⟩
theorem Encodable.popc (o : Cnt) : Encodable.Statement (.popc o) := fun _ => ⟨_, _, rfl⟩
theorem Encodable.brev (o : Cnt) : Encodable.Statement (.brev o) := fun _ => ⟨_, _, rfl⟩
theorem Encodable.ext (o : Alu) : Encodable.Statement (.ext o) := fun _ => ⟨_, _, rfl⟩
theorem Encodable.ins (o : Alu) : Encodable.Statement (.ins o) := fun _ => ⟨_, _, rfl⟩
theorem Encodable.sext (o : Cnt) : Encodable.Statement (.sext o) := fun _ => ⟨_, _, rfl⟩
theorem Encodable.zext (o : Cnt) : Encodable.Statement (.zext o) := fun _ => ⟨_, _, rfl⟩
theorem Encodable.cmp (o : Alu) : Encodable.Statement (.cmp o) := fun _ => ⟨_, _, rfl⟩
theorem Encodable.setc (cc : BitVec 4) (o : Alu) : Encodable.Statement (.setc cc o) := fun _ => ⟨_, _, rfl⟩
theorem Encodable.sel (cc : BitVec 4) (d a b : Reg) : Encodable.Statement (.sel cc d a b) := fun _ => ⟨_, _, rfl⟩
theorem Encodable.mov (d a : Reg) : Encodable.Statement (.mov d a) := fun _ => ⟨_, _, rfl⟩
theorem Encodable.movi (ty : BitVec 2) (d : Reg) (imm : BitVec 20) : Encodable.Statement (.movi ty d imm) := fun _ => ⟨_, _, rfl⟩
theorem Encodable.movl (ty : BitVec 2) (d : Reg) (src : Src) : Encodable.Statement (.movl ty d src) := fun _ => ⟨_, _, rfl⟩
theorem Encodable.lea (d : Reg) (mem : Mem) : Encodable.Statement (.lea d mem) := fun _ => ⟨_, _, rfl⟩
theorem Encodable.b (br : Br) : Encodable.Statement (.b br) := fun _ => ⟨_, _, rfl⟩
theorem Encodable.bc (cc : BitVec 4) (br : Br) : Encodable.Statement (.bc cc br) := fun _ => ⟨_, _, rfl⟩
theorem Encodable.bz (d : Reg) (br : Br) : Encodable.Statement (.bz d br) := fun _ => ⟨_, _, rfl⟩
theorem Encodable.bnz (d : Reg) (br : Br) : Encodable.Statement (.bnz d br) := fun _ => ⟨_, _, rfl⟩
theorem Encodable.loop (d : Reg) (br : Br) : Encodable.Statement (.loop d br) := fun _ => ⟨_, _, rfl⟩
theorem Encodable.call (br : Br) : Encodable.Statement (.call br) := fun _ => ⟨_, _, rfl⟩
theorem Encodable.jmp (d : Reg) : Encodable.Statement (.jmp d) := fun _ => ⟨_, _, rfl⟩
theorem Encodable.ld (o : LdSt) : Encodable.Statement (.ld o) := fun _ => ⟨_, _, rfl⟩
theorem Encodable.ldTake (o : LdSt) : Encodable.Statement (.ldTake o) := fun _ => ⟨_, _, rfl⟩
theorem Encodable.st (o : LdSt) : Encodable.Statement (.st o) := fun _ => ⟨_, _, rfl⟩
theorem Encodable.stPut (o : LdSt) : Encodable.Statement (.stPut o) := fun _ => ⟨_, _, rfl⟩
theorem Encodable.stReset (o : LdSt) : Encodable.Statement (.stReset o) := fun _ => ⟨_, _, rfl⟩
theorem Encodable.ldp (d : Reg) (mem : Mem) : Encodable.Statement (.ldp d mem) := fun _ => ⟨_, _, rfl⟩
theorem Encodable.stp (d : Reg) (mem : Mem) : Encodable.Statement (.stp d mem) := fun _ => ⟨_, _, rfl⟩
theorem Encodable.movc (d : Reg) (num : BitVec 7) : Encodable.Statement (.movc d num) := fun _ => ⟨_, _, rfl⟩
theorem Encodable.movs (num : BitVec 7) (src : Src) : Encodable.Statement (.movs num src) := fun _ => ⟨_, _, rfl⟩
theorem Encodable.segld (d : SReg) (mem : Mem) : Encodable.Statement (.segld d mem) := fun _ => ⟨_, _, rfl⟩
theorem Encodable.segrd (hi : Bool) (d : Reg) (a : SReg) : Encodable.Statement (.segrd hi d a) := fun _ => ⟨_, _, rfl⟩
theorem Encodable.trap (imm : BitVec 20) : Encodable.Statement (.trap imm) := fun _ => ⟨_, _, rfl⟩
theorem Encodable.vld (o : VMem) : Encodable.Statement (.vld o) := fun _ => ⟨_, _, rfl⟩
theorem Encodable.vst (o : VMem) : Encodable.Statement (.vst o) := fun _ => ⟨_, _, rfl⟩
theorem Encodable.vlds (o : VMem) : Encodable.Statement (.vlds o) := fun _ => ⟨_, _, rfl⟩
theorem Encodable.vsts (o : VMem) : Encodable.Statement (.vsts o) := fun _ => ⟨_, _, rfl⟩
theorem Encodable.vgath (o : VMem) : Encodable.Statement (.vgath o) := fun _ => ⟨_, _, rfl⟩
theorem Encodable.vscat (o : VMem) : Encodable.Statement (.vscat o) := fun _ => ⟨_, _, rfl⟩
theorem Encodable.vbcast (fmt : BitVec 5) (pm : PReg) (d : VReg) (src : Src) : Encodable.Statement (.vbcast fmt pm d src) := fun _ => ⟨_, _, rfl⟩
theorem Encodable.vmovgToG (fmt : BitVec 5) (d : Reg) (a : VReg) (b : Reg) : Encodable.Statement (.vmovgToG fmt d a b) := fun _ => ⟨_, _, rfl⟩
theorem Encodable.vmovgToV (fmt : BitVec 5) (d : VReg) (a b : Reg) : Encodable.Statement (.vmovgToV fmt d a b) := fun _ => ⟨_, _, rfl⟩
theorem Encodable.vadd (o : V2) : Encodable.Statement (.vadd o) := fun _ => ⟨_, _, rfl⟩
theorem Encodable.vsub (o : V2) : Encodable.Statement (.vsub o) := fun _ => ⟨_, _, rfl⟩
theorem Encodable.vmul (o : V2) : Encodable.Statement (.vmul o) := fun _ => ⟨_, _, rfl⟩
theorem Encodable.vfma (o : VB) : Encodable.Statement (.vfma o) := fun _ => ⟨_, _, rfl⟩
theorem Encodable.vfms (o : VB) : Encodable.Statement (.vfms o) := fun _ => ⟨_, _, rfl⟩
theorem Encodable.vdiv (o : V2) : Encodable.Statement (.vdiv o) := fun _ => ⟨_, _, rfl⟩
theorem Encodable.vmax (o : V2) : Encodable.Statement (.vmax o) := fun _ => ⟨_, _, rfl⟩
theorem Encodable.vmin (o : V2) : Encodable.Statement (.vmin o) := fun _ => ⟨_, _, rfl⟩
theorem Encodable.vabs (o : V1) : Encodable.Statement (.vabs o) := fun _ => ⟨_, _, rfl⟩
theorem Encodable.vneg (o : V1) : Encodable.Statement (.vneg o) := fun _ => ⟨_, _, rfl⟩
theorem Encodable.vcps (o : VB) : Encodable.Statement (.vcps o) := fun _ => ⟨_, _, rfl⟩
theorem Encodable.vrcp (o : V1) : Encodable.Statement (.vrcp o) := fun _ => ⟨_, _, rfl⟩
theorem Encodable.vrsq (o : V1) : Encodable.Statement (.vrsq o) := fun _ => ⟨_, _, rfl⟩
theorem Encodable.vsqrt (o : V1) : Encodable.Statement (.vsqrt o) := fun _ => ⟨_, _, rfl⟩
theorem Encodable.vexp2 (o : V1) : Encodable.Statement (.vexp2 o) := fun _ => ⟨_, _, rfl⟩
theorem Encodable.vlog2 (o : V1) : Encodable.Statement (.vlog2 o) := fun _ => ⟨_, _, rfl⟩
theorem Encodable.vsin (o : V1) : Encodable.Statement (.vsin o) := fun _ => ⟨_, _, rfl⟩
theorem Encodable.vcos (o : V1) : Encodable.Statement (.vcos o) := fun _ => ⟨_, _, rfl⟩
theorem Encodable.vtanh (o : V1) : Encodable.Statement (.vtanh o) := fun _ => ⟨_, _, rfl⟩
theorem Encodable.verf (o : V1) : Encodable.Statement (.verf o) := fun _ => ⟨_, _, rfl⟩
theorem Encodable.specialFunctionResult (r : SlotRef) : Encodable.Statement (.specialFunctionResult r) := nofun
theorem Encodable.viadd (o : V2) : Encodable.Statement (.viadd o) := fun _ => ⟨_, _, rfl⟩
theorem Encodable.visub (o : V2) : Encodable.Statement (.visub o) := fun _ => ⟨_, _, rfl⟩
theorem Encodable.vimul (o : V2) : Encodable.Statement (.vimul o) := fun _ => ⟨_, _, rfl⟩
theorem Encodable.vimax (o : V2) : Encodable.Statement (.vimax o) := fun _ => ⟨_, _, rfl⟩
theorem Encodable.vimin (o : V2) : Encodable.Statement (.vimin o) := fun _ => ⟨_, _, rfl⟩
theorem Encodable.vand (o : V2) : Encodable.Statement (.vand o) := fun _ => ⟨_, _, rfl⟩
theorem Encodable.vor (o : V2) : Encodable.Statement (.vor o) := fun _ => ⟨_, _, rfl⟩
theorem Encodable.vxor (o : V2) : Encodable.Statement (.vxor o) := fun _ => ⟨_, _, rfl⟩
theorem Encodable.vshl (o : V2) : Encodable.Statement (.vshl o) := fun _ => ⟨_, _, rfl⟩
theorem Encodable.vshr (o : V2) : Encodable.Statement (.vshr o) := fun _ => ⟨_, _, rfl⟩
theorem Encodable.vsar (o : V2) : Encodable.Statement (.vsar o) := fun _ => ⟨_, _, rfl⟩
theorem Encodable.vclz (o : V1) : Encodable.Statement (.vclz o) := fun _ => ⟨_, _, rfl⟩
theorem Encodable.vctz (o : V1) : Encodable.Statement (.vctz o) := fun _ => ⟨_, _, rfl⟩
theorem Encodable.vpopc (o : V1) : Encodable.Statement (.vpopc o) := fun _ => ⟨_, _, rfl⟩
theorem Encodable.vcmp (pr : BitVec 4) (fmt : BitVec 5) (d : PReg) (a : VReg) (src : Src) : Encodable.Statement (.vcmp pr fmt d a src) := fun _ => ⟨_, _, rfl⟩
theorem Encodable.vsel (o : VB) : Encodable.Statement (.vsel o) := fun _ => ⟨_, _, rfl⟩
theorem Encodable.vclass (o : V1) : Encodable.Statement (.vclass o) := fun _ => ⟨_, _, rfl⟩
theorem Encodable.vpres (fmt : BitVec 5) (d : PReg) (a : VReg) : Encodable.Statement (.vpres fmt d a) := fun _ => ⟨_, _, rfl⟩
theorem Encodable.vfilla (o : V1) : Encodable.Statement (.vfilla o) := fun _ => ⟨_, _, rfl⟩
theorem Encodable.vcvt (o : Cvt) : Encodable.Statement (.vcvt o) := fun _ => ⟨_, _, rfl⟩
theorem Encodable.vpack (o : Cvt) : Encodable.Statement (.vpack o) := fun _ => ⟨_, _, rfl⟩
theorem Encodable.vunpk (o : Cvt) : Encodable.Statement (.vunpk o) := fun _ => ⟨_, _, rfl⟩
theorem Encodable.vscale (inv : Bool) (f : BitVec 4) (d a : VReg) (b : Reg) : Encodable.Statement (.vscale inv f d a b) := fun _ => ⟨_, _, rfl⟩
theorem Encodable.vred (o : Red) : Encodable.Statement (.vred o) := fun _ => ⟨_, _, rfl⟩
theorem Encodable.vscan (o : Red) : Encodable.Statement (.vscan o) := fun _ => ⟨_, _, rfl⟩
theorem Encodable.vperm (o : VB) : Encodable.Statement (.vperm o) := fun _ => ⟨_, _, rfl⟩
theorem Encodable.vrot (o : V2) : Encodable.Statement (.vrot o) := fun _ => ⟨_, _, rfl⟩
theorem Encodable.vzip (o : Zip) : Encodable.Statement (.vzip o) := fun _ => ⟨_, _, rfl⟩
theorem Encodable.vuzp (o : Zip) : Encodable.Statement (.vuzp o) := fun _ => ⟨_, _, rfl⟩
theorem Encodable.vsort (asc : Bool) (fmt : BitVec 5) (d a : VReg) : Encodable.Statement (.vsort asc fmt d a) := fun _ => ⟨_, _, rfl⟩
theorem Encodable.vtopk (asc : Bool) (fmt : BitVec 5) (d a : VReg) (src : Src) : Encodable.Statement (.vtopk asc fmt d a src) := fun _ => ⟨_, _, rfl⟩
theorem Encodable.vmrgk (asc : Bool) (fmt : BitVec 5) (d a b : VReg) : Encodable.Statement (.vmrgk asc fmt d a b) := fun _ => ⟨_, _, rfl⟩
theorem Encodable.vselgt (o : V2) : Encodable.Statement (.vselgt o) := fun _ => ⟨_, _, rfl⟩
theorem Encodable.vselge (o : V2) : Encodable.Statement (.vselge o) := fun _ => ⟨_, _, rfl⟩
theorem Encodable.vcompr (o : V1) : Encodable.Statement (.vcompr o) := fun _ => ⟨_, _, rfl⟩
theorem Encodable.vrand (fmt : BitVec 5) (pm : PReg) (d : VReg) (a : Reg) : Encodable.Statement (.vrand fmt pm d a) := fun _ => ⟨_, _, rfl⟩
theorem Encodable.rand (d a : Reg) : Encodable.Statement (.rand d a) := fun _ => ⟨_, _, rfl⟩
theorem Encodable.rngreg (a b : Reg) : Encodable.Statement (.rngreg a b) := fun _ => ⟨_, _, rfl⟩
theorem Encodable.seedRegistryRequest (q : SeedReq) : Encodable.Statement (.seedRegistryRequest q) := nofun
theorem Encodable.sdset (d : BitVec 2) (mem : Mem) : Encodable.Statement (.sdset d mem) := fun _ => ⟨_, _, rfl⟩
theorem Encodable.sdon (write : Bool) (d : BitVec 4) (a : BitVec 2) : Encodable.Statement (.sdon write d a) := fun _ => ⟨_, _, rfl⟩
theorem Encodable.sdoff (d : BitVec 4) : Encodable.Statement (.sdoff d) := fun _ => ⟨_, _, rfl⟩
theorem Encodable.rep (imm : BitVec 20) : Encodable.Statement (.rep imm) := fun _ => ⟨_, _, rfl⟩
theorem Encodable.repx (len : BitVec 5) (a : Reg) : Encodable.Statement (.repx len a) := fun _ => ⟨_, _, rfl⟩
theorem Encodable.fmtld (place : BitVec 3) (mem : Mem) : Encodable.Statement (.fmtld place mem) := fun _ => ⟨_, _, rfl⟩
theorem Encodable.fmtsel (d : BitVec 2) (src : RegImm) : Encodable.Statement (.fmtsel d src) := fun _ => ⟨_, _, rfl⟩
theorem Encodable.join (o : LatMem) : Encodable.Statement (.join o) := fun _ => ⟨_, _, rfl⟩
theorem Encodable.joinf (jt : BitVec 7) (d b : Reg) (mem : MemR) : Encodable.Statement (.joinf jt d b mem) := fun _ => ⟨_, _, rfl⟩
theorem Encodable.lth (o : Lth) : Encodable.Statement (.lth o) := fun _ => ⟨_, _, rfl⟩
theorem Encodable.ldf (o : LatMem) : Encodable.Statement (.ldf o) := fun _ => ⟨_, _, rfl⟩
theorem Encodable.freeze (b : Reg) (mem : MemR) : Encodable.Statement (.freeze b mem) := fun _ => ⟨_, _, rfl⟩
theorem Encodable.plot (b : Reg) (mem : MemR) : Encodable.Statement (.plot b mem) := fun _ => ⟨_, _, rfl⟩
theorem Encodable.fillt (n : BitVec 4) (fmt : BitVec 5) (k : SReg) (b : Reg) (mem : MemR) : Encodable.Statement (.fillt n fmt k b mem) := fun _ => ⟨_, _, rfl⟩
theorem Encodable.ldt (n : BitVec 4) (b : Reg) (mem : MemR) : Encodable.Statement (.ldt n b mem) := fun _ => ⟨_, _, rfl⟩
theorem Encodable.ldtAddr (n : BitVec 4) (k : SReg) (b : Reg) (mem : MemR) : Encodable.Statement (.ldtAddr n k b mem) := fun _ => ⟨_, _, rfl⟩
theorem Encodable.npub (o : NamOp) : Encodable.Statement (.npub o) := fun _ => ⟨_, _, rfl⟩
theorem Encodable.nwant (tag : Tag) (o : NamOp) : Encodable.Statement (.nwant tag o) := fun _ => ⟨_, _, rfl⟩
theorem Encodable.nclose (a : Reg) (t : RegImm) : Encodable.Statement (.nclose a t) := fun _ => by cases t <;> exact ⟨_, _, rfl⟩
theorem Encodable.ntensCreate (d : Reg) (mem : Mem) : Encodable.Statement (.ntensCreate d mem) := fun _ => ⟨_, _, rfl⟩
theorem Encodable.ntensDelete (d : Reg) (mem : Mem) : Encodable.Statement (.ntensDelete d mem) := fun _ => ⟨_, _, rfl⟩
theorem Encodable.jfence (scope : BitVec 3) : Encodable.Statement (.jfence scope) := fun _ => ⟨_, _, rfl⟩
theorem Encodable.copy (tag : Tag) (nj : Bool) (nseg sseg : SReg) (b : Reg) (mem : MemR) : Encodable.Statement (.copy tag nj nseg sseg b mem) := fun _ => ⟨_, _, rfl⟩
theorem Encodable.copyt (tag : Tag) (mem : MemR) : Encodable.Statement (.copyt tag mem) := fun _ => ⟨_, _, rfl⟩
theorem Encodable.copyd (tag : Tag) (mem : MemR) : Encodable.Statement (.copyd tag mem) := fun _ => ⟨_, _, rfl⟩
theorem Encodable.copya (tag : Tag) (k : SReg) (b : Reg) (t : BitVec 64) (mem : MemR) : Encodable.Statement (.copya tag k b t mem) := fun _ => ⟨_, _, rfl⟩
theorem Encodable.waitany (d : Reg) (m : RegImm) : Encodable.Statement (.waitany d m) := fun _ => ⟨_, _, rfl⟩
theorem Encodable.waitall (d : Reg) (m : RegImm) : Encodable.Statement (.waitall d m) := fun _ => ⟨_, _, rfl⟩
theorem Encodable.fready (d a : Reg) : Encodable.Statement (.fready d a) := fun _ => ⟨_, _, rfl⟩
theorem Encodable.freadyCode (d a : Reg) : Encodable.Statement (.freadyCode d a) := fun _ => ⟨_, _, rfl⟩
theorem Encodable.tclr (m : RegImm) : Encodable.Statement (.tclr m) := fun _ => ⟨_, _, rfl⟩
theorem Encodable.spawn (mem : Mem) : Encodable.Statement (.spawn mem) := fun _ => ⟨_, _, rfl⟩
theorem Encodable.chset (a b : Reg) : Encodable.Statement (.chset a b) := fun _ => ⟨_, _, rfl⟩
theorem Encodable.chblk (a : Reg) : Encodable.Statement (.chblk a) := fun _ => ⟨_, _, rfl⟩
theorem Encodable.chunb (a : Reg) : Encodable.Statement (.chunb a) := fun _ => ⟨_, _, rfl⟩
theorem Encodable.capnew (d a : Reg) : Encodable.Statement (.capnew d a) := fun _ => ⟨_, _, rfl⟩
theorem Encodable.capstep (a b : Reg) : Encodable.Statement (.capstep a b) := fun _ => ⟨_, _, rfl⟩
theorem Encodable.capins (a : Reg) (step : RegLit) : Encodable.Statement (.capins a step) := fun _ => ⟨_, _, rfl⟩
theorem Encodable.capdel (i : RegImm) : Encodable.Statement (.capdel i) := fun _ => ⟨_, _, rfl⟩
theorem Encodable.capredir (a : Reg) (place : RegLit) : Encodable.Statement (.capredir a place) := fun _ => ⟨_, _, rfl⟩
theorem Encodable.caprd (d : Reg) (sel : RegImm) : Encodable.Statement (.caprd d sel) := fun _ => ⟨_, _, rfl⟩
theorem Encodable.mzero (c : Acc) : Encodable.Statement (.mzero c) := fun _ => ⟨_, _, rfl⟩
theorem Encodable.mma (o : MmaOp) : Encodable.Statement (.mma o) := fun _ => ⟨_, _, rfl⟩
theorem Encodable.mmah (o : MmaOp) : Encodable.Statement (.mmah o) := fun _ => ⟨_, _, rfl⟩
theorem Encodable.mhoop (seg : SReg) (mf : BitVec 3) (a b : Reg) : Encodable.Statement (.mhoop seg mf a b) := fun _ => ⟨_, _, rfl⟩
theorem Encodable.mdrain (norm : Bool) (code : BitVec 4) (c : Acc) (mem : Mem) : Encodable.Statement (.mdrain norm code c mem) := fun _ => ⟨_, _, rfl⟩
theorem Encodable.mdrainp (c : Acc) (b : Reg) (mem : MemR) : Encodable.Statement (.mdrainp c b mem) := fun _ => ⟨_, _, rfl⟩
theorem Encodable.macc (c : Acc) (b : Reg) (mem : MemR) : Encodable.Statement (.macc c b mem) := fun _ => ⟨_, _, rfl⟩
theorem Encodable.mpri (p : BitVec 2) : Encodable.Statement (.mpri p) := fun _ => ⟨_, _, rfl⟩
theorem Encodable.thresh (tag : Tag) (k : SReg) (b c e : Reg) (opts : BitVec 64) (mem : MemR) : Encodable.Statement (.thresh tag k b c e opts mem) := fun _ => ⟨_, _, rfl⟩
theorem Encodable.gjoin (h : RegImm) : Encodable.Statement (.gjoin h) := fun _ => ⟨_, _, rfl⟩
theorem Encodable.gleave (h : RegImm) : Encodable.Statement (.gleave h) := fun _ => ⟨_, _, rfl⟩
theorem Encodable.gbar (h : RegImm) : Encodable.Statement (.gbar h) := fun _ => ⟨_, _, rfl⟩
theorem Encodable.gcon (op : BitVec 4) (fmt : BitVec 5) (a b : Reg) : Encodable.Statement (.gcon op fmt a b) := fun _ => ⟨_, _, rfl⟩
theorem Encodable.grecv (d a : Reg) : Encodable.Statement (.grecv d a) := fun _ => ⟨_, _, rfl⟩
theorem Encodable.gstat (d a : Reg) : Encodable.Statement (.gstat d a) := fun _ => ⟨_, _, rfl⟩
theorem Encodable.matrixKstep (core : Nat) : Encodable.Statement (.matrixKstep core) := nofun
theorem Encodable.hoopLatchMove (core : Nat) : Encodable.Statement (.hoopLatchMove core) := nofun
theorem Encodable.hoopChunkSend (core : Nat) : Encodable.Statement (.hoopChunkSend core) := nofun
theorem Encodable.maccSlotReady (core : Nat) (a : Answer) : Encodable.Statement (.maccSlotReady core a) := nofun
theorem Encodable.mailboxTake (core : Nat) : Encodable.Statement (.mailboxTake core) := nofun
theorem Encodable.copyComplete (core job : Nat) : Encodable.Statement (.copyComplete core job) := nofun
theorem Encodable.armFire (core job : Nat) (code : Option FaultCode) : Encodable.Statement (.armFire core job code) := nofun
theorem Encodable.thresherSort (q : SortReq) : Encodable.Statement (.thresherSort q) := nofun
theorem Encodable.budgetRefill (core : Nat) : Encodable.Statement (.budgetRefill core) := nofun
theorem Encodable.recordBind (cluster : Nat) : Encodable.Statement (.recordBind cluster) := nofun
theorem Encodable.spillReturn (die : Nat) : Encodable.Statement (.spillReturn die) := nofun
theorem Encodable.wakeAccept (r : SlotRef) : Encodable.Statement (.wakeAccept r) := nofun
theorem Encodable.translationWalk (q : WalkReq) : Encodable.Statement (.translationWalk q) := nofun
theorem Encodable.submissionFill (die : Nat) : Encodable.Statement (.submissionFill die) := nofun
theorem Encodable.lcountJoin (die : Nat) : Encodable.Statement (.lcountJoin die) := nofun
theorem Encodable.launchExpansion (die : Nat) : Encodable.Statement (.launchExpansion die) := nofun
theorem Encodable.launchCompletion (launch : Nat) : Encodable.Statement (.launchCompletion launch) := nofun
theorem Encodable.preemptTriggerArrival (die launch : Nat) : Encodable.Statement (.preemptTriggerArrival die launch) := nofun
theorem Encodable.contextSave (launch : Nat) : Encodable.Statement (.contextSave launch) := nofun
theorem Encodable.shootDownAck (die cluster : Nat) : Encodable.Statement (.shootDownAck die cluster) := nofun
theorem Encodable.discover (e : LinkEnd) (desc : BitVec 512) : Encodable.Statement (.discover e desc) := nofun
theorem Encodable.flitSend (e : LinkEnd) : Encodable.Statement (.flitSend e) := nofun
theorem Encodable.flitReceive (e : LinkEnd) (f : Flit) : Encodable.Statement (.flitReceive e f) := nofun
theorem Encodable.portRetrain (e : LinkEnd) : Encodable.Statement (.portRetrain e) := nofun
theorem Encodable.portsync (e : LinkEnd) (last : BitVec 16) : Encodable.Statement (.portsync e last) := nofun
theorem Encodable.storeData (p : StorePkt) : Encodable.Statement (.storeData p) := nofun
theorem Encodable.loadRequest (p : LoadPkt) : Encodable.Statement (.loadRequest p) := nofun
theorem Encodable.loadReply (p : WakePkt) : Encodable.Statement (.loadReply p) := nofun
theorem Encodable.joinPacket (p : JoinPkt) : Encodable.Statement (.joinPacket p) := nofun
theorem Encodable.valueCountRequest (p : CountPkt) : Encodable.Statement (.valueCountRequest p) := nofun
theorem Encodable.countRoundAnswer (ga : Word) : Encodable.Statement (.countRoundAnswer ga) := nofun
theorem Encodable.thresholdRegistration (p : RegPkt) : Encodable.Statement (.thresholdRegistration p) := nofun
theorem Encodable.exactRead (p : ExactPkt) : Encodable.Statement (.exactRead p) := nofun
theorem Encodable.plotRequest (p : PlotPkt) : Encodable.Statement (.plotRequest p) := nofun
theorem Encodable.freezeRequest (p : PlotPkt) : Encodable.Statement (.freezeRequest p) := nofun
theorem Encodable.closeRequest (p : ClosePkt) : Encodable.Statement (.closeRequest p) := nofun
theorem Encodable.nameResolution (p : NamePkt) : Encodable.Statement (.nameResolution p) := nofun
theorem Encodable.tensorTableWrite (p : TensorPkt) : Encodable.Statement (.tensorTableWrite p) := nofun
theorem Encodable.tileFill (p : FillPkt) : Encodable.Statement (.tileFill p) := nofun
theorem Encodable.interest (router : Nat) (child : Nat) (p : InterestPkt) : Encodable.Statement (.interest router child p) := nofun
theorem Encodable.tileDelivery (router : Nat) (p : DeliverPkt) : Encodable.Statement (.tileDelivery router p) := nofun
theorem Encodable.interestStall (router : Nat) (name : Word) : Encodable.Statement (.interestStall router name) := nofun
theorem Encodable.copyData (core job : Nat) (ga : Word) (bytes : List (Option Byte)) : Encodable.Statement (.copyData core job ga bytes) := nofun
theorem Encodable.acknowledgement (p : AckPkt) : Encodable.Statement (.acknowledgement p) := nofun
theorem Encodable.wake (p : WakePkt) : Encodable.Statement (.wake p) := nofun
theorem Encodable.neverAnswer (router : Nat) (p : DeliverPkt) : Encodable.Statement (.neverAnswer router p) := nofun
theorem Encodable.purge (router : Nat) (tensor : Nat) (lo hi : Nat) : Encodable.Statement (.purge router tensor lo hi) := nofun
theorem Encodable.waitingStoreRelease (store : Nat) (idx : Nat) : Encodable.Statement (.waitingStoreRelease store idx) := nofun
theorem Encodable.berthReservation (p : ReservePkt) : Encodable.Statement (.berthReservation p) := nofun
theorem Encodable.berthGrant (p : GrantPkt) : Encodable.Statement (.berthGrant p) := nofun
theorem Encodable.capsuleTransfer (p : CapsulePkt) : Encodable.Statement (.capsuleTransfer p) := nofun
theorem Encodable.gleanerBind (core : Nat) : Encodable.Statement (.gleanerBind core) := nofun
theorem Encodable.capsuleReturn (p : ReturnPkt) : Encodable.Statement (.capsuleReturn p) := nofun
theorem Encodable.channelChange (p : ChanPkt) : Encodable.Statement (.channelChange p) := nofun
theorem Encodable.shootDown (die cluster : Nat) : Encodable.Statement (.shootDown die cluster) := nofun
theorem Encodable.clusterSleep (cluster : Nat) : Encodable.Statement (.clusterSleep cluster) := nofun
theorem Encodable.clusterWake (cluster : Nat) : Encodable.Statement (.clusterWake cluster) := nofun
theorem Encodable.pressPacket (p : PressPkt) : Encodable.Statement (.pressPacket p) := nofun
theorem Encodable.pressDrainToken (gid : Nat) : Encodable.Statement (.pressDrainToken gid) := nofun
theorem Encodable.watchdog (gid : Nat) : Encodable.Statement (.watchdog gid) := nofun
theorem Encodable.faultRecordDrain (die : Nat) : Encodable.Statement (.faultRecordDrain die) := nofun
theorem Encodable.faultRecordOffer (die : Nat) : Encodable.Statement (.faultRecordOffer die) := nofun
theorem Encodable.fetch (r : SlotRef) : Encodable.Statement (.fetch r) := nofun
theorem Encodable.lsubmit (die : Nat) : Encodable.Statement (.lsubmit die) := nofun
theorem Encodable.lcmdPreempt (die slot : Nat) : Encodable.Statement (.lcmdPreempt die slot) := nofun
theorem Encodable.lcmdResume (die slot : Nat) : Encodable.Statement (.lcmdResume die slot) := nofun
theorem Encodable.lcmdTearDown (die slot : Nat) : Encodable.Statement (.lcmdTearDown die slot) := nofun
theorem Encodable.lcmdRelease (die slot : Nat) : Encodable.Statement (.lcmdRelease die slot) := nofun
theorem Encodable.dbggo (die : Nat) : Encodable.Statement (.dbggo die) := nofun
theorem Encodable.tsgo (die : Nat) : Encodable.Statement (.tsgo die) := nofun
theorem Encodable.eqbase (die : Nat) (v : Word) : Encodable.Statement (.eqbase die v) := nofun
theorem Encodable.eqsize (die : Nat) (v : Word) : Encodable.Statement (.eqsize die v) := nofun
theorem Encodable.eqhead (die : Nat) (v : Word) : Encodable.Statement (.eqhead die v) := nofun
theorem Encodable.cfqpop (die : Nat) (v : Word) : Encodable.Statement (.cfqpop die v) := nofun
theorem Encodable.fattr (v : Word) : Encodable.Statement (.fattr v) := nofun
theorem Encodable.repairCore (v : Word) : Encodable.Statement (.repairCore v) := nofun
theorem Encodable.repairDie (v : Word) : Encodable.Statement (.repairDie v) := nofun
theorem Encodable.repairSlice (v : Word) : Encodable.Statement (.repairSlice v) := nofun
theorem Encodable.repairPort (v : Word) : Encodable.Statement (.repairPort v) := nofun
theorem Encodable.repairWavelength (v : Word) : Encodable.Statement (.repairWavelength v) := nofun
theorem Encodable.faben (v : Word) : Encodable.Statement (.faben v) := nofun
theorem Encodable.snapctlTrigger (v : Word) : Encodable.Statement (.snapctlTrigger v) := nofun
theorem Encodable.controlRegisterWrite (ctl off : Nat) (v : Word) : Encodable.Statement (.controlRegisterWrite ctl off v) := nofun
theorem Encodable.hostRead (acc : BarAcc) (n : Nat) : Encodable.Statement (.hostRead acc n) := nofun
theorem Encodable.hostWrite (acc : BarAcc) (bytes : List Byte) : Encodable.Statement (.hostWrite acc bytes) := nofun
theorem Encodable.prespRetry (die : Nat) (seq : Nat) : Encodable.Statement (.prespRetry die seq) := nofun
theorem Encodable.prespDeny (die : Nat) (seq : Nat) : Encodable.Statement (.prespDeny die seq) := nofun
theorem Encodable.dieReset (die : Nat) : Encodable.Statement (.dieReset die) := nofun
theorem Encodable.stopInterface (die : Nat) : Encodable.Statement (.stopInterface die) := nofun
theorem Encodable.lockInterface (die : Nat) : Encodable.Statement (.lockInterface die) := nofun
theorem Encodable.startInterface (die : Nat) : Encodable.Statement (.startInterface die) := nofun
theorem Encodable.lerrRead (die : Nat) : Encodable.Statement (.lerrRead die) := nofun
theorem Encodable.uncorrectableError (ga : Word) (who : Option Requester) : Encodable.Statement (.uncorrectableError ga who) := nofun
theorem Encodable.junctionHot (die : Nat) : Encodable.Statement (.junctionHot die) := nofun
theorem Encodable.junctionCool (die : Nat) : Encodable.Statement (.junctionCool die) := nofun
theorem Encodable.junctionCritical (die : Nat) : Encodable.Statement (.junctionCritical die) := nofun
theorem Encodable.symbolWindow (w : Wave) (corrected : Nat) : Encodable.Statement (.symbolWindow w corrected) := nofun
theorem Encodable.lossOfSignal (w : Wave) : Encodable.Statement (.lossOfSignal w) := nofun
theorem Encodable.portTrained (e : LinkEnd) : Encodable.Statement (.portTrained e) := nofun
theorem Encodable.discoverTimeout (e : LinkEnd) : Encodable.Statement (.discoverTimeout e) := nofun
theorem Encodable.portFence (e : LinkEnd) : Encodable.Statement (.portFence e) := nofun
theorem Encodable.nop : Encodable.Statement .nop := fun _ => ⟨_, _, rfl⟩
theorem Encodable.ret : Encodable.Statement .ret := fun _ => ⟨_, _, rfl⟩
theorem Encodable.brk : Encodable.Statement .brk := fun _ => ⟨_, _, rfl⟩
theorem Encodable.snap : Encodable.Statement .snap := fun _ => ⟨_, _, rfl⟩
theorem Encodable.tend : Encodable.Statement .tend := fun _ => ⟨_, _, rfl⟩
theorem Encodable.capsend : Encodable.Statement .capsend := fun _ => ⟨_, _, rfl⟩
theorem Encodable.capdone : Encodable.Statement .capdone := fun _ => ⟨_, _, rfl⟩
theorem Encodable.packageFunctionReset : Encodable.Statement .packageFunctionReset := nofun
theorem Encodable.packageBoot : Encodable.Statement .packageBoot := nofun
theorem Encodable.scrub : Encodable.Statement .scrub := nofun
theorem Encodable.snapshotLatch : Encodable.Statement .snapshotLatch := nofun

end Sys2Proof.Laws
end

