-- ==== Sys2Proof/Tests/Slice0.lean ====
section
/-! SUPPORT. Small tests: an ill-formed term for each check, words written out from the spec's encodings, and a state and operands
that meet the hypotheses of each statement. -/

namespace Sys2Proof.Tests

open Sys2Proof.Machine

set_option Elab.async false

/-! ## Ill-formed terms (R153) -/

theorem test_wf_accepts : Instr.wf (.add ⟨.i, .s64, 1, 2, .rl64 5⟩) = true := by decide
theorem test_wf_type : Instr.wf (.add ⟨.w, .s64, 1, 2, .ri 5⟩) = false := by decide
theorem test_wf_literal_width : Instr.wf (.add ⟨.i, .s32, 1, 2, .rl64 5⟩) = false := by decide
theorem test_wf_shift_source : Instr.wf (.shl ⟨.i, .s64, 1, 2, .rl 5⟩) = false := by decide
theorem test_wf_abs_type : Instr.wf (.abs ⟨.n, .s64, 1, 2⟩) = false := by decide
theorem test_wf_field_past_63 : Instr.wf (.ext ⟨.i, .s64, 1, 2, .ri 0x07F⟩) = true ∧ Instr.wf (.ext ⟨.i, .s64, 1, 2, .ri 0x0BF⟩) = false := by decide
theorem test_wf_ins_type : Instr.wf (.ins ⟨.i, .s64, 1, 2, .ri 0x040⟩) = false := by decide
theorem test_wf_sext_width : Instr.wf (.sext ⟨.s64, 1, 2⟩) = false := by decide
theorem test_wf_cmp_destination : Instr.wf (.cmp ⟨.i, .s64, 1, 2, .ri 5⟩) = false := by decide
theorem test_wf_movi_type : Instr.wf (.movi 3 1 0) = false := by decide
theorem test_wf_movl_form : Instr.wf (.movl 1 1 (.rl64 0)) = false ∧ Instr.wf (.movl 0 1 (.ri 0)) = false := by decide
theorem test_wf_take_width : Instr.wf (.ldTake ⟨.i, .s32, 1, ⟨2, 0, .ms 0⟩⟩) = false := by decide
theorem test_wf_pair_register : Instr.wf (.ldp 3 ⟨2, 0, .ms 0⟩) = false := by decide
theorem test_wf_control_register : Instr.wf (.movc 1 0x0F) = false ∧ Instr.wf (.movs 4 (.rr 0)) = false := by decide
theorem test_wf_vector_format : Instr.wf (.vld ⟨20, 0, 0, ⟨2, 0, .ms 0⟩⟩) = false := by decide
theorem test_wf_gather_format : Instr.wf (.vgath ⟨1, 0, 0, ⟨2, 1, .ms 0⟩⟩) = false := by decide
theorem test_wf_float_format : Instr.wf (.vadd ⟨2, 0, 0, 1, .rr 2⟩) = false := by decide
theorem test_wf_vector_register : Instr.wf (.vadd ⟨13, 0, 0, 1, .rr 8⟩) = false := by decide
theorem test_wf_root_format : Instr.wf (.vrcp ⟨16, 0, 0, 1⟩) = false := by decide
theorem test_wf_integer_format : Instr.wf (.viadd ⟨13, 0, 0, 1, .rr 2⟩) = false := by decide
theorem test_wf_compare : Instr.wf (.vcmp 8 2 1 0 (.rr 2)) = false ∧ Instr.wf (.vcmp 0 2 0 0 (.rr 2)) = false := by decide
theorem test_wf_conversion : Instr.wf (.vcvt ⟨1, 2, 0, 1, 0⟩) = false ∧ Instr.wf (.vpack ⟨2, 1, 0, 1, 2⟩) = false ∧
    Instr.wf (.vunpk ⟨1, 2, 0, 1, 2⟩) = false := by decide
theorem test_wf_scale : Instr.wf (.vscale false 8 0 1 2) = false := by decide
theorem test_wf_reduction : Instr.wf (.vred ⟨2, 0, 4, 0, 1⟩) = false := by decide
theorem test_wf_sort_register : Instr.wf (.vsort false 2 1 2) = false := by decide
theorem test_wf_top_count : Instr.wf (.vtopk false 2 0 2 (.ri 0x1000)) = false := by decide
theorem test_wf_random_format : Instr.wf (.vrand 2 0 0 1) = false := by decide
theorem test_wf_stream_register : Instr.wf (.sdon false 5 0) = false := by decide
theorem test_wf_repetition : Instr.wf (.rep 0) = false ∧ Instr.wf (.repx 0 1) = false := by decide
theorem test_wf_table_place : Instr.wf (.fmtsel 3 (.imm 0)) = false ∧ Instr.wf (.fmtsel 0 (.imm 16)) = false := by decide
theorem test_wf_join_type : Instr.wf (.join ⟨0x08, 1, ⟨4, 0, .ms 0⟩⟩) = false ∧ Instr.wf (.joinf 0x65 1 2 ⟨4, 0, 0⟩) = false := by decide
theorem test_wf_threshold : Instr.wf (.lth ⟨3, 0, false, 6, 0, 1, none, ⟨4, 0, 0⟩⟩) = false ∧
    Instr.wf (.lth ⟨3, 0, false, 5, 1, 1, none, ⟨4, 0, 0⟩⟩) = false ∧ Instr.wf (.lth ⟨3, 0, true, 2, 0, 1, none, ⟨4, 0, 0⟩⟩) = false := by decide
theorem test_wf_tile_size : Instr.wf (.ldt 9 1 ⟨4, 0, 0⟩) = false ∧ Instr.wf (.npub ⟨9, 2, .reg 1, 2⟩) = false := by decide
theorem test_wf_copy_registers : Instr.wf (.copy 0 false 0 0 15 ⟨4, 0, 0⟩) = false ∧ Instr.wf (.copy 0 true 0 0 14 ⟨4, 0, 0⟩) = false := by decide
theorem test_wf_arm_threshold : Instr.wf (.copya 0 4 1 (BitVec.allOnes 64) ⟨4, 0, 0⟩) = false := by decide
theorem test_wf_immediate_mask : Instr.wf (.waitany 1 (.imm 0x10000)) = false ∧ Instr.wf (.capdel (.imm 16)) = false := by decide
theorem test_wf_matrix : Instr.wf (.mma ⟨false, 1, 7, 0, 1, .imm 1⟩) = false ∧ Instr.wf (.mma ⟨false, 1, 0, 0, 1, .imm 0⟩) = false ∧
    Instr.wf (.mmah ⟨true, 1, 0, 0, 1, .reg 2⟩) = false := by decide
theorem test_wf_drain_format : Instr.wf (.mdrain false 0 0 ⟨1, 9, .ms 0⟩) = false := by decide
theorem test_wf_sort_options : Instr.wf (.thresh 0 4 1 2 3 0 ⟨4, 0, 0⟩) = false := by decide
theorem test_wf_press_operator : Instr.wf (.gcon 9 2 1 2) = false ∧ Instr.wf (.gcon 0 13 1 2) = false ∧ Instr.wf (.grecv 3 1) = false := by decide
theorem test_wf_step : Instr.wf (.recordBind 0) = false := by decide

/-! ## Words of the spec (R147-R155) -/

theorem test_decode_add : decodeWord 0x3011 0x00005032 = some (.add ⟨.i, .s64, 1, 2, .ri 5⟩) := by decide +kernel
theorem test_decode_remainder : decodeWord 0x306A 0x00003079 = some (.rem ⟨.n, .s64, 10, 9, .ri 3⟩) := by decide +kernel
theorem test_decode_ctz : decodeWord 0x1162 0x0F0A = some (.ctz ⟨.s64, 2, 10⟩) := by decide +kernel
theorem test_decode_branch_lt : decodeWord 0x2262 0x20 = some (.bc 2 ⟨1, 0⟩) := by decide +kernel
theorem test_decode_branch_ne : decodeWord 0x2261 0x21 = some (.bc 1 ⟨1, 1⟩) := by decide +kernel
theorem test_decode_bz : decodeWord 0x227A 9 = some (.bz 10 ⟨0, 9⟩) := by decide +kernel
theorem test_decode_loop : decodeWord 0x229C 0xFFFFC6 = some (.loop 12 ⟨0x7FFFE, 6⟩) := by decide +kernel
theorem test_decode_call : decodeWord 0x22A0 0x49 = some (.call ⟨2, 9⟩) := by decide +kernel
theorem test_decode_take : decodeWord 0x32D1 0x413A = some (.ldTake ⟨.i, .s64, 1, ⟨4, 10, .ms 0⟩⟩) := by decide +kernel
theorem test_decode_put : decodeWord 0x32E1 0x413A = some (.stPut ⟨.i, .s64, 1, ⟨4, 10, .ms 0⟩⟩) := by decide +kernel
theorem test_decode_topk : decodeWord 0x37F4 0x009030D2 = some (.vtopk false 13 4 2 (.ri 0x903)) := by decide +kernel
theorem test_decode_bcast : decodeWord 0x3461 0x3E8000D0 = some (.vbcast 13 0 1 (.ri 0x3E800)) := by decide +kernel
theorem test_decode_join_ml : decodeWord 0x3A0C 0x0828467E = some (.join ⟨0x67, 12, ⟨4, 14, .ms 0x1050⟩⟩) := by decide +kernel
theorem test_decode_join_union : decodeWord 0x3A07 0x469E = some (.join ⟨0x69, 7, ⟨4, 14, .ms 0⟩⟩) := by decide +kernel
theorem test_decode_joinf : decodeWord 0x5A13 0x00001000000467C2 = some (.joinf 0x67 3 12 ⟨4, 2, 0x1000⟩) := by decide +kernel
theorem test_decode_lth : decodeWord 0x5A28 0x442BE = some (.lth ⟨1, 0, false, 2, 8, 11, none, ⟨4, 14, 0⟩⟩) := by decide +kernel
theorem test_decode_ldf : decodeWord 0x3A35 0x469E = some (.ldf ⟨0x69, 5, ⟨4, 14, .ms 0⟩⟩) := by decide +kernel
theorem test_decode_freeze : decodeWord 0x5A40 0x400CE = some (.freeze 12 ⟨4, 14, 0⟩) := by decide +kernel
theorem test_decode_capnew : decodeWord 0x1BA3 0x0006 = some (.capnew 3 6) := by decide +kernel
theorem test_decode_capstep : decodeWord 0x1BC0 0x0074 = some (.capstep 4 7) := by decide +kernel
theorem test_decode_capsend : decodeWord 0x0BB0 0 = some (.capsend) := by decide +kernel
theorem test_decode_npub : decodeWord 0x1A80 0x01ED = some (.npub ⟨0, 1, .reg 13, 14⟩) := by decide +kernel
theorem test_decode_ldt : decodeWord 0x5A70 0x1005C = some (.ldt 0 5 ⟨1, 12, 0⟩) := by decide +kernel
theorem test_decode_mma : decodeWord 0x3D10 0x1081 = some (.mma ⟨false, 1, 0, 0, 1, .imm 1⟩) := by decide +kernel
theorem test_decode_mdrain : decodeWord 0x3D40 0x1019 = some (.mdrain false 1 0 ⟨1, 9, .ms 0⟩) := by decide +kernel
/-- A reserved opcode, and a type ABS does not have (R153). -/
theorem test_decode_illegal : decodeWord 0x1081 0x0302 = some (.abs ⟨.i, .s64, 1, 2⟩) ∧ decodeWord 0x1081 0x0702 = none ∧ decodeWord 0x0FF0 0 = none := by decide +kernel

/-! ## States that meet the hypotheses of the statements

Each theorem named for a statement gives, clause by clause, a state and operands that meet the clause's hypotheses. -/

/-- Slot 0 of core 1, the first core that is no system core. -/
def r1 : SlotRef := ⟨0, 0, 1, 0⟩

/-- A task of launch 1: S2 and S3 are core-local, S4 to S6 name 64 KiB pages of global memory at 0x10000, 0x20000 and
0x30000, whose rights are in the segments. -/
def x1 : Slot := { Slot.empty with
  occupied := true, task := 1, launch := 1, pc := 2
  g := #v[0, 8, 64, 4088, 7, 9, 1, 2, 3, 4, 5, 6, 7, 8, 9, 10]
  cw := (Vector.replicate 8 (0 : Word)).set 0 0x8000000000002000
  s := #v[mkSeg 0x1000 false true false true 0, 0, mkSeg 0x1000 false false true true 0x1000, mkSeg 0x1000 false false false true 0x2000,
    mkSeg 0x10000 true false true true 0x10000, mkSeg 0x10000 true false true true 0x20000, 0, 0] }

/-- A launch whose record holds its number and its lanes, the lowest slot of its die, one die and one cluster. -/
def l1 : Launch where
  bytes := bytesOf 16 0 ++ bytesOf 2 1 ++ bytesOf 2 0 ++ bytesOf 4 8 ++ bytesOf 2 1 ++ bytesOf 4 0 ++ bytesOf 2 0 ++ List.replicate 992 0
  die := 0
  plotSlot := 0
  phase := .running
  count := 0
  faulted := false
  code := 0
  outstanding := 0
  saved := []
  laneStores := []
  laneGiven := []
  check := 0
  areaLen := 0
  plots := []
  tensors := []
  tables := []
  windows := []
  repair := false
  lostDie := false
  made := []
  posted := 0
  since := 0

/-- HBM frames of die 0: a private one and a lattice one, mapped at 0x10000 and 0x20000. -/
def frameA : Nat := hbmKey 0 0x100000
def frameB : Nat := hbmKey 0 0x110000
def port1 : Port := ⟨[⟨1, 2, 0x10000, 7, frameA, false, 0⟩, ⟨1, 2, 0x20000, 7, frameB, true, 0⟩], [], [], false, false⟩

/-- The task issues the bundle at 2 and goes on at 4. -/
def w0 : State := { State.reset with
  slots := [(skey r1, x1)], launches := [(1, some l1)], ports := [(0, port1)], frameAttr := [(frameB / 2 ^ 16, 1)]
  dies := [(0, { Die.reset with inReset := false })], cores := [(1, { Core.reset with
    consts := [⟨1, false, 0x2000, localKey 1 0x2000, 0⟩, ⟨1, false, 0x2004, localKey 1 0x2004, 5⟩] })]
  mem := [(localKey 1 0x1008, 0x44), (localKey 1 0x2004, 5)]
  focus := ⟨r1, 2, 4, .done, none⟩ }

/-- `w0` with its slot changed. -/
def wx (f : Slot → Slot) : State := w0.modCur f

theorem test_w0_memory : Memory.wf w0.mem = true := by decide +kernel

/-- Every form of the second source at its widths: IntegerArithmetic, LogicAndShifts, BitOperations, ComparesAndMoves,
DivideAndRemainder, SpecialRegisters. -/
theorem test_operand_forms : Spec.operand w0 (.rr 15) 8 = some 10 ∧ Spec.operand w0 (.ri 0xFFFFF) 64 = some (-1) ∧ Spec.operand w0 (.rl 0x80000000) 32 = some (-0x80000000) ∧
    Spec.operand w0 (.rl64 (-1)) 64 = some (-1) ∧ Spec.operand w0 (.rk 0 1) 32 = some 5 ∧ Spec.operand w0 (.rk 0 0) 64 = some 0x500000000 := by
  decide +kernel

/-- A parked divide whose result has come. -/
def late1 : Late := .g 3 7 (some 0)
def park1 : Park := ⟨.div ⟨.i, .s64, 3, 1, .rr 2⟩, 2, .late late1, 0⟩

theorem test_DivideAndRemainder : let s := wx fun x => { x with parks := [park1] }
    Spec.operand w0 (.rr 2) 64 = some 64 ∧ (s.slot r1).parks = [park1] ∧ park1.cond = .late late1 ∧ isScalarLate late1 = true := by
  decide +kernel

/-- The last word of S2, and of the page that S4 maps. -/
theorem test_Loads : let o : LdSt := ⟨.i, .s64, 1, ⟨2, 3, .ms 0⟩⟩; let m : Mem := ⟨2, 0, .ms 0xFF0⟩
    Spec.near w0 o.mem 8 true false = some 0x1FF8 ∧ w0.hasUe (Spec.here w0 0x1FF8) 8 = none ∧
    Spec.near w0 m 16 true false = some 0x1FF0 ∧ w0.hasUe (Spec.here w0 0x1FF0) 16 = none ∧
    Spec.far w0 ⟨4, 0, .ms 0xFFF8⟩ 8 true false = some [(frameA + 0xFFF8, 8)] ∧
    Spec.far w0 ⟨4, 0, .ms 0xFFF0⟩ 16 true false = some [(frameA + 0xFFF0, 16)] := by decide +kernel

theorem test_Stores : Spec.near w0 ⟨2, 3, .ms 0⟩ 8 false true = some 0x1FF8 ∧ Spec.near w0 ⟨2, 0, .ms 0⟩ 16 false true = some 0x1000 ∧
    Spec.far w0 ⟨4, 0, .ms 0⟩ 1 false true = some [(frameA, 1)] ∧ Spec.far w0 ⟨4, 0, .ms 0x10⟩ 16 false true = some [(frameA + 16, 16)] := by
  decide +kernel

/-- A full word and an empty one, and a put that waits behind another word's. -/
def putWait : BankWait := ⟨0x1008, false, 9, requesterOf w0 r1, 1⟩
def takeWait : BankWait := ⟨0x1008, true, 0, requesterOf w0 r1, 2⟩

theorem test_Mailboxes : let m : Mem := ⟨2, 1, .ms 0⟩; let f := w0.setFull 1 0x1008 true
    let a := w0.modCore 1 fun c => { c with banks := [{ putWait with off := 0x1010 }, putWait] }
    let b := w0.modCore 1 fun c => { c with banks := [takeWait] }
    Spec.near w0 m 8 true false = some 0x1008 ∧ Spec.near w0 m 8 false true = some 0x1008 ∧ w0.hasUe (Spec.here w0 0x1008) 8 = none ∧
    f.full 1 0x1008 = true ∧ w0.full 1 0x1008 = false ∧ (w0.core 1).banks = [] ∧ (f.core 1).banks = [] ∧
    (a.core 1).banks = [{ putWait with off := 0x1010 }] ++ putWait :: [] ∧ isHere a putWait.req = true ∧
    (b.core 1).banks = [] ++ takeWait :: [] ∧ isHere b takeWait.req = true := by decide +kernel

/-- Values that the registers take, at the edges of their fields, and values they refuse; an image that SEGLD takes. -/
theorem test_SpecialRegisters : crReadable 0x1B = true ∧ crWritable 0x17 = true ∧ crWritable 0x18 = false ∧
    Spec.operand w0 (.ri 0xFF) 64 = some 0xFF ∧ Spec.operand w0 (.ri 0x100) 64 = some 0x100 ∧
    Spec.operand w0 (.rl64 0x00FFFFFF0000000D) 64 = some 0x00FFFFFF0000000D ∧ (0x00FFFFFF0000000D : Word) &&& 0xFF000000FFFFFFF0 = 0 ∧
    ((0x00FFFFFF0000000D : Word) &&& 7).toNat < 6 ∧ ((6 : Word) &&& 7).toNat = 6 ∧ (0x80FFFFFFFFFFFFFC : Word) &&& 0x7F00000000000003 = 0 ∧
    (let s := { w0 with mem := [(localKey 1 0x1018, 16)] };
      Spec.near s ⟨2, 0, .ms 0x10⟩ 16 true false = some 0x1010 ∧ s.hasUe (Spec.here s 0x1010) 16 = none ∧
      BitVec.ofNat 128 (s.loadNat (Spec.here s 0x1010) 16) = mkSeg 16 false false false false 0 ∧ isRepro s s.cur.launch = false) ∧
    Spec.far w0 ⟨4, 0, .ms 0⟩ 16 true false = some [(frameA, 16)] ∧ (wx fun x => { x with capsule := some 0 }).cur.capsule.isSome = true := by
  decide +kernel

theorem test_SpecialRegisters_image : Spec.imageAccepted (mkSeg 0x100 false false true true 0x5FF00) ∧
    Spec.imageAccepted (mkSeg 16 false false false false 0) ∧ ¬ Spec.imageAccepted (mkSeg 0x101 false false true true 0x5FF00) := by
  unfold Spec.imageAccepted; decide +kernel

/-- A launch that may be debugged. -/
def l2 : Launch := { l1 with bytes := patch l1.bytes 18 [2] }

theorem test_TrapBreakSnapNop : w0.launch w0.cur.launch = some l1 ∧ l1.debug = false ∧ (w0.setLaunch 1 l2).launch w0.cur.launch = some l2 ∧
    l2.debug = true ∧ Nat.testBit w0.snapEnable w0.me.die = false ∧ Nat.testBit ({ w0 with snapEnable := 1 } : State).snapEnable w0.me.die = true := by
  decide +kernel

/-! ## Vector registers and streams -/

/-- A stream over S2 of 20 elements of 32 bits, at its element 8: a register holds 12 of them and 4 absent codes. -/
def image1 : BitVec 256 := BitVec.ofNat 256 (2 ^ 63 + 2 * 2 ^ 56 + 13 * 2 ^ 51 + 4 * 2 ^ 64 + 20 * 2 ^ 128 + 2 ^ 160)

/-- `w0` with V6 read from one stream and V7 written to another, one mask, and values in V0 to V3. -/
def wv : State := wx fun x => { x with
  sd := #v[⟨image1, 8⟩, ⟨image1, 0⟩, ⟨0, 0⟩, ⟨0, 0⟩], bind6 := some ⟨false, 0⟩, bind7 := some ⟨true, 1⟩
  p := #v[0, 0xF0F0, 0, 0]
  v := #v[BitVec.ofNat 512 (0x3F800000 + 2 ^ 32 * 0x40000000 + 2 ^ 480 * 0x80000000), BitVec.ofNat 512 (5 + 2 ^ 32 * 0x40400000), 0, 7, 0, 0, 0, 0] }

/-- The hypotheses of a two-source statement at an instruction: `Spec.Vector2`. -/
def meets2 (top : Nat) (g : State → Nat → Nat → Nat → Nat → Elem) (s : State) (o : V2) : Bool :=
  let f := o.fmt.toNat
  decide (f < top) && Spec.usable s false f o.a && (match o.src with | .rr b => Spec.usable s false f (b.extractLsb' 0 3) | _ => true) &&
  Spec.usable s true f o.d &&
  match Spec.sources s f o.a o.src (Spec.active s o.pm f) with
  | some (x, y, t) => (Spec.push t f o.d fun j =>
      if activeIn (s.cur.getP o.pm) (fmtElems f) j then some (g s f j (x j) (y j)).bits else none).isSome
  | none => false

/-- Those of `Spec.VectorPair`. -/
def meetsPair (g : State → Nat → Nat → Nat → Nat → Elem) (s : State) (o : VB) : Bool :=
  let f := o.fmt.toNat
  Spec.usable s false f o.a && Spec.usable s false f o.b && Spec.usable s true f o.d &&
  match Spec.pop2 s f o.a o.b (Spec.active s o.pm f) with
  | some (x, y, t) => (Spec.push t f o.d fun j => if activeIn (s.cur.getP o.pm) (fmtElems f) j then
      some (g s f j (elemAt x (fmtWidth f) j) (elemAt y (fmtWidth f) j)).bits else none).isSome
  | none => false

/-- Those of `Spec.Vector1`. -/
def meets1 (g : State → Nat → Nat → Nat → Elem) (s : State) (o : V1) : Bool :=
  let f := o.fmt.toNat
  Spec.usable s false f o.a && Spec.usable s true f o.d &&
  match Spec.pop s f o.a (Spec.active s o.pm f) with
  | some (x, t) => (Spec.push t f o.d fun j => if activeIn (s.cur.getP o.pm) (fmtElems f) j then
      some (g s f j (elemAt x (fmtWidth f) j)).bits else none).isSome
  | none => false

/-- From registers, from a stream past its end to another, and with each constant; VFMA's own hypotheses. -/
theorem test_FloatingPoint :
    meets2 20 (Spec.float2 fun rdn x y => addVal rdn x y) wv ⟨13, 1, 2, 0, .rr 1⟩ = true ∧
    meets2 20 (Spec.float2 fun _ x y => mulVal x y) wv ⟨13, 0, 7, 6, .rr 6⟩ = true ∧
    meets2 20 (Spec.float2 fun rdn x y => addVal rdn x (negVal y)) wv ⟨13, 0, 2, 0, .ri 0x3F800⟩ = true ∧
    meets2 20 (Spec.extremum true) wv ⟨12, 0, 2, 0, .rl64 0⟩ = true ∧ meets2 20 (Spec.extremum false) wv ⟨13, 0, 2, 0, .rk 0 1⟩ = true ∧
    meets1 (Spec.float1 absVal) wv ⟨19, 0, 2, 0⟩ = true ∧
    meetsPair (Spec.float2 fun _ x y => mulVal x y) wv ⟨13, 0, 7, 6, 0⟩ = true ∧
    (wv.cur.binding 2).isNone = true ∧ (Spec.pop2 wv 13 6 0 (Spec.active wv 1 13)).isSome = true ∧ (wv.cur.binding 7).isSome = true := by decide +kernel

/-- A parked special function, and one whose destination is bound: its results are pushed at issue. -/
def late2 : Late := .v 3 7 0x20
def park2 : Park := ⟨.vrcp ⟨13, 0, 3, 0⟩, 2, .late late2, 0⟩

theorem test_SpecialValues : let s := wx fun x => { x with parks := [park2] }
    meets1 (Spec.float1 fun x => divVal (.num false 1 1) x) wv ⟨13, 0, 7, 0⟩ = true ∧
    meets2 20 (Spec.float2 fun _ x y => divVal x y) wv ⟨13, 0, 7, 0, .rr 1⟩ = true ∧ (wv.cur.binding 3).isNone = true ∧
    (s.slot r1).parks = [park2] ∧ park2.cond = .late (.v 3 7 0x20) := by decide +kernel

theorem test_VectorWords : meets2 12 (Spec.integer (· + ·)) wv ⟨2, 1, 7, 0, .rr 1⟩ = true ∧
    meets2 12 (Spec.integerExt true) wv ⟨11, 0, 2, 0, .rl64 5⟩ = true ∧ meets2 12 (Spec.bits fun _ x y => x &&& y) wv ⟨0, 0, 2, 0, .ri 5⟩ = true ∧
    (Spec.shiftSources wv 2 6 (.ri 0xFFFFF) (Spec.active wv 1 2)).isSome = true ∧ (Spec.shiftSources wv 2 0 (.rr 6) (Spec.active wv 1 2)).isSome = true ∧
    meets1 (Spec.bits1 fun w x => if x = 0 then w else w - 1 - Nat.log2 x.toNat) wv ⟨10, 1, 7, 6⟩ = true := by decide +kernel

/-- A source is popped and elements of a destination are pushed. -/
def moves (s : State) (f : Nat) (a d : VReg) (new : BitVec 512 → Nat → Option Nat) : Bool :=
  Spec.usable s false f a && Spec.usable s true f d &&
  match Spec.pop s f a Spec.every with
  | some (x, t) => (Spec.push t f d (new x)).isSome
  | none => false

/-- The hypotheses of `Spec.Converts` but the widths, which each row gives. -/
def meetsCvt (g : Cvt → Nat → Nat → Nat → Option Nat) (s : State) (o : Cvt) : Bool :=
  let sf := Spec.formatOf o.sf
  let df := Spec.formatOf o.df
  Spec.usable s false sf o.a && Spec.usable s true df o.d &&
  match Spec.pop s sf o.a Spec.every with
  | some (x, t) => (Spec.push t df o.d fun j => ((g o (fmtElems sf) (fmtElems df) j).map fun i =>
      Spec.converted df sf s j (elemAt x (fmtWidth sf) i)).map Elem.bits).isSome
  | none => false

/-- F32 to I32, the last part of F32 to F16, the first of I32 to F64; and widths that do not fit. -/
theorem test_Conversions : let a : Cvt := ⟨10, 1, 7, 6, 0⟩; let b : Cvt := ⟨2, 1, 2, 6, 1⟩; let c : Cvt := ⟨0, 10, 2, 1, 0⟩
    (fmtWidth (Spec.formatOf a.sf) = fmtWidth (Spec.formatOf a.df) ∧ meetsCvt (fun _ _ _ j => some j) wv a = true) ∧
    (2 * fmtWidth (Spec.formatOf b.df) ≤ fmtWidth (Spec.formatOf b.sf) ∧
      b.part.toNat + 1 = fmtWidth (Spec.formatOf b.sf) / fmtWidth (Spec.formatOf b.df) ∧
      meetsCvt (fun o es _ j => if o.part.toNat * es ≤ j ∧ j < (o.part.toNat + 1) * es then some (j - o.part.toNat * es) else none) wv b = true) ∧
    (2 * fmtWidth (Spec.formatOf c.sf) ≤ fmtWidth (Spec.formatOf c.df) ∧ meetsCvt (fun o _ ed j => some (o.part.toNat * ed + j)) wv c = true) ∧
    fmtWidth (Spec.formatOf b.sf) ≠ fmtWidth (Spec.formatOf b.df) ∧
    ¬ (2 * fmtWidth (Spec.formatOf a.df) ≤ fmtWidth (Spec.formatOf a.sf)) ∧ ¬ (2 * fmtWidth (Spec.formatOf a.sf) ≤ fmtWidth (Spec.formatOf a.df)) ∧
    moves wv 13 6 7 (fun x j => some (Spec.float wv 13 j [decodeVal 13 [] (elemAt x 32 j), scaleVal wv r1 1] fun _ =>
      mulVal (decodeVal 13 [] (elemAt x 32 j)) (scaleVal wv r1 1)).bits) = true := by decide +kernel

theorem test_Reductions : let o : Red := ⟨2, 0, 3, 7, 6⟩
    o.op.toNat < 4 ∧ moves wv 2 6 7 (fun x j => if j = 0 then some (reduce 2 3 wv 0 (Spec.inputs wv o x 16)).bits else none) = true ∧
    moves wv 2 6 7 (fun x j => some (reduce 2 3 wv j (Spec.inputs wv o x (j + 1))).bits) = true ∧ 4 ≤ (4#4).toNat ∧
    ([0x80000000, 0x80000000].filterMap (decodeInt 2) = []) ∧ ([5, 0x80000000].filterMap (decodeInt 2) ≠ []) := by decide +kernel

/-- The entry pairs (V0, V1) to (V2, V3), V0's and V1's as both runs of a merge too. -/
theorem test_VectorOrder :
    meetsPair (fun _ f _ x y => ⟨(x + y) % 2 ^ fmtWidth f, Sticky.none, false⟩) wv ⟨13, 1, 7, 6, 0⟩ = true ∧
    moves wv 13 6 7 (fun x j => some (elemAt x 32 (((j : Int) + (-1)) % (16 : Int)).toNat)) = true ∧
    ((0 : BitVec 3).toNat % 2 = 0 ∧ (2 : BitVec 3).toNat % 2 = 0) ∧ (∀ r ∈ [(0 : VReg), 0 + 1], Spec.usable wv false 13 r = true) ∧
    (∀ r ∈ [(2 : VReg), 2 + 1], Spec.usable wv true 13 r = true) ∧ (Spec.popPair wv 13 0).isSome = true ∧
    ((∀ e ∈ (Spec.popPair wv 13 0), (Spec.popPair e.2.2 13 2).isSome = true)) ∧
    ((0x10F#20).extractLsb' 0 8).toNat = 15 ∧ (wv.cur.getG 8).toNat = 3 ∧ (Spec.pushPair wv 13 2 []).isSome = true := by decide +kernel

theorem test_VectorSelections :
    (Spec.operands wv 13 6 (.rr 0) Spec.every).isSome = true ∧ (Spec.operands wv 13 6 (.ri 0x7FC00) Spec.every).isSome = true ∧ (7 : BitVec 4).toNat < 8 ∧ Spec.usable wv false 13 6 = true ∧
    meetsPair (fun _ _ _ x _ => ⟨x, Sticky.none, false⟩) wv ⟨13, 1, 7, 6, 0⟩ = true ∧
    meets1 (fun s f _ x => ⟨Spec.classify f (tabA s f) x, Sticky.none, false⟩) wv ⟨13, 0, 7, 6⟩ = true ∧
    moves wv 13 6 7 (fun x j => some (if activeIn (wv.cur.getP 1) 16 j then elemAt x 32 j else absentCode 13)) = true ∧
    (Spec.limit wv 13 (.ri 0x3F800)).isSome = true ∧
    moves wv 13 6 7 (fun x => Spec.packedLow 13 (((List.range 16).map (elemAt x 32)).filter fun c => decodeVal 13 [] c != .absent)) = true := by
  decide +kernel

/-- The first and the last elements of S2 and of the page of S4, one by one and past a mask. -/
theorem test_VectorMemory : let o : VMem := ⟨13, 1, 2, ⟨2, 3, .ms 0x1FFF8⟩⟩; let g : VMem := ⟨13, 0, 2, ⟨4, 0, .ms 0x40⟩⟩; let h : VMem := ⟨2, 0, 7, ⟨2, 0, .ms 0x40⟩⟩
    (let t := wv.modCur fun x => x.setP 1 1; Spec.touched t o true false (Spec.unitEa t o) = some [(0, 0x1FF0)]) ∧
    (Spec.touched wv g true false (Spec.unitEa wv g)).isSome = true ∧ (Spec.touched wv h false true (Spec.stridedEa wv h)).isSome = true ∧
    Spec.usable wv true 13 o.d = true ∧ (Spec.pop wv 13 1 (Spec.active wv 1 13)).isSome = true ∧
    (∀ ps ∈ Spec.touched wv g true false (Spec.unitEa wv g), (Spec.mapped wv (ps.map fun p => (p.2, 4)) 1 (some false)).isSome = true ∧
      (Spec.mapped wv (ps.map fun p => (p.2, 4)) 2 (some false)).isSome = true) ∧
    segSpace (wv.cur.getS 2) = false ∧ segSpace (wv.cur.getS 4) = true ∧
    (let v : VMem := ⟨2, 0, 3, ⟨2, 2, .ms 0⟩⟩;
      ∀ p ∈ Spec.offsets wv v, (Spec.touched p.2.2 v true false p.1).isSome = true ∧ (Spec.touched p.2.2 v false true p.1).isSome = true) ∧
    (Spec.offsets wv ⟨2, 0, 3, ⟨2, 2, .ms 0⟩⟩).isSome = true := by decide +kernel

theorem test_BroadcastMoveAndDraw : Spec.usable wv true 13 7 = true ∧ Spec.usable wv false 13 6 = true ∧
    (Spec.limit wv 13 (.ri 0x3F800)).isSome = true ∧ (Spec.push wv 13 7 fun j => if activeIn (wv.cur.getP 1) 16 j then some 0x3F800000 else none).isSome = true ∧
    (Spec.pop wv 13 6 Spec.every).isSome = true ∧ (Spec.push wv 13 7 fun j => if j = 15 then some 9 else none).isSome = true ∧
    (Spec.push wv 13 2 fun j => some (uniform 13 (hcm64 (seedOf wv 1) (BitVec.ofNat 64 j)))).isSome = true := by decide +kernel

/-! ## Streams, repetition, tables -/

/-- An image in local memory that SDSET takes, at 0x1040, and zeros that it does not, at 0x1000. -/
def ws : State := w0.stores (localKey 1 0x1040) (bytesOf 32 (image1.toNat - 2 ^ 63))

/-- A code line at 0 of four NOPs, one a bundle (R137, R138). -/
def wl : State := { w0 with mem := [(localKey 1 1, 0x20)] }

theorem test_StreamsAndRepetition :
    Spec.near ws ⟨2, 0, .ms 0x40⟩ 32 true false = some 0x1040 ∧ ws.hasUe (Spec.here ws 0x1040) 32 = none ∧
    BitVec.ofNat 256 (ws.loadNat (Spec.here ws 0x1040) 32) = BitVec.ofNat 256 (image1.toNat - 2 ^ 63) ∧
    Spec.near ws ⟨2, 0, .ms 0⟩ 32 true false = some 0x1000 ∧ Spec.far w0 ⟨4, 0, .ms 0xFFE0⟩ 32 true false = some [(frameA + 0xFFE0, 32)] ∧
    (wv.cur.getSd 0).image.getLsbD 63 = true ∧ (w0.cur.getSd 0).image.getLsbD 63 = false ∧ w0.cur.bind7 = none ∧ wv.cur.bind7 = some ⟨true, 1⟩ ∧
    ((0x21#20).extractLsb' 5 15).toNat = 1 ∧ ((0x1F#20).extractLsb' 5 15).toNat = 0 ∧ ((0x1F#20).extractLsb' 0 5).toNat = 31 ∧
    ((0xFFFE0#20).extractLsb' 0 5) = 0 ∧ ((w0.cur.getG 1).extractLsb' 0 32).toNat = 8 ∧ ((w0.cur.getG 0).extractLsb' 0 32).toNat = 0 := by
  decide +kernel

theorem test_StreamsAndRepetition_images : Spec.imageTaken (BitVec.ofNat 256 (image1.toNat - 2 ^ 63)) ∧ ¬ Spec.imageTaken 0 := by
  unfold Spec.imageTaken; decide +kernel

/-- A count of zero goes past a body that lies in one line, and a buffer at the first, a middle and the last bundle of a pass. -/
theorem test_StreamsAndRepetition_passes : (∃ t, skipBundles 2 4 wl = .ok (t, wl)) ∧
    (let r : Rep := ⟨true, 2, 0, 0, [], false⟩; r.act = true ∧ r.pos = r.body.length ∧ r.pos + 1 < r.len) ∧
    (let r : Rep := ⟨true, 1, 0, 3, [], false⟩; r.act = true ∧ r.pos = r.body.length ∧ r.pos + 1 = r.len ∧ 0 < r.left) ∧
    (let r : Rep := ⟨true, 1, 0, 0, [], true⟩; let x := { x1 with rep := r };
      r.act = true ∧ r.pos = r.body.length ∧ r.pos + 1 = r.len ∧ r.left = 0 ∧ x.parks = [] ∧ x.tending = false ∧ x.rep.due = true) := by
  refine ⟨⟨8, by decide +kernel⟩, ?_⟩; decide

/-- A table of zero and infinities, as the one byte of each entry that is not zero, in local memory at 0x1400. -/
def topByte (k : Nat) : Byte := if k = 0 then 0 else if k < 127 then 0x10 else if k = 127 then 0x20 else if k = 128 then 0x04 else if k < 255 then 0x14 else 0x30
def tableByte (i : Nat) : Byte := if i % 4 = 2 then topByte (i / 4) else 0
def memFrom (k : Nat) : Nat → Nat → SMap Byte
  | 0, _ => []
  | n + 1, i => (k + i, tableByte i) :: memFrom k n (i + 1)
def wt : State := { w0 with mem := memFrom (localKey 1 0x1400) 1024 0 }

theorem get_memFrom (k n : Nat) : ∀ i a, i ≤ a → a < i + n → SMap.get (memFrom k n i) 0 (k + a) = tableByte a := by
  induction n with
  | zero => intro i a h1 h2; omega
  | succ n ih =>
    intro i a h1 h2
    simp only [memFrom, SMap.get]
    by_cases h : i = a
    · subst h; simp
    · rw [if_neg (by omega)]; exact ih (i + 1) a (by omega) (by omega)

theorem loads_map (s : State) (f : Nat → Byte) (n : Nat) : ∀ k i, (∀ j < n, s.load (k + j) = f (i + j)) → s.loads k n = (List.range' i n).map f := by
  induction n with
  | zero => intro k i _; rfl
  | succ n ih =>
    intro k i h
    rw [List.range'_succ, List.map_cons, State.loads, show s.load k = f i from h 0 (by omega), ih (k + 1) (i + 1)]
    intro j hj
    have := h (j + 1) (by omega)
    rwa [show k + (j + 1) = k + 1 + j by omega, show i + (j + 1) = i + 1 + j by omega] at this

theorem load_wt (j : Nat) (hj : j < 1024) : wt.load (localKey 1 0x1400 + j) = tableByte j := by
  have h : granuleOf wt (localKey 1 0x1400 + j) = none := by
    unfold granuleOf
    rw [if_neg]
    unfold localOff localKey
    omega
  rw [State.load, h]
  exact get_memFrom _ _ 0 j (by omega) (by omega)

theorem table_word (k : Nat) (hk : k < 256) :
    natOf ((((List.range' 0 1024).map tableByte).drop (4 * k)).take 4) = 2 ^ 16 * (topByte k).toNat := by
  obtain ⟨m, hm⟩ : ∃ m, 1024 - 4 * k = m + 4 := ⟨1020 - 4 * k, by omega⟩
  rw [← List.map_drop, ← List.map_take, List.drop_range', hm]
  simp [List.range'_succ, tableByte, natOf, show (4 * k + 1 + 1) % 4 = 2 by omega, show (4 * k + 1 + 1) / 4 = k by omega,
    show (4 * k + 1 + 1 + 1) % 4 ≠ 2 by omega]
  omega

/-- It is accepted. -/
theorem test_TablesAndSeeds_table : let bs := wt.loads (Spec.here wt 0x1400) 1024
    tableOk ((List.range 256).map fun k => BitVec.ofNat 32 (natOf ((bs.drop (4 * k)).take 4))) = true := by
  dsimp only
  rw [show Spec.here wt 0x1400 = localKey 1 0x1400 from rfl, loads_map wt tableByte 1024 _ 0 fun j hj => by rw [Nat.zero_add]; exact load_wt j hj,
    List.map_congr_left fun k hk => by rw [table_word k (List.mem_range.mp hk)]]
  decide +kernel

/-- A table of zeros, which is refused; a registry with a free entry and a full one. -/
theorem test_TablesAndSeeds : let g := w0.cur.getS 2; let f := w0.cur.getS 4
    segOk g 0xC00 1024 true false = true ∧ segSpace g = false ∧ (segBase g + 0xC00) % 2 ^ 56 % 64 = 0 ∧ w0.hasUe (Spec.here w0 0x1C00) 1024 = none ∧
    segOk f 0xFC00 1024 true false = true ∧ segSpace f = true ∧ Spec.mapped w0 [(0x1FC00, 1024)] 1 (some false) = some [(frameA + 0xFC00, 1024)] ∧
    tableOk ((List.range 256).map fun _ => 0) = false ∧
    (0 : Word).toNat + (8 : Word).toNat ≤ 2 ^ 64 ∧ 2 ^ 64 < (-1 : Word).toNat + (2 : Word).toNat ∧
    (∀ k < 64, (SMap.get ((List.range 64).map fun k => (k, some (⟨0, 0, 1, 1⟩ : Seed))) none k).isSome = true) ∧
    SMap.get w0.seeds none 0 = none := by decide +kernel

/-! ## Joins, plots, tiles, fences and tags -/

/-- The first and the last location of the lattice page of S5, for each access; three triggers that differ. -/
theorem test_JoinsAndReads : let g := w0.cur.getS 5; let x := w0.cur
    Spec.lattice w0 g (Spec.eaOf w0 ⟨5, 0, .ms 0xFFF8⟩).toNat 8 8 false true = some [(frameB + 0xFFF8, 8)] ∧ fmtWidth (jtFmt 0x67) / 8 = 8 ∧
    Spec.lattice w0 g (Spec.eaOf w0 ⟨5, 0, .ms 0⟩).toNat 1 1 true false = some [(frameB, 1)] ∧ fmtWidth (jtFmt 0x00) / 8 = 1 ∧
    Spec.lattice w0 g (Spec.eaOfR w0 ⟨5, 1, 4⟩).toNat 4 4 true true = some [(frameB + 12, 4)] ∧
    Spec.lattice w0 g (Spec.eaOfR w0 ⟨5, 0, 0xFFF8⟩).toNat 8 8 true true = some [(frameB + 0xFFF8, 8)] ∧
    [x.getG 0, x.getG 1, x.getG 2].Nodup ∧ (5 : BitVec 3).toNat < 6 ∧ (2 : Reg).toNat % 2 = 0 ∧
    Spec.lattice w0 g (Spec.eaOfR w0 ⟨5, 0, 0⟩).toNat 8 8 true false = some [(frameB, 8)] ∧
    (0x66 : BitVec 7) ≠ 0x67 ∧ (0x07 : BitVec 7) ≠ 0x66 ∧ (0x07 : BitVec 7) ≠ 0x67 := by decide +kernel

/-- A descriptor of two plots with aligned tiles of 8 KiB, one of elements alone, and all 16 plots of a page to freeze. -/
theorem test_PlotAndFreeze : let g := w0.cur.getS 5
    (let v : Word := 0x1000D; v.extractLsb' 49 15 = 0 ∧ v.extractLsb' 5 3 = 0 ∧ 12 < (v.extractLsb' 0 5).toNat ∧
      (segBase g + 0) % 2 ^ 56 % 2 ^ (v.extractLsb' 0 5).toNat = 0 ∧ ((v.extractLsb' 16 16).toNat + 1) * 4096 % 2 ^ (v.extractLsb' 0 5).toNat = 0 ∧
      Spec.lattice w0 g 0 (((v.extractLsb' 16 16).toNat + 1) * 4096) 4096 false true = some [(frameB, 8192)]) ∧
    (let v : Word := 0; v.extractLsb' 49 15 = 0 ∧ v.extractLsb' 5 3 = 0 ∧ ¬ 12 < (v.extractLsb' 0 5).toNat ∧
      Spec.lattice w0 g 0xF000 4096 4096 false true = some [(frameB + 0xF000, 4096)]) ∧
    (16 : Word) ≠ 0 ∧ (65536 : Word).toNat ≤ 65536 ∧ Spec.lattice w0 g 0 (16 * 4096) 4096 false true = some [(frameB, 65536)] ∧
    w0.cur.getG 0 = 0 := by decide +kernel

/-- Tiles of 256 bytes and of 4 KiB, at the ends of their segments. -/
theorem test_TilesAndNames : let x := w0.cur
    Spec.lattice w0 (x.getS 5) 0xFF00 256 256 false true = some [(frameB + 0xFF00, 256)] ∧ Spec.localRange (x.getS 2) 0xF00 256 true false = some 0x1F00 ∧
    w0.hasUe (Spec.here w0 0x1F00) 256 = none ∧ Spec.localRange (x.getS 2) 0 4096 false true = some 0x1000 ∧
    Spec.lattice w0 (x.getS 5) 0xF000 4096 4096 true false = some [(frameB + 0xF000, 4096)] ∧ (8 : BitVec 4).toNat ≤ 8 ∧
    Spec.localRange (x.getS 2) 0 4096 true false = some 0x1000 ∧ x.tagBusy.getLsbD 15 = false ∧
    Spec.near w0 ⟨2, 0, .ms 0xFC0⟩ 64 true false = some 0x1FC0 ∧ w0.hasUe (Spec.here w0 0x1FC0) 64 = none ∧
    Spec.far w0 ⟨4, 0, .ms 0⟩ 64 true false = some [(frameA, 64)] := by decide +kernel

/-- Counters at zero and one above zero at the highest scope; tags that are SET, BUSY and neither. -/
theorem test_FencesAndTags : (∀ k, 2 ≤ k → k ≤ min (7 : BitVec 3).toNat 6 → w0.cur.unack.getD k 0 = 0) ∧ (1 : BitVec 3).toNat < 2 ∧ 2 ≤ (2 : BitVec 3).toNat ∧
    (wx fun x => { x with unack := x.unack.set 6 1 }).cur.unack.getD 6 0 ≠ 0 := by
  refine ⟨fun k h2 h6 => ?_, by decide, by decide, by decide +kernel⟩
  have : k < 7 := by have : min (7 : BitVec 3).toNat 6 = 6 := by decide
                     omega
  interval_cases k <;> decide +kernel

theorem test_FencesAndTags_tags : let z := (wx fun x => { x with tagSet := 1, tagBusy := 0x8000 }).cur
    z.tagSet &&& 0x8001 ≠ 0 ∧ (z.tagSet &&& 0x8000 = 0 ∧ z.tagBusy &&& 0x8000 ≠ 0) ∧ (z.tagSet &&& 2 = 0 ∧ z.tagBusy &&& 2 = 0) ∧
    z.tagSet &&& 1 = 1 ∧ (z.tagSet &&& 0x8001 ≠ 0x8001 ∧ (z.tagBusy ||| z.tagSet) &&& 0x8001 = 0x8001) ∧ (z.tagBusy ||| z.tagSet) &&& 3 ≠ 3 ∧
    z.tagBusy &&& 3 = 0 := by decide +kernel

/-! ## Copies, posted tasks, capsules -/

/-- Descriptors in local memory: COPYT's at 0x1000 (two rows of two 32-bit elements, pitch 8, from S4 to S2 at 0xFF0, notify S5
at 0xFFF8), COPYD's at 0x1040 (two blocks of 16 bytes to two destinations), COPYA's at 0x1080. -/
def wc : State :=
  let bs := bytesOf 32 0 ++ bytesOf 2 2 ++ bytesOf 2 2 ++ bytesOf 1 2 ++ bytesOf 1 0x24 ++ bytesOf 1 0x0B ++ bytesOf 1 0 ++ bytesOf 8 0xFFF8 ++
    bytesOf 8 0xFF0 ++ bytesOf 4 8 ++ bytesOf 4 0 ++
    bytesOf 8 0 ++ bytesOf 8 0xFE0 ++ bytesOf 8 16 ++ bytesOf 4 16 ++ bytesOf 4 2 ++ bytesOf 1 2 ++ bytesOf 1 0x24 ++ bytesOf 1 0x0B ++ bytesOf 5 0 ++
    bytesOf 8 0xFFF0 ++ bytesOf 8 8 ++ bytesOf 8 0 ++
    bytesOf 8 0 ++ bytesOf 8 0xFF0 ++ bytesOf 4 16 ++ bytesOf 1 0x24 ++ bytesOf 1 0x0B ++ bytesOf 2 0 ++ bytesOf 8 0xFFF8
  { w0 with mem := ((bs.zipIdx.map fun x => (localKey 1 0x1000 + x.2, x.1)).filter fun x => decide (x.2 ≠ 0)) }

theorem test_Copies : let x := (wx fun x => ((x.setG 4 0).setG 5 0x1000).setG 6 0xFFF8).cur
    (4 : Reg).toNat ≤ 13 ∧ x.tagBusy.getLsbD 15 = false ∧ (x.getG 5).toNat < 2 ^ 32 ∧ (x.getG 5).toNat ≠ 0 ∧
    segOk (x.getS 4) 0xF000 (x.getG 5).toNat false true = true ∧ segOk (x.getS 2) (x.getG 4).toNat (x.getG 5).toNat true false = true ∧
    segOk (x.getS 4) 0xFFFF 0 false true = true ∧ segOk (x.getS 2) 0 0 true false = true ∧ w0.cur.mailbox.length < 4 ∧
    (Spec.farDescriptor w0 (w0.cur.getS 4) 0xFFC0 64).isSome = true ∧ (Spec.farDescriptor w0 (w0.cur.getS 4) 0xFFE0 32).isSome = true := by
  decide +kernel

theorem test_Copies_notify : Spec.notifiable (w0.cur.getS 5) 0xFFF8 ∧ Spec.notifiable (w0.cur.getS 5) 0 := by
  unfold Spec.notifiable; decide +kernel

theorem test_Copies_tile : let x := wc.cur
    ∃ bs, Spec.descriptor wc (x.getS 2) 0 64 = some bs ∧ tileDescOk bs = true ∧ natOf ((bs.drop 37).take 1) / 16 = 2 ∧ natOf ((bs.drop 38).take 1) = 0x0B ∧
      natOf ((bs.drop 48).take 8) = 0xFF0 ∧ natOf ((bs.drop 40).take 8) = 0xFFF8 ∧ (2 - 1) * 8 + 2 * 4 = 16 ∧ segOk (x.getS 2) 0xFF0 16 false true = true :=
  ⟨wc.loads (localKey 1 0x1000) 64, by decide +kernel⟩

theorem test_Copies_deal : let x := wc.cur
    ∃ bs, Spec.descriptor wc (x.getS 2) 0x40 64 = some bs ∧ dealOk bs = true ∧ natOf ((bs.drop 33).take 1) = 0x24 ∧ natOf ((bs.drop 34).take 1) = 0x0B ∧
      segOk (x.getS 4) 0 32 true false = true ∧
      ∀ d < 2, segOk (x.getS 2) ((BitVec.ofNat 64 (natOf ((bs.drop 8).take 8)) + BitVec.ofNat 64 d * BitVec.ofNat 64 (natOf ((bs.drop 16).take 8))).toNat) 16
        false true = true :=
  ⟨wc.loads (localKey 1 0x1040) 64, by decide +kernel⟩

theorem test_Copies_deal_notify : Spec.notifiable (wc.cur.getS 5) (BitVec.ofNat 64 0xFFF0 + BitVec.ofNat 64 0 * BitVec.ofNat 64 8).toNat ∧
    Spec.notifiable (wc.cur.getS 5) (BitVec.ofNat 64 0xFFF0 + BitVec.ofNat 64 1 * BitVec.ofNat 64 8).toNat := by
  unfold Spec.notifiable; decide +kernel

theorem test_Copies_arm : let x := wc.cur
    ∃ bs, Spec.descriptor wc (x.getS 2) 0x80 32 = some bs ∧ segsOk (natOf ((bs.drop 20).take 1)) (natOf ((bs.drop 21).take 1)) = true ∧
      natOf ((bs.drop 22).take 2) = 0 ∧ segOk (x.getS 2) 0xFF0 16 false true = true ∧ segOk (x.getS 4) 0 16 true false = true ∧
      (0 : BitVec 64) ≠ BitVec.allOnes 64 ∧ Spec.lattice wc (x.getS 5) 0xFFF8 8 8 true false = some [(frameB + 0xFFF8, 8)] :=
  ⟨wc.loads (localKey 1 0x1080) 32, by decide +kernel⟩

/-- A queue with room, a full one, and a die whose overflow area is full too. -/
def rec1 : Record := ⟨2, 0, 0, 0, 0, 0, 0, 1, 0, 0⟩
def wq : State := w0.setQueue 0 (List.replicate 256 rec1)

theorem test_PostAndEnd : Spec.near w0 ⟨2, 0, .ms 0xFC0⟩ 64 true false = some 0x1FC0 ∧ w0.hasUe (Spec.here w0 0x1FC0) 64 = none ∧
    (∀ b ∈ (w0.seenBy (Spec.here w0 0x1FC0) 64).drop 58, b = 0) ∧ w0.launch w0.cur.launch = some l1 ∧
    spawnCluster w0 l1 0 = 0 ∧ (w0.queue 0).length < 256 ∧ (w0.die 0).spill = [] ∧
    Spec.far w0 ⟨4, 0, .ms 0⟩ 64 true false = some [(frameA, 64)] ∧ 256 ≤ (wq.queue 0).length ∧ (wq.die 0).spill.length < spillPlaces ∧
    ((leaveAll w0 w0.asker).slot w0.me).capsule = none ∧ ((leaveAll (wx fun x => { x with capsule := some 3 }) w0.asker).slot w0.me).capsule = some 3 := by
  decide +kernel

theorem test_PostAndEnd_full : let s := wq.modDie 0 fun d => { d with spill := List.replicate spillPlaces (0, rec1, 0) }
    256 ≤ (s.queue 0).length ∧ spillPlaces ≤ (s.die 0).spill.length := by
  refine ⟨?_, ?_⟩
  · decide +kernel
  · rw [State.modDie, State.die_setDie_self]
    exact List.length_replicate.ge

/-- A task with a capsule in berth 1, at its second of three steps, and a core without a free berth. -/
def wk : State := ((wx fun x => { x with capsule := some 1 }).stores (berthKey 1 1 + 26) [1, 3]).modCore 1 fun c => { c with berths := #v[.ready, .held, .free, .free] }

theorem test_CapsuleLife : w0.cur.capsule = none ∧ (16384 : Word).toNat ≤ 16384 ∧ (16384 : Word).toNat % 64 = 0 ∧ (0 : Word).toNat % 64 = 0 ∧
    (w0.core w0.me.coreKey).freeBerth = some 0 ∧ (wk.core wk.me.coreKey).freeBerth = some 2 ∧
    ((w0.modCore 1 fun c => { c with berths := Vector.replicate 4 .held }).core 1).freeBerth = none ∧ wk.cur.capsule.isSome = true ∧ 16384 < (16448 : Word).toNat ∧
    (1 : Word).toNat % 64 ≠ 0 := by decide +kernel

theorem test_CapsuleLife_hand : Spec.hand wk 1 1 3 ∧ Spec.hand (wk.stores (berthKey 1 1 + 26) [3]) 1 3 3 := by
  unfold Spec.hand; decide +kernel

/-- The task's own channel 0, a selector of the 15 bound cores of cluster 0, one of no bound core, and one with a reserved bit. -/
theorem test_ChannelsAndItineraries : let own : Word := 0x20000000; let all : Word := 0x1000000000; let sys : Word := 0
    selectorOk own = true ∧ selectorCores w0 w0.me own = [1] ∧ selectorOk all = true ∧ (selectorCores w0 w0.me all).length = 15 ∧
    (selectorCores w0 w0.me all).contains 1 = true ∧ selectorOk sys = true ∧ selectorCores w0 w0.me sys = [] ∧ selectorOk 1 = false ∧
    selectorCores w0 w0.me 0x4000000000 = [2] ∧ ((0x0F00000000000000 : Word).extractLsb' 56 4 ≠ 0) ∧
    (let s := w0.modCore 1 fun c => { c with channels := [(0, 1#128 <<< 63 ||| 2#128 <<< 64)] };
      chanValid (s.chan 1 0) = true ∧ chanLaunch (s.chan 1 0) ≠ s.cur.launch) ∧ chanValid (w0.chan 1 0) = false := by decide +kernel

/-- Indexes at the ends of the remaining steps, of the itinerary and of the header words. -/
theorem test_ChannelsAndItineraries_hand : Spec.hand wk 1 1 3 ∧ Spec.hand (wk.stores (berthKey 1 1 + 26) [11, 11]) 1 11 11 ∧
    Spec.hand (wk.stores (berthKey 1 1 + 26) [0, 12]) 1 0 12 ∧ ((0xFFFFFFF000000000 : Word).extractLsb' 0 36 = 0) ∧ (1 : Word).extractLsb' 0 36 ≠ 0 := by
  unfold Spec.hand; decide +kernel

/-! ## The matrix unit -/

/-- Operands of one k-step at the ends of S2: A at 0xF00 and B at 0; a latch that this task filled. -/
def wm : State := (wx fun x => { (x.setG 4 0xF00).setG 5 0x001000000000000 with hooped := true, c := [(256, 1#128 <<< 126)], started := #v[false, true] }).modCore 1
  fun c => { c with hoop := { c.hoop with owner := some 1, mf := 0, full := true, mask := 0x0006 } }

theorem test_MatrixIssue : let x := wm.cur; let g := x.getS 2
    (((1 : BitVec 12).toNat ≠ 0 ∧ ((x.getG 4).extractLsb' 0 19).toNat = 0xF00 ∧ ((x.getG 4).extractLsb' 32 19).toNat = 0 ∧
      16 * (1 * mfKs 0) * fmtWidth (mfFmt 0) / 8 = 256 ∧ segOk g 0xF00 256 true false = true ∧ segOk g 0 256 true false = true ∧ 0xF00 % 64 = 0) ∧
    (((x.getG 5).extractLsb' 52 12).toNat = 0 ∧ ((0x0020000000000000 : Word).extractLsb' 52 12).toNat = 2 ∧ 2 * mfKs 2 % 32 = 0)) ∧
    (wm.cur.hooped = true ∧ (wm.core 1).hoop.owner.isSome = true ∧ (wm.core 1).hoop.mf = 0) ∧ (0x0006 : BitVec 16).getLsbD wm.me.core = true ∧
    (∀ c < 16, (0x0006 : BitVec 16).getLsbD c = true → l1.binds wm (wm.me.clusterKey * 16 + c) = true) ∧ wm.launch wm.cur.launch = some l1 ∧
    256 * (fmtWidth (Spec.formatOf 2) / 8) = 512 ∧ segOk g 0xE00 512 false true = true ∧ (x.started[1]) = true ∧ (x.getC 1 0).getLsbD 126 = true ∧
    (x.started[0]) = false ∧ Spec.lattice wm (x.getS 5) 0xF000 4096 4096 false true = some [(frameB + 0xF000, 4096)] ∧ (4095 : Word).toNat ≤ 4095 ∧
    Spec.lattice wm (x.getS 5) 0 65536 4096 true false = some [(frameB, 65536)] ∧ (Spec.plots 0 [(frameB, 65536)]).length = 16 := by decide +kernel

theorem test_MatrixIssue_ranges : Spec.ranges (wm.cur.getS 2) false ([(0xF00, 256, 64), (0, 256, 64)] ++ if false then [(0, 16, 16), (0, 16, 16)] else []) ∧
    Spec.ranges (wm.cur.getS 2) true [(0xE00, 512, 64)] ∧ Spec.agrees wm 0 true ∧ Spec.agrees wm 1 true := by
  unfold Spec.ranges Spec.agrees; decide +kernel

/-- An empty element at its count's top, one of an integer tile at the edge of its range, one of a float tile. -/
theorem test_AccumulatorArithmetic : (accOf (1#128 <<< 126)).imode = true ∧ (accOf ((1#128 <<< 126) ||| BitVec.ofNat 128 (2 ^ 96 - 1))).value < 2 ^ 96 ∧
    (accOf 0).imode = false ∧ (accOf 0).value < 2 ^ 96 ∧ 0 < 1 := by decide +kernel

def op1 : MatOp := { MatOp.new .mma 0 1 with a := 0x1000, b := 0x1100, claimed := false }
/-- The unit of core 1 has finished a step of an operation. -/
def wu (o : MatOp) : State := { w0.modCore 1 fun c => { c with running := some o } with cycle := 16 }

theorem test_MatrixSteps_due : Spec.due (wu op1) 1 op1 ∧ Spec.due (wu { op1 with kind := .mmah }) 1 { op1 with kind := .mmah } ∧
    Spec.due (wu { op1 with kind := .mhoop }) 1 { op1 with kind := .mhoop } ∧ Spec.due (wu { op1 with kind := .mdrain }) 1 { op1 with kind := .mdrain } := by
  unfold Spec.due; decide +kernel

theorem test_MatrixSteps_clean : Spec.stepClean (wu op1) 1 op1 ∧ Spec.stepClean (wu { op1 with kind := .mmah }) 1 { op1 with kind := .mmah } := by
  unfold Spec.stepClean; decide +kernel

/-- The unit with a location that has an error, with a partial that has come, idle with and without an operation to take, and with a
chunk to send to a member whose INBOX is empty and to one whose INBOX is full. -/
def empty1 : Answer := ⟨5, none, 0, 0, 0, []⟩
def op2 : MatOp := { MatOp.new .macc 0 1 with answer := some empty1 }
def op3 : MatOp := { MatOp.new .mmah 0 2 with sending := true }
def wh : State := wm.modCore 1 fun c => { c with queue := [op3] }

theorem test_MatrixSteps : (wu { op1 with kind := .mhoop }).hasUe (localKey 1 op1.a) 256 = none ∧
    (match stepBytes (wu op1) 1 op1 none with | .ok _ => true | .error _ => false) = true ∧
    (let s := { wu op1 with ue := [(localKey 1 0x1000, true)] }; (match unitStep s 1 op1 with | .error (c, _) => c == .memUe | .ok _ => false) = true) ∧
    (match unitStep (wu op1) 1 op1 with | .ok _ => true | .error _ => false) = true ∧
    (op2.kind = .macc ∧ op2.answer = some empty1 ∧ empty1.code = none ∧ ∀ n < 256, emptyElem (accOf (BitVec.ofNat 128 (fieldOf empty1.bytes (16 * n) 16))) = true) ∧
    unitReady w0 1 = false ∧ (w0.core 1).running = none ∧ op1.tables = none ∧
    (let o := { op1 with claimed := true }; ((wu o).core 1).running = some o ∧ o.claimed = true ∧ ((wu o).die (dieOfCore 1)).hold = false) ∧
    (let s := w0.modCore 1 fun c => { c with queue := [op1] }; (s.core 1).running = none ∧ (s.core 1).queue.any (eligible s 1) = true) ∧
    ((wm.core 1).hoop.full = true ∧ (let s := w0.modCore 1 fun c => { c with hoop := { c.hoop with infull := true } };
      (s.core 1).hoop.full = false ∧ (s.core 1).hoop.infull = true)) ∧
    senderOp wh 1 = some op3 ∧ (wh.core (1 / 16 * 16 + nextMember (wh.core 1).hoop.mask (1 % 16))).hoop.infull = false ∧ op3.step + 1 ≠ op3.total ∧
    senderOp (wh.modCore 1 fun c => { c with queue := [{ op3 with step := 1 }] }) 1 = some { op3 with step := 1 } ∧
    ((wh.modCore 2 fun c => { c with hoop := { c.hoop with infull := true } }).core 2).hoop.infull = true ∧ senderOp w0 1 = none := by decide +kernel

/-! ## The Press -/

/-- Identifiers 0 to 15 are allotted: 0 has this task as its member, 1 is the root group, 2 is idle, 3 drains. -/
def l3 : Launch := { l1 with bytes := patch l1.bytes 40 [16] }
def outst1 : Outst := ⟨0, 2, 0, false, none, false⟩
def wp : State := { w0.setLaunch 1 l3 with groups :=
  [(0, { Group.reset with phase := 1, gen := 2, launch := 1, members := [requesterOf w0 r1] }), (1, { Group.reset with phase := 1, gen := 2, launch := 1, root := true }),
    (2, { Group.reset with gen := 2 }), (3, { Group.reset with phase := 2, gen := 2, launch := 1 })] }

theorem test_PressIssue_allotted : Spec.allotted wp 0x2000 ∧ Spec.allotted wp 0x200F ∧ ¬ Spec.allotted wp 0x2010 := by
  refine ⟨⟨l3, by decide +kernel⟩, ⟨l3, by decide +kernel⟩, fun ⟨l, h, _, h2⟩ => ?_⟩
  have e : wp.launch wp.cur.launch = some l3 := by decide +kernel
  rw [e] at h; cases h
  revert h2; decide +kernel

theorem test_PressIssue_member : Spec.member wp 0x2000 ∧ Spec.member wp 0x2001 ∧ ¬ Spec.member wp 0x2002 ∧ ¬ Spec.member wp 0x1000 ∧ ¬ Spec.member wp 0x2003 := by
  unfold Spec.member; decide +kernel

theorem test_PressIssue_turn : Spec.mayContribute wp 0x2000 ∧ Spec.mayContribute wp 0x2001 ∧
    ¬ Spec.mayContribute (wp.modCur fun x => { x with outs := [outst1] }) 0x2000 := by
  unfold Spec.mayContribute; decide +kernel

/-- A node whose 1,024 places are taken, at level 1 of core 1. -/
def entry1 : PressEntry := ⟨1, false, 2, true, 15, 0, false, 0, 3, 1, 0, 0, some (emptyPkt 0 2)⟩
def wf : State := wp.setPnode (pressId 1 1) { PressNode.reset with entries := (List.range 1024).map fun k => (k + 16, some entry1) }

theorem test_PressIssue_room : (∀ n ∈ joinPath wp 2 wp.me.coreKey, wp.pressLoad n < 1024) ∧
    ¬ ∀ n ∈ joinPath wf 2 wf.me.coreKey, (wf.pentry n 2).isSome ∨ wf.pressLoad n < 1024 := by decide +kernel

def done1 : PressPkt := { emptyPkt 0 2 with op := 0, fmt := 2, part := 5, count := 1, up := false, node := 1, members := [requesterOf w0 r1] }

theorem test_PressIssue : (wp.group 0).root = false ∧ (wp.group 1).root = true ∧ (wp.group 2).gen = 2 ∧ (wp.group 2).phase = 0 ∧
    (wp.group 3).phase = 2 ∧ wp.cur.outs.length < 16 ∧ (2 : Reg).toNat % 2 = 0 ∧
    (wp.modCur fun x => { x with outs := [outst1] }).cur.outs.find? (fun o => o.gid = 0) = some outst1 ∧ outst1.bar = false ∧ outst1.lost = false ∧
    (let o := { outst1 with result := some done1 }; (wp.modCur fun x => { x with outs := [o] }).cur.outs.find? (fun o => o.gid = 0) = some o) ∧
    done1.bad = false ∧ { done1 with bad := true }.bad = true ∧ (wp.group 0).gen < 16 := by decide +kernel

/-- A contribution of a sum, an absent one, and what counts for a member that left. -/
def blank1 : PressPkt := { emptyPkt 0 2 with op := 0, fmt := 2, mode := 1, sat := true }
def part1 : PressPkt := pressPart 0 2 [] 5 blank1

theorem test_PressOrderIndependent : Spec.contribution 0 2 1 true false part1 ∧ Spec.contribution 0 2 1 true false blank1 ∧ Spec.left (emptyPkt 0 2) ∧
    [part1, emptyPkt 0 2].Perm [emptyPkt 0 2, part1] ∧ Spec.Combined [part1, emptyPkt 0 2] (pressCombine part1 (emptyPkt 0 2)) ∧
    Spec.Combined [emptyPkt 0 2, part1] (pressCombine (emptyPkt 0 2) part1) ∧ Spec.clash part1 { part1 with fmt := 3 } ∧ part1.bad = false := by
  refine ⟨⟨blank1, ?_, rfl, rfl, rfl, rfl, rfl, .inr ⟨[], 5, rfl⟩⟩, ⟨blank1, ?_, rfl, rfl, rfl, rfl, rfl, .inl rfl⟩, ?_, .swap _ _ _,
    .two (l := [_]) (.one _) (.one _), .two (l := [_]) (.one _) (.one _), ?_, by decide⟩
  · unfold Spec.blank; decide
  · unfold Spec.blank; decide
  · unfold Spec.left Spec.blank; decide
  · unfold Spec.clash; decide

/-- Node 2^20 above core 0 to 3, whose entry of group 0 expects the ports of two children, and the root of a root group. -/
def up1 : PressPkt := { emptyPkt 0 2 with node := 2 ^ 20, child := 1 }
def root1 : PressPkt := { emptyPkt 1 2 with node := 2 ^ 20, lanes := 7, bar := true }
def wr (e : PressEntry) : State := (wp.setPentry (2 ^ 20) 0 (some e)).setPentry (2 ^ 20) 1 (some { e with part := some { emptyPkt 1 2 with bar := true, lanes := 1 } })

theorem test_PressMoves : up1.up = true ∧ wp.pentry up1.node up1.gid = none ∧ (wr { entry1 with gen := 1 }).pentry (2 ^ 20) 0 = some { entry1 with gen := 1 } ∧
    ((wr entry1).setGroup 0 { wp.group 0 with round := 1 }).pentry (2 ^ 20) 0 = some entry1 ∧ up1.round < 1 ∧ entry1.gen = up1.gen ∧
    (wr entry1).pentry (2 ^ 20) 0 = some entry1 ∧ entry1.rip = true ∧ entry1.round = up1.round ∧ entry1.round ≠ { up1 with round := 1 }.round ∧
    ((wr entry1).group 0).round ≤ up1.round ∧ (wp.group 0).root = false ∧
    entry1.arrived ||| (1#8 <<< up1.child) = entry1.child ∧ entry1.root = false ∧ 0 ||| (1#8 <<< up1.child) ≠ entry1.child ∧
    (wr { entry1 with root := true }).pentry (2 ^ 20) 0 = some { entry1 with root := true } ∧
    ((wr entry1).group 1).root = true ∧ ((wr entry1).group 1).gen = root1.gen ∧ ((wr entry1).pentry (2 ^ 20) 1).isSome = true ∧
    groupLanes (wr entry1) 1 = 8 ∧ (pressCombine { emptyPkt 1 2 with bar := true, lanes := 1 } root1).lanes = 8 ∧
    (pressCombine { emptyPkt 1 2 with bar := true, lanes := 1 } { root1 with lanes := 6 }).lanes < 8 ∧ root1.bar = true ∧ root1.bad = false ∧
    (wp.launch (wp.group 1).launch = some l3) ∧ (wp.group 0).held = [] ∧
    done1.up = false ∧ wp.pentry done1.node done1.gid = none ∧ entry1.gen = done1.gen ∧ entry1.round = done1.round ∧ 0 < (2 ^ 20 : Nat) / 2 ^ 20 ∧
    ((wp.setPentry 1 0 (some entry1)).pentry 1 0 = some entry1) ∧ done1.node / 2 ^ 20 = 0 ∧ done1.members = [requesterOf w0 r1] ∧
    isHere wp (requesterOf w0 r1) = true ∧
    (wp.group 3).phase = 2 ∧ wp.pressBusy 3 = false ∧ ({ wp with agenda := [.pressPacket { up1 with gid := 3 }] } : State).pressBusy 3 = true ∧
    (let q := requesterOf w0 r1; Spec.roundFor wp q 0 = 0 ∧ (let t := wp.setGroup 0 { wp.group 0 with roundOf := [9] }; Spec.roundFor t q 0 = 1) ∧
      (let t := wp.setGroup 0 { wp.group 0 with roundOf := [1], arrived := [1] }; Spec.roundFor t q 0 = 1)) := by decide +kernel

/-- A barrier at its bound, one cycle before it, and one already reported. -/
def l4 : Launch := { l3 with bytes := patch l3.bytes 32 [10] }
def wd : State := { (wp.setLaunch 1 l4).setGroup 0 { wp.group 0 with barStart := some 5 } with cycle := 15 }

theorem test_PressMoves_watchdog : wd.launch (wd.group 0).launch = some l4 ∧ (wd.group 0).barStart = some 5 ∧ l4.wdog = 10 ∧
    5 + (wd.group 0).paused + l4.wdog ≤ wd.cycle ∧ (wd.group 0).fired = false ∧ watchPaused wd 0 = false ∧ wd.hasRoom l4.die = true ∧
    ({ wd with cycle := 14 } : State).cycle < 5 + (wd.group 0).paused + l4.wdog ∧ l3.wdog = 0 := by decide +kernel

/-! ## The homes -/

/-- A byte stored at the first count of choices, as it is and as it was. -/
def wold : State := w0.stores frameB [7]

theorem test_MemoryReadsBack : (0 : Nat) ≤ w0.draws ∧ wold.loadsAt 1 frameB 1 = [7] ∧ wold.loadsAt 0 frameB 1 = [0] ∧ (∀ x ∈ wold.past, x.1 < 1) ∧ wold.seen 1 frameB = 1 ∧
    (0 : Nat) ≤ wold.draws + 1 ∧ ¬ (∀ x ∈ wold.past, x.1 < 0) := by decide +kernel

theorem test_JoinOrderIndependent : kindAdmits 0 2 0 = true ∧ kindAdmits 4 7 0 = true ∧ kindAdmits 3 8 0 = true ∧ 2 ^ 31 < 2 ^ fmtWidth 2 ∧ (0 : Nat) < 2 ^ fmtWidth 11 := by decide

/-- The plot at `frameB` with an attribute word, a fill state at unit 0 and the given bytes. -/
def wh2 (attr : Word) (fill : Nat) (bs : List Byte) : State :=
  (w0.setPlot frameB ⟨attr, 0, if fill = 0 then [] else [(0, fill)], []⟩).stores frameB bs
def ga1 : Word := gaOf w0 frameB
def q1 : Requester := requesterOf w0 r1
def join1 (kind fmt : Nat) : JoinPkt := ⟨q1, 1, .scope 3, ga1, kind, fmt, 5⟩
/-- A plot of MAX over I32, the same frozen, one of N64 counts, of B8 unions, of I32 tiles, of named tiles of tensor 1. -/
def maxI : Word := plotAttr 0 2 0 false 0 false 0
def maxIFrozen : Word := maxI ||| 0x4000000000000000
def countN : Word := plotAttr 4 7 0 false 0 false 0
def unionB : Word := plotAttr 2 8 0 false 0 false 0
def tileI : Word := plotAttr 5 2 0 false 0 false 0
def tileN : Word := plotAttr 5 2 12 false 0 true 1

theorem test_JoinsAndFillsAtHome_joins :
    let free := fun (a : Word) (p : JoinPkt) => let s := wh2 a 0 []; let k := gaKey p.ga;
      decide (Spec.barred s k (Spec.kindOf s k = p.kind ∧ Spec.fmtOf s k = p.fmt ∧ (s.plot k).gran = 0 ∧ Spec.named s k = false) True = none);
    free maxI (join1 0 2) = true ∧ free tileI (join1 5 2) = true ∧ free maxI (join1 1 2) = false ∧ free maxIFrozen (join1 0 2) = false ∧ free 0 (join1 0 2) = false := by decide +kernel

/-- An entry of tensor 1: valid, two open iterations, tiles of 4 KiB of I32, in one cluster of die 0. -/
def entry4 : List Byte := bytesOf 2 1 ++ [32, 0, 32, 0] ++ [2, 12, 1, 2] ++ bytesOf 2 5 ++ bytesOf 4 1024 ++ [0, 1] ++ bytesOf 2 0 ++ bytesOf 4 0x200000 ++ List.replicate 40 0
def name1 (iter tile : Nat) : Word := BitVec.ofNat 64 (2 ^ 48 + iter * 2 ^ 32 + tile)
def wn : State := { w0 with tensors := [(1, entry4)] }

theorem test_JoinsAndFillsAtHome_fills : let s := wh2 tileI 0 []; let k := gaKey ga1;
    let same := Spec.kindOf s k = 5 ∧ (s.plot k).gran = 0 ∧ Spec.fmtOf s k = 2
    Spec.barred s k (same ∧ Spec.named s k = false) True = none ∧ Spec.barred s (k + 4096) (same ∧ Spec.named s (k + 4096) = false) True ≠ none ∧
    (let s := (wn.setPlot frameB ⟨tileN, 12, [], []⟩);
      Spec.barred s k ((Spec.kindOf s k = 5 ∧ (s.plot k).gran = 12 ∧ Spec.fmtOf s k = 2) ∧ Spec.named s k = true ∧
        ((s.plot k).attr.extractLsb' 0 16).toNat = ((name1 5 0).extractLsb' 48 16).toNat) True = none ∧
      resolve s (name1 5 0) = some entry4 ∧ iterState entry4 4 = 2 ∧ iterState entry4 5 = 0 ∧ iterState entry4 7 = 1) := by decide +kernel

theorem test_JoinsAndFillsAtHome_units : fillState (wh2 tileI 0 []) frameB = 0 ∧ fillState (wh2 tileI 1 [7, 0, 0, 0]) frameB = 1 ∧ fillState (wh2 tileI 2 []) frameB = 2 ∧
    fillState (wh2 tileI 3 []) frameB = 3 ∧ (wh2 tileI 1 [7, 0, 0, 0]).loads frameB 4 = [7, 0, 0, 0] ∧ natOf [0, 0, 0, 0x80] = absentCode 2 ∧ natOf [7, 0, 0, 0] ≠ absentCode 2 := by decide +kernel

theorem test_ReadsAndWritesAtHome_moves : (∀ x ∈ [(frameB, 8), (frameA, 4)], w0.isRetired x.1 = false ∧ w0.hasUe x.1 x.2 = none) ∧
    (let s := { w0 with ue := [(frameB + 4, true)] }; s.hasUe frameB 8 = some (frameB + 4)) ∧
    (let s := w0.setPlot frameB ⟨0, 0, [], []⟩; s.hasUe frameB 8 = none) ∧
    ({ w0 with frameAttr := [(frameB / 2 ^ 16, 9)] } : State).isRetired frameB = true ∧ w0.hasUe frameB 8 = none := by decide +kernel

theorem test_ReadsAndWritesAtHome_exact :
    let free := fun (a : Word) (kind fmt : Nat) => let s := wh2 a 0 []; let k := gaKey ga1;
      decide (Spec.barred s k (Spec.kindOf s k = kind ∧ fmtWidth (Spec.fmtOf s k) = fmtWidth fmt) False = none);
    free maxI 0 2 = true ∧ maxI.getLsbD 62 = false ∧ free maxIFrozen 0 6 = true ∧ maxIFrozen.getLsbD 62 = true ∧ free maxI 1 2 = false ∧
    (∀ v ∈ [0, 1, 2, 3], fillState (wh2 (tileI ||| 0x4000000000000000) v []) (gaKey ga1) = v) ∧ free (tileI ||| 0x4000000000000000) 5 2 = true := by decide +kernel

/-- Waits at their trigger, one below it and at the absent code; whether a home has room for a waiter is open (log 8). -/
theorem test_ReadsAndWritesAtHome_thresholds : let s := wh2 maxI 0 [5, 0, 0, 0]; let k := gaKey ga1; let c := wh2 countN 0 [5, 0, 0, 0]
    Spec.barred s k (Spec.kindOf s k = 0 ∧ fmtWidth (Spec.fmtOf s k) = 32 ∧ (s.plot k).gran = 0 ∧ Spec.named s k = false) False = none ∧
    Spec.barred c k (Spec.kindOf c k = 4 ∧ fmtWidth (Spec.fmtOf c k) = 64 ∧ (c.plot k).gran = 0 ∧ Spec.named c k = false) False = none ∧
    ((0x80000000 : Word).toNat = absentCode 2) ∧ (5 : Word).toNat < 2 ^ fmtWidth 2 ∧ (maxIFrozen.getLsbD 62 = true) ∧
    (waiterRoom s (s.homeDie k) = true ∨ waiterRoom s (s.homeDie k) = false) ∧ s.loadNat k 4 = 5 ∧ c.loadNat k 8 = 5 := by
  refine ⟨by decide +kernel, by decide +kernel, by decide +kernel, by decide +kernel, by decide +kernel, ?_, by decide +kernel, by decide +kernel⟩
  cases waiterRoom (wh2 maxI 0 [5, 0, 0, 0]) ((wh2 maxI 0 [5, 0, 0, 0]).homeDie (gaKey ga1)) <;> simp

theorem test_ReadsAndWritesAtHome_reached : Spec.reached 4 7 5 5 ∧ ¬ Spec.reached 4 7 5 6 := by
  simp [Spec.reached]

theorem test_ReadsAndWritesAtHome_plots : descAdmits 0x0200 = true ∧ descAdmits 0xA20C = true ∧ descAdmits 0 = true ∧ descAdmits 0x4000 = false ∧
    (let s := w0; let a := (s.plot (gaKey ga1)).attr; s.isRetired (gaKey ga1) = false ∧ a.getLsbD 61 = false ∧ ¬ ((a.getLsbD 63 = true ∧ a.getLsbD 62 = false) ∨ a.getLsbD 31 = true)) ∧
    ((maxI.getLsbD 63 = true ∧ maxI.getLsbD 62 = false) ∧ maxI.getLsbD 31 = false) ∧ (maxIFrozen.getLsbD 63 = true ∧ maxIFrozen.getLsbD 62 = true ∧ maxIFrozen.getLsbD 31 = false) ∧ tileN.getLsbD 31 = true ∧
    ((wh2 (maxI ||| 0x2000000000000000) 0 []).plot (gaKey ga1)).attr.getLsbD 61 = true := by decide +kernel

/-- A reproducible launch whose group 0 has lanes 3 and 4, with counts on a plot that takes rounds. -/
def countG : Word := plotAttr 4 7 0 true 2 false 0
def count1 (lane round : Nat) : CountPkt := ⟨q1, lane, ga1, 7, 1, lane, round⟩
def wg (low : Nat) (rounds : List CountRound) : State :=
  { (w0.setLaunch 1 { l1 with bytes := patch l1.bytes 18 [1] }).setPlot frameB ⟨countG, 0, [], if low = 0 then [] else [(0, low)]⟩ with
    groups := [(0, { Group.reset with phase := 1, gen := 2, launch := 1, members := [{ q1 with llane := 3 }, { q1 with llane := 4 }] })], rounds := rounds }
def round1 : CountRound := ⟨ga1, 0, [3, 4], [], [count1 4 0, count1 3 0]⟩

theorem test_ReadsAndWritesAtHome_counts : let s := wg 0 []; let k := gaKey ga1; let a := (s.plot k).attr
    Spec.barred s k (Spec.kindOf s k = 4 ∧ Spec.fmtOf s k = 7) True = none ∧ isRepro s 1 = true ∧ a.getLsbD 48 = true ∧
    groupLanesOf s a = some [3, 4] ∧ groupLanesOf { s with groups := [] } a = none ∧ lowRound s k = 0 ∧ lowRound (wg 2 []) k = 2 ∧
    lowRound s k + 15 < (count1 3 16).round ∧ (count1 3 15).round ≤ lowRound s k + 15 ∧ roundOf s k 15 = none ∧ 3 ∈ [3, 4] ∧ 5 ∉ [3, 4] ∧
    isRepro w0 1 = false ∧ nextRound s k = none ∧ nextRound (wg 0 [round1]) k = some round1 ∧ (count1 3 0).lane < (count1 4 0).lane := by decide +kernel

def joinf1 : Instr := .joinf 0x67 3 12 ⟨4, 2, 0x1000⟩
def ack1 (c : Option FaultCode) : AckPkt := ⟨q1, 1, .scope 7, ga1, c⟩
def parkA : Park := ⟨joinf1, 2, .answers [9], 0⟩
def wa : State := wx fun x => { x with parks := [parkA], answers := [⟨9, none, 0, 5, 0, []⟩] }

theorem test_AnswersAtTask : isHere w0 q1 = true ∧ (ack1 none).ack = .scope 7 ∧ (w0.die q1.slot.die).faults.length < 64 ∧ (w0.die q1.slot.die).faultWait = [] ∧
    64 ≤ ((w0.modDie 0 fun d => { d with faults := List.replicate 64 (recordFor 1 0 .trap none none 0) }).die q1.slot.die).faults.length ∧
    (let x := wa.slot r1; x.occupied = true ∧ x.halt = .no ∧ x.ending = false ∧ x.parks = [parkA] ∧ parkA.cond = .answers [9] ∧
      x.answers.find? (fun a => decide (a.xid = 9)) = some ⟨9, none, 0, 5, 0, []⟩ ∧ parkA.instr = .joinf 0x67 3 12 ⟨4, 2, 0x1000⟩) ∧
    readyPark w0 r1 = none := by decide +kernel

/-! ## Named tiles -/

theorem test_NamedTiles_resolves : Spec.resolves wn (name1 5 0) entry4 ∧ Spec.resolves wn (name1 6 1023) entry4 ∧ Spec.resolves wn (name1 4 7) entry4 ∧ Spec.resolves wn (name1 7 7) entry4 := by
  unfold Spec.resolves; decide +kernel

/-- Iterations 5 and 6 are open, 4 is closed, 7 is still to come. -/
theorem test_NamedTiles_ahead : Spec.ahead entry4 (name1 5 0) = 0 ∧ Spec.ahead entry4 (name1 6 0) = 1 ∧ Spec.ahead entry4 (name1 4 0) = -1 ∧ Spec.ahead entry4 (name1 7 0) = 2 ∧
    Spec.entry entry4 9 1 = 2 ∧ Spec.entry entry4 7 1 = 12 ∧ Spec.entry entry4 0 2 % 2 = 1 ∧ entry4.length = 64 ∧ Spec.entry (wn.tensor 2) 0 2 % 2 = 0 ∧
    Spec.entry (wn.tensor 1) 12 4 ≤ ((name1 5 1024).extractLsb' 0 32).toNat := by decide +kernel

def int1 : InterestPkt := ⟨q1, 3, none, name1 5 0, 12, 0, 0, false⟩
def has1 (ports : List Nat) (own : List InterestPkt) : State := wn.setRouter 1 ⟨[⟨name1 5 0, own, ports⟩], []⟩
def full1 : State := wn.setRouter 1 ⟨List.replicate 256 ⟨name1 6 0, [], []⟩, []⟩
def home1 (fill : Nat) : State := { wn with plots := [(gaKey ga1 / 4096, ⟨tileN, 12, if fill = 0 then [] else [(0, fill)], []⟩)] }

theorem test_NamedTiles : tensorOk entry4 = true ∧ ringTaken w0 entry4 = false ∧ (let n := patch entry4 10 [0]; Spec.entry n 24 40 = 0 ∧ Spec.entry n 10 2 = 0 ∧ Spec.entry n 0 2 = 1 ∧ tensorOk n = true ∧ ringTaken w0 n = false) ∧ fillsFlying wn 1 = false ∧ namersResolved wn 1 = false ∧
    ((has1 [] []).router 1).table = [] ++ ⟨name1 5 0, [], []⟩ :: [] ∧ (∀ e ∈ (full1.router 1).table, e.name ≠ name1 5 0) ∧ 256 ≤ (full1.router 1).table.length ∧
    (∀ e ∈ (wn.router 1).table, e.name ≠ name1 5 0) ∧ (wn.router 1).table.length < 256 ∧ (wn.router 1).rick = [] ∧
    ((has1 [2] [int1]).router 1).table = [⟨name1 5 0, [int1], [2]⟩] ∧ isHere wn int1.req = true ∧ (has1 [] [int1]).hasRoom 0 = true ∧ int1.born + 2 ^ 24 ≤ ({ w0 with cycle := 2 ^ 24 } : State).cycle ∧
    Spec.asking (has1 [] [int1]) 1 = [] ++ int1 :: [] ∧ int1.stalled = false ∧ Spec.asking wn 1 = [] := by decide +kernel

theorem test_NamedTiles_home : let k := Spec.tileHome entry4 5 0
    wn.isRetired k = false ∧ (wn.plot k).attr.getLsbD 61 = false ∧ fillState wn k = 0 ∧ (∀ f ∈ [1, 2], fillState (wn.setPlot k ⟨tileN, 12, [(0, f)], []⟩) k = f) := by decide +kernel

/-- A fill in the waiting store, which a release takes out, beside a packet held back at an end for want of a place. -/
def fillIn : Instr := .tileFill ⟨q1, 1, .scope 3, ga1, 0, 2, none, []⟩
def wstore : State := w0.modDie 0 fun d => { d with store := [fillIn] }

theorem test_NamedTiles_store : releasable w0 15 0 = none ∧ (∃ m, releasable wstore 0 0 = some m) ∧ (∀ x ∈ wstore.stuck, x.1 ≠ 0) ∧
    ({ wstore with stuck := [(0, ⟨3, true⟩, fillIn)] } : State).stuck = [] ++ (0, ⟨3, true⟩, fillIn) :: [] ∧ (wstore.die 0).store.length < 16777216 :=
  ⟨by decide +kernel, ⟨_, rfl⟩, by decide +kernel, rfl, by decide +kernel⟩

/-! ## The carter and the Thresher, binding, capsules -/

theorem test_CarterAndThresher_thresh : let x := w0.cur; let k : SReg := 5; let opts : BitVec 64 := 0x100000
    opts.extractLsb' 26 38 = 0 ∧ (opts.extractLsb' 20 5).toNat = 1 ∧ (opts.extractLsb' 0 20).toNat + 1 = 1 ∧ x.tagBusy.getLsbD 15 = false ∧
    Spec.lattice w0 (x.getS k) 64 2 2 true false = some [(frameB + 64, 2)] ∧ Spec.lattice w0 (x.getS k) 65528 8 8 true false = some [(frameB + 65528, 8)] ∧
    Spec.lattice w0 (x.getS k) 4096 1 1 false true = some [(frameB + 4096, 1)] ∧ (w0.plot (Spec.first [(frameB + 4096, 1)])).gran = 0 ∧
    Spec.lattice w0 (x.getS k) 4096 24 1 false true = some [(frameB + 4096, 24)] := by decide +kernel

def copy1 : CopyReq := ⟨2, q1, .plain 8 16 100, w0.cur.getS 3, w0.cur.getS 2, w0.cur.getS 5, none⟩
def wmb : State := wx fun x => { x with mailbox := [copy1] }
def sort1 : SortReq := ⟨q1, 4, [(frameB, 2)], [(frameB + 8, 4)], [(frameB + 4096, 256)], [(frameB + 8192, 256)], 1, 1, 4⟩
/-- A copy at its start, one that has read the 48 bytes its first write takes, one whose bytes are all sent, an arm. -/
def job1 : Job := ⟨4, copy1, 0, 0, [], 0, 0, 0, none, none, none, false, false⟩
def jobRead : Job := { job1 with got := (List.range 48).map fun i => (8 + i, 0) }
def jobDone : Job := { job1 with run := 1, pos := 100 }
def jobArm : Job := { job1 with copy := { copy1 with kind := .arm 8 16 100 ga1 5 }, armed := true }
def wj (j : Job) : State := ({ w0 with plots := [(frameB / 4096, ⟨maxIFrozen, 0, [], []⟩), (frameB / 4096 + 1, ⟨tileI, 8, [], []⟩), (frameB / 4096 + 2, ⟨tileI, 8, [], []⟩)] } : State).modCore 1 fun c => { c with jobs := [j] }

theorem test_CarterAndThresher_take : refOf 1 0 = r1 ∧ (wmb.slot (refOf 1 0)).mailbox = [copy1] ∧ (wmb.slot (refOf 1 0)).halt = .no ∧
    (∀ i < 8, i ≠ 0 → (wmb.slot (refOf 1 i)).mailbox = []) ∧ (∀ i < 8, (w0.slot (refOf 1 i)).mailbox = []) ∧ (wmb.core 1).jobs = [] ∧
    (∃ x ∈ ((wj { job1 with fault := some (.seg, none, none) }).core 1).jobs, x.fault ≠ none) := by decide +kernel

/-- Byte 8 of the source is read with its aligned 64; the first 48 bytes go to the destination, up to its next boundary. -/
theorem test_CarterAndThresher_move : let s := wj job1; let t := wj jobRead; let a := fun y => 1 * 2 ^ 33 + (segBase copy1.sseg + y) % 2 ^ 56
    let b := 1 * 2 ^ 33 + (segBase copy1.dseg + (16 + 0)) % 2 ^ 56; let n := min 100 (64 - (segBase copy1.dseg + (16 + 0)) % 64)
    jobOf s 1 job1.id = some job1 ∧ jobOf t 1 jobRead.id = some jobRead ∧ segSpace copy1.sseg = false ∧ segSpace copy1.dseg = false ∧ n = 48 ∧
    (∀ x ∈ (s.core 1).jobs, x.fault = none) ∧ job1.got.find? (fun g => decide (g.1 = 8 + 0 + 0)) = none ∧ s.isLattice (a 8) = false ∧ s.ue = [] ∧
    (∀ i < n, jobRead.got.find? (fun g => decide (g.1 = 8 + 0 + i)) = some (8 + 0 + i, (List.replicate 48 (0 : Byte)).getD i 0)) ∧ t.isLattice b = false := by
  decide +kernel

theorem test_CarterAndThresher_finish : let note := { jobDone with copy := { copy1 with notify := some 0 } }; let s := wj note
    jobOf s 1 note.id = some note ∧ note.flying = 0 ∧ note.copy.notify = some 0 ∧ reach s 1 copy1.req.launch copy1.nseg 0 8 rightsWr = .at [(frameB, 8)] ∧
    s.isLattice frameB = true ∧ jobOf (wj jobDone) 1 4 = some jobDone ∧ jobDone.copy.notify = none ∧ jobDone.notifies = 0 ∧
    isHere (wj jobDone) jobDone.copy.req = true ∧ jobOf w0 1 4 = none ∧ ({ jobDone with flying := 1 } : Job).flying ≠ 0 ∧
    ({ jobDone with notifies := 1 } : Job).notifies ≠ 0 := by decide +kernel

theorem test_CarterAndThresher_fire : let s := wj jobArm; let saved : Launch := { l1 with saved := [⟨x1, r1, 0, none, none, [], [], [], none⟩] }
    jobOf s 1 jobArm.id = some jobArm ∧ s.launch jobArm.copy.req.launch = some l1 ∧ l1.phase = .running ∧ l1.saved = [] ∧ s.hasRoom (1 / 8192) = true ∧
    (∃ c ∈ saved.saved, c.slot.task = jobArm.copy.req.task) ∧ ({ l1 with phase := .halting } : Launch).phase ≠ .running ∧
    (∀ x ∈ w0.cores, ∀ j ∈ x.2.jobs, j.id ≠ 4) ∧ jobOf w0 1 4 = none := by decide +kernel

theorem test_CarterAndThresher_sort : let s := wj job1; let tab := bytesOf 4 0 ++ bytesOf 4 1 ++ bytesOf 4 1 ++ bytesOf 4 0 ++ bytesOf 4 1 ++ bytesOf 4 0
    sortFault s sort1 = none ∧ jobOf s sort1.req.slot.coreKey sort1.job = some job1 ∧ natOf ((readPieces s sort1.keys).take 2) = 0 ∧
    natOf ((readPieces s sort1.pays).take 4) = 0 ∧ ([(0, 0)] : List (Nat × Nat)).Pairwise (fun a b => a.1 ≤ b.1) ∧
    tab.length = 24 ∧ (∀ v < 2, Spec.entry tab (8 * v) 4 = v ∧ Spec.entry tab (8 * v + 4) 4 = 1 - v) ∧ Spec.entry tab 16 4 = 1 ∧ Spec.entry tab 20 4 = 0 ∧
    sortFault { s with ue := [(frameB, true)] } sort1 = some (.memUe, frameB) ∧ jobOf { s with cores := [] } sort1.req.slot.coreKey sort1.job = none ∧
    sortFault { s with cores := [] } sort1 = none := by decide +kernel

/-- A queue with a record, a full one beside the overflow area; a capsule of launch 1 in berth 2 of core 1, at the first of its steps. -/
def wb : State := w0.setQueue 0 [rec1]
def wcap (st : Berth) (chan : BitVec 128) : State := (w0.stores (berthKey 1 2 + 24) [1, 0, 0, 1]).modCore 1 fun c =>
  { c with channels := [(0, chan)], berths := #v[.free, .free, st, .free], arrivals := [2] }
def chan1 : BitVec 128 := 1#128 <<< 63 ||| 1#128 <<< 64 ||| 0x40

theorem test_BindingAndCapsules_records : ((nextRecord wb 0).any fun x => decide (x.1 = 0 ∧ x.2.1 = rec1 ∧ x.2.2.1 = l1)) = true ∧ l1.repro = false ∧ isRepro wb l1.num = false ∧
    l1.lsbytes = 0 ∧ nextRecord w0 0 = none ∧ nextSpilled (wb.modDie 0 fun d => { d with spill := [(0, rec1, 0)] }) 0 = some (0, 0, rec1) ∧ nextSpilled w0 0 = none ∧
    wb.launch 1 = some l1 ∧ w0.launch 2 = none := by decide +kernel

theorem test_BindingAndCapsules_capsules : (let s := wcap .arrived chan1; nextArrival s 1 = some 2 ∧ (s.chan 1 (capChannel s 1 2)).getLsbD 63 = true ∧
      ((s.chan 1 (capChannel s 1 2)).extractLsb' 64 16).toNat = capField s 1 2 24 2) ∧
    (let s := wcap .arrived (1#128 <<< 63); nextArrival s 1 = some 2 ∧ ((s.chan 1 (capChannel s 1 2)).extractLsb' 64 16).toNat ≠ capField s 1 2 24 2) ∧
    (let s := wcap .ready chan1; nextArrival s 1 = none ∧ nextCapsule s 1 = some (2, l1, refOf 1 1, 0)) ∧ (refOf 1 1).coreKey = 1 ∧
    nextArrival w0 1 = none ∧ nextCapsule w0 1 = none := by decide +kernel

/-- Steps to core 3 of cluster 0, to a core of another package and to the system core of die 0. -/
def stepTo (core : Nat) : Word := BitVec.ofNat 64 (core * 2 ^ 37)
def ask1 (step : Word) : ReservePkt := ⟨1, 2, 1, step, 0⟩
def ret1 : ReturnPkt := ⟨none, 1, .capsulePlace, List.replicate 64 0, none⟩

theorem test_BindingAndCapsules_berths : stepCore (stepTo 3) = 3 ∧ placeOk w0 (stepTo 3) = true ∧ placeOk w0 (stepTo 0) = false ∧ placeOk w0 (stepTo 3 ||| 0x0040000000000000) = false ∧
    (stepTo 3).getLsbD 36 = false ∧ (w0.core 3).asks = [] ∧ w0.anyAsks = [] ∧ (w0.core 3).freeBerth = some 0 ∧ w0.dead 0 = false ∧
    ((w0.modCore 3 fun c => { c with berths := Vector.replicate 4 .held }).core 3).freeBerth = none ∧ State.reset.dead 0 = true ∧ w0.pkgid = 0 ∧
    ((wcap .leaving 0).core 1).berth 2 = .leaving ∧ ((wcap .ready 0).core 1).berth 2 ≠ .leaving ∧ w0.launch (Spec.entry ret1.bytes 24 2) = none ∧
    w0.launch (Spec.entry (patch ret1.bytes 24 [1]) 24 2) = some l1 ∧ l1.phase ≠ .tearing ∧ w0.dead (Spec.entry ret1.bytes 8 8 / 2 ^ 49 % 16) = false ∧
    (w0.die 0).cfqHeld < 1024 ∧ (w0.die 0).returns = [] ∧ 1024 ≤ ((w0.modDie 0 fun d => { d with cfqHeld := 1024 }).die 0).cfqHeld ∧
    ({ w0 with cycle := 1024 } : State).cycle / 1024 - (w0.core 1).refills = 1 ∧ w0.cycle / 1024 ≤ (w0.core 1).refills := by decide +kernel

/-! ## Fetch and issue, translation -/

/-- A line of one bundle of one head at the address 0, which the slot is to fetch in its turn. -/
def wf1 : State := { w0 with mem := [(localKey 1 1, 0x08), (localKey 1 2, 0x62), (localKey 1 3, 0x11), (localKey 1 62, 0x0A), (localKey 1 63, 0x0F)], turn := .slot r1 }

theorem test_StepRunsDecoded_line : Spec.lineAt wf1 0 [(0x1162, 0x0F0A)] := by
  unfold Spec.lineAt; decide +kernel

theorem test_StepRunsDecoded : let x := wf1.slot r1; let c := turnAt r1.slot (max wf1.cycle x.readyAt)
    c = 0 ∧ x.occupied = true ∧ x.parks = [] ∧ x.halt = .no ∧ x.ending = false ∧ wf1.dead r1.die = false ∧ (wf1.die r1.die).hold = false ∧
    x.rep.act = false ∧ x.rep.body = [] ∧ x.pc.toNat % 64 = 2 + 2 * 0 ∧ (0x1162 : BitVec 16).getLsbD 15 = false ∧
    decodeWord 0x1162 0x0F0A = some (.ctz ⟨.s64, 2, 10⟩) ∧ advanceTo c wf1 = wf1 := by decide +kernel

/-- The step runs it: G10 holds 5, which has no zero below its lowest set bit. -/
theorem test_StepRunsDecoded_runs : (match step wf1 with | .next t => decide ((t.slot r1).getG 2 = 0 ∧ (t.slot r1).pc = 66) | _ => false) = true := by decide +kernel

/-- Tables of three levels for launch 1, whose last entry names `frameA`, or is not present. -/
def ptab (n : Nat) : Nat := hbmKey 0 (0x200000 + n * 0x10000)
def l5 : Launch := { l1 with bytes := patch l1.bytes 8 (bytesOf 8 (ptab 0)) }
def e2 : Word := BitVec.ofNat 64 (frameA + 7)
def wtab (e : Word) : State := (((w0.setLaunch 1 l5).stores (ptab 0) (bytesOf 8 (ptab 1 + 1))).stores (ptab 1) (bytesOf 8 (ptab 2 + 1))).stores (ptab 2 + 8) (bytesOf 8 e.toNat)
def walk1 : WalkReq := ⟨0, 1, 0x10000, 1, some false, .task r1 1, [0x10000], []⟩

theorem test_Translation_reads : let s := wtab e2; let t0 := BitVec.ofNat 64 (ptab 1 + 1); let t1 := BitVec.ofNat 64 (ptab 2 + 1)
    Spec.reads s (BitVec.ofNat 64 l5.troot) 0 0x10000 t0 ∧ Spec.leads s t0 0 ∧ Spec.reads s (t0 &&& ~~~0xFFFF#64) 1 0x10000 t1 ∧ Spec.leads s t1 1 ∧
    Spec.reads s (t1 &&& ~~~0xFFFF#64) 2 0x10000 e2 ∧ Spec.reads (wtab 0) (t1 &&& ~~~0xFFFF#64) 2 0x10000 0 := by
  unfold Spec.reads Spec.leads; decide +kernel

/-- The walk of `wtab` meets its last entry, whatever that is, at level 2; tables whose first entry is a leaf meet it at level 0. -/
theorem test_Translation_meets : Spec.meets (wtab e2) (BitVec.ofNat 64 l5.troot) 0x10000 2 e2 ∧ Spec.meets (wtab 0) (BitVec.ofNat 64 l5.troot) 0x10000 2 0 ∧
    Spec.meets (wtab 0x801) (BitVec.ofNat 64 l5.troot) 0x10000 2 0x801 ∧
    Spec.meets ((w0.setLaunch 1 l5).stores (ptab 0) (bytesOf 8 7)) (BitVec.ofNat 64 l5.troot) 0x10000 0 7 := by
  refine ⟨⟨BitVec.ofNat 64 (ptab 1 + 1), ?_, ?_, BitVec.ofNat 64 (ptab 2 + 1), ?_⟩, ⟨BitVec.ofNat 64 (ptab 1 + 1), ?_, ?_, BitVec.ofNat 64 (ptab 2 + 1), ?_⟩,
      ⟨BitVec.ofNat 64 (ptab 1 + 1), ?_, ?_, BitVec.ofNat 64 (ptab 2 + 1), ?_⟩, ?_⟩ <;>
    simp only [Spec.meets, Spec.reads, Spec.leads, reduceIte] <;> decide +kernel

/-- A leaf that serves the task and the copy of a walk, frames that do not, an entry that is malformed, rights that do not suffice. -/
def walkJ : WalkReq := { walk1 with who := .job 1 4 }

theorem test_Translation_walk : let s := wtab e2; let f := Spec.leaf 1 0x10000 2 e2
    s.launch walk1.launch = some l5 ∧ isHere s ⟨r1, 1, 1, 0, 0⟩ = true ∧ (s.port 0).stale = false ∧ (s.port 0).walks = [] ∧ walkWanted s walk1 = true ∧ (s.die 0).pages = [] ∧ s.hasRoom 0 = true ∧
    (∃ g ∈ [(⟨7, 1, 0x10000, 0, 1, []⟩ : PageReq)], g.page = walk1.va) ∧ 256 ≤ (List.replicate 256 (⟨7, 1, 0x20000, 0, 1, []⟩ : PageReq)).length ∧
    e2.getLsbD 0 = true ∧ e2.getLsbD 1 = true ∧ malformed s e2 2 = false ∧ walk1.need = 1 ∧ e2.getLsbD 2 = true ∧ e2.getLsbD 3 = false ∧ walk1.bad = [] ∧
    frameFault s f 0x10000 walk1.space = none ∧ frameFault { s with frameAttr := [(frameA / 2 ^ 16, 1)] } f 0x10000 walk1.space = some .mapAttr ∧ walk1.pages = [walk1.va] ∧
    malformed s 0x801 2 = true ∧ (0x801 : Word).getLsbD 0 = true ∧ malformed s 7 0 = false ∧ (7 : Word).getLsbD 2 = true ∧ (0 : Word).getLsbD 0 = false ∧
    walkJ.who = .job 1 4 ∧ jobOf ({ s with cores := (wj job1).cores } : State) 1 4 = some job1 ∧ s.launch 2 = none := by decide +kernel

def wts : State := w0.modDie 0 fun d => { d with tsBusy := true, tsWait := [(0, 0, [])], pages := [⟨7, 1, 0x10000, 0, 1, [walk1]⟩] }

theorem test_Translation : (wts.die 0).pages = [⟨7, 1, 0x10000, 0, 1, [walk1]⟩] ∧ (∀ e ∈ (w0.die 0).pages, e.seq ≠ 7) ∧ isHere wts ⟨r1, 1, 1, 0, 0⟩ = true ∧
    (wts.die 0).pageWait = [] ∧ (wts.die 0).tsBusy = true ∧ (w0.die 0).tsBusy = false ∧ (w0.port 0).asleep = false ∧ ((w0.setPort 1 { w0.port 1 with asleep := true }).port 1).asleep = true ∧
    (∀ w ∈ (w0.die 0).tsWait, w.1 ≠ 0) ∧ (∃ w ∈ (wts.die 0).tsWait, w.1 = 0) ∧ accessesOpen wts 0 0 [] = false := by decide +kernel

/-! ## Launches, pre-emption, repairs -/

def wst (st : Nat) (l : Option Launch) : State := { w0.modDie 0 (fun d => { d with lstat := [(0, (st, 0))] }) with launches := match l with | some l => [(1, some l)] | none => [] }
def sub1 (phase : Nat) : State := w0.modDie 0 fun d => { d with lnext := 1, subs := [(0, phase, List.replicate 4096 0)] }
def done0 : Launch := { l1 with posted := 8 }
def we (l : Launch) : State := { w0 with slots := [], launches := [(1, some l)] }
def sub3 : State := { (we done0).modDie 0 fun d => { d with subs := [(0, 3, done0.bytes)] } with cycle := 0 }

theorem test_LaunchLife : State.reset.dead 0 = true ∧ w0.dead 0 = false ∧ (lstatOf (wst 3 none) 0 0).1 ≠ 0 ∧ (lstatOf w0 0 ((w0.die 0).lnext % 64)).1 = 0 ∧
    (match pendingSub ((sub1 0).die 0) with | some (n, p, _) => decide (n = 0 ∧ p % 4 = 0) | none => false) = true ∧
    (match pendingSub ((sub1 5).die 0) with | some (n, p, _) => decide (n = 0 ∧ p % 4 = 1) | none => false) = true ∧ (pendingSub ((sub1 2).die 0)).isNone = true ∧
    (w0.die 0).subs = [] ∧ w0.hasRoom 0 = true ∧ w0.launch 2 = none ∧ isComplete w0 l1 = false ∧
    (we done0).launch 1 = some done0 ∧ isComplete (we done0) done0 = true ∧ done0.phase = .running ∧
    (let x := (sub3.die 0).subs; x = [(0, 3, done0.bytes)] ∧ sub3.launch (Spec.entry done0.bytes 16 2) = some done0 ∧ done0.num = Spec.entry done0.bytes 16 2 ∧ done0.posted = done0.lanes) ∧
    (∀ st ∈ [0, 5, 6, 7], (lstatOf (wst st none) 0 0).1 = st) ∧ launchAt (wst 2 none) 0 0 = none ∧ launchAt (wst 3 (some l1)) 0 0 = some l1 ∧
    launchAt (wst 4 (some { l1 with phase := .tearing })) 0 0 = some { l1 with phase := .tearing } := by decide +kernel

/-- An object of one channel at the address 0x10000, and a record of launch 9 that names it, of one lane or of eight. -/
def object1 : List Byte := bytesOf 4 0x44464445 ++ bytesOf 2 1 ++ bytesOf 2 1 ++ List.replicate 24 0 ++ [7, 0, 0, 0, 0, 0, 0, 0] ++ bytesOf 4 64 ++ bytesOf 4 16 ++
  List.replicate 16 0 ++ [3, 1, 0, 0, 0, 0, 0, 0, 0x40, 0, 0, 0, 0, 0, 0, 0]
def rec0 (mode : Byte) (lanes : Nat) : List Byte := bytesOf 8 0x10000 ++ bytesOf 8 (ptab 0) ++ bytesOf 2 9 ++ [mode, 0] ++ bytesOf 4 lanes ++ bytesOf 2 1 ++ bytesOf 2 0 ++
  bytesOf 2 0 ++ bytesOf 2 1 ++ bytesOf 4 0 ++ bytesOf 2 0 ++ bytesOf 2 5 ++ bytesOf 2 1 ++ List.replicate 4054 0
def wexp (bs : List Byte) : State := ((wtab e2).stores frameA object1).modDie 0 fun d => { d with tdisp := .run, lstat := [(0, (2, 0))], subs := [(0, 3, bs)] }

/-- A launch bound to cluster 0 of die 0 alone has its cores among the first 16. -/
theorem cores0 (s : State) (l : Launch) (d : l.dies = 1) (c : l.chi = 0) : l.cores s = (List.range 16).filter (l.binds s) := by
  have out : ∀ n ≥ 16, l.binds s n = false := by
    intro n h
    by_contra b
    rw [Bool.not_eq_false] at b
    simp only [Launch.binds, d, c, Bool.and_eq_true, decide_eq_true_eq] at b
    obtain ⟨⟨⟨⟨a, -⟩, b⟩, -⟩, -⟩ := b
    have z : n / 8192 = 0 := by
      by_contra k
      obtain ⟨m, e⟩ := Nat.exists_eq_succ_of_ne_zero k
      rw [e, Nat.div_eq_of_lt (Nat.one_lt_two_pow (Nat.succ_ne_zero m))] at a
      omega
    omega
  unfold Launch.cores
  rw [show 131072 = 16 + 131056 from rfl, List.range_add, List.filter_append, List.append_right_eq_self.mpr]
  rw [List.filter_eq_nil_iff]
  intro x h
  obtain ⟨y, -, rfl⟩ := List.mem_map.mp h
  rw [out _ (Nat.le_add_right 16 y)]; simp

theorem clusters0 (s : State) (l : Launch) (d : l.dies = 1) (c : l.chi = 0) :
    l.clusters s = (List.range 1).filter fun k => (List.range 16).any fun i => l.binds s (k * 16 + i) := by
  unfold Launch.clusters
  rw [show 8192 = 1 + 8191 from rfl, List.range_add, List.filter_append, List.append_right_eq_self.mpr]
  rw [List.filter_eq_nil_iff]
  intro x h a
  obtain ⟨y, m, rfl⟩ := List.mem_map.mp h
  obtain ⟨i, mi, b⟩ := List.any_eq_true.mp a
  have lt : (1 + y) * 16 + i < 131072 := by have := List.mem_range.mp m; have := List.mem_range.mp mi; omega
  have k : (1 + y) * 16 + i ∈ l.cores s := List.mem_filter.mpr ⟨List.mem_range.mpr lt, b⟩
  rw [cores0 s l d c] at k
  have := List.mem_range.mp (List.mem_filter.mp k).1
  omega

theorem rootFits0 (s : State) (l : Launch) (d : l.dies = 1) (c : l.chi = 0)
    (h : (let cores := (List.range 16).filter (l.binds s); s.fits l.grp0 (treeNodes (((pressTop none cores).map pressLevel).getD 1) cores)) = true) :
    rootFits s l = true := by
  unfold rootFits; rw [cores0 s l d c]; exact h

theorem fits_plan : rootFits (wexp (rec0 0 8)) (launchOf (rec0 0 8) 0 0) = true := rootFits0 _ _ (by decide +kernel) (by decide +kernel) (by decide +kernel)
theorem fits_repro : rootFits (wexp (rec0 1 1)) (launchOf (rec0 1 1) 0 0) = true := rootFits0 _ _ (by decide +kernel) (by decide +kernel) (by decide +kernel)

/-- What `planOf` comes to for a record whose place and root group are known to be right. -/
def planRest (s : State) (die slot : Nat) (bytes : List Byte) : Except Refused Plan := do
  let l := launchOf bytes die slot
  refuseIf (!recordFieldsOk s l)
  let troot : Word := BitVec.ofNat 64 l.troot
  let ss ← readObject s troot (fieldOf bytes 0 8)
  let tables ← readTables s troot ((List.range 5).map (tableAt l ss))
  let _ ← readTables s troot ((ss.filter fun x => x.kind = 4).map fun x => some x.va)
  let plots ← readRecords s troot 16 (ss.filter fun x => x.kind = 5)
  let tensors ← readRecords s troot 128 (ss.filter fun x => x.kind = 6)
  let channels ← readRecords s troot 16 (ss.filter fun x => x.kind = 7)
  refuseIf (!(plots.all plotRecordOk && tensors.all tensorRecordOk && channels.all channelRecordOk))
  return ⟨{ l with tables := tables, windows := (List.range 8).map (windowOf l ss) }, plots, tensors, channels⟩

theorem planOf_rest (s : State) (die slot : Nat) (bytes : List Byte) (p : recordPlaceOk s (launchOf bytes die slot) = true)
    (f : rootFits s (launchOf bytes die slot) = true) : planOf s die slot bytes = planRest s die slot bytes := by
  unfold planOf planRest
  simp only [p, f, Bool.and_true]

theorem test_Expansion_plan : (match planOf (wexp (rec0 0 8)) 0 0 (rec0 0 8) with
    | .ok p => decide (p.channels = [[3, 1, 0, 0, 0, 0, 0, 0, 0x40, 0, 0, 0, 0, 0, 0, 0]] ∧ p.plots = [] ∧ p.tensors = [] ∧ p.launch.repro = false ∧ p.launch.lanes = 8)
    | .error _ => false) = true ∧ (wexp (rec0 0 8)).queues = [] ∧ ((wexp (rec0 0 8)).die 0).spill = [] ∧
    formPlots l1 [] (w0, []) = (.ok (), w0, []) ∧ formTensors [] w0 = (.ok (), w0, []) ∧ ((launchOf (rec0 0 8) 0 0).clusters w0).length = 1 := by
  rw [clusters0 w0 _ (by decide +kernel) (by decide +kernel), planOf_rest _ 0 0 _ (by decide +kernel) fits_plan]
  decide +kernel

theorem place0 (s : State) (l : Launch) (d : l.dies = 1) (c : l.chi = 0)
    (h : (decide (l.boundDies ≠ []) && l.boundDies.all (fun d => !s.dead d && decide ((s.die d).tdisp = .run)) &&
      (s.live.all fun m => decide (m.num ≠ l.num) && (decide (l.grp0 + l.ngrp ≤ m.grp0) || decide (m.grp0 + m.ngrp ≤ l.grp0))) &&
      (!l.repro || decide (l.lanes ≤ 8 * ((List.range 16).filter (l.binds s)).length)) && laneStoreOk l) = true) : recordPlaceOk s l = true := by
  unfold recordPlaceOk Launch.ns; rw [cores0 s l d c]; exact h

theorem place_repro : recordPlaceOk (wexp (rec0 1 1)) (launchOf (rec0 1 1) 0 0) = true :=
  place0 _ _ (by decide +kernel) (by decide +kernel) (by decide +kernel)

/-- The same in reproducible mode with one lane: core 1 of cluster 0 gives it eight bound slots. -/
theorem test_Expansion_repro : (match planOf (wexp (rec0 1 1)) 0 0 (rec0 1 1) with | .ok p => p.launch.repro && decide (p.launch.lanes = 1) | .error _ => false) = true := by
  rw [planOf_rest _ 0 0 _ place_repro fits_repro]
  decide +kernel

/-- A plot record in a lattice frame that the tables map at 0x20000, one whose address is no multiple of 4 KiB, a tensor record. -/
def plotRec (va : Nat) : List Byte := bytesOf 8 va ++ bytesOf 8 0x0200
def wplot : State := (wtab e2).stores (ptab 2 + 16) (bytesOf 8 (frameB + 0x10F))
def tensRec : List Byte := bytesOf 2 1 ++ List.replicate 62 0 ++ patch entry4 10 [0, 0]

theorem test_Expansion_records : recordPlots (plotRec 0x20000) = [0x20000] ∧ (match plotRange wplot l5 [0x20000] with | .ok ps => decide (ps = [frameB]) | .error _ => false) = true ∧
    descAdmits (wordOf (plotRec 0x20000) 8) = true ∧ wplot.dead (wplot.homeDie frameB) = false ∧ wplot.isRetired frameB = false ∧ (wplot.plot frameB).attr = 0 ∧
    (match plotRange wplot l5 (recordPlots (plotRec 0x20001)) with | .ok _ => false | .error _ => true) = true ∧
    (let n := Spec.entry tensRec 0 2; let bs := tensRec.drop 64; n = 1 ∧ Spec.entry bs 0 2 = 1 ∧ Spec.entry bs 24 40 = 0 ∧ Spec.entry bs 10 2 = 0 ∧
      Spec.entry (w0.tensor n) 0 2 % 2 = 0 ∧ tensorOk bs = true ∧ ringTaken w0 bs = false) := by decide +kernel

/-- A record whose fields are all zero is refused. -/
theorem test_LaunchLife_refused : let s := (setLstat (sub1 2) 0 0 (2, 0)).modDie 0 fun x => { x with subs := [(0, 3, List.replicate 4096 0)] }
    (match planOf s 0 0 (List.replicate 4096 0) with | .error _ => true | .ok _ => false) = true := by decide +kernel

theorem ns_le (s : State) (l : Launch) : l.ns s ≤ 2 ^ 20 := by
  have h := List.length_filter_le (l.binds s) (List.range 131072)
  rw [List.length_range] at h
  unfold Launch.ns Launch.cores; omega

/-- The start of the Cellar holds the area of every launch without lane stores. -/
theorem area_ok (s : State) (l : Launch) (hs : s.pkgid = 0) (b : l.lsbytes = 0) : areaOk s l (BitVec.ofNat 64 (4 * 2 ^ 50)) = true := by
  have h := ns_le s l
  have e : areaBytes s l = 0x10000 + 0xE000 * l.ns s := by unfold areaBytes; rw [b]; simp
  have k : gaKey (BitVec.ofNat 64 (4 * 2 ^ 50)) = 4 * 2 ^ 50 := by decide
  have p : gaPkg (BitVec.ofNat 64 (4 * 2 ^ 50)) = s.pkgid := by rw [hs]; decide
  have q : bitsOf (BitVec.ofNat 64 (4 * 2 ^ 50)) 15 0 = 0 := by decide +kernel
  generalize l.ns s = n at *
  have r : keyRegion (4 * 2 ^ 50) = 4 := by decide
  have r2 : keyRegion (4 * 2 ^ 50 + (0x10000 + 0xE000 * n) - 1) = 4 := by unfold keyRegion; omega
  have o : keyOff (4 * 2 ^ 50) = 0 := by decide
  have o2 : keyOff (4 * 2 ^ 50 + (0x10000 + 0xE000 * n) - 1) < 0x2FE00000000 := by unfold keyRegion at r2; unfold keyOff; omega
  unfold areaOk
  simp only [k, p, q, e]
  generalize 4 * 2 ^ 50 + (0x10000 + 0xE000 * n) - 1 = f at r2 o2 ⊢
  simp only [r, r2, o, coordsOk, reservedKey]
  simp; omega
theorem test_PreemptionAndRepair_area : areaOk w0 l1 (BitVec.ofNat 64 (4 * 2 ^ 50)) = true := area_ok w0 l1 (by decide +kernel) (by decide +kernel)

theorem test_PreemptionAndRepair : launchAt w0 0 1 = none ∧ (lstatOf (wst 3 none) 0 0).1 = 3 ∧ l1.phase = .running ∧ areaOk w0 l1 0 = false ∧
    (lstatOf (wst 4 none) 0 0).1 = 4 ∧ ({ l1 with lostDie := true } : Launch).lostDie = true ∧ l1.saved = [] ∧ l1.repro = false ∧ l1.die < 16 ∧
    (∀ l, w0.launch 1 = some l → l.phase ≠ .halting) ∧ w0.slots = [(skey r1, w0.slot r1)] ∧ (w0.slot r1).occupied = true ∧ (w0.slot r1).launch = 1 ∧
    w0.launch 2 = none ∧ saveReady w0 l1 = false ∧ w0.repairBusy = false ∧ ({ w0 with repairBusy := true } : State).repairBusy = true ∧
    (∀ l ∈ w0.live, l.binds w0 ((0 * 512 + 1) * 16 + 3) = false ∧ l.repair = false) ∧ (∀ l ∈ w0.live, 1 ∉ l.boundDies) ∧ w0.dead (16 % 16) = false ∧ w0.ue = [] := by
  refine ⟨by decide +kernel, by decide +kernel, by decide +kernel, ?_, by decide +kernel⟩
  simp only [areaOk, show keyRegion (gaKey (0 : Word)) = 0 by decide +kernel]
  simp

/-- A die without launches whose carter has a copy to finish. -/
theorem test_PreemptionAndRepair_die : let s : State := { w0 with cores := [(8192, { Core.reset with jobs := [job1] })] }
    copiesOn s 1 = true ∧ copiesOn w0 1 = false ∧ (∀ l ∈ s.live, 1 ∉ l.boundDies ∧ l.repair = false) := by decide +kernel

/-- A launch whose one task has halted, and one that has halted with nothing saved and an area of no bytes. -/
def whalt (l : Launch) : State := { w0 with launches := [(1, some l)], slots := [(skey r1, { x1 with halt := .preempt })] }
def halting1 : Launch := { l1 with phase := .halting }
def halted1 : Launch := { l1 with phase := .halted, check := Config.checkCode [] }

theorem test_PreemptionAndRepair_save : (whalt halting1).launch 1 = some halting1 ∧ saveReady (whalt halting1) halting1 = true ∧ nextSave (whalt halting1) halting1 = some r1 ∧
    ((whalt halting1).slot r1).capsule = none ∧ berthXids ((whalt halting1).slot r1) = [] ∧ halting1.num = 1 := by decide +kernel

theorem test_PreemptionAndRepair_resume : resumable (wst 4 (some halted1)) halted1 = true ∧ halted1.saved = [] ∧ halted1.repro = false := by
  have h : halted1.repro = false := by decide +kernel
  refine ⟨?_, rfl, h⟩
  unfold resumable
  rw [h, show halted1.areaLen = 0 from rfl, show halted1.check = Config.checkCode [] from rfl, show halted1.phase = .halted from rfl,
    show halted1.lostDie = false from rfl, show (wst 4 (some halted1)).loads (saveKey (wst 4 (some halted1)) halted1) 0 = [] from rfl]
  simp

/-! ## Faults and the host -/

theorem test_TakingAFault : w0.hasRoom 0 = true ∧ (w0.slot r1).capsule = none ∧ (w0.modDie 0 fun d => { d with faultWait := [⟨recordFor 1 0 .trap none none 0, none⟩] }).hasRoom 0 = false ∧
    w0.launch (w0.slot r1).launch = some l1 ∧ (let s := wx fun x => { x with capsule := some 3, capStep := some 11 }; (s.slot r1).capsule = some 3 ∧ (s.slot r1).capStep = some 11 ∧ s.hasRoom 0 = true) := by decide +kernel

def rec2 : FaultRec := recordFor 1 0 .trap none none 0
/-- A die with a record, a ring of 64 entries, and the cycle in which a blocked one offers it again. -/
def wfb (f : Die → Die) : State := { w0.modDie 0 (fun d => f { d with faults := [rec2], eqsize := 6 }) with cycle := 5000 }

theorem test_FaultBuffer : let a := wfb id; let full := wfb fun d => { d with eqtail := 64 }; let again := wfb fun d => { d with blocked := true, lastOffer := 904 }
    (a.die 0).blocked = false ∧ (a.die 0).faults = [rec2] ∧ (a.die 0).faultWait = [] ∧ (a.die 0).pageWait = [] ∧ (a.die 0).returns = [] ∧ a.dead 0 = false ∧
    ((a.die 0).eqtail - (a.die 0).eqhead).toNat ≠ 2 ^ 6 ∧ ((full.die 0).eqtail - (full.die 0).eqhead).toNat = 2 ^ 6 ∧ ((w0.die 0).eqsize.extractLsb' 0 5).toNat = 0 ∧
    (again.die 0).blocked = true ∧ (again.die 0).lastOffer + 4096 ≤ again.cycle ∧ (w0.die 0).faults = [] ∧ State.reset.dead 0 = true ∧
    ((0x5000 : Word).extractLsb' 0 12 = 0 ∧ (w0.die 0).eqtail = (w0.die 0).eqhead) ∧ (0x5001 : Word).extractLsb' 0 12 ≠ 0 ∧ (31 : Word).toNat < 32 ∧ ¬ (32 : Word).toNat < 32 ∧
    2 ^ 50 < (0x3FFFFFFFFF000 : Word).toNat + 64 * 2 ^ 16 ∧ (0xFFFFFFFF : Word).toNat < 2 ^ 32 ∧ 2 ^ 32 ≤ (0x100000000 : Word).toNat ∧
    (w0.die 0).cfqHeld < (1 : Word).toNat ∧ (let s := wfb fun d => { d with cfqHeld := 3 }; (3 : Word).toNat ≤ (s.die 0).cfqHeld ∧ (s.die 0).returns = []) := by decide +kernel

/-- DBGSEL names core 1 of cluster 0, slot 0, which BRK has halted. -/
def wdbg (l : Launch) : State := { (w0.modDie 0 fun d => { d with dbgsel := 0x1000 }) with slots := [(skey r1, { x1 with halt := .debug })], launches := [(1, some l)] }

theorem test_FaultBuffer_debug : let v := ((wdbg l1).die 0).dbgsel
    (⟨0, (v.extractLsb' 0 9).toNat, (v.extractLsb' 12 4).toNat, (v.extractLsb' 16 3).toNat⟩ : SlotRef) = r1 ∧ ((wdbg l1).slot r1).halt = .debug ∧
    (wdbg halting1).launch 1 = some halting1 ∧ (wdbg l1).launch 1 = some l1 ∧ (w0.slot ⟨0, 0, 0, 0⟩).occupied = false ∧ (wdbg l1).dead 0 = false := by decide +kernel

theorem test_FaultBuffer_errors : (1 ≤ frameA / 2 ^ 50 ∧ frameA / 2 ^ 50 ≤ 4) ∧ (1 ≤ frameB / 2 ^ 50 ∧ frameB / 2 ^ 50 ≤ 4) ∧ localKey 1 8 / 2 ^ 50 = 0 ∧ localCore (localKey 1 8) = q1.slot.coreKey ∧
    isHere w0 q1 = true ∧ (let k := localKey 1 0x1008; let s := w0.modCore 1 fun c => { c with banks := [takeWait] };
      k / 2 ^ 33 = 1 ∧ (s.core 1).banks = [takeWait] ∧ takeWait.off / 8 = k % 2 ^ 19 / 8 ∧ isHere s takeWait.req = true ∧ (w0.core 1).banks = [] ∧
      (gaOf w0 k).toNat % 2 ^ 54 = k) := by decide +kernel

theorem test_HostInterface : w0.dead 0 = false ∧ State.reset.dead 3 = true ∧ w0.faben = false ∧ (1023 : Word).toNat < 1024 ∧ (BitVec.ofNat 64 (63 * 8) : Word) % 8 = 0 ∧
    (0x1F : Word) &&& ~~~0x73F#64 = 0 ∧ (0x80 : Word) &&& ~~~0x73F#64 ≠ 0 ∧ (0x10000 : Word).extractLsb' 0 16 = 0 ∧ (0x10001 : Word).extractLsb' 0 16 ≠ 0 ∧
    w0.snapAt = none ∧ ({ w0 with snapAt := some 0 } : State).snapAt = some 0 ∧ (0 : Nat) ≤ w0.cycle ∧ (∀ c, ({ w0 with snapAt := some 5 } : State).snapAt = some c → w0.cycle < c) := by
  refine ⟨by decide +kernel, by decide +kernel, by decide +kernel, by decide, by decide, by decide, by decide, by decide, by decide, by decide +kernel, rfl, by decide +kernel, ?_⟩
  intro c h; cases h; decide +kernel

/-- Accesses of the host to memory of die 0: private, lattice with a plot that is not frozen, retired. -/
theorem test_HostInterface_memory : let k := frameA; let kb := frameB; let s := wh2 maxI 0 []; let t : State := { w0 with frameAttr := [(frameA / 2 ^ 16, 8)] }
    k = 3 * 2 ^ 50 + 0 * 2 ^ 46 + 0x100000 ∧ (∀ i < 8, w0.isRetired (k + i) = false ∧ w0.isLattice (k + i) = false) ∧
    kb = 3 * 2 ^ 50 + 0 * 2 ^ 46 + 0x110000 ∧ s.isRetired kb = false ∧ s.isLattice kb = true ∧ plotValid (s.plot kb).attr = true ∧ plotFrozen (s.plot kb).attr = false ∧
    t.isRetired k = true ∧ 0x110000 + 1 ≤ 0xB80000000 := by decide +kernel

/-- FATTR on an HBM frame with no plot, on one whose plot is frozen, and on one whose plot is not. -/
theorem test_HostInterface_frames : let v := BitVec.ofNat 64 (frameB + 1); let k := v.toNat % 2 ^ 54 / 65536 * 65536
    let idle := fun (s : State) => (List.range 16).all fun i => !plotValid (s.plot (k + 4096 * i)).attr || plotFrozen (s.plot (k + 4096 * i)).attr
    v.toNat / 2 ^ 54 = w0.pkgid ∧ 1 ≤ k / 2 ^ 50 ∧ k / 2 ^ 50 ≤ 4 ∧ coordsOk (k / 2 ^ 50) (k % 2 ^ 50) = true ∧ reservedKey k = false ∧ v.toNat % 65536 < 3 ∧
    w0.isRetired k = false ∧ idle w0 = true ∧ idle (wh2 maxIFrozen 0 []) = true ∧ idle (wh2 maxI 0 []) = false := by decide +kernel

/-! ## Links, resets -/

def end1 : LinkEnd := ⟨3, true⟩
/-- A flit without slots, with a sound CHK. -/
def sum1 (seq : Nat) : BitVec 32 := flitCheck (BitVec.ofNat 128 (seq * 2 ^ 32)) (List.replicate 4 0)
def flit1 (seq : Nat) : Flit := ⟨BitVec.ofNat 128 (seq * 2 ^ 32 + (sum1 seq).toNat * 2 ^ 96), List.replicate 4 0⟩
def wl2 (f : Link → Link) : State := w0.setLink end1 (f { Link.reset with trained := true })

theorem flit1_ctrl (seq : Nat) (h : seq < 65536) : (flit1 seq).ctrl.toNat = seq * 2 ^ 32 + (sum1 seq).toNat * 2 ^ 96 := by
  have x := (sum1 seq).isLt
  simp only [flit1, BitVec.toNat_ofNat]; omega

theorem flit1_ok (seq : Nat) (h : seq < 65536) : flitOk (flit1 seq) = true := by
  have c := flit1_ctrl seq h
  have x := (sum1 seq).isLt
  have k : flitCheck (flit1 seq).ctrl (flit1 seq).slots = sum1 seq := by
    unfold sum1 flitCheck
    rw [c, show (flit1 seq).slots = List.replicate 4 0 from rfl, BitVec.toNat_ofNat]
    congr 3; omega
  unfold flitOk
  rw [k, c]
  generalize (sum1 seq).toNat = n at x
  simp [flit1, List.range_succ]; omega

theorem flit1_seq (seq : Nat) (h : seq < 65536) : (flit1 seq).ctrl.extractLsb' 32 16 = BitVec.ofNat 16 seq := by
  have c := flit1_ctrl seq h
  have x := (sum1 seq).isLt
  apply BitVec.eq_of_toNat_eq
  rw [BitVec.extractLsb'_toNat, c, BitVec.toNat_ofNat, Nat.shiftRight_eq_div_pow]; omega

def again1 (l : Link) : Link := { l with again := [flit1 1], replay := [flit1 1] }

theorem test_Links_send : sendReady w0 end1 = false ∧ sendReady (wl2 again1) end1 = true ∧ (enqueue (wl2 again1) end1).again = [flit1 1] ∧
    sendReady (wl2 fun l => { l with due := true }) end1 = true ∧ (enqueue (wl2 fun l => { l with due := true }) end1).again = [] :=
  ⟨by decide +kernel, by decide +kernel, rfl, by decide +kernel, by decide +kernel⟩

theorem test_Links_receive : (w0.link end1).trained = false ∧ ((wl2 id).link end1).trained = true ∧ flitOk (flit1 1) = true ∧ flitOk ⟨0, []⟩ = false ∧
    (flit1 1).ctrl.extractLsb' 32 16 = ((wl2 id).link end1).lastRx + 1 ∧ flitOk (flit1 0) = true ∧
    (flit1 0).ctrl.extractLsb' 32 16 ≠ ((wl2 id).link end1).lastRx + 1 := by
  refine ⟨by decide +kernel, by decide +kernel, flit1_ok 1 (by decide), by simp [flitOk], ?_, flit1_ok 0 (by decide), ?_⟩
  · rw [flit1_seq 1 (by decide)]; decide +kernel
  · rw [flit1_seq 0 (by decide)]; decide +kernel

def desc1 (cls : Nat) : BitVec 512 := BitVec.ofNat 512 (cls + 2 ^ 8)
def wtr (n : Nat) : State := { wl2 (fun l => { l with fenced := decide (n ≠ 0), resent := n }) with transits := [⟨5, .scrub, [end1]⟩] }

def open4 (s : State) : State := (s.setLink ⟨4, true⟩ { Link.reset with trained := true }).setLink ⟨4, false⟩ { Link.reset with trained := true }

theorem test_PortsAndWaves_discovery : (w0.link end1).trained = false ∧ ((wl2 id).link end1).trained = true ∧ ((wl2 id).link end1).heard = false ∧ portDie 3 = 0 ∧ (w0.die 0).inReset = false ∧
    16 ≤ portDie 512 ∧ descriptorOk (bytesOf 64 (desc1 0).toNat) = true ∧ ((desc1 0).extractLsb' 0 8).toNat = 0 ∧ classFits end1 0 = true ∧ end1.port < 512 ∧
    descriptorOk (bytesOf 64 0) = false ∧ descriptorOk (bytesOf 64 (desc1 2).toNat) = true ∧ classFits end1 2 = false ∧ end1.granary = true ∧ classFits ⟨3, false⟩ 2 = false ∧
    ((desc1 2).extractLsb' 0 8).toNat = 2 ∧ ((desc1 2).extractLsb' 32 10).toNat = w0.pkgid ∧ ((desc1 2).extractLsb' 32 10).toNat ≠ ({ w0 with pkgid := 1 } : State).pkgid ∧
    (State.reset.die 0).inReset = true ∧ (State.reset.die 0).fenced = false ∧ w0.discDone = false ∧ ({ w0 with discDone := true } : State).discDone = true := by
  decide +kernel

theorem test_PortsAndWaves_ports : w0.booted = false ∧ ({ w0 with booted := true } : State).booted = true ∧ ((wtr 16).link end1).resent = 16 ∧ ((wtr 16).link end1).trained = true ∧
    ((wtr 15).link end1).resent < 16 ∧ (fenceEnds (wtr 0) 3).working (portDie 3) = [] ∧ (fenceEnds (open4 (wtr 0)) 3).working (portDie 3) = [4] ∧
    ((wtr 0).transits.map Transit.xid).Nodup ∧ (wtr 0).transits[0]? = some ⟨5, .scrub, [end1]⟩ ∧
    ((open4 (fenceEnds (wtr 0) 3)).link end1).isOpen = false ∧ (open4 (fenceEnds (wtr 0) 3)).working (portDie end1.port) ≠ [] := by
  decide +kernel

/-- A port with a packet in its queue and nothing sent, and one whose last flit the other end has accepted. -/
theorem test_PortsAndWaves_unsent : let l : Link := { Link.reset with out := #v[[⟨5, 0, [7], false⟩], [], [], []] }
    l.replay = [] ∧ l.begun.getD 0 false = false ∧ (∀ p ∈ l.out.getD 0 [], p.chan = 0 ∧ p.slots ≠ [] ∧ p.goesOn = false) ∧
    ({ l with replay := [flit1 1] } : Link).replay = [flit1 1] := ⟨rfl, rfl, by decide +kernel, rfl⟩

/-- A fibre with both spares free; one whose spares serve wavelengths 0 and 1; one that has lost its spares, with lane 1 shut. -/
theorem test_PortsAndWaves_waves : let m := Fibre.reset; let n : Fibre := ⟨3, #v[some 0, some 1], 0⟩; let o : Fibre := ⟨0x30100, #v[none, none], 2⟩
    SMap.get w0.waves Fibre.reset 127 = m ∧ SMap.get ({ w0 with waves := [(127, n)] } : State).waves Fibre.reset (2 * 63 + 1) = n ∧
    (m.bad.getLsbD 5 = false ∧ m.shut.getLsbD (5 / 8) = false ∧ (∃ j < 2, m.bad.getLsbD (16 + j) = false ∧ m.serves.getD j none = none ∧ 16 + j ≠ 5)) ∧
    (n.bad.getLsbD 5 = false ∧ n.shut.getLsbD (5 / 8) = false ∧ (∀ j < 2, ¬ (n.bad.getLsbD (16 + j) = false ∧ n.serves.getD j none = none ∧ 16 + j ≠ 5))) ∧
    (m.bad.getLsbD 16 = false ∧ m.serves.getD (16 - 16) none = none) ∧ (n.bad.getLsbD 16 = false ∧ n.serves.getD (16 - 16) none = some 0) ∧
    (o.bad.getLsbD 9 = false ∧ o.shut.getLsbD (9 / 8) = true) ∧ n.bad.getLsbD 1 = true ∧ (2049 : Nat) > 2048 := by decide +kernel

/-- Whether a port trains is free (log 13): one of the two clauses applies. -/
theorem test_PortsAndWaves_trains (n : Nat) : Config.trains n = true ∨ Config.trains n = false := by cases Config.trains n <;> simp

def l6 : Launch := { l1 with bytes := patch l1.bytes 36 [100] }

theorem test_Resets : leastEbud (w0.setLaunch 1 l6) 1 = some 100 ∧ 16 ≤ 16 ∧ (15 : Nat) < 16 ∧ (∀ l ∈ w0.live, l.saved = []) ∧ keyRegion (localKey 1 8) = 0 ∧ w0.homeDie (localKey 1 8) = 0 ∧ keyRegion frameA = 3 ∧ w0.homeDie frameA = 0 ∧
    keyRegion (cellarKey 8) = 4 ∧ w0.homeDie (hbmKey 1 8) = 1 ∧ (w0.die 0).tdisp = .configUnlocked ∧ (w0.modDie 0 fun d => { d with tdisp := .run }).die 0 ≠ w0.die 0 ∧ refillAmount w0 1 = none ∧ r1.die = 0 ∧ r1.cluster < 512 ∧ r1.core < 16 ∧ r1.slot < 8 := by decide +kernel


/-! ## The machine as a whole -/

/-- Memory that is and that is not in its canonical form, and a step that goes on. -/
theorem test_StepKeepsMemory : Memory.wf wf1.mem = true ∧ Memory.wf [(2, 0)] = false ∧ Memory.wf [(3, 1), (2, 1)] = false ∧ (match step wf1 with | .next _ => true | _ => false) = true := by
  decide +kernel

/-- Each turn that a step may take, a message to a die in reset, a slot that cannot issue, and moves that are possible. -/
theorem test_StepsAreMoves : ({ w0 with turn := .tick } : State).turn = .tick ∧ ({ w0 with turn := .act .scrub } : State).turn = .act .scrub ∧ ({ w0 with turn := .deliver 1 } : State).turn = .deliver 1 ∧ w0.agenda[1]? = none ∧
    (let s : State := { w0 with agenda := [.scrub, .joinPacket (join1 0 2)] };
      s.agenda[0]? = some .scrub ∧ isLost s .scrub = false ∧ s.agenda[1]? = some (.joinPacket (join1 0 2)) ∧ isLost { s with dies := [] } (.joinPacket (join1 0 2)) = true ∧
      Turn.deliver 1 ∈ Machine.moves s ∧ pressWaits s .scrub = false) ∧
    wf1.turn = .slot r1 ∧ mayIssue wf1 r1 = true ∧ Turn.slot r1 ∈ Machine.moves wf1 ∧ mayIssue State.reset r1 = false := by decide +kernel

theorem test_RegisterFrame : (match exec (.add ⟨.i, .s64, 1, 2, .ri 5⟩) w0 with | .next t => decide (t.focus.disp = .done) | _ => false) = true ∧
    (match exec (.viadd ⟨2, 7, 0, 1, .rr 2⟩) w0 with | .next t => decide (t.focus.disp = .done) | _ => false) = true ∧ w0.cur.bind6 = none ∧ w0.cur.bind7 = none ∧
    Spec.onlyG (.add ⟨.i, .s64, 1, 2, .ri 5⟩) = some [1] ∧ (Spec.onlyV (.viadd ⟨2, 7, 0, 1, .rr 2⟩)).isSome = true ∧
    (Spec.onlyV (.viadd ⟨2, 7, 0, 1, .rr 2⟩)).all (fun l => l.length = 1) = true := by decide +kernel

/-- The first row of the table runs as the first instruction after reset. -/
theorem test_withFetchWord : (match step (State.reset.withFetchWord 32 0x50323011) with | .next t => decide ((t.slot loaderSlot).getG 1 = 5 ∧ (t.slot loaderSlot).pc = 66) | _ => false) = true := by decide +kernel

/-- A well-formed instruction of each kind of tail, and a word that decodes. -/
theorem test_DecodeEncode : Instr.wf .tend = true ∧ Instr.wf (.ctz ⟨.s64, 2, 10⟩) = true ∧ Instr.wf (.add ⟨.i, .s64, 1, 2, .ri 5⟩) = true ∧
    Instr.wf (.lth ⟨1, 0, false, 2, 8, 11, none, ⟨4, 14, 0⟩⟩) = true ∧ Instr.wf (.movl 0 1 (.rl64 7)) = true ∧ decodeWord 0x9162 0x0F0A = some (.ctz ⟨.s64, 2, 10⟩) := by
  decide +kernel
/-- A reproducible launch of eight lanes, and a second task of it in slot 1, whose S2 covers [0x1000, 0x2000). -/
def l7 : Launch := { l1 with bytes := patch l1.bytes 18 [1] }
def two1 : State := (w0.setLaunch 1 l7).setSlot { r1 with slot := 1 } x1

theorem test_SpecialRegisters_overlapping : isRepro two1 two1.cur.launch = true ∧
    Spec.overlapping two1 two1.me (mkSeg 0x100 false false true true 0x1F80) ∧
    ¬ Spec.overlapping w0 w0.me (mkSeg 0x100 false false true true 0x1F80) := by
  refine ⟨by decide +kernel, ⟨by decide +kernel, by decide +kernel, by decide +kernel, 1, by decide +kernel, by decide +kernel, by decide +kernel,
    2, by decide +kernel, by decide +kernel, by decide +kernel, by decide +kernel, by decide +kernel, by decide +kernel⟩,
    fun ⟨_, _, _, j, h, n, o, _⟩ => ?_⟩
  have e : ∀ j < 8, j ≠ w0.me.slot → (w0.slot { w0.me with slot := j }).occupied = false := by decide +kernel
  exact Bool.false_ne_true ((e j h n).symm.trans o)

/-- F32 inputs: an absent one alone, a NaN among numbers, and 1, -0 and 2 with an absent one. -/
theorem test_Reductions_floats : let t := tabA w0 13; let there := fun x => decide (decodeVal 13 t x ≠ .absent)
    let ins := [0x3F800000, absentCode 13, 0x80000000, 0x40000000].filter there
    [absentCode 13].filter there = [] ∧ Val.nan ∈ ([0x3F800000, 0x7FC00000].filter there).map (decodeVal 13 t) ∧
    ins = [0x3F800000, 0x80000000, 0x40000000] ∧ Val.nan ∉ ins.map (decodeVal 13 t) := by decide +kernel

/-- A root group of a reproducible launch bound to die 3 alone, which is in reset: its round has lane 0 and lacks lane 1. -/
def l8 : Launch := { l7 with bytes := patch l7.bytes 24 [8] }
def wlack : State := (wp.setLaunch 1 l8).setGroup 1 { wp.group 1 with arrived := [0] }

theorem all_of (s : State) (l : Launch) (d : l.dies = 8) (c : Nat) (m : c ∈ l.cores s) : c / 8192 = 3 := by
  rw [Launch.cores, List.mem_filter] at m
  have bound := m.2
  simp only [Launch.binds, d, Bool.and_eq_true, decide_eq_true_eq] at bound
  have two : 8 / 2 ^ (c / 8192) % 2 = 1 := bound.1.1.1.1
  have lt : c / 8192 < 16 := by have := bound.1.2; omega
  generalize c / 8192 = n at two lt ⊢
  revert two; revert n; decide
theorem slotAt_of (s : State) (l : Launch) (i : Nat) (b : i / 8 < (l.cores s).length) :
    ∃ c ∈ l.cores s, l.slotAt s i = some (refOf c (i % 8)) := by
  have at_ : ∀ (cs : List Nat) (j : Nat), j < cs.length → ∃ c ∈ cs, cs[j]? = some c :=
    fun cs j h => ⟨_, List.getElem_mem h, List.getElem?_eq_getElem h⟩
  obtain ⟨c, m, e⟩ := at_ (l.cores s) (i / 8) b
  refine ⟨c, m, ?_⟩
  unfold Launch.slotAt
  rw [e]
theorem laneSlot_of (s : State) (l : Launch) (e : l.lanes = 8) (d : l.dies = 8) (h : 24577 ∈ l.cores s) : ∃ r, l.laneSlot s 1 = some r ∧ r.die = 3 := by
  have n : 0 < (l.cores s).length := List.length_pos_of_mem h
  have b : (1 * l.ns s / l.lanes) / 8 < (l.cores s).length := by rw [e, Launch.ns]; omega
  obtain ⟨c, m, e⟩ := slotAt_of s l _ b
  exact ⟨_, e, all_of s l d c m⟩

theorem test_PressMoves_lacksDie : Spec.lacksDie wlack 1 ∧ ¬ Spec.lacksDie wp 0 := by
  obtain ⟨r, e, d⟩ := laneSlot_of wlack l8 (by decide +kernel) (by decide +kernel) (List.mem_filter.mpr ⟨List.mem_range.mpr (by decide), by decide +kernel⟩)
  exact ⟨⟨by decide +kernel, ⟨3, by decide +kernel⟩, l8, by decide +kernel, by decide +kernel, 1, by decide +kernel, by decide +kernel,
    r, e, d ▸ by decide +kernel⟩, fun h => absurd h.1 (by decide +kernel)⟩

theorem test_PressMoves_rounds : let q := requesterOf w0 r1; let t := wp.setGroup 0 { wp.group 0 with roundOf := [9] }
    Spec.roundFor wlack q 1 = (wlack.group 1).round ∧ Spec.roundFor t q 0 ≠ (t.group 0).round := by decide +kernel
/-- Registrations on the word at `frameB`: whether its kind and width are those of the wait, and a trigger reached or not. -/
theorem test_JoinsAndFillsAtHome_waits : let s := wh2 maxI 0 [5, 0, 0, 0]; let u := wh2 unionB 0 [6]; let k := gaKey ga1
    Spec.barred s k (Spec.kindOf s k = 0 ∧ fmtWidth (Spec.fmtOf s k) = 32 ∧ (s.plot k).gran = 0 ∧ Spec.named s k = false) False = none ∧
    Spec.barred u k (Spec.kindOf u k = 2 ∧ fmtWidth (Spec.fmtOf u k) = 8 ∧ (u.plot k).gran = 0 ∧ Spec.named u k = false) False = none ∧
    (0x80000000 : Word).toNat = absentCode 2 ∧ (5 : Word).toNat ≠ absentCode 2 ∧ u.loadNat k 1 = 6 ∧
    Spec.reached 4 7 5 5 ∧ ¬ Spec.reached 4 7 5 6 := by
  refine ⟨by decide +kernel, by decide +kernel, by decide +kernel, by decide +kernel, by decide +kernel, ?_, ?_⟩ <;> simp [Spec.reached]

/-- A word location unfilled, filled with 7, TOP and NEVER; a tile of 4 KiB and its frozen plot; a count at its threshold. -/
theorem test_JoinsAndFillsAtHome_kinds : let k := gaKey ga1
    (∀ st ∈ [0, 1, 2, 3], let s := wh2 tileI st [7, 0, 0, 0]; fillState s k = st ∧ s.loadNat k 4 = 7 ∧
      Spec.barred s k (Spec.kindOf s k = 5 ∧ fmtWidth (Spec.fmtOf s k) = 32 ∧ (s.plot k).gran = 0 ∧ Spec.named s k = false) False = none) ∧
    (∀ st ∈ [0, 1, 2, 3], let s := w0.setPlot frameB ⟨plotAttr 5 2 0 false 0 false 0, 12, if st = 0 then [] else [(0, st)], []⟩; fillState s k = st ∧
      Spec.barred s k (Spec.kindOf s k = 5 ∧ (s.plot k).gran = 12 ∧ Spec.named s k = false) False = none) ∧
    (∀ st ∈ [0, 1, 2, 3], let s := w0.setPlot frameB ⟨plotAttr 5 0x0B 0 false 0 false 0, 12, if st = 0 then [] else [(0, st)], []⟩; fillState s k = st ∧
      Spec.barred s k (Spec.kindOf s k = 5 ∧ (s.plot k).gran = 12 ∧ Spec.fmtOf s k = 0x0B) False = none) ∧
    (let s := wh2 countN 0 [5, 0, 0, 0]; Spec.barred s k (Spec.kindOf s k = 4 ∧ Spec.fmtOf s k = 7) False = none ∧
      (5 : Word).toNat ≤ s.loadNat k 8 ∧ s.loadNat k 8 < (6 : Word).toNat) := by decide +kernel

/-- Two tasks wait at the maximum 5: for 5, which is reached, and for 6, which is not. -/
def reg1 (t : Word) : RegPkt := ⟨q1, 1, ga1, .lth 0 32 false [t]⟩
def wwait : State := { wh2 maxI 0 [5, 0, 0, 0] with waiters := [reg1 6, reg1 5] }

theorem test_JoinsAndFillsAtHome_woken : (waitOutcome wwait (reg1 5)).isSome = true ∧ waitOutcome wwait (reg1 6) = none ∧
    (Machine.touched wwait (gaKey ga1) 4).waiters = [reg1 6] ∧ (Machine.touched wwait (gaKey ga1) 4).agenda.length = wwait.agenda.length + 1 := by decide +kernel

/-- Round 0 of lanes 3 and 4 with the request of lane 4, and with lane 3 having left. -/
def round2 : CountRound := { round1 with reqs := [count1 4 0] }

theorem test_ReadsAndWritesAtHome_rounds : let s := wg 0 [round2]; let k := gaKey ga1
    Spec.barred s k (Spec.kindOf s k = 4 ∧ Spec.fmtOf s k = 7) True = none ∧ roundOf s k 0 = some round2 ∧ lowRound s k = 0 ∧
    5 ∉ round2.members ∧ (3 ∈ round2.members ∧ 3 ∈ ({ round2 with left := [3] } : CountRound).left) ∧
    (4 ∈ round2.members ∧ 4 ∉ round2.left ∧ ∃ q ∈ round2.reqs, q.lane = 4) ∧ (3 ∈ round2.members ∧ 3 ∉ round2.left ∧ ∀ q ∈ round2.reqs, q.lane ≠ 3) ∧
    roundOf (wg 2 []) k 2 = none ∧ (∀ l ∈ round2.members, l ∈ ({ round2 with left := [3] } : CountRound).left ∨ ∃ q ∈ round2.reqs, q.lane = l) ∧
    nextRound (wg 0 [round1]) k = some round1 ∧ [count1 3 0, count1 4 0].Perm round1.reqs ∧
    [count1 3 0, count1 4 0].Pairwise fun x y => x.lane < y.lane := by decide +kernel
/-- An instruction whose one answer has come: of a request, or of a load. -/
def answer1 (bs : List Byte) : Answer := ⟨9, none, 0, 5, 7, bs⟩
def parkB (i : Instr) (c : ParkCond) : Park := ⟨i, 2, c, 0⟩
def replied (w : Option (BitVec 256 × Nat)) : ParkCond := .loads ⟨[(9, [])], w, [], none⟩
def wb1 (i : Instr) (c : ParkCond) (bs : List Byte) : State := wx fun x => { x with parks := [parkB i c], answers := [answer1 bs] }

theorem arrived1 (i : Instr) (c : ParkCond) (bs : List Byte) (h : c = .answers [9] ∨ ∃ w, c = replied w) :
    Spec.arrived (wb1 i c bs) r1 (parkB i c) [answer1 bs] := by
  refine ⟨rfl, rfl, rfl, rfl, by simp [answer1], [9], ?_, rfl⟩
  rcases h with rfl | ⟨w, rfl⟩
  · exact .inl rfl
  · exact .inr ⟨_, rfl, rfl⟩

theorem test_AnswersAtTask_loads : let m : Mem := ⟨4, 0, .ms 0⟩; let c := replied none; let bs := bytesOf 16 5
    Spec.arrived (wb1 (.ld ⟨.i, .s64, 1, m⟩) c bs) r1 (parkB (.ld ⟨.i, .s64, 1, m⟩) c) [answer1 bs] ∧
    Spec.arrived (wb1 (.ldp 2 m) c bs) r1 (parkB (.ldp 2 m) c) [answer1 bs] ∧
    Spec.brought (parkB (.ldp 2 m) c) [answer1 bs] = bs :=
  ⟨arrived1 _ _ _ (.inr ⟨_, rfl⟩), arrived1 _ _ _ (.inr ⟨_, rfl⟩), by decide +kernel⟩

/-- A segment image, a stream's and a table. -/
def seg1 : BitVec 128 := mkSeg 0x100 false false true true 0x5FF00
def table1 : List Byte := (List.range' 0 1024).map tableByte

theorem test_AnswersAtTask_images : let m : Mem := ⟨4, 0, .ms 0⟩; let c := replied none; let g := bytesOf 16 seg1.toNat; let d := bytesOf 32 (image1.toNat - 2 ^ 63)
    Spec.arrived (wb1 (.segld 3 m) c g) r1 (parkB (.segld 3 m) c) [answer1 g] ∧ Spec.imageAccepted (BitVec.ofNat 128 (natOf g)) ∧
    isRepro (wb1 (.segld 3 m) c g) ((wb1 (.segld 3 m) c g).slot r1).launch = false ∧
    Spec.arrived (wb1 (.sdset 1 m) c d) r1 (parkB (.sdset 1 m) c) [answer1 d] ∧ Spec.imageTaken (BitVec.ofNat 256 (natOf d)) ∧
    Spec.arrived (wb1 (.fmtld 3 m) c table1) r1 (parkB (.fmtld 3 m) c) [answer1 table1] ∧
    tableOk ((List.range 256).map fun k => BitVec.ofNat 32 (natOf ((table1.drop (4 * k)).take 4))) = true := by
  refine ⟨arrived1 _ _ _ (.inr ⟨_, rfl⟩), by unfold Spec.imageAccepted; decide +kernel, by decide +kernel, arrived1 _ _ _ (.inr ⟨_, rfl⟩),
    by unfold Spec.imageTaken; decide +kernel, arrived1 _ _ _ (.inr ⟨_, rfl⟩), ?_⟩
  rw [List.map_congr_left fun k hk => by rw [table1, table_word k (List.mem_range.mp hk)]]
  decide +kernel

/-- Two elements of F32 asked for, for V2 and for a stream of local memory at S2. -/
def stream1 : BitVec 256 := BitVec.ofNat 256 (2 * 2 ^ 56 + 13 * 2 ^ 51 + 4 * 2 ^ 64 + 20 * 2 ^ 128 + 2 ^ 160)

theorem test_AnswersAtTask_vectors : let m : Mem := ⟨4, 0, .ms 0⟩; let o : VMem := ⟨13, 0, 2, m⟩; let bs := bytesOf 8 0x4000000000000000
    (∀ dst, Spec.arrived (wb1 (.vld o) (replied dst) bs) r1 (parkB (.vld o) (replied dst)) [answer1 bs]) ∧
    segSpace ((wb1 (.vld o) (replied (some (stream1, 0))) bs).cur.getS (sdSeg stream1)) = false ∧
    (∀ j < fmtElems 13, 0 + j < sdBound0 stream1 * sdBound1 stream1 →
      Spec.reach (x1.getS (sdSeg stream1)) (sdElem stream1 (0 + j)) (fmtWidth 13 / 8) false true = some (0x1000 + 4 * j)) :=
  ⟨fun _ => arrived1 _ _ _ (.inr ⟨_, rfl⟩), by decide +kernel, by decide +kernel⟩

theorem test_AnswersAtTask_answers : let m : MemR := ⟨4, 2, 0x1000⟩; let c := ParkCond.answers [9]
    (∀ i ∈ [joinf1, .ldtAddr 0 1 2 m, .ldt 0 1 ⟨2, 1, 0⟩, .ldf ⟨0x69, 5, ⟨4, 14, .ms 0⟩⟩, .lth ⟨5, 2, false, 2, 8, 11, none, m⟩],
      ∀ bs, Spec.arrived (wb1 i c bs) r1 (parkB i c) [answer1 bs]) :=
  fun _ _ _ => arrived1 _ _ _ (.inl rfl)
/-- A router whose rick holds the tile, asked by one of its own cores and by another router. -/
def tile1 : List Byte := List.replicate 4096 0
def rick1 : State := wn.setRouter 1 ⟨[], [(name1 6 0, tile1), (name1 5 0, tile1)]⟩

theorem resolves1 (s : State) (h : s.tensors = [(1, entry4)]) : Spec.resolves s (name1 5 0) entry4 := by
  have e : s.tensor 1 = entry4 := by unfold State.tensor; rw [h]; rfl
  exact ⟨by decide +kernel, e, by decide +kernel, by decide +kernel, by decide +kernel, by decide +kernel⟩

theorem test_NamedTiles_rick : Spec.resolves rick1 (name1 5 0) entry4 ∧ Spec.entry entry4 7 1 = int1.n ∧ 0 ≤ Spec.ahead entry4 int1.name ∧
    (rick1.router 1).rick = [(name1 6 0, tile1)] ++ (int1.name, tile1) :: [] ∧ (∀ x ∈ [(name1 6 0, tile1)], x.1 ≠ int1.name) ∧
    isHere rick1 int1.req = true ∧ tile1.length = 2 ^ int1.n ∧ int1.tag = none :=
  ⟨resolves1 _ rfl, by decide +kernel, by decide +kernel, rfl, by decide +kernel, by decide +kernel, by decide +kernel, rfl⟩

/-- An entry of the name, with and without the router that asks; a full table; a name of no tensor, one past the tiles, and a tile of another size. -/
theorem test_NamedTiles_router : Spec.resolves (has1 [2] []) (name1 5 0) entry4 ∧ Spec.resolves full1 (name1 5 0) entry4 ∧
    ((has1 [2] []).router 1).table = [] ++ ⟨name1 5 0, [], [2]⟩ :: [] ∧ (∀ x ∈ ((has1 [2] []).router 1).rick, x.1 ≠ int1.name) ∧
    Spec.ahead entry4 (name1 4 7) < 0 ∧
    Spec.entry (wn.tensor ((BitVec.ofNat 64 (2 * 2 ^ 48) : Word).extractLsb' 48 16).toNat) 0 2 % 2 = 0 ∧
    Spec.entry (wn.tensor ((name1 5 1024).extractLsb' 48 16).toNat) 12 4 ≤ ((name1 5 1024).extractLsb' 0 32).toNat ∧
    4096 ≤ ((BitVec.ofNat 64 (4096 * 2 ^ 48) : Word).extractLsb' 48 16).toNat ∧ Spec.entry entry4 7 1 ≠ ({ int1 with n := 11 } : InterestPkt).n :=
  ⟨resolves1 _ rfl, resolves1 _ rfl, rfl, by decide +kernel, by decide +kernel, by decide +kernel, by decide +kernel, by decide +kernel, by decide +kernel⟩

/-- A packet stuck at an end while its store has places, and behind one that another die's full store holds back. -/
def stuck1 : State := { wstore with stuck := [(1, ⟨5, true⟩, fillIn), (0, ⟨3, true⟩, fillIn)] }

theorem test_NamedTiles_stuck : releasable stuck1 0 1 = none ∧ 1 = (stuck1.die 0).store.length ∧
    stuck1.stuck = [(1, ⟨5, true⟩, fillIn)] ++ (0, ⟨3, true⟩, fillIn) :: [] ∧
    (let held := fun x : Nat × LinkEnd × Instr => decide (x.1 ≠ 0) || decide (16777216 ≤ (stuck1.die 0).store.length) && !mayLeave stuck1 x.2.2;
      held (1, ⟨5, true⟩, fillIn) = true ∧ held (0, ⟨3, true⟩, fillIn) = false) ∧
    16777216 ≤ ((w0.modDie 0 fun d => { d with store := List.replicate 16777216 fillIn }).die 0).store.length := by
  refine ⟨by decide +kernel, rfl, rfl, by decide +kernel, ?_⟩
  show 16777216 ≤ (List.replicate 16777216 fillIn).length
  rw [List.length_replicate]
/-- A tile of two rows of two I32 from row 1 and column 3 of a tensor of 4 by 4, pitches 16 and 8, to 0xFF0; two blocks of 16 bytes dealt to two places 16 apart. -/
def tileD : BitVec 512 := BitVec.ofNat 512 (natOf (bytesOf 8 0 ++ bytesOf 8 16 ++ bytesOf 4 4 ++ bytesOf 4 4 ++ bytesOf 4 1 ++ bytesOf 4 3 ++
  bytesOf 2 2 ++ bytesOf 2 2 ++ [2, 0x24, 0x0B, 0] ++ bytesOf 8 0 ++ bytesOf 8 0xFF0 ++ bytesOf 8 8))
def dealD : BitVec 512 := BitVec.ofNat 512 (natOf (bytesOf 8 0 ++ bytesOf 8 0x800 ++ bytesOf 8 16 ++ bytesOf 4 16 ++ bytesOf 4 2 ++ [2, 0x24, 0x0B] ++ bytesOf 5 0 ++
  bytesOf 8 0 ++ bytesOf 8 8))

theorem test_CarterAndThresher_shapes : let f := Spec.field tileD 36 1
    f = 2 ∧ 1 < Spec.field tileD 32 2 ∧ 7 < Spec.field tileD 34 2 * (fmtWidth f / 8) ∧
    (0 ≤ Spec.fieldS tileD 24 4 + 1 ∧ Spec.fieldS tileD 24 4 + 1 < Spec.field tileD 16 4 ∧ Spec.fieldS tileD 28 4 + 0 < Spec.field tileD 20 4) ∧
    ¬ Spec.fieldS tileD 28 4 + 1 < Spec.field tileD 20 4 ∧ 1 ≤ Spec.field dealD 24 4 ∧ 1 ≤ Spec.field dealD 32 1 ∧ 1 < Spec.field dealD 32 1 ∧
    1 < Spec.field dealD 28 4 := by decide +kernel

/-- A copy between the private pages of global memory and local memory, from a page that no leaf leads to, and of a tile. -/
def jobFar : Job := { job1 with copy := { copy1 with sseg := w0.cur.getS 4 } }
def jobMiss : Job := { job1 with copy := { copy1 with sseg := mkSeg 0x1000 true false true true 0x30000 } }
def jobTile : Job := { job1 with copy := { copy1 with kind := .tile tileD } }
def jobOut : Job := { job1 with copy := { copy1 with dseg := w0.cur.getS 4 }, got := jobRead.got }

/-- Where one source byte at most belongs to each place, nothing is free in what a copy does next. -/
def cells0 (j : Job) (off : Nat) : List (Nat × Nat × Nat) :=
  (unitOffs j.copy.dseg (unitOf j.copy.dseg off)).filterMap fun off => ((takers j.copy.kind off)[0]?).map fun t => (off, t)

theorem cells_one (j : Job) (off : Nat) (h : ∀ y ∈ unitOffs j.copy.dseg (unitOf j.copy.dseg off), (takers j.copy.kind y).length ≤ 1) :
    cellsOf j (unitOf j.copy.dseg off) = cells0 j off := by
  refine List.filterMap_congr fun y hy => ?_
  have l := h y hy
  match e : takers j.copy.kind y with
  | [] => rfl
  | [a] =>
    show Option.map _ ([a][_ % 1]?) = Option.map _ ([a][0]?)
    rw [Nat.mod_one]
  | a :: b :: t => rw [e] at l; exact absurd l (by simp)

theorem copyTurn_at (j : Job) (r : Nat × Nat) (h1 : ¬ (j.armed = true ∨ j.waiting = true)) (h2 : j.fault = none) (h3 : j.code = none)
    (h4 : (runsOf j.copy.kind)[j.run]? = some r)
    (h5 : ∀ y ∈ unitOffs j.copy.dseg (unitOf j.copy.dseg (r.1 + j.pos)), (takers j.copy.kind y).length ≤ 1) :
    copyTurn j = let cells := cells0 j (r.1 + j.pos); let n := min (r.2 - j.pos) (64 - (segBase j.copy.dseg + (r.1 + j.pos)) % 64)
      if n = 0 ∨ (cells.any fun c => (takers j.copy.kind c.1).any fun t => decide (t.1 < j.run)) = true then .pass n
      else match missingFor j cells with | some x => .read x | none => .write cells n := by
  unfold copyTurn
  rw [if_neg h1, h2]
  simp only [h3, h4, Option.isSome_none, Bool.false_eq_true, if_false, cells_one j _ h5]
  all_goals rfl

theorem turn_is (j : Job) (r : Nat × Nat) (t : CopyTurn) (h : (¬ (j.armed = true ∨ j.waiting = true) ∧ j.fault = none ∧ j.code = none) ∧
    (runsOf j.copy.kind)[j.run]? = some r ∧
    (∀ y ∈ unitOffs j.copy.dseg (unitOf j.copy.dseg (r.1 + j.pos)), (takers j.copy.kind y).length ≤ 1) ∧
    (let cells := cells0 j (r.1 + j.pos); let n := min (r.2 - j.pos) (64 - (segBase j.copy.dseg + (r.1 + j.pos)) % 64);
      (if n = 0 ∨ (cells.any fun c => (takers j.copy.kind c.1).any fun t => decide (t.1 < j.run)) = true then CopyTurn.pass n
      else match missingFor j cells with | some x => .read x | none => .write cells n) = t)) : copyTurn j = t :=
  (copyTurn_at j r h.1.1 h.1.2.1 h.1.2.2 h.2.1 h.2.2.1).trans h.2.2.2

theorem test_CarterAndThresher_reads : (copyTurn jobFar = .read 8 ∧ copyTurn jobMiss = .read 8) ∧
    (∀ j ∈ [jobFar, jobMiss], jobOf (wj j) 1 j.id = some j ∧ reads j.copy.kind 8 = true) ∧
    Spec.copyKey (wj jobFar) 1 jobFar.copy jobFar.copy.sseg 8 1 = some (frameA + 8) ∧ (wj jobFar).isLattice (frameA + 8) = false ∧ (wj jobFar).ue = [] ∧
    segSpace jobMiss.copy.sseg = true ∧ (wj jobMiss).lookup (1 / 16) jobMiss.copy.req.launch ((segBase jobMiss.copy.sseg + 8) % 2 ^ 56) = none :=
  ⟨⟨turn_is _ (16, 100) _ (by decide +kernel), turn_is _ (16, 100) _ (by decide +kernel)⟩, by decide +kernel⟩

/-- The first source byte of the tile: its aligned 64 lie inside S2. -/
theorem test_CarterAndThresher_tile : copyTurn jobTile = .read 28 ∧ jobOf (wj jobTile) 1 4 = some jobTile ∧
    ∀ y, (segBase jobTile.copy.sseg + y) / 64 = (segBase jobTile.copy.sseg + 28) / 64 → segOk jobTile.copy.sseg y 1 true false = true := by
  refine ⟨turn_is _ (0xFF0, 8) _ (by decide +kernel), by decide +kernel, fun y h => ?_⟩
  have e : segBase jobTile.copy.sseg = 0x1000 := by decide +kernel
  rw [e] at h
  have b : y < 64 := by omega
  clear h
  revert y; decide +kernel

theorem test_CarterAndThresher_writes : (∀ j ∈ [jobRead, jobOut], (cells0 j 16).head?.map Prod.fst = some 16) ∧
    (copyTurn jobRead = .write (cells0 jobRead 16) 48 ∧ copyTurn jobOut = .write (cells0 jobOut 16) 48) ∧
    Spec.copyKey (wj jobRead) 1 copy1 copy1.dseg 16 2 = some (localKey 1 0x2010) ∧ (wj jobRead).isLattice (localKey 1 0x2010) = false ∧
    Spec.copyKey (wj jobOut) 1 jobOut.copy jobOut.copy.dseg 16 2 = some (frameA + 16) ∧ (wj jobOut).isLattice (frameA + 16) = false ∧
    (let j := { jobDone with copy := { copy1 with notify := some 8 } };
      copyTurn j = .notify 8 100 ∧ segSpace j.copy.nseg = true ∧ segBase j.copy.nseg % 8 = 0 ∧
      Spec.copyKey (wj j) 1 j.copy j.copy.nseg 8 2 = some (frameB + 8) ∧ (wj j).isLattice (frameB + 8) = true) :=
  ⟨by decide +kernel, ⟨turn_is _ (16, 100) _ (by decide +kernel), turn_is _ (16, 100) _ (by decide +kernel)⟩, by decide +kernel⟩

/-- Each turn of a copy that is not at its end: it reads, it writes, it waits for its writes and for its walk; one whose lone fault stops it. -/
theorem test_CarterAndThresher_order : ({ job1 with waiting := true } : Job).waiting = true ∧ jobArm.armed = true ∧
    (runsOf job1.copy.kind)[job1.run]? = some (16, 100) ∧ job1.pos < 100 ∧ (runsOf jobDone.copy.kind)[jobDone.run]? = none ∧
    (notifiesOf ({ copy1 with notify := some 8 } : CopyReq))[0]? = some (8, 100) ∧ (notifiesOf jobDone.copy)[0]? = none ∧
    job1.armed = false ∧ job1.waiting = false ∧ job1.fault = none ∧ job1.code = none ∧ ({ job1 with code := some .seg } : Job).code ≠ none := by decide +kernel

/-- Slot 1 is served first after slot 0 was; its arm is passed over while 256 arms are held. -/
def armed1 : CopyReq := { copy1 with kind := .arm 8 16 100 ga1 5 }
def sorted1 : CopyReq := { copy1 with kind := .sort [] [] [] [] 1 1 4 }
def turns (e f : CopyReq) (arms : Nat) : State :=
  ((w0.setSlot { r1 with slot := 1 } { x1 with mailbox := [e] }).setSlot { r1 with slot := 3 } { x1 with mailbox := [f], task := 2 }).modCore 1 fun c =>
    { c with lastServed := 0, jobs := List.replicate arms jobArm }

theorem test_CarterAndThresher_turns : (∀ e ∈ [copy1, armed1, sorted1], let s := turns e copy1 0;
      (s.slot (refOf 1 ((0 + 1 + 0) % 8))).mailbox = [e] ∧ (s.slot (refOf 1 1)).halt = .no ∧ (s.core 1).jobs = [] ∧ (s.core 1).lastServed = 0) ∧
    (let s := turns armed1 copy1 256; 256 ≤ ((s.core 1).jobs.filter Job.armed).length ∧ (s.slot (refOf 1 ((0 + 1 + 0) % 8))).mailbox = [armed1] ∧
      (s.slot (refOf 1 ((0 + 1 + 1) % 8))).mailbox = [] ∧ (s.slot (refOf 1 ((0 + 1 + 2) % 8))).mailbox = [copy1] ∧
      ∀ x ∈ (s.core 1).jobs, x.fault = none) := by decide +kernel
/-- The submission's own launch, one of another slot, and one torn down. -/
theorem test_LaunchLife_posted : done0.die = 0 ∧ done0.plotSlot = 0 % 64 ∧ ({ done0 with plotSlot := 5 } : Launch).plotSlot ≠ 0 % 64 ∧ ({ done0 with phase := .tearing } : Launch).phase = .tearing := by decide +kernel
/-- A halting launch with nothing left to save, without lane stores and with those of its cores. -/
def sealing1 : Launch := { halting1 with bytes := patch l1.bytes 280 [64] }

theorem test_PreemptionAndRepair_seal : (∀ l ∈ [halting1, sealing1], let s := we l;
      s.launch l.num = some l ∧ l.phase = .halting ∧ saveReady s l = true ∧ (nextSave s l).isNone = true ∧ s.repairWait = none ∧ l.die < 16) ∧
    halting1.lsbytes = 0 ∧ sealing1.lsspace = false ∧ sealing1.lsbytes = 64 := by decide +kernel

/-- A saved context of slot 0, which waits for the reply of a load, or has it. -/
def load1 : ParkCond := .loads ⟨[(9, [(frameA, 8)])], none, [(0x10000, 8)], none⟩
def saved1 (as : List Answer) : Context :=
  ⟨{ x1 with halt := .preempt, parks := [parkB (.ld ⟨.i, .s64, 1, ⟨4, 0, .ms 0⟩⟩) load1], answers := as, frame := 64, written := 1 }, r1, 0, none, none, [],
    List.replicate 4 1, List.replicate 64 7, none⟩
def back1 (as : List Answer) : Launch := { l1 with saved := [saved1 as] }

theorem test_PreemptionAndRepair_restore : ∀ as ∈ [[], [answer1 (bytesOf 8 5)]], let l := back1 as; let s := we l; let x := (saved1 as).slot;
    s.launch l.num = some l ∧ l.phase = .running ∧ placeUnit s l (restoreUnit l) = some ([(saved1 as, r1)], []) ∧ x.capsule = none ∧ berthXids x = [] ∧
    (s.core r1.coreKey).asks = [] ∧ l.laneStores = [] ∧ (saved1 as).frame.length ≤ 0x8000 ∧
    (x.getS 5 = mkSeg 0x10000 true false true true 0x20000) ∧ (0x20000 + 0x8000 * r1.slot ≤ segBase (mkSeg 64 false false true true 0x20000)) := by decide +kernel

/-- A launch halted with a saved context, and an area of no bytes. -/
def kept1 : Launch := { halted1 with saved := [saved1 []] }

theorem test_PreemptionAndRepair_resume_saved : (lstatOf (wst 4 (some kept1)) 0 0).1 = 4 ∧ resumable (wst 4 (some kept1)) kept1 = true ∧ kept1.saved ≠ [] ∧
    kept1.repro = false ∧ launchAt (wst 4 (some kept1)) 0 0 = some kept1 := by
  have h : kept1.repro = false := by decide +kernel
  refine ⟨by decide +kernel, ?_, by simp [kept1], h, by rfl⟩
  unfold resumable
  rw [h, show kept1.areaLen = 0 from rfl, show kept1.check = Config.checkCode [] from rfl, show kept1.phase = .halted from rfl,
    show kept1.lostDie = false from rfl, show (wst 4 (some kept1)).loads (saveKey (wst 4 (some kept1)) kept1) 0 = [] from rfl]
  simp

/-- The machine's one launch, running or halting for a repair, with and without a save area, and halted for one that fences core 1 of a
die whose names are all backed by a core that is no spare. -/
def wfix (area : Nat) (l : Launch) : State :=
  { (w0.modDie 0 fun d => { d with lsave := [(0, BitVec.ofNat 64 area)] }) with slots := [], launches := [(1, some l)] }
def fixing1 : Launch := { halted1 with repair := true }
def spared (n : Nat) : Nat → SMap Core
  | 0 => []
  | k + 1 => (n, { Core.reset with spare := some 9000 }) :: spared (n + 1) k
def wfixing : State := { wfix (4 * 2 ^ 50) fixing1 with cores := spared 0 8192, repairBusy := true, repairWait := some (BitVec.ofNat 64 (2 ^ 32 + 1)) }

theorem test_PreemptionAndRepair_preempts : (∀ l ∈ [l1, halting1], let s := wfix (4 * 2 ^ 50) l
      s.live = [l] ∧ s.launch l.num = some l ∧ s.repairBusy = false ∧ l.binds s 1 = true ∧ 0 ∈ l.boundDies ∧ SMap.get (s.die l.die).lsave 0 l.plotSlot = BitVec.ofNat 64 (4 * 2 ^ 50)) ∧
    areaOk (wfix (4 * 2 ^ 50) l1) l1 (BitVec.ofNat 64 (4 * 2 ^ 50)) = true ∧ areaOk (wfix 0 l1) l1 (SMap.get ((wfix 0 l1).die 0).lsave 0 0) = false := by
  refine ⟨by decide +kernel, area_ok _ _ rfl (by decide +kernel), ?_⟩
  rw [show SMap.get ((wfix 0 l1).die 0).lsave 0 0 = 0 by decide +kernel]
  simp only [areaOk, show keyRegion (gaKey (0 : Word)) = 0 by decide +kernel]
  simp

theorem get_spared (k : Nat) : ∀ n i, n ≤ i → i < n + k → SMap.get (spared n k) Core.reset i = { Core.reset with spare := some 9000 } := by
  induction k with
  | zero => intro n i h1 h2; omega
  | succ k ih =>
    intro n i h1 h2
    simp only [spared, SMap.get]
    by_cases h : n = i
    · rw [if_pos h]
    · rw [if_neg h]; exact ih (n + 1) i (by omega) (by omega)

theorem swapped_lt (ps : List (Nat × Nat)) : ∀ n, n < physCores → swapped ps n < physCores := by
  induction ps with
  | nil => intro n h; exact h
  | cons p t ih =>
    intro n h
    refine ih _ ?_
    have e : 0 < physCores := by decide
    beta_reduce
    split
    · exact Nat.mod_lt _ e
    · split
      · exact Nat.mod_lt _ e
      · exact h

theorem spare_free : ∃ p, freeSpare wfixing 0 = some p := by
  refine Option.isSome_iff_exists.mp (List.find?_isSome.mpr ⟨swapped (Config.spareCores 0) 8192, ?_, ?_⟩)
  · exact List.mem_map.mpr ⟨0, List.mem_range.mpr (by decide), rfl⟩
  · have lt := swapped_lt (Config.spareCores 0) 8192 (by decide)
    have e : physCores = 8448 := rfl
    rw [Bool.and_eq_true]
    refine ⟨rfl, ?_⟩
    rw [Bool.not_eq_true', List.any_eq_false]
    intro k hk
    have c : wfixing.core (8192 * 0 + k) = { Core.reset with spare := some 9000 } := get_spared 8192 0 _ (by omega) (by have := List.mem_range.mp hk; omega)
    unfold pcoreOf
    rw [c]
    simp only [decide_eq_true_eq]
    omega

theorem test_PreemptionAndRepair_finish : wfixing.live = [fixing1] ∧ fixing1.num = 1 ∧ wfixing.launch 1 = some fixing1 ∧ wfixing.launch 0 = none ∧ fixing1.repair = true ∧
    fixing1.repro = false ∧ fixing1.saved = [] ∧ resumable wfixing fixing1 = true ∧ (∃ p, freeSpare wfixing 0 = some p) := by
  have h : fixing1.repro = false := by decide +kernel
  refine ⟨rfl, by decide +kernel, rfl, rfl, rfl, h, rfl, ?_, ?_⟩
  · unfold resumable
    rw [h, show fixing1.areaLen = 0 from rfl, show fixing1.check = Config.checkCode [] from rfl, show fixing1.phase = .halted from rfl,
      show fixing1.lostDie = false from rfl, show wfixing.loads (saveKey wfixing fixing1) 0 = [] from rfl]
    simp
  · exact spare_free
/-- Host accesses to the Granary window, to CXL.mem and to places where nothing is; a dead function; an entry of the registry. -/
theorem test_HostInterface_windows : let k := 2 * 2 ^ 50 + 3 * 2 ^ 41 + 8; let c := 4 * 2 ^ 50 + 1 * (1536 * 2 ^ 30) + 8
    k = 2 * 2 ^ 50 + (3 * 0x180000 + 8) / 0x180000 * 2 ^ 41 + (3 * 0x180000 + 8) % 0x180000 ∧ (3 * 0x180000 + 8) + 8 ≤ 0x30000000 ∧
    (3 * 0x180000 + 8) % 0x180000 + 8 ≤ 0x180000 ∧ w0.dead (w0.homeDie k) = false ∧ (∀ i < 8, w0.isRetired (k + i) = false ∧ w0.isLattice (k + i) = false) ∧
    8 + 8 ≤ 1536 * 2 ^ 30 - b2n (decide ((1 : Nat) = 1)) * 8 * 2 ^ 30 ∧ (∀ i < 8, w0.isRetired (c + i) = false ∧ w0.isLattice (c + i) = false) ∧
    16 < 17 ∧ (∀ u ∈ [0x11, 0x17, 0x22, 0x3E, 0x40], ¬(u ≤ 0x10 ∨ (0x18 ≤ u ∧ u ≤ 0x21) ∨ u = 0x3F)) ∧ (2 ^ 24 : Nat) ≤ 2 ^ 24 ∧
    (∀ u ∈ [0x18, 0x21], 0x18 ≤ u ∧ u ≤ 0x21) ∧ (2 ^ 24 - 8) % 8 = 0 ∧ (2 : Nat) ≤ 2 ∧ State.reset.dead 3 = true ∧
    SMap.get ({ w0 with seeds := [(63, some (⟨5, 6, 7, 1⟩ : Seed))] } : State).seeds none 63 = some ⟨5, 6, 7, 1⟩ ∧ SMap.get w0.seeds none 63 = none := by decide +kernel

/-- The check value of the CRC-32 of IEEE 802.3, and the register of R445 on the same nine bytes. -/
def digits : List Byte := [0x31, 0x32, 0x33, 0x34, 0x35, 0x36, 0x37, 0x38, 0x39]

theorem test_Links_crc : crc32 digits = 0xCBF43926 ∧ ∀ i < 32, (crc32 digits).getLsbD i =
    !((digits.flatMap fun b => (List.range 8).map b.getLsbD).foldl Spec.crcBit (BitVec.allOnes 32)).getLsbD (31 - i) := by decide +kernel

/-- A link with a packet on channels 0 and 3, where channel 0 has been passed over for 15 flits, and with no credit. -/
def busy1 : Link := { Link.reset with trained := true, credits := Vector.replicate 4 64, idle := #v[15, 0, 0, 0], out := #v[[⟨5, 0, [7, 8], false⟩], [], [], [⟨6, 3, [9], false⟩]] }

theorem test_Links_slots : nextChannel busy1 true = some 0 ∧ nextChannel busy1 false = some 3 ∧ nextChannel { busy1 with idle := Vector.replicate 4 14 } true = some 3 ∧
    nextChannel { busy1 with credits := Vector.replicate 4 0 } true = none ∧ busy1.out.getD 0 [] = ⟨5, 0, [7, 8], false⟩ :: [] ∧
    busy1.out.getD 3 [] = ⟨6, 3, [9], false⟩ :: [] := by decide +kernel

/-- A flit of the given header bits and slots, with a sound CHK. -/
def soundFlit (c : Nat) (slots : List (BitVec 512)) : Flit := ⟨BitVec.ofNat 128 (c + (flitCheck (BitVec.ofNat 128 c) slots).toNat * 2 ^ 96), slots⟩

theorem soundFlit_ctrl (c : Nat) (slots : List (BitVec 512)) (h : c < 2 ^ 96) :
    (soundFlit c slots).ctrl.toNat = c + (flitCheck (BitVec.ofNat 128 c) slots).toNat * 2 ^ 96 := by
  have x := (flitCheck (BitVec.ofNat 128 c) slots).isLt
  unfold soundFlit
  rw [BitVec.toNat_ofNat]
  generalize (flitCheck (BitVec.ofNat 128 c) slots).toNat = n at x ⊢
  omega

theorem soundFlit_check (c : Nat) (slots : List (BitVec 512)) (h : c < 2 ^ 96) :
    flitCheck (soundFlit c slots).ctrl (soundFlit c slots).slots = flitCheck (BitVec.ofNat 128 c) slots := by
  unfold flitCheck
  rw [soundFlit_ctrl c slots h]
  show crc32 (bytesOf 12 _ ++ slots.flatMap _) = crc32 (bytesOf 12 ((BitVec.ofNat 128 c).toNat % 2 ^ 96) ++ slots.flatMap _)
  rw [BitVec.toNat_ofNat]
  generalize (flitCheck (BitVec.ofNat 128 c) slots).toNat = n
  congr 3
  omega

theorem soundFlit_field (c : Nat) (slots : List (BitVec 512)) (h : c < 2 ^ 96) (lo n : Nat) (b : lo + n ≤ 96) :
    ((soundFlit c slots).ctrl.extractLsb' lo n).toNat = c / 2 ^ lo % 2 ^ n := by
  rw [BitVec.extractLsb'_toNat, soundFlit_ctrl c slots h, Nat.shiftRight_eq_div_pow]
  generalize (flitCheck (BitVec.ofNat 128 c) slots).toNat = k
  obtain ⟨d, e⟩ : ∃ d, 96 = lo + n + d := ⟨96 - lo - n, by omega⟩
  rw [e, show k * 2 ^ (lo + n + d) = 2 ^ lo * (2 ^ n * (2 ^ d * k)) by ring, Nat.add_mul_div_left _ _ (Nat.two_pow_pos lo), Nat.add_mul_mod_self_left]

theorem soundFlit_ok (c : Nat) (slots : List (BitVec 512)) (h : c < 2 ^ 96) (h4 : slots.length = 4) (r : c / 2 ^ 20 % 2 ^ 12 = 0) (r2 : c / 2 ^ 65 % 2 ^ 15 = 0)
    (v : ∀ k < 4, c / 2 ^ 8 % 16 / 2 ^ k % 2 = 1 ∨ c / 2 ^ (12 + k) % 2 = 0 ∧ c / 2 ^ (16 + k) % 2 = 0) : flitOk (soundFlit c slots) = true := by
  have x := (flitCheck (BitVec.ofNat 128 c) slots).isLt
  unfold flitOk
  rw [soundFlit_check c slots h, soundFlit_ctrl c slots h, show (soundFlit c slots).slots = slots from rfl]
  generalize (flitCheck (BitVec.ofNat 128 c) slots).toNat = n at x
  simp only [h4, Bool.and_eq_true, decide_eq_true_eq, List.all_eq_true, List.mem_range, Bool.or_eq_true]
  refine ⟨⟨⟨⟨by omega, by omega⟩, by omega⟩, trivial⟩, fun k hk => ?_⟩
  have w := v k hk
  interval_cases k <;> omega

/-- One whole packet of TYPE 0x01 on channel 3. -/
def flit2 : Flit := soundFlit (3 + 2 ^ 8 + 2 ^ 16 + 2 ^ 32) [1, 0, 0, 0]

theorem flit2_ok : flitOk flit2 = true := soundFlit_ok _ _ (by decide) rfl (by decide) (by decide) (by decide)

theorem test_Links_types : ((wl2 id).link end1).trained = true ∧ flitOk flit2 = true ∧ (flit2.ctrl.extractLsb' 32 16).toNat = 1 ∧
    (flit2.ctrl.extractLsb' 8 4).toNat = 1 ∧ (flit2.ctrl.extractLsb' 12 1).toNat = 0 ∧ (flit2.ctrl.extractLsb' 16 1).toNat = 1 ∧ (flit2.ctrl.extractLsb' 0 2).toNat = 3 ∧
    ((wl2 id).link end1).lastRx = 0 ∧ ((wl2 id).link end1).parts.getD 3 [] = [] ∧ flit2.slots.getD 0 0 = 1 ∧ typeChannel 1 ≠ some 3 := by
  have f := soundFlit_field (3 + 2 ^ 8 + 2 ^ 16 + 2 ^ 32) [1, 0, 0, 0] (by decide)
  exact ⟨by decide +kernel, flit2_ok, f 32 16 (by decide), f 8 4 (by decide), f 12 1 (by decide), f 16 1 (by decide), f 0 2 (by decide),
    by decide +kernel, by decide +kernel, rfl, by decide⟩

/-- A message of each group of TYPEs, as its packet carries it. -/
theorem test_Links_messages : Spec.typeOf (.tileFill ⟨q1, 1, .scope 3, ga1, 0, 2, none, []⟩) = some 3 ∧ Spec.typeOf (.joinPacket (join1 0 2)) = some 0x10 ∧
    Spec.typeOf (.berthReservation (ask1 (stepTo 3))) = some 0x20 ∧ Spec.typeOf (.acknowledgement (ack1 none)) = some 0x30 ∧ Spec.typeOf .scrub = none ∧
    (envelope w0 (.joinPacket (join1 0 2))).kind = 0x10 ∧ (envelope w0 (.acknowledgement (ack1 none))).kind = 0x30 := by decide +kernel
/-- The die of the record is in reset; a cluster with no bound core. -/
theorem test_PostAndEnd_absent : let s := w0.modDie 0 fun d => { d with inReset := true }
    s.absent (spawnCluster s l1 0 / 512) = true ∧ s.launch s.cur.launch = some l1 ∧ Spec.near s ⟨2, 0, .ms 0xFC0⟩ 64 true false = some 0x1FC0 := by
  intro s
  unfold spawnCluster Launch.clustersUp
  rw [clusters0 s l1 (by decide +kernel) (by decide +kernel)]
  decide +kernel

theorem test_ChannelsAndItineraries_any : let v : Word := BitVec.ofNat 64 (2 ^ 36 + 5 * 2 ^ 41)
    selectorOk v = true ∧ selectorCores w0 w0.me v = [] := by decide +kernel

end Sys2Proof.Tests
end

section
/-! SUPPORT. Words of `n` bits: the model computes on the numbers they stand for, the statements on bit vectors. One lemma for each
way the model writes a number, a register or FLAGS, reads a second source, and ends the issue of a scalar instruction. -/

namespace Sys2Proof.Machine

/-! ## Numbers of `n` bits -/

section
variable {n : Nat}

theorem low_eq_toNat_setWidth (n : Nat) (x : Word) : low n x = (x.setWidth n).toNat := (BitVec.toNat_setWidth n x).symm

@[simp] theorem signed_toNat (x : BitVec n) : signed n x.toNat = x.toInt := by
  simp [signed, BitVec.toInt_eq_msb_cond, BitVec.msb_eq_decide]

theorem wrap_eq_toNat_ofInt (v : Int) : wrap n v = (BitVec.ofInt n v).toNat := by
  simp [wrap, BitVec.toNat_ofInt]

@[simp] theorem wrap_toInt (x : BitVec n) : wrap n x.toInt = x.toNat := by
  rw [wrap_eq_toNat_ofInt, BitVec.ofInt_toInt]

theorem ofInt_sub (a b : Int) : BitVec.ofInt n (a - b) = BitVec.ofInt n a - BitVec.ofInt n b := by
  rw [Int.sub_eq_add_neg, BitVec.ofInt_add, BitVec.ofInt_neg, BitVec.sub_eq_add_neg]

/-- An exact result overflows when its `n` bits, read as two's complement, are another number. -/
theorem outside_eq_decide_ne (hn : 0 < n) (v : Int) : outside n v = decide (v ≠ (BitVec.ofInt n v).toInt) := by
  obtain ⟨k, rfl⟩ := Nat.exists_eq_succ_of_ne_zero hn.ne'
  have inRange : v.bmod (2 ^ (k + 1)) = v ↔ -(2 : Int) ^ k ≤ v ∧ v < 2 ^ k := by
    rw [Int.bmod_eq_iff (Nat.two_pow_pos _), Nat.pow_succ]
    push_cast
    exact ⟨fun ⟨lo, hi, _⟩ => by omega, fun h => ⟨by omega, by omega, by simp⟩⟩
  rw [BitVec.toInt_ofInt, Bool.eq_iff_iff, decide_eq_true_eq, ne_comm, Ne, inRange]
  simp only [outside, Nat.succ_sub_one, Bool.or_eq_true, decide_eq_true_eq]
  omega

theorem tyI_eq_isI (t : Ty) : tyI t = Spec.isI t := by cases t <;> rfl

theorem width_pos (z : Sz) : 0 < width z := by cases z <;> decide

/-! ## Results and flags (R172) -/

theorem extendTo_toNat (sgn : Bool) (r : BitVec n) : extendTo sgn n r.toNat = Spec.toReg sgn r := by
  cases sgn
  · exact BitVec.ofNat_toNat 64 r
  · simp [extendTo, Spec.toReg, BitVec.signExtend]

theorem resultFlags_toNat (r : BitVec n) (c v : Bool) : resultFlags n r.toNat c v = ⟨r == 0, r.msb, c, v⟩ := by
  have zero : decide (r.toNat = 0) = (r == 0) := by
    rw [Bool.eq_iff_iff]; simp [← BitVec.toNat_inj]
  rw [resultFlags, zero, BitVec.msb_eq_decide]

/-- The low four bits of FLAGS replaced, as the model and as R172 writes it. -/
theorem withZnvc_eq_or (old : Word) (f : BitVec 4) : withZnvc old f = (old &&& ~~~(15 : Word)) ||| f.setWidth 64 := by
  have mask : ∀ i < 64, (~~~(15 : Word)).getLsbD i = decide (4 ≤ i) := by decide
  ext i hi
  rw [withZnvc, BitVec.getElem_append, BitVec.getElem_or, BitVec.getElem_and, ← BitVec.getLsbD_eq_getElem (x := ~~~15), mask i hi]
  by_cases h : i < 4
  · simp [h]
  · simp [h, hi, show 4 + (i - 4) = i by omega, show 4 ≤ i by omega]

/-- FLAGS as the model writes them and as R172 gives them. -/
theorem withZnvc_resultFlags (old : Word) (r : BitVec n) (c v : Bool) :
    withZnvc old (resultFlags n r.toNat c v).bits = Spec.flagsOf old r c v := by
  have wide : ∀ z m c v : Bool, (Znvc.bits ⟨z, m, c, v⟩).setWidth 64 = BitVec.ofNat 64 (b2n z + 2 * b2n m + 4 * b2n c + 8 * b2n v) := by
    decide
  rw [withZnvc_eq_or, resultFlags_toNat, wide, Spec.flagsOf]

end

/-! ## Conditions (R161) -/

/-- The condition codes of R161 on the bits of FLAGS. -/
theorem condHolds_eq_condition (cc : BitVec 4) (f : Word) :
    condHolds cc f = Spec.condition cc (f.getLsbD 0) (f.getLsbD 1) (f.getLsbD 2) (f.getLsbD 3) (f.getLsbD 4) := rfl

/-- The condition codes of R161 on FLAGS with Z, N, C and V replaced. -/
theorem condHolds_withZnvc (cc : BitVec 4) (old : Word) (f : Znvc) :
    condHolds cc (withZnvc old f.bits) = Spec.condition cc f.z f.n f.c f.v (old.getLsbD 4) := by
  have low (i : Nat) (hi : i < 4) : (withZnvc old f.bits).getLsbD i = f.bits.getLsbD i := by
    rw [withZnvc, BitVec.getLsbD_append, if_pos hi]
  have next : (withZnvc old f.bits).getLsbD 4 = old.getLsbD 4 := by
    rw [withZnvc, BitVec.getLsbD_append, if_neg (by decide), BitVec.getLsbD_extractLsb']
    rfl
  have bits : ∀ z n c v : Bool, let b := Znvc.bits ⟨z, n, c, v⟩
      b.getLsbD 0 = z ∧ b.getLsbD 1 = n ∧ b.getLsbD 2 = c ∧ b.getLsbD 3 = v := by decide
  obtain ⟨hz, hn, hc, hv⟩ := bits f.z f.n f.c f.v
  rw [condHolds_eq_condition, low 0 (by decide), low 1 (by decide), low 2 (by decide), low 3 (by decide), next, hz, hn, hc, hv]

/-! ## The second source (R171) -/

theorem constWords_eq (addr n : Nat) : constWords addr (if n = 64 then 8 else 4) = if n = 64 then [addr, addr + 4] else [addr] := by
  by_cases h : n = 64 <;> simp [constWords, h]

/-- A constant that the statements name is what the window reads (R150). -/
theorem readConst_run {s : State} {win : BitVec 3} {off : BitVec 17} {n c : Nat} (h : Spec.constAt s win off n = some c) :
    readConst win off n s = .ok (c, s) := by
  rw [Spec.constAt, Option.ite_none_right_eq_some, ← constWords_eq] at h
  obtain ⟨⟨valid, above, below, rd, align⟩, h⟩ := h
  obtain ⟨vs, hvs, rfl⟩ := Option.map_eq_some_iff.mp h
  have even : ¬ (n = 64 ∧ off.toNat % 2 = 1) := fun ⟨h64, odd⟩ => by have := align h64; omega
  simp only [readConst, Exec.bind_run, look_run, valid, above, below, rd, even, hvs, decide_true, Bool.and_true, Bool.not_true,
    Bool.false_eq_true, if_false, Exec.pure_run]

/-- An operand that the statements name is what the instruction reads. -/
theorem srcVal_run {s : State} {src : Src} {n : Nat} {y : Word} (h : Spec.operand s src n = some y) : srcVal src n s = .ok (y, s) := by
  cases src with
  | rr b => cases h; rfl
  | ri imm => cases h; rfl
  | rl lit => cases h; rfl
  | rl64 lit => cases h; rfl
  | rk win off =>
    obtain ⟨c, hc, rfl⟩ := Option.map_eq_some_iff.mp h
    rw [srcVal, Exec.bind_ok s (readConst_run hc), Exec.pure_run]

/-! ## Issues that change the slot in hand alone -/

/-- An issue that only changes the slot in hand. -/
theorem retire_modCur {i : Instr} {m : Exec Unit} {s : State} {f : Slot → Slot} (h : m s = .ok ((), s.modCur f)) :
    retire i m s = Spec.done s f := retire_ok h

/-- An issue that writes one general register. -/
theorem retire_writeG {i : Instr} {m : Exec Unit} {s : State} {d : Reg} {w v : Word} (h : m s = writeG d w s) (hv : w = v) :
    retire i m s = Spec.done s fun z => z.setG d v := hv ▸ retire_modCur h

/-- Moving on writes the slot in hand, whether the issue has changed it or not. -/
theorem modCur_id_advance (s : State) : (s.modCur id).advance = s.advance := by
  rw [State.advance, State.modCur_modCur]
  rfl

/-- An issue that changes the PC alone. -/
theorem retire_unchanged {i : Instr} {m : Exec Unit} {s : State} (h : m s = .ok ((), s)) : retire i m s = Spec.done s id := by
  rw [retire_ok h, Spec.done, modCur_id_advance]

/-! ## Instructions of one and of two sources (R171, R172) -/

/-- A result on numbers is that on bit vectors, with C and V. -/
def AluFn.Computes (F : AluFn) (f : (n : Nat) → Bool → BitVec n → BitVec n → BitVec n × Bool × Bool) : Prop :=
  ∀ (n : Nat) (sgn : Bool) (x y : BitVec n), 0 < n →
    F sgn n x.toNat y.toNat = ((f n sgn x y).1.toNat, (f n sgn x y).2)

/-- The same for a shift, whose count is any number, and which clears C and V (R175). -/
def AluFn.Shifts (F : AluFn) (f : (n : Nat) → BitVec n → Nat → BitVec n) : Prop :=
  ∀ (n : Nat) (sgn : Bool) (x : BitVec n) (k : Nat), 0 < n → F sgn n x.toNat k = ((f n x k).toNat, false, false)

theorem exec_two_source {mk : Alu → Instr} {F : AluFn} {f : (n : Nat) → Bool → BitVec n → BitVec n → BitVec n × Bool × Bool}
    (hexec : ∀ o s, exec (mk o) s = retire (mk o) (alu F o) s) (hF : F.Computes f) : Spec.TwoSource mk f := by
  intro s o y hy
  dsimp only
  rw [hexec, retire_ok (alu_run F o s y (srcVal_run hy)), low_eq_toNat_setWidth, low_eq_toNat_setWidth, hF _ _ _ _ (width_pos _)]
  simp only [extendTo_toNat, withZnvc_resultFlags, tyI_eq_isI]
  rfl

theorem exec_shift {mk : Alu → Instr} {F : AluFn} {f : (n : Nat) → BitVec n → Nat → BitVec n}
    (hexec : ∀ o s, exec (mk o) s = retire (mk o) (shift F o) s) (hF : F.Shifts f) : Spec.Shift mk f := by
  intro s o y hy
  dsimp only
  rw [hexec, retire_ok (shift_run F o s y (srcVal_run hy)), low_eq_toNat_setWidth, hF _ _ _ _ (width_pos _)]
  simp only [extendTo_toNat, withZnvc_resultFlags, tyI_eq_isI]
  rfl

theorem exec_one_source {mk : Un → Instr} {F : AluFn} {f : (n : Nat) → BitVec n → BitVec n × Bool × Bool}
    (hexec : ∀ o s, exec (mk o) s = retire (mk o) (unary F o) s)
    (hF : ∀ (n : Nat) (sgn : Bool) (x : BitVec n), 0 < n → F sgn n x.toNat 0 = ((f n x).1.toNat, (f n x).2)) :
    Spec.OneSource mk f := by
  intro s o
  dsimp only
  rw [hexec, retire_ok (unary_run F o s), low_eq_toNat_setWidth, hF _ _ _ (width_pos _)]
  simp only [extendTo_toNat, withZnvc_resultFlags, tyI_eq_isI]
  rfl

end Sys2Proof.Machine
end

section
/-! PROOF. Logic, shifts and rotates (R175). -/

namespace Sys2Proof.Machine

theorem andFn_computes : AluFn.Computes andFn fun _ _ x y => (x &&& y, false, false) := fun _ _ _ _ _ => rfl
theorem orFn_computes : AluFn.Computes orFn fun _ _ x y => (x ||| y, false, false) := fun _ _ _ _ _ => rfl
theorem xorFn_computes : AluFn.Computes xorFn fun _ _ x y => (x ^^^ y, false, false) := fun _ _ _ _ _ => rfl
theorem andnFn_computes : AluFn.Computes andnFn fun _ _ x y => (x &&& ~~~y, false, false) := fun n _ x y _ => by
  simp only [andnFn, BitVec.toNat_and, BitVec.toNat_not]

theorem shlFn_shifts : AluFn.Shifts shlFn fun _ x k => x <<< k := fun n _ x k _ => by
  simp only [shlFn, BitVec.toNat_shiftLeft, Nat.shiftLeft_eq]
  split
  · rfl
  · rename_i h
    rw [Nat.mod_eq_zero_of_dvd (Dvd.dvd.mul_left (Nat.pow_dvd_pow 2 (Nat.le_of_not_lt h)) _)]

theorem shrFn_shifts : AluFn.Shifts shrFn fun _ x k => x >>> k := fun n _ x k _ => by
  simp only [shrFn, BitVec.toNat_ushiftRight, Nat.shiftRight_eq_div_pow]
  split
  · rfl
  · rename_i h
    rw [Nat.div_eq_of_lt (x.isLt.trans_le (Nat.pow_le_pow_right Nat.two_pos (Nat.le_of_not_lt h)))]

/-- A floor division by a power of two above the magnitude leaves the sign. -/
theorem ediv_two_pow_of_lt {v : Int} {m : Nat} (lo : -2 ^ m ≤ v) (hi : v < 2 ^ m) : v / 2 ^ m = if v < 0 then -1 else 0 := by
  split
  · exact Int.ediv_eq_neg_one_of_neg_of_le ‹_› (by omega)
  · exact Int.ediv_eq_zero_of_lt (by omega) hi

/-- Shifts by more than the width shift out no further bits. -/
theorem toInt_ediv_two_pow_min {n : Nat} (x : BitVec n) (k : Nat) : x.toInt / 2 ^ min k n = x.toInt / 2 ^ k := by
  rcases Nat.le_total k n with h | h
  · rw [Nat.min_eq_left h]
  · have lo := BitVec.le_two_mul_toInt (x := x)
    have hi := BitVec.two_mul_toInt_lt (x := x)
    have pow : (2 : Int) ^ n ≤ 2 ^ k := pow_le_pow_right₀ (by decide) h
    rw [Nat.min_eq_right h, ediv_two_pow_of_lt (by omega) (by omega), ediv_two_pow_of_lt (by omega) (by omega)]

theorem sarFn_shifts : AluFn.Shifts sarFn fun _ x k => x.sshiftRight k := fun n _ x k _ => by
  simp only [sarFn, signed_toNat, toInt_ediv_two_pow_min]
  rw [← wrap_toInt (x.sshiftRight k), BitVec.toInt_sshiftRight, Int.shiftRight_eq_div_pow]
  rfl

/-- The two parts of a rotated word have no bit in common. -/
theorem rotate_parts {x a b : Nat} (hx : x < 2 ^ (a + b)) :
    (x * 2 ^ a + x / 2 ^ b) % 2 ^ (a + b) = x <<< a % 2 ^ (a + b) ||| x >>> b := by
  have top : x / 2 ^ b < 2 ^ a := Nat.div_lt_of_lt_mul (by rwa [← Nat.pow_add, Nat.add_comm])
  rw [Nat.shiftLeft_eq, Nat.shiftRight_eq_div_pow, Nat.mul_comm, Nat.pow_add, Nat.mul_mod_mul_left,
    ← Nat.two_pow_add_eq_or_of_lt top, Nat.mod_mul, Nat.mul_add_mod, Nat.mod_eq_of_lt top,
    Nat.mul_add_div (Nat.two_pow_pos a), Nat.div_eq_of_lt top, Nat.add_zero, Nat.add_comm]

theorem rolFn_shifts : AluFn.Shifts rolFn fun _ x k => x.rotateLeft k := fun n _ x k hn => by
  have split : k % n + (n - k % n) = n := Nat.add_sub_of_le (Nat.mod_lt k hn).le
  have parts := rotate_parts (x := x.toNat) (a := k % n) (b := n - k % n) (by rw [split]; exact x.isLt)
  rw [split] at parts
  simp only [rolFn, BitVec.toNat_rotateLeft, parts]

theorem rorFn_shifts : AluFn.Shifts rorFn fun _ x k => x.rotateRight k := fun n _ x k hn => by
  have split : n - k % n + k % n = n := Nat.sub_add_cancel (Nat.mod_lt k hn).le
  have parts := rotate_parts (x := x.toNat) (a := n - k % n) (b := k % n) (by rw [split]; exact x.isLt)
  rw [split] at parts
  simp only [rorFn, BitVec.toNat_rotateRight, Nat.add_comm (x.toNat / _), parts, Nat.lor_comm]

/-- Settles O2: on numbers, each operation is that of `n`-bit words. -/
theorem logicAndShifts : Obligations.LogicAndShifts :=
  ⟨exec_two_source (fun _ _ => rfl) andFn_computes, exec_two_source (fun _ _ => rfl) orFn_computes,
    exec_two_source (fun _ _ => rfl) xorFn_computes, exec_two_source (fun _ _ => rfl) andnFn_computes,
    exec_one_source (F := notFn) (fun _ _ => rfl) (fun n _ x _ => by simp only [notFn, BitVec.toNat_not]),
    exec_shift (fun _ _ => rfl) shlFn_shifts, exec_shift (fun _ _ => rfl) shrFn_shifts, exec_shift (fun _ _ => rfl) sarFn_shifts,
    exec_shift (fun _ _ => rfl) rolFn_shifts, exec_shift (fun _ _ => rfl) rorFn_shifts⟩

end Sys2Proof.Machine
end

section
/-! SUPPORT. Elements packed into a word, and the counts of bits in one (R176). -/

namespace Sys2Proof.Machine

/-! ## Elements of a word -/

/-- An element of a packed word is the number that was packed there. -/
theorem pack_elem (w : Nat) (es : List Nat) (j : Nat) : pack w es / 2 ^ (j * w) % 2 ^ w = es.getD j 0 % 2 ^ w := by
  induction es generalizing j with
  | nil => simp [pack]
  | cons e t ih =>
    cases j with
    | zero => simp [pack, Nat.add_mul_mod_self_left]
    | succ j =>
      rw [pack, Nat.succ_mul, Nat.add_comm (j * w), Nat.pow_add, ← Nat.div_div_eq_div_mul, Nat.add_mul_div_left _ _ (Nat.two_pow_pos w),
        Nat.div_eq_of_lt (Nat.mod_lt _ (Nat.two_pow_pos w)), Nat.zero_add, ih, List.getD_cons_succ]

/-- A field inside the low `m` bits is that of the whole number. -/
theorem mod_two_pow_div_mod {m i k : Nat} (h : i + k ≤ m) (x : Nat) : x % 2 ^ m / 2 ^ i % 2 ^ k = x / 2 ^ i % 2 ^ k := by
  obtain ⟨d, rfl⟩ := Nat.exists_eq_add_of_le h
  rw [Nat.add_assoc, Nat.pow_add, Nat.mod_mul_right_div_self, Nat.pow_add, Nat.mod_mul_right_mod]

theorem perElem_run (F : Nat → Nat → Nat) (o : Cnt) (s : State) :
    perElem F o s = .ok ((), s.modCur fun x => x.setG o.d (BitVec.ofNat 64 (pack (width o.sz)
      ((List.range (64 / width o.sz)).map fun j => F (width o.sz) ((s.cur.getG o.a).toNat / 2 ^ (width o.sz * j) % 2 ^ width o.sz))))) := rfl

/-- A count by element is that of each element, where the results fit their element. -/
theorem exec_per_element {mk : Cnt → Instr} {F : Nat → Nat → Nat} {f : (n : Nat) → BitVec n → Nat}
    (hexec : ∀ o s, exec (mk o) s = retire (mk o) (perElem F o) s) (hF : ∀ (n : Nat) (x : BitVec n), 1 < n → F n x.toNat = f n x)
    (hlt : ∀ (n : Nat) (x : BitVec n), 1 < n → f n x < 2 ^ n) : Spec.PerElement mk f := by
  intro s o
  refine ⟨_, by rw [hexec, retire_ok (perElem_run F o s)]; rfl, fun e he => ?_⟩
  have hw : 1 < width o.sz := by cases o.sz <;> decide
  have fits : e * width o.sz + width o.sz ≤ 64 := by
    rw [← Nat.succ_mul]
    exact (Nat.le_div_iff_mul_le (width_pos _)).mp he
  have elem : (s.cur.getG o.a).toNat / 2 ^ (width o.sz * e) % 2 ^ width o.sz =
      ((s.cur.getG o.a).extractLsb' (e * width o.sz) (width o.sz)).toNat := by
    rw [BitVec.extractLsb'_toNat, Nat.shiftRight_eq_div_pow, Nat.mul_comm]
  rw [BitVec.extractLsb'_toNat, Nat.shiftRight_eq_div_pow, BitVec.toNat_ofNat, mod_two_pow_div_mod fits, pack_elem,
    List.getD_eq_getElem _ _ (by simpa using he), List.getElem_map, List.getElem_range, elem, hF _ _ hw, Nat.mod_eq_of_lt (hlt _ _ hw)]

/-! ## Counts of one element -/

theorem clzOf_toNat {n : Nat} (x : BitVec n) : clzOf n x.toNat = if x = 0 then n else n - 1 - Nat.log2 x.toNat := by
  simp only [clzOf, ← BitVec.toNat_inj, BitVec.toNat_zero, BitVec.ofNat_eq_ofNat]

theorem lowestFrom_eq_add_ctzFrom (x k i : Nat) : Spec.lowestFrom x k i = i + ctzFrom x k i := by
  induction k generalizing i with
  | zero => rfl
  | succ k ih =>
    rw [Spec.lowestFrom, ctzFrom, ih]
    split <;> omega

theorem ctzOf_eq_lowestFrom (n x : Nat) : ctzOf n x = Spec.lowestFrom x n 0 := by
  rw [lowestFrom_eq_add_ctzFrom, Nat.zero_add, ctzOf]

theorem lowestFrom_le (x k i : Nat) : Spec.lowestFrom x k i ≤ i + k := by
  induction k generalizing i with
  | zero => exact le_rfl
  | succ k ih =>
    have := ih (i + 1)
    rw [Spec.lowestFrom]
    split <;> omega

theorem ffsOf_toNat {n : Nat} (x : BitVec n) : ffsOf n x.toNat = if x = 0 then 0 else 1 + Spec.lowestFrom x.toNat n 0 := by
  simp only [ffsOf, ctzOf_eq_lowestFrom, ← BitVec.toNat_inj, BitVec.toNat_zero, BitVec.ofNat_eq_ofNat]

theorem length_filter_eq_sum (p : Nat → Bool) (l : List Nat) : (l.filter p).length = (l.map fun i => (p i).toNat).sum := by
  induction l with
  | nil => rfl
  | cons i l ih => cases h : p i <;> simp [h, ih, Nat.add_comm]

theorem popcOf_toNat {n : Nat} (x : BitVec n) : popcOf n x.toNat = ((List.range n).map fun i => (x.getLsbD i).toNat).sum :=
  length_filter_eq_sum _ _

theorem popcOf_le (n x : Nat) : popcOf n x ≤ n := (List.length_filter_le _ _).trans_eq List.length_range

/-- A number is the sum of its bits. -/
theorem sum_testBit (x n : Nat) : ((List.range n).map fun j => if x.testBit j then 2 ^ j else 0).sum = x % 2 ^ n := by
  induction n with
  | zero => simp [Nat.mod_one]
  | succ n ih =>
    rw [List.range_succ, List.map_append, List.sum_append, ih, Nat.pow_succ, Nat.mod_mul, ← Nat.toNat_testBit]
    cases h : x.testBit n <;> simp [h]

theorem brevOf_toNat {n : Nat} (x : BitVec n) : brevOf n x.toNat = x.reverse.toNat := by
  have bit : ∀ j ∈ List.range n, (if x.toNat.testBit (n - 1 - j) then 2 ^ j else 0) = if x.reverse.toNat.testBit j then 2 ^ j else 0 := by
    intro j hj
    rw [BitVec.testBit_toNat, BitVec.testBit_toNat, BitVec.getLsbD_reverse, BitVec.getMsbD, decide_eq_true (List.mem_range.mp hj),
      Bool.true_and]
  rw [brevOf, List.map_congr_left bit, sum_testBit, Nat.mod_eq_of_lt x.reverse.isLt]

theorem bitCounts : Spec.BitCounts := by
  refine ⟨exec_per_element (fun _ _ => rfl) (fun _ x _ => clzOf_toNat x) fun n x _ => ?_,
    exec_per_element (fun _ _ => rfl) (fun n x _ => ctzOf_eq_lowestFrom n x.toNat) fun n x _ => ?_,
    exec_per_element (fun _ _ => rfl) (fun _ x _ => ffsOf_toNat x) fun n x hn => ?_,
    exec_per_element (fun _ _ => rfl) (fun _ x _ => popcOf_toNat x) fun n x _ => ?_,
    exec_per_element (fun _ _ => rfl) (fun _ x _ => brevOf_toNat x) fun n x _ => x.reverse.isLt⟩
  · refine lt_of_le_of_lt ?_ n.lt_two_pow_self
    split <;> omega
  · exact lt_of_le_of_lt (by simpa using lowestFrom_le x.toNat n 0) n.lt_two_pow_self
  · have le := lowestFrom_le x.toNat n 0
    have lt : n + 1 < 2 ^ n := by
      obtain ⟨k, rfl⟩ := Nat.exists_eq_add_of_lt hn
      have := (1 + k).lt_two_pow_self
      rw [Nat.pow_succ]
      omega
    split <;> omega
  · rw [← popcOf_toNat]
    exact lt_of_le_of_lt (popcOf_le n _) n.lt_two_pow_self

end Sys2Proof.Machine
end

section
/-! PROOF. Bit counts and bit fields (R176-R178). -/

namespace Sys2Proof.Machine

/-- A result of 64 bits written with its flags, C and V clear. -/
theorem writeAlu_word (d : Reg) (r : Word) (s : State) :
    writeAlu false 64 d (r.toNat, false, false) s =
      .ok ((), s.modCur fun z => { z.setG d r with flags := Spec.flagsOf z.flags r false false }) := by
  rw [writeAlu_run, extendTo_toNat]
  simp only [withZnvc_resultFlags, Spec.toReg, Bool.false_eq_true, if_false, BitVec.setWidth_eq]

/-- The field of EXT, extended by its type (R177). -/
theorem extOf_toNat (sgn : Bool) (x d : Word) :
    extOf sgn x d = (Spec.toReg sgn (x.extractLsb' (fieldPos d) (fieldLen d))).toNat := by
  have field : x.toNat / 2 ^ fieldPos d % 2 ^ fieldLen d = (x.extractLsb' (fieldPos d) (fieldLen d)).toNat := by
    rw [BitVec.extractLsb'_toNat, Nat.shiftRight_eq_div_pow]
  have le : fieldLen d ≤ 64 := (Nat.min_le_right _ _).trans (Nat.sub_le _ _)
  simp only [extOf, field, signed_toNat]
  generalize x.extractLsb' (fieldPos d) (fieldLen d) = r
  generalize fieldLen d = len at r le
  cases sgn
  · simp [Spec.toReg, BitVec.toNat_setWidth, Nat.mod_eq_of_lt (r.isLt.trans_le (Nat.pow_le_pow_right Nat.two_pos le))]
  · rcases Nat.eq_zero_or_pos len with rfl | pos
    · simp [Spec.toReg, BitVec.of_length_zero]
    · simp [Spec.toReg, pos, wrap_eq_toNat_ofInt, BitVec.signExtend]

/-- A number with the `len` bits from bit `p` replaced, in its three parts. -/
theorem replace_bits_eq_parts (old r p len : Nat) : old - old / 2 ^ p % 2 ^ len * 2 ^ p + r * 2 ^ p =
    2 ^ p * (2 ^ len * (old / 2 ^ p / 2 ^ len) + r) + old % 2 ^ p := by
  have low := Nat.div_add_mod old (2 ^ p)
  have mid := Nat.div_add_mod (old / 2 ^ p) (2 ^ len)
  rw [← mid] at low
  rw [Nat.mul_add] at low ⊢
  rw [Nat.mul_comm (_ % _), Nat.mul_comm r]
  omega

/-- The bits of a mask over the `len` bits from bit `p`. -/
theorem getLsbD_fieldMask {p len : Nat} (h : p + len ≤ 64) (i : Nat) :
    (BitVec.ofNat 64 (2 ^ len - 1) <<< p).getLsbD i = (decide (p ≤ i) && decide (i < p + len)) := by
  rw [BitVec.getLsbD_shiftLeft, BitVec.getLsbD_ofNat, Nat.testBit_two_pow_sub_one, Bool.eq_iff_iff]
  simp only [Bool.and_eq_true, Bool.not_eq_true', decide_eq_true_eq, decide_eq_false_iff_not]
  omega

/-- INS replaces the bits of its field and keeps the others (R177). -/
theorem insOf_toNat (x d old : Word) :
    let m : Word := BitVec.ofNat 64 (2 ^ fieldLen d - 1) <<< fieldPos d
    insOf x d old = ((old &&& ~~~m) ||| (x <<< fieldPos d &&& m)).toNat := by
  have le : fieldPos d + fieldLen d ≤ 64 := by
    have := (d.extractLsb' 0 6).isLt
    have : fieldPos d < 64 := this
    unfold fieldLen
    omega
  dsimp only
  apply Nat.eq_of_testBit_eq
  intro i
  rw [insOf, replace_bits_eq_parts, Nat.testBit_two_pow_mul_add _ (Nat.mod_lt _ (Nat.two_pow_pos _)),
    Nat.testBit_two_pow_mul_add _ (Nat.mod_lt _ (Nat.two_pow_pos _)), BitVec.testBit_toNat, BitVec.getLsbD_or, BitVec.getLsbD_and,
    BitVec.getLsbD_and, BitVec.getLsbD_not, getLsbD_fieldMask le,
    BitVec.getLsbD_shiftLeft]
  simp only [Nat.testBit_mod_two_pow, Nat.testBit_div_two_pow, BitVec.testBit_toNat]
  by_cases below : i < fieldPos d
  · simp [below, Nat.not_le_of_lt below, show i < 64 by omega]
  · by_cases inside : i < fieldPos d + fieldLen d
    · simp [below, inside, Nat.le_of_not_lt below, show i < 64 by omega, show i - fieldPos d < fieldLen d by omega]
    · have back : i - fieldPos d - fieldLen d + fieldLen d + fieldPos d = i := by omega
      simp [below, inside, back, show ¬ i - fieldPos d < fieldLen d by omega]
      exact BitVec.lt_of_getLsbD

theorem extend_run (sgn : Bool) (o : Cnt) (s : State) :
    let r := Spec.toReg sgn ((s.cur.getG o.a).setWidth (width o.sz))
    extend sgn o s = .ok ((), s.modCur fun z => { z.setG o.d r with flags := Spec.flagsOf z.flags r false false }) := by
  dsimp only
  rw [extend, Exec.bind_ok s (readG_run s o.a), low_eq_toNat_setWidth, extendTo_toNat, writeAlu_word]

theorem bitFields : Spec.BitFields := by
  refine ⟨fun s o y hy => ?_, fun s o y hy => ?_, fun s o => ?_, fun s o => ?_⟩
  · refine retire_modCur (i := .ext o) (m := ext o) ?_
    rw [ext, Exec.bind_ok s (readG_run s o.a), Exec.bind_ok s (srcVal_run hy), extOf_toNat, writeAlu_word, tyI_eq_isI]
    rfl
  · refine retire_modCur (i := .ins o) (m := ins o) ?_
    rw [ins, Exec.bind_ok s (readG_run s o.a), Exec.bind_ok s (srcVal_run hy), Exec.bind_ok s (readG_run s o.d), insOf_toNat, writeAlu_word]
    rfl
  · refine retire_modCur (i := .sext o) (m := extend true o) ?_
    rw [extend_run]
    rfl
  · refine retire_modCur (i := .zext o) (m := extend false o) ?_
    rw [extend_run]
    rfl

/-- Settles O3: the count of each element fits in it, and a field's bits are the ones its descriptor names. -/
theorem bitOperations : Obligations.BitOperations := ⟨bitCounts, bitFields⟩

end Sys2Proof.Machine
end

section
/-! PROOF. Branches (R187, R188). -/

namespace Sys2Proof.Machine

/-- The target of a BR tail, written with shifts (R152). -/
theorem brTarget_eq_target (pc : Word) (x : Br) : brTarget pc x = Spec.target pc x := by
  have line : x.lineoff.signExtend 64 * 64#64 = x.lineoff.signExtend 64 <<< 6 :=
    (BitVec.shiftLeft_eq_mul_twoPow (x.lineoff.signExtend 64) 6).symm
  have head : BitVec.ofNat 64 (2 * x.head.toNat) = x.head.setWidth 64 <<< 1 := by
    apply BitVec.eq_of_toNat_eq
    simp [Nat.shiftLeft_eq, Nat.mul_comm]
  exact congrArg₂ (fun line head => (pc &&& ~~~(0x3F : Word)) + line + 2 + head) line head

/-- A taken branch that leaves the registers. -/
theorem retire_branchTo {i : Instr} {m : Exec Unit} {s : State} {t : Word} (h : m s = branchTo t s) :
    retire i m s = Spec.jumped s id t :=
  (retire_ok h).trans (congrArg _ (modCur_id_advance _).symm)

/-- A taken branch after a write of a register. -/
theorem retire_modCur_branchTo {i : Instr} {m : Exec Unit} {s : State} {f : Slot → Slot} {t : Word}
    (h : m s = branchTo t (s.modCur f)) : retire i m s = Spec.jumped s f t := retire_ok h

theorem branchIf_run (taken : Bool) (x : Br) (s : State) :
    branchIf taken x s = if taken then branchTo (Spec.target s.focus.pc x) s else .ok ((), s) := by
  rw [branchIf, Exec.bind_ok s (look_run s _), brTarget_eq_target]
  cases taken <;> rfl

/-- A conditional branch, taken or not. -/
theorem retire_branchIf {i : Instr} {m : Exec Unit} {s : State} {x : Br} {taken : Bool} (h : m s = branchIf taken x s) :
    retire i m s = if taken then Spec.jumped s id (Spec.target s.focus.pc x) else Spec.done s id := by
  rw [branchIf_run] at h
  cases taken with
  | true => exact retire_branchTo h
  | false => exact retire_unchanged h

/-- The same after a write of a register. -/
theorem retire_modCur_branchIf {i : Instr} {m : Exec Unit} {s : State} {f : Slot → Slot} {x : Br} {taken : Bool}
    (h : m s = branchIf taken x (s.modCur f)) :
    retire i m s = if taken then Spec.jumped s f (Spec.target s.focus.pc x) else Spec.done s f := by
  rw [branchIf_run] at h
  cases taken with
  | true => exact retire_modCur_branchTo h
  | false => exact retire_modCur h

/-- Settles O6: a branch is `branchIf` or `branchTo`, alone or after one write of a register. -/
theorem branches : Obligations.Branches := by
  intro s x
  refine ⟨retire_branchIf (i := .b x) (m := branch x) (taken := true) rfl, fun cc => ?_, fun d => ?_, fun d => ?_, fun d => ?_,
    retire_modCur_branchIf (i := .call x) (m := call x) (taken := true) rfl, retire_branchTo (i := .ret) (m := jump 15) rfl,
    fun d => retire_branchTo (i := .jmp d) (m := jump d) rfl⟩
  · exact retire_branchIf (i := .bc cc x) (m := branchCond cc x) rfl
  · refine (retire_branchIf (i := .bz d x) (m := branchZero d x) rfl).trans ?_
    simp only [beq_iff_eq]
  · refine (retire_branchIf (i := .bnz d x) (m := branchNonzero d x) rfl).trans ?_
    simp only [bne_iff_ne, ite_not]
  · refine (retire_modCur_branchIf (i := .loop d x) (m := loop d x) rfl).trans ?_
    simp only [bne_iff_ne, ite_not]

end Sys2Proof.Machine
end

section
/-! SUPPORT. Exact conversions between binary formats (R87). -/

namespace Sys2Proof.Machine

/-- A division without remainder leaves nothing over. -/
theorem ratFloor_exact {n d q : Nat} {k : Int} (hd : 0 < d) (h : (n : ℚ) * 2 ^ k = q * d) : ratFloor n d k = (q, false) := by
  unfold ratFloor
  dsimp only
  by_cases hk : 0 ≤ k
  · obtain ⟨j, rfl⟩ := Int.eq_ofNat_of_zero_le hk
    have exact : n * 2 ^ j = q * d := by
      have : (n : ℚ) * 2 ^ j = q * d := h
      exact_mod_cast this
    simp [exact, hd]
  · obtain ⟨j, rfl⟩ : ∃ j : Nat, k = -j := ⟨(-k).toNat, by omega⟩
    have exact : n = q * (d * 2 ^ j) := by
      rw [zpow_neg, zpow_natCast, ← div_eq_mul_inv, div_eq_iff (by positivity), mul_assoc] at h
      exact_mod_cast h
    have pos : 0 < d * 2 ^ j := by positivity
    simp only [hk, if_false, neg_neg, Int.toNat_natCast, exact, Nat.mul_div_cancel _ pos, Nat.mul_mod_left, ne_eq, not_true_eq_false,
      decide_false]

theorem dyadic_eq_num (neg : Bool) (m : Nat) (e : Int) : dyadic neg m e = .num neg (m * 2 ^ e.toNat) (2 ^ (-e).toNat) := by
  unfold dyadic
  split
  · simp [show (-e).toNat = 0 by omega]
  · simp [show e.toNat = 0 by omega]

/-- A number shifted so that its leading bit, bit `k`, is bit `b`. -/
theorem leading_bit_shifted {m k b : Nat} (lo : 2 ^ k ≤ m) (hi : m < 2 ^ (k + 1)) (h : k ≤ b) :
    2 ^ b ≤ m * 2 ^ (b - k) ∧ m * 2 ^ (b - k) < 2 ^ (b + 1) := by
  obtain ⟨j, rfl⟩ := Nat.exists_eq_add_of_le h
  rw [Nat.add_sub_cancel_left, Nat.pow_add, Nat.add_right_comm, Nat.pow_add _ (k + 1)]
  exact ⟨Nat.mul_le_mul_right _ lo, Nat.mul_lt_mul_of_pos_right hi (Nat.two_pow_pos j)⟩

theorem ratLog2_dyadic {m k : Nat} (lo : 2 ^ k ≤ m) (hi : m < 2 ^ (k + 1)) (a b : Nat) :
    ratLog2 (m * 2 ^ a) (2 ^ b) = (k : Int) + a - b := by
  obtain ⟨le, lt⟩ : 2 ^ (k + a) ≤ m * 2 ^ a ∧ m * 2 ^ a < 2 ^ (k + a + 1) := by
    simpa using leading_bit_shifted lo hi (Nat.le_add_right k a)
  have log : (m * 2 ^ a).log2 = k + a := (Nat.log2_eq_iff (by have := Nat.two_pow_pos (k + a); omega)).mpr ⟨le, lt⟩
  unfold ratLog2
  dsimp only
  rw [log, Nat.log2_two_pow]
  push_cast
  split
  · rw [if_pos]
    rwa [← Nat.pow_add, show b + ((k : Int) + a - b).toNat = k + a by omega]
  · rw [if_pos]
    calc 2 ^ b = 2 ^ (k + a) * 2 ^ (-((k : Int) + a - b)).toNat := by
          rw [← Nat.pow_add, show k + a + (-((k : Int) + a - b)).toNat = b by omega]
      _ ≤ _ := Nat.mul_le_mul_right _ le

/-- Where no bit is left over, a magnitude takes the code of its exponent and fraction in every mode. -/
theorem roundMag_exact {p : FP} {x : Mag} {c : Nat} (r : Rm) (neg : Bool) (lo : 1 - (p.bias : Int) ≤ x.lg)
    (exact : x.fl (-(x.lg - p.mb)) = (c, false)) (fits : (x.lg + p.bias - 1).toNat * 2 ^ p.mb + c ≤ p.maxMag) :
    roundMag p r neg x = (signMag p neg ((x.lg + p.bias - 1).toNat * 2 ^ p.mb + c), Sticky.none) := by
  simp only [roundMag, max_eq_left lo, exact, Bool.false_and, Bool.false_eq_true, if_false, if_neg (Nat.not_lt.mpr fits)]

/-- A number whose leading bit is bit `k` and which a format holds exactly. -/
theorem encodeFp_dyadic {p : FP} {m k : Nat} {e : Int} (r : Rm) (neg : Bool) (lo : 2 ^ k ≤ m) (hi : m < 2 ^ (k + 1)) (bits : k ≤ p.mb)
    (normal : 1 - (p.bias : Int) ≤ k + e) (fits : (k + e + p.bias - 1).toNat * 2 ^ p.mb + m * 2 ^ (p.mb - k) ≤ p.maxMag) :
    encodeFp p r (dyadic neg m e) =
      (signMag p neg ((k + e + p.bias - 1).toNat * 2 ^ p.mb + m * 2 ^ (p.mb - k)), Sticky.none) := by
  have nonzero : m * 2 ^ e.toNat ≠ 0 := Nat.mul_ne_zero (by have := Nat.two_pow_pos k; omega) (by positivity)
  have lg : ratLog2 (m * 2 ^ e.toNat) (2 ^ (-e).toNat) = k + e := by
    rw [ratLog2_dyadic lo hi]; omega
  have floor : ratFloor (m * 2 ^ e.toNat) (2 ^ (-e).toNat) (-(k + e - p.mb)) = (m * 2 ^ (p.mb - k), false) := by
    refine ratFloor_exact (by positivity) ?_
    push_cast
    rw [← zpow_natCast, ← zpow_natCast, ← zpow_natCast, mul_assoc, mul_assoc, ← zpow_add₀ two_ne_zero, ← zpow_add₀ two_ne_zero]
    congr 2
    omega
  rw [dyadic_eq_num]
  simp only [encodeFp, if_neg nonzero]
  have := roundMag_exact (x := ratMag (m * 2 ^ e.toNat) (2 ^ (-e).toNat)) r neg (by simpa only [ratMag, lg] using normal)
    (by simpa only [ratMag, lg] using floor) (by simpa only [ratMag, lg] using fits)
  simpa only [ratMag, lg] using this

end Sys2Proof.Machine
end

section
/-! PROOF. Compares, selects, moves and addresses (R179-R184). -/

namespace Sys2Proof.Machine

/-! ## Compare and select -/

/-- SUB on numbers: the difference, no borrow, and signed overflow (R174). -/
theorem subFn_computes : AluFn.Computes subFn fun _ _ x y =>
    (x - y, decide (y.toNat ≤ x.toNat), decide (x.toInt - y.toInt ≠ (x - y).toInt)) := fun n _ x y hn => by
  have diff : wrap n ((x.toNat : Int) - y.toNat) = (x - y).toNat := by
    rw [wrap_eq_toNat_ofInt, ofInt_sub, BitVec.ofInt_natCast, BitVec.ofInt_natCast, BitVec.ofNat_toNat, BitVec.ofNat_toNat,
      BitVec.setWidth_eq, BitVec.setWidth_eq]
  simp only [subFn, diff, signed_toNat, outside_eq_decide_ne hn, ofInt_sub, BitVec.ofInt_toInt]

theorem cmpFlags_eq {n : Nat} (hn : 0 < n) (a b : Word) :
    let x : BitVec n := a.setWidth n
    let y : BitVec n := b.setWidth n
    cmpFlags n a b = resultFlags n (x - y).toNat (decide (y.toNat ≤ x.toNat)) (decide (x.toInt - y.toInt ≠ (x - y).toInt)) := by
  simp only [cmpFlags, low_eq_toNat_setWidth, subFn_computes n false _ _ hn]

theorem compareAndSelect : Spec.CompareAndSelect := by
  refine ⟨fun s o y hy => ?_, fun s cc o y hy => ?_, fun s cc d a b => ?_⟩
  · refine retire_modCur (i := .cmp o) (m := cmp o) ?_
    rw [cmp, Exec.bind_ok s (readG_run s o.a), Exec.bind_ok s (srcVal_run hy), setZnvc_run, cmpFlags_eq (width_pos _)]
    simp only [withZnvc_resultFlags]
  · have same (x y : BitVec (width o.sz)) : (x - y == 0) = (x == y) := by
      rw [Bool.eq_iff_iff]
      simp [BitVec.sub_eq_iff_eq_add]
    refine retire_modCur (i := .setc cc o) (m := setc cc o) ?_
    rw [setc, Exec.bind_ok s (readG_run s o.a), Exec.bind_ok s (srcVal_run hy), Exec.bind_ok s (look_run s _), writeG_run,
      condHolds_withZnvc, cmpFlags_eq (width_pos _), resultFlags_toNat, same]
  · refine retire_modCur (i := .sel cc d a b) (m := sel cc d a b) ?_
    rw [sel, Exec.bind_ok s (look_run s _), Exec.bind_ok s (readG_run s a), Exec.bind_ok s (readG_run s b), writeG_run,
      condHolds_eq_condition, apply_ite s.cur.getG]

/-! ## An F32 pattern as an F64 (R183) -/

/-- A magnitude below the NaN of F64 under its sign. -/
theorem signMag_f64 (neg : Bool) {mag : Nat} (h : mag < 0x7FF8000000000000) :
    signMag (fpOf 12) neg mag = 2 ^ 63 * b2n neg + mag := by
  have notNan : ¬ (fpOf 12).nan = some mag := fun e => by
    have : 0x7FF8000000000000 = mag := Option.some.inj e
    omega
  rw [signMag, if_neg notNan, if_neg (fun e => nomatch e.1)]
  cases neg <;> simp [b2n, fpOf]

/-- A finite F32 number other than zero, exactly. -/
theorem encode_f64_dyadic (neg : Bool) {m k : Nat} {e : Int} (lo : 2 ^ k ≤ m) (hi : m < 2 ^ (k + 1)) (bits : k ≤ 23) (min : -149 ≤ e)
    (max : k + e < 128) : (encodeFp (fpOf 12) ⟨0, false, 0⟩ (dyadic neg m e)).1 =
      2 ^ 63 * b2n neg + ((k + e + 1022).toNat * 2 ^ 52 + m * 2 ^ (52 - k)) := by
  have frac : m * 2 ^ (52 - k) < 2 ^ 53 := (leading_bit_shifted lo hi (by omega)).2
  have code : (k + e + ((fpOf 12).bias : Int) - 1).toNat = (k + e + 1022).toNat := by
    show (k + e + 1023 - 1).toNat = _
    omega
  have top : (k + e + 1022).toNat ≤ 1149 := by omega
  have fits : (k + e + ((fpOf 12).bias : Int) - 1).toNat * 2 ^ (fpOf 12).mb + m * 2 ^ ((fpOf 12).mb - k) ≤ (fpOf 12).maxMag := by
    rw [code]
    show _ * 2 ^ 52 + m * 2 ^ (52 - k) ≤ 0x7FEFFFFFFFFFFFFF
    omega
  have normal : 1 - ((fpOf 12).bias : Int) ≤ k + e := by
    show 1 - (1023 : Int) ≤ _
    omega
  rw [encodeFp_dyadic _ neg lo hi (show k ≤ 52 by omega) normal fits, code]
  refine signMag_f64 neg ?_
  show _ * 2 ^ 52 + m * 2 ^ (52 - k) < _
  omega

/-- The value of an F32 pattern by its fields (R65). -/
theorem decodeFp_f32 (p : BitVec 32) :
    let e := (p.extractLsb' 23 8).toNat
    let f := (p.extractLsb' 0 23).toNat
    decodeFp (fpOf 13) p.toNat =
      if p = 0xFFC00000#32 then .absent
      else if e = 255 then if f = 0 then .inf p.msb else .nan
      else if e = 0 then dyadic p.msb f (-149) else dyadic p.msb (2 ^ 23 + f) (e - 150) := by
  intro e f
  have he : p.toNat % 0x80000000 / 0x800000 = e := by
    simp only [e, BitVec.extractLsb'_toNat, Nat.shiftRight_eq_div_pow]; omega
  have hf : p.toNat % 0x80000000 % 0x800000 = f := by
    simp only [f, BitVec.extractLsb'_toNat, Nat.shiftRight_eq_div_pow]; omega
  have absent : p.toNat = 0xFFC00000 ↔ p = 0xFFC00000#32 := by rw [← BitVec.toNat_inj]; rfl
  have inf : some 0x7F800000 = some (p.toNat % 0x80000000) ↔ e = 255 ∧ f = 0 := by
    rw [Option.some.injEq]; omega
  have nan : ¬ (e = 255 ∧ f = 0) → (0x7F7FFFFF < p.toNat % 0x80000000 ↔ e = 255) := by omega
  have neg : decide (0x80000000 ≤ p.toNat) = p.msb := (BitVec.msb_eq_decide p).symm
  have exponent : (e : Int) - 127 - 23 = e - 150 := by omega
  simp only [decodeFp, fpOf, Nat.reduceSub, Nat.reducePow, Nat.cast_ofNat, Int.reduceSub, he, hf, neg, exponent, absent, inf]
  by_cases hinf : e = 255 ∧ f = 0
  · simp [hinf]
  · simp only [nan hinf, hinf, if_false]
    by_cases h : e = 255
    · simp [h, show f ≠ 0 from fun z => hinf ⟨h, z⟩]
    · simp [h]

/-- A normal F32 number keeps its fraction, its exponent biased anew. -/
theorem encode_f64_normal (neg : Bool) {e f : Nat} (hf : f < 2 ^ 23) (he : e < 255) (pos : e ≠ 0) :
    (encodeFp (fpOf 12) ⟨0, false, 0⟩ (dyadic neg (2 ^ 23 + f) (e - 150))).1 = 2 ^ 63 * b2n neg + (e + 896) * 2 ^ 52 + f * 2 ^ 29 := by
  rw [encode_f64_dyadic (k := 23) neg (by omega) (by omega) le_rfl (by omega) (by omega)]
  push_cast
  omega

/-- A subnormal F32 number becomes normal: its leading bit is hidden. -/
theorem encode_f64_subnormal (neg : Bool) {f : Nat} (hf : f < 2 ^ 23) (pos : f ≠ 0) :
    (encodeFp (fpOf 12) ⟨0, false, 0⟩ (dyadic neg f (-149))).1 =
      2 ^ 63 * b2n neg + (874 + f.log2) * 2 ^ 52 + f * 2 ^ (52 - f.log2) % 2 ^ 52 := by
  have lo := Nat.log2_self_le pos
  have hi : f < 2 ^ (f.log2 + 1) := Nat.lt_log2_self
  have bits : f.log2 < 23 := (Nat.log2_lt pos).mpr hf
  have frac : f * 2 ^ (52 - f.log2) = 2 ^ 52 + f * 2 ^ (52 - f.log2) % 2 ^ 52 := by
    obtain ⟨le, lt⟩ := leading_bit_shifted lo hi (b := 52) (by omega)
    omega
  rw [encode_f64_dyadic neg lo hi bits.le (by decide) (by omega), frac]
  omega

theorem f32ToF64_toNat (p : BitVec 32) : BitVec.ofNat 64 (f32ToF64 p.toNat) = Spec.toF64 p := by
  have he := (p.extractLsb' 23 8).isLt
  have hf := (p.extractLsb' 0 23).isLt
  rw [f32ToF64, decodeFp_f32, Spec.toF64]
  generalize (p.extractLsb' 23 8).toNat = e at he ⊢
  generalize (p.extractLsb' 0 23).toNat = f at hf ⊢
  by_cases habs : p = 0xFFC00000#32
  · rw [if_pos habs, if_pos habs]
    rfl
  rw [if_neg habs, if_neg habs]
  by_cases htop : e = 255
  · rw [if_pos htop, if_pos htop]
    split
    · exact congrArg _ (signMag_f64 p.msb (mag := 0x7FF0000000000000) (by decide))
    · rfl
  rw [if_neg htop, if_neg htop]
  by_cases hsub : e = 0
  · rw [if_pos hsub, if_neg (not_not.mpr hsub)]
    by_cases hzero : f = 0
    · rw [if_pos hzero, hzero]
      exact congrArg _ (signMag_f64 p.msb (mag := 0) (by decide))
    · rw [if_neg hzero, encode_f64_subnormal p.msb hf hzero]
  · rw [if_neg hsub, if_pos hsub, encode_f64_normal p.msb hf (by omega) hsub]

/-! ## Moves and addresses (R182-R184) -/

/-- The constants of MOVI and MOVL by TYPE (R183). -/
theorem moveConst_int (int : Word) (f32 : Nat) : moveConst 0 int f32 = int := rfl
theorem moveConst_f32 (int : Word) (p : BitVec 32) : moveConst 1 int p.toNat = p.setWidth 64 := BitVec.ofNat_toNat 64 p
theorem moveConst_f64 (int : Word) (p : BitVec 32) : moveConst 2 int p.toNat = Spec.toF64 p := f32ToF64_toNat p

/-- MOVI's constant is the upper bits of an F32 pattern (R148). -/
theorem toNat_append_zero (imm : BitVec 20) : (imm ++ 0#12).toNat = imm.toNat * 2 ^ 12 := by
  rw [BitVec.toNat_append, BitVec.toNat_ofNat, Nat.zero_mod, Nat.or_zero, Nat.shiftLeft_eq]

/-- The address of LEA, in 56 bits (R184). -/
theorem ofNat_segBase_add_mod (b : BitVec 128) (ea : Word) : BitVec.ofNat 64 ((segBase b + ea.toNat) % 2 ^ 56) =
    (((b.extractLsb' 0 56).setWidth 64 + ea).extractLsb' 0 56).setWidth 64 := by
  apply BitVec.eq_of_toNat_eq
  simp only [segBase, bitsOf, BitVec.toNat_ofNat, BitVec.toNat_setWidth, BitVec.extractLsb'_toNat, BitVec.toNat_add, Nat.shiftRight_zero]
  omega

theorem movesAndAddresses : Spec.Moves := by
  refine ⟨fun s d a => ?_, fun s d imm => ?_, fun s d imm => ?_, fun s d imm => ?_, fun s d lit => ?_, fun s d lit => ?_,
    fun s d lit => ?_, fun s d lit ty => ?_, fun s d m => ?_⟩
  · exact retire_writeG (i := .mov d a) (m := mov d a) rfl rfl
  · exact retire_writeG (i := .movi 0 d imm) (m := movi 0 d imm) rfl (moveConst_int _ _)
  · exact retire_writeG (i := .movi 1 d imm) (m := movi 1 d imm) rfl (toNat_append_zero imm ▸ moveConst_f32 _ _)
  · exact retire_writeG (i := .movi 2 d imm) (m := movi 2 d imm) rfl (toNat_append_zero imm ▸ moveConst_f64 _ _)
  · exact retire_writeG (i := .movl 0 d (.rl lit)) (m := movl 0 d (.rl lit)) rfl (moveConst_int _ _)
  · exact retire_writeG (i := .movl 1 d (.rl lit)) (m := movl 1 d (.rl lit)) rfl (moveConst_f32 _ _)
  · exact retire_writeG (i := .movl 2 d (.rl lit)) (m := movl 2 d (.rl lit)) rfl (moveConst_f64 _ _)
  · exact retire_writeG (i := .movl ty d (.rl64 lit)) (m := movl ty d (.rl64 lit)) rfl rfl
  · refine retire_writeG (i := .lea d m) (m := lea d m) rfl ((ofNat_segBase_add_mod _ _).trans ?_)
    rw [Slot.ea, BitVec.add_assoc]
    rfl

/-- Settles O4: CMP has the flags of SUB, and F64 holds every finite F32 number exactly. -/
theorem comparesAndMoves : Obligations.ComparesAndMoves := ⟨compareAndSelect, movesAndAddresses⟩

end Sys2Proof.Machine
end

section
/-! SUPPORT. Reading vector operands (R209-R213, R221, R222): where the statements name a pop or a source, the instruction reads it. -/

namespace Sys2Proof.Machine

/-! ## Streams -/

/-- A use that the statements allow is not refused (R222). -/
theorem streamUse_run {s : State} {wr : Bool} {f : Nat} {r : VReg} (h : Spec.usable s wr f r = true) :
    streamUse wr f r s = .ok ((), s) := by
  rw [streamUse, Exec.bind_ok s (look_run s _)]
  rw [Spec.usable] at h
  cases hb : s.cur.binding r with
  | none => rfl
  | some b =>
    rw [hb] at h
    dsimp only
    rw [Exec.bind_ok s (look_run s _), require_run, if_pos h]

theorem sourcesOk_run {s : State} {f : Nat} {rs : List VReg} (h : ∀ r ∈ rs, Spec.usable s false f r = true) :
    sourcesOk f rs s = .ok ((), s) := by
  induction rs with
  | nil => rfl
  | cons r rs ih =>
    obtain ⟨hr, hrs⟩ := List.forall_mem_cons.mp h
    exact (Exec.bind_ok s (streamUse_run hr)).trans (ih hrs)

/-- A stream element's place that the statements name passes the checks of R221. -/
theorem streamAt_run {s : State} {i : BitVec 256} {w k a : Nat} {rd wr : Bool} (h : Spec.streamOff s i w k rd wr = some a) :
    streamAt i w k rd wr s = .ok (a, s) := by
  unfold Spec.streamOff Spec.reach at h
  dsimp only at h
  rw [Option.ite_none_left_eq_some, Option.ite_none_right_eq_some] at h
  obtain ⟨space, ⟨limit, below, fits, hrd, hwr, align⟩, addr⟩ := h
  have ok : segOk (s.cur.getS (sdSeg i)) (sdElem i k) (w / 8) rd wr = true := by
    simp only [segOk, Bool.and_eq_true, Bool.or_eq_true, Bool.not_eq_true', decide_eq_true_eq]
    exact ⟨⟨⟨⟨limit.ne', below⟩, fits⟩, rd.eq_false_or_eq_true.symm.imp_right hrd⟩,
      wr.eq_false_or_eq_true.symm.imp_right hwr⟩
  have aligned : segAddr (s.cur.getS (sdSeg i)) (sdElem i k) % (w / 8) = 0 := align
  cases addr
  simp only [streamAt, Exec.bind_run, look_run, ok, space, aligned, Bool.not_true, Bool.false_eq_true, ne_eq, not_true_eq_false,
    if_false, Exec.pure_run]
  rfl

/-- One element of a pop (R210, R221). -/
def popElem (i : BitVec 256) (f p : Nat) (want : Nat → Bool) (j : Nat) : Exec Nat :=
  if sdCount i ≤ p + j then pure (absentCode (sdFmt i))
  else if !want j then pure 0
  else do
    let off ← streamAt i (fmtWidth f) (p + j) true false
    let bs ← loadNear off (fmtWidth f / 8)
    return natOf bs

theorem popElems_cons (i : BitVec 256) (f p : Nat) (want : Nat → Bool) (j : Nat) (js : List Nat) :
    popElems i f p want (j :: js) = (do
      let v ← popElem i f p want j
      let vs ← popElems i f p want js
      return v :: vs) := by
  rw [popElems, popElem]
  split
  · rfl
  split
  · rfl
  · simp only [bind_assoc, pure_bind]

theorem popElem_run {s : State} {i : BitVec 256} {f p j v : Nat} {want : Nat → Bool}
    (h : Spec.streamElem s i (fmtWidth f) (p + j) (want j) = some v) : popElem i f p want j s = .ok (v, s) := by
  rw [Spec.streamElem] at h
  rw [popElem, sdCount]
  by_cases past : sdBound0 i * sdBound1 i ≤ p + j
  · rw [if_pos past] at h ⊢
    cases h
    rfl
  rw [if_neg past] at h ⊢
  cases hw : want j with
  | false =>
    rw [hw, if_pos rfl] at h
    cases h
    rfl
  | true =>
    rw [hw, if_neg (by decide)] at h
    obtain ⟨a, ha, h⟩ := Option.bind_eq_some_iff.mp h
    obtain ⟨good, h⟩ := Option.ite_none_right_eq_some.mp h
    cases h
    have load : loadNear a (fmtWidth f / 8) s = .ok (s.seenBy (nearKey s a) (fmtWidth f / 8), s) := by
      rw [loadNear, show s.hasUe (nearKey s a) (fmtWidth f / 8) = none from good]
    rw [if_neg (by decide), Exec.bind_ok s (streamAt_run ha), Exec.bind_ok s load]
    rfl

theorem popElems_run {s : State} {i : BitVec 256} {f p : Nat} {want : Nat → Bool} {js es : List Nat}
    (h : (js.mapM fun j => Spec.streamElem s i (fmtWidth f) (p + j) (want j)) = some es) : popElems i f p want js s = .ok (es, s) := by
  induction js generalizing es with
  | nil => cases h; rfl
  | cons j js ih =>
    rw [List.mapM_cons] at h
    obtain ⟨v, hv, h⟩ := Option.bind_eq_some_iff.mp h
    obtain ⟨vs, hvs, h⟩ := Option.bind_eq_some_iff.mp h
    cases h
    rw [popElems_cons, Exec.bind_ok s (popElem_run hv), Exec.bind_ok s (ih hvs), Exec.pure_run]

/-! ## Sources -/

/-- A source that the statements name is what the instruction reads (R221). -/
theorem readV_run {s t : State} {f : Nat} {r : VReg} {want : Nat → Bool} {x : BitVec 512} (h : Spec.pop s f r want = some (x, t)) :
    readV f r want s = .ok (x, t) := by
  rw [Spec.pop] at h
  rw [readV, Exec.bind_ok s (look_run s _)]
  cases hb : s.cur.binding r with
  | none =>
    rw [hb] at h
    cases h
    rfl
  | some b =>
    rw [hb] at h
    obtain ⟨es, hes, h⟩ := Option.map_eq_some_iff.mp h
    cases h
    dsimp only
    rw [popStream, Exec.bind_ok s (look_run s _), Exec.bind_ok s (popElems_run hes)]
    rfl

theorem readV2_run {s t : State} {f : Nat} {a b : VReg} {want : Nat → Bool} {x y : BitVec 512}
    (h : Spec.pop2 s f a b want = some (x, y, t)) : readV2 f a b want s = .ok ((x, y), t) := by
  obtain ⟨⟨v, u⟩, hv, h⟩ := Option.bind_eq_some_iff.mp h
  rw [readV2, Exec.bind_ok s (readV_run hv)]
  dsimp only at h
  by_cases same : a = b
  · rw [if_pos same] at h
    cases h
    rw [if_pos same]
    rfl
  · rw [if_neg same] at h
    obtain ⟨⟨v', u'⟩, hv', h⟩ := Option.map_eq_some_iff.mp h
    cases h
    rw [if_neg same, Exec.bind_ok u (readV_run hv')]
    rfl

/-- A popped register and then a constant: the sources of the immediate and literal forms (R211). -/
theorem vecOperands_const_run {s t : State} {f : Nat} {a : VReg} {want : Nat → Bool} {x : BitVec 512} {m : Exec (Nat × Sticky)}
    {c : Nat × Sticky} (hx : Spec.pop s f a want = some (x, t)) (hc : m t = .ok (c, t)) :
    (do let x ← readV f a want
        let c ← m
        return (elemAt x (fmtWidth f), (fun _ => c.1), c.2) : Exec ((Nat → Nat) × (Nat → Nat) × Sticky)) s =
      .ok ((elemAt x (fmtWidth f), (fun _ => c.1), c.2), t) := by
  rw [Exec.bind_ok s (readV_run hx), Exec.bind_ok t hc, Exec.pure_run]

/-- The sources that the statements name are those the instruction reads; x is made of the elements of a register. -/
theorem vecOperands_run {s t : State} {f : Nat} {a : VReg} {src : Src} {want : Nat → Bool} {x y : Nat → Nat} {st : Sticky}
    (h : Spec.operands s f a src want = some (x, y, st, t)) :
    vecOperands f a src want s = .ok ((x, y, st), t) ∧ ∃ v, x = elemAt v (fmtWidth f) := by
  cases src with
  | rr b =>
    obtain ⟨⟨v, v', u⟩, hv, h⟩ := Option.map_eq_some_iff.mp h
    cases h
    refine ⟨?_, v, rfl⟩
    rw [vecOperands, Exec.bind_ok s (readV2_run hv)]
    rfl
  | ri imm =>
    obtain ⟨⟨v, u⟩, hv, h⟩ := Option.bind_eq_some_iff.mp h
    cases h
    refine ⟨vecOperands_const_run (m := vecConst f (.ri imm)) hv ?_, v, rfl⟩
    rw [toNat_append_zero]
    rfl
  | rl lit =>
    obtain ⟨⟨v, u⟩, hv, h⟩ := Option.bind_eq_some_iff.mp h
    cases h
    exact ⟨vecOperands_const_run (m := vecConst f (.rl lit)) hv rfl, v, rfl⟩
  | rk win off =>
    obtain ⟨⟨v, u⟩, hv, h⟩ := Option.bind_eq_some_iff.mp h
    obtain ⟨c, hc, h⟩ := Option.map_eq_some_iff.mp h
    obtain ⟨k, hk, rfl⟩ := Option.map_eq_some_iff.mp hc
    cases h
    refine ⟨vecOperands_const_run (m := vecConst f (.rk win off)) hv ?_, v, rfl⟩
    rw [vecConst, tableB, Exec.bind_ok u (look_run u _), Exec.bind_ok u (look_run u _)]
    dsimp only
    rw [Exec.bind_ok u (readConst_run hk), Exec.pure_run]
  | rl64 lit =>
    obtain ⟨⟨v, u⟩, hv, h⟩ := Option.bind_eq_some_iff.mp h
    cases h
    exact ⟨vecOperands_const_run (m := vecConst f (.rl64 lit)) hv rfl, v, rfl⟩

/-! ## Widths and elements -/

theorem getD_pos {ws : List Nat} {d : Nat} (hws : ∀ w ∈ ws, 0 < w) (hd : 0 < d) (k : Nat) : 0 < ws.getD k d := by
  rw [List.getD_eq_getElem?_getD]
  cases h : ws[k]? with
  | none => exact hd
  | some w => exact hws w (List.mem_of_getElem? h)

theorem fmtWidth_pos (f : Nat) : 0 < fmtWidth f := by
  rw [fmtWidth]
  split
  · exact getD_pos (by decide) (by decide) _
  · exact getD_pos (by decide) (by decide) _

theorem elemAt_lt (x : BitVec 512) (w j : Nat) : elemAt x w j < 2 ^ w := Nat.mod_lt _ (Nat.two_pow_pos w)

end Sys2Proof.Machine
end

section
/-! SUPPORT. Writing a vector destination (R210, R221) and the end of a vector instruction (R86, R90, R213): where the statements name a
push, the instruction writes it. -/

namespace Sys2Proof.Machine

/-! ## What a store to local memory leaves of a slot -/

/-- A store changes only the written bits of a slot (R56). -/
theorem State.store_slot (s : State) (k : Nat) (b : Byte) (r : SlotRef) :
    ∃ w, (s.store k b).slot r = { s.slot r with written := w } := by
  unfold State.store
  split
  · rename_i sk g _
    dsimp only
    split
    · exact ⟨_, rfl⟩
    · rw [State.slot, SMap.get_put]
      split
      · rename_i here
        exact ⟨_, by rw [State.slot, here]⟩
      · exact ⟨_, rfl⟩
  · exact ⟨_, rfl⟩

theorem State.stores_slot (bs : List Byte) (s : State) (k : Nat) (r : SlotRef) :
    ∃ w, (s.stores k bs).slot r = { s.slot r with written := w } := by
  induction bs generalizing s k with
  | nil => exact ⟨_, rfl⟩
  | cons b bs ih =>
    obtain ⟨_, one⟩ := State.store_slot s k b r
    obtain ⟨w, rest⟩ := ih (s.store k b) (k + 1)
    exact ⟨w, by rw [State.stores, rest, one]⟩

/-- Of a slot, a store that overtakes earlier accesses changes only the parks. -/
theorem overtake_slot (s : State) (q : SlotRef) (task xid : Nat) (rs : List (Nat × Nat)) (r : SlotRef) :
    ∃ ps, (overtake s q task xid rs).slot r = { s.slot r with parks := ps } := by
  have slots : (overtake s q task xid rs).slot r = ((outrun s task xid rs).modSlot q fun x =>
      if x.task = task then { x with parks := x.parks.map (keepLoad s task xid rs) } else x).slot r := by
    unfold overtake
    dsimp only
    split <;> rfl
  rw [slots, State.modSlot_eq, State.slot_setSlot]
  split
  · rename_i here
    rw [show s.slot r = s.slot q by rw [State.slot, here, State.slot]]
    split <;> exact ⟨_, rfl⟩
  · exact ⟨_, rfl⟩

theorem stored_me (s : State) (k : Nat) (bs : List Byte) : (Spec.stored s k bs).me = s.me := by
  obtain ⟨_, _, _, hs⟩ := State.stores_frame bs (overtake s s.me s.cur.task s.xid [(k, bs.length)]) k
  obtain ⟨_, _, _, _, ho⟩ := overtake_frame s s.me s.cur.task s.xid [(k, bs.length)]
  rw [Spec.stored, hs, ho]
  rfl

/-- Of the slot that issues, a store to local memory changes only the parks and the written bits. -/
theorem stored_cur (s : State) (k : Nat) (bs : List Byte) :
    ∃ ps w, (Spec.stored s k bs).cur = { s.cur with parks := ps, written := w } := by
  obtain ⟨ps, ho⟩ := overtake_slot s s.me s.cur.task s.xid [(k, bs.length)] s.me
  obtain ⟨w, hs⟩ := State.stores_slot bs (overtake s s.me s.cur.task s.xid [(k, bs.length)]) k s.me
  exact ⟨ps, w, by rw [State.cur_eq, stored_me, Spec.stored, hs, ho, State.cur_eq]⟩

theorem stored_binding (s : State) (k : Nat) (bs : List Byte) (d : VReg) :
    (Spec.stored s k bs).cur.binding d = s.cur.binding d := by
  obtain ⟨_, _, h⟩ := stored_cur s k bs
  rw [h]
  rfl

/-! ## Pushes -/

/-- One element of a push of the statements: the place and the check are those of R221. -/
def pushElem (i : BitVec 256) (f p : Nat) (new : Nat → Option Nat) (s : State) (j : Nat) : Option State :=
  match new j with
  | some e =>
    if p + j < sdBound0 i * sdBound1 i then
      (Spec.streamOff s i (fmtWidth f) (p + j) false true).map fun a => Spec.stored s (Spec.here s a) (bytesOf (fmtWidth f / 8) e)
    else some s
  | none => some s

theorem push_unbound {s : State} {d : VReg} (f : Nat) (new : Nat → Option Nat) (h : s.cur.binding d = none) :
    Spec.push s f d new = some (s.modCur fun z => z.setV d (Spec.merge (fmtWidth f) (z.getV d) new)) := by
  rw [Spec.push, h]

theorem push_bound {s : State} {d : VReg} {b : Binding} (f : Nat) (new : Nat → Option Nat) (h : s.cur.binding d = some b) :
    Spec.push s f d new = ((List.range (fmtElems f)).foldlM
      (pushElem (s.cur.getSd b.desc).image f (s.cur.getSd b.desc).pos new) s).map fun t => t.modCur (Spec.moveOn b f) := by
  rw [Spec.push, h]
  rfl

theorem pushElem_binding {s t : State} {i : BitVec 256} {f p j : Nat} {new : Nat → Option Nat}
    (h : pushElem i f p new s j = some t) (d : VReg) : t.cur.binding d = s.cur.binding d := by
  rw [pushElem] at h
  split at h
  · split at h
    · obtain ⟨a, _, rfl⟩ := Option.map_eq_some_iff.mp h
      exact stored_binding s _ _ d
    · cases h; rfl
  · cases h; rfl

theorem pushElems_cons_run {s t : State} {i : BitVec 256} {f p j : Nat} {new : Nat → Option Nat}
    (h : pushElem i f p new s j = some t) (vs : List (Option Nat)) :
    pushElems i f p j (new j :: vs) s = pushElems i f p (j + 1) vs t := by
  rw [pushElem] at h
  cases hv : new j with
  | none =>
    cases hv ▸ h
    rfl
  | some e =>
    rw [hv] at h
    dsimp only at h
    rw [pushElems]
    split at h
    · obtain ⟨a, ha, rfl⟩ := Option.map_eq_some_iff.mp h
      rw [if_pos (show p + j < sdCount i from ‹_›), Exec.bind_ok s (streamAt_run ha)]
      rfl
    · cases h
      rw [if_neg (show ¬ p + j < sdCount i from ‹_›)]

/-- The elements that a push writes, each after its check; they leave the bindings. -/
theorem pushElems_run {i : BitVec 256} {f p n : Nat} {new : Nat → Option Nat} {j : Nat} {s t : State}
    (h : (List.range' j n).foldlM (pushElem i f p new) s = some t) :
    pushElems i f p j ((List.range' j n).map new) s = .ok ((), t) ∧ ∀ d, t.cur.binding d = s.cur.binding d := by
  induction n generalizing j s with
  | zero => cases h; exact ⟨rfl, fun _ => rfl⟩
  | succ n ih =>
    rw [List.range'_succ, List.foldlM_cons] at h
    obtain ⟨u, hu, h⟩ := Option.bind_eq_some_iff.mp h
    obtain ⟨run, keep⟩ := ih h
    rw [List.range'_succ, List.map_cons, pushElems_cons_run hu]
    exact ⟨run, fun d => (keep d).trans (pushElem_binding hu d)⟩

/-- Old elements with the written ones over them, as one list over the numbers of the elements. -/
theorem blend_elems (x : BitVec 512) (w : Nat) (new : Nat → Option Nat) :
    ofElems w (blend (elems x w) ((List.range (512 / w)).map new)) = Spec.merge w x new := by
  rw [blend, elems, List.zipWith_map, List.zipWith_self]
  rfl

/-- A write that the statements name is what the instruction writes (R210, R221). -/
theorem writeV_run {s t : State} {f : Nat} {d : VReg} {new : Nat → Option Nat} (h : Spec.push s f d new = some t) :
    writeV f d ((List.range (fmtElems f)).map new) s = .ok ((), t) := by
  rw [writeV, pushTo, Exec.bind_ok s (look_run s _)]
  cases hb : s.cur.binding d with
  | none =>
    rw [push_unbound f new hb] at h
    cases h
    rw [Option.map_none, writeVTo, Exec.bind_ok s (modMe_run s _), pushStep, Exec.bind_ok _ (look_run _ _), State.modCur_cur,
      show ∀ v, (s.cur.setV d v).binding d = none from fun _ => hb]
    simp only [Exec.pure_run, fmtElems, blend_elems]
  | some b =>
    rw [push_bound f new hb] at h
    obtain ⟨u, hu, rfl⟩ := Option.map_eq_some_iff.mp h
    rw [List.range_eq_range'] at hu ⊢
    obtain ⟨run, keep⟩ := pushElems_run hu
    rw [Option.map_some, writeVTo, Exec.bind_ok s run, pushStep, Exec.bind_ok u (look_run u _), keep, hb]
    rfl

/-! ## What a destination takes of an element -/

theorem pack_mod (w : Nat) (es : List Nat) : pack w (es.map (· % 2 ^ w)) = pack w es := by
  induction es with
  | nil => rfl
  | cons e es ih => rw [List.map_cons, pack, pack, ih, Nat.mod_mod]

theorem bytesOf_mod {n w : Nat} (h : 8 * n ≤ w) (e : Nat) : bytesOf n (e % 2 ^ w) = bytesOf n e := by
  induction n generalizing w e with
  | zero => rfl
  | succ n ih =>
    obtain ⟨k, rfl⟩ := Nat.exists_eq_add_of_le (show 8 ≤ w by omega)
    have low : BitVec.ofNat 8 (e % 2 ^ (8 + k)) = BitVec.ofNat 8 e := by
      apply BitVec.eq_of_toNat_eq
      rw [BitVec.toNat_ofNat, BitVec.toNat_ofNat, Nat.pow_add, Nat.mod_mul_right_mod]
    have high : e % 2 ^ (8 + k) / 256 = e / 256 % 2 ^ k := by
      rw [Nat.pow_add]
      exact Nat.mod_mul_right_div_self e 256 (2 ^ k)
    rw [bytesOf, bytesOf, low, high, ih (by omega)]

/-- A destination takes an element's low bits (R209). -/
theorem push_mod (s : State) (f : Nat) (d : VReg) (new : Nat → Option Nat) :
    Spec.push s f d (fun j => (new j).map (· % 2 ^ fmtWidth f)) = Spec.push s f d new := by
  cases hb : s.cur.binding d with
  | none =>
    have merged (x : BitVec 512) : Spec.merge (fmtWidth f) x (fun j => (new j).map (· % 2 ^ fmtWidth f)) =
        Spec.merge (fmtWidth f) x new := by
      rw [Spec.merge, Spec.merge, ofElems, ofElems, ← pack_mod, ← pack_mod _ (List.map (fun j => (new j).getD _) _)]
      simp only [List.map_map]
      congr 3
      funext j
      cases hn : new j <;> simp [hn]
    rw [push_unbound f _ hb, push_unbound f _ hb]
    simp only [merged]
  | some b =>
    have each (i : BitVec 256) (p : Nat) : pushElem i f p (fun j => (new j).map (· % 2 ^ fmtWidth f)) = pushElem i f p new := by
      funext t j
      rw [pushElem, pushElem]
      cases new j with
      | none => rfl
      | some e => simp only [Option.map_some, bytesOf_mod (Nat.mul_div_le (fmtWidth f) 8)]
    rw [push_bound f _ hb, push_bound f _ hb, each]

/-! ## The end of a vector instruction -/

/-- An element's result as its destination takes it. -/
def Elem.cut (w : Nat) (e : Elem) : Elem := { e with bits := e.bits % 2 ^ w }

/-- The bits written under a mask. -/
def newBits (act : Nat → Bool) (r : Nat → Elem) (j : Nat) : Option Nat := if act j then some (r j).bits else none

theorem newBits_cut (act : Nat → Bool) (r : Nat → Elem) (w j : Nat) :
    newBits act (fun j => (r j).cut w) j = (newBits act r j).map (· % 2 ^ w) := by
  rw [newBits, newBits]
  cases act j <;> rfl

theorem codes_perActive (n : Nat) (act : Nat → Bool) (r : Nat → Elem) :
    codes (perActive n act r) = (List.range n).map (newBits act r) := by
  rw [codes, perActive, List.map_map]
  refine List.map_congr_left fun j _ => ?_
  rw [Function.comp_apply, newBits]
  cases act j <;> rfl

/-- The results of the active elements, and nothing for the others. -/
theorem reduceOption_perActive (n : Nat) (act : Nat → Bool) (r : Nat → Elem) :
    (perActive n act r).reduceOption = Spec.results n act r := by
  rw [perActive, Spec.results]
  induction List.range n with
  | nil => rfl
  | cons j js ih =>
    cases h : act j <;> simp [h, ih]

theorem stickyWord_or (x y : Sticky) : stickyWord (x.or y) = stickyWord x ||| stickyWord y := by
  obtain ⟨a, o, n⟩ := x
  obtain ⟨a', o', n'⟩ := y
  revert a o n a' o' n'
  decide

theorem allSticky_eq_foldl (es : List (Option Elem)) : allSticky es = es.reduceOption.foldl (fun x e => x.or e.st) Sticky.none := by
  rw [allSticky]
  generalize Sticky.none = x
  induction es generalizing x with
  | nil => rfl
  | cons e es ih => cases e <;> simp [ih]

/-- FLAGS with the flags of all elements at once, or of one after the other. -/
theorem or_stickyWord_foldl (flags : Word) (es : List Elem) (x : Sticky) :
    flags ||| stickyWord (es.foldl (fun x e => x.or e.st) x) = es.foldl (fun z e => z ||| stickyWord e.st) (flags ||| stickyWord x) := by
  induction es generalizing x with
  | nil => rfl
  | cons e es ih => rw [List.foldl_cons, List.foldl_cons, ih, stickyWord_or, BitVec.or_assoc]

theorem withSticky_allSticky (flags : Word) (es : List (Option Elem)) :
    withSticky flags (allSticky es) = es.reduceOption.foldl (fun z e => z ||| stickyWord e.st) flags := by
  rw [withSticky, allSticky_eq_foldl, or_stickyWord_foldl, show stickyWord Sticky.none = 0#64 from rfl, BitVec.or_zero]

theorem anySr_eq_any (es : List (Option Elem)) : anySr es = es.reduceOption.any Elem.sr := by
  rw [anySr]
  induction es with
  | nil => rfl
  | cons e es ih => cases e <;> simp [ih]

/-- Only the flags of the results count at the end (R86, R90). -/
theorem settle_cut (u : State) (w n : Nat) (act : Nat → Bool) (r : Nat → Elem) :
    Spec.settle u (Spec.results n act fun j => (r j).cut w) = Spec.settle u (Spec.results n act r) := by
  have cut : (Spec.results n act fun j => (r j).cut w) = (Spec.results n act r).map (Elem.cut w) := by
    rw [Spec.results, Spec.results, List.map_map]
    rfl
  simp only [Spec.settle, cut, List.foldl_map, List.any_map]
  rfl

theorem commit_run {s u : State} {f : Nat} {d : VReg} {act : Nat → Bool} {r : Nat → Elem}
    (h : Spec.push s f d (newBits act r) = some u) :
    commit f d (perActive (fmtElems f) act r) s = .ok ((), u.modCur fun z => { z with
      flags := (Spec.results (fmtElems f) act r).foldl (fun x e => x ||| stickyWord e.st) z.flags
      rmode := if rmMode z.rmode = 5 ∧ (Spec.results (fmtElems f) act r).any Elem.sr then bumpSrn z.rmode else z.rmode }) := by
  rw [commit, Exec.bind_ok s (by rw [codes_perActive]; exact writeV_run h), Exec.bind_ok u (setSticky_run u _), srStep, modMe_run,
    State.modCur_modCur]
  simp only [withSticky_allSticky, anySr_eq_any, reduceOption_perActive]
  congr 3
  funext z
  split <;> rfl

/-- An instruction that computes elements and writes them ends as the statements say, where its results are theirs in what the
destination takes and in their flags. -/
theorem retire_commit {i : Instr} {m : Exec (List (Option Elem))} {s t u : State} {f : Nat} {d : VReg} {act : Nat → Bool}
    {r r' : Nat → Elem} (hm : m s = .ok (perActive (fmtElems f) act r', t))
    (same : ∀ j, (r' j).cut (fmtWidth f) = (r j).cut (fmtWidth f))
    (h : Spec.push t f d (fun j => if act j then some (r j).bits else none) = some u) :
    retire i (m >>= commit f d) s = Spec.settle u (Spec.results (fmtElems f) act r) := by
  have bits : newBits act r = fun j => if act j then some (r j).bits else none := rfl
  have h' : Spec.push t f d (newBits act r') = some u := by
    rw [← h, ← bits, ← push_mod, ← push_mod t f d (newBits act r)]
    simp only [← newBits_cut, same]
  rw [retire_ok ((Exec.bind_ok s hm).trans (commit_run h')), ← settle_cut u (fmtWidth f) _ act r]
  simp only [← same, settle_cut]
  rfl

end Sys2Proof.Machine
end

section
/-! SUPPORT. The shapes of a vector instruction over the active elements (R210, R211): where the statements name its sources and its
push, it ends as they say. -/

namespace Sys2Proof.Machine

/-! ## Elements from the sources -/

@[simp] theorem fc_eq_toNat {n : Nat} (x : BitVec n) : fc x = x.toNat := rfl

theorem mask_run (s : State) (pm : PReg) (f : Nat) : mask pm (fmtElems f) s = .ok (Spec.active s pm f, s) := rfl

theorem vec1_run {s t : State} {o : V1} {x : BitVec 512} (g : State → Nat → Nat → Elem)
    (ha : Spec.usable s false o.fmt.toNat o.a = true) (hd : Spec.usable s true o.fmt.toNat o.d = true)
    (h : Spec.pop s o.fmt.toNat o.a (Spec.active s o.pm o.fmt.toNat) = some (x, t)) :
    vec1 o g s = .ok (perActive (fmtElems o.fmt.toNat) (Spec.active s o.pm o.fmt.toNat)
      fun j => g s j (elemAt x (fmtWidth o.fmt.toNat) j), t) := by
  simp only [vec1, fc_eq_toNat]
  rw [Exec.bind_ok s (sourcesOk_run (List.forall_mem_singleton.mpr ha)), destOk, Exec.bind_ok s (streamUse_run hd),
    Exec.bind_ok s (mask_run s _ _), Exec.bind_ok s (look_run s id), Exec.bind_ok s (readV_run h)]
  rfl

/-- The sources of R211; x is made of the elements of a register. -/
theorem vec2_run {s t : State} {o : V2} {x y : Nat → Nat} (g : State → Nat → Nat → Nat → Elem)
    (ha : Spec.usable s false o.fmt.toNat o.a = true)
    (hb : ∀ b, o.src = .rr b → Spec.usable s false o.fmt.toNat (b.extractLsb' 0 3) = true)
    (hd : Spec.usable s true o.fmt.toNat o.d = true)
    (h : Spec.sources s o.fmt.toNat o.a o.src (Spec.active s o.pm o.fmt.toNat) = some (x, y, t)) :
    vec2 o g s = .ok (perActive (fmtElems o.fmt.toNat) (Spec.active s o.pm o.fmt.toNat)
      fun j => g s j (x j) (y j), t) ∧ ∃ v, x = elemAt v (fmtWidth o.fmt.toNat) := by
  obtain ⟨⟨x', y', st, u⟩, hu, h⟩ := Option.map_eq_some_iff.mp h
  obtain ⟨run, elems⟩ := vecOperands_run hu
  cases h
  have use : ∀ r ∈ o.a :: srcRegs o.src, Spec.usable s false o.fmt.toNat r = true := by
    refine List.forall_mem_cons.mpr ⟨ha, ?_⟩
    cases hs : o.src with
    | rr b => exact List.forall_mem_singleton.mpr (hb b hs)
    | _ => exact fun _ h => nomatch h
  refine ⟨?_, elems⟩
  simp only [vec2, fc_eq_toNat]
  rw [Exec.bind_ok s (sourcesOk_run use), destOk, Exec.bind_ok s (streamUse_run hd), Exec.bind_ok s (mask_run s _ _),
    Exec.bind_ok s (look_run s id), Exec.bind_ok s run, Exec.bind_ok u (setSticky_run u st)]
  rfl

/-! ## Instructions that compute elements and write them -/

/-- A two-source instruction computes the statements' elements, as a destination takes them. -/
theorem exec_vector2 {top : Nat} {mk : V2 → Instr} {g' : Nat → State → Nat → Nat → Nat → Elem}
    {g : State → Nat → Nat → Nat → Nat → Elem}
    (hexec : ∀ o s, exec (mk o) s = retire (mk o) (vec2 o (g' o.fmt.toNat) >>= commit o.fmt.toNat o.d) s)
    (same : ∀ (s : State) (f j x y : Nat), f < top → x < 2 ^ fmtWidth f →
      (g' f s j x y).cut (fmtWidth f) = (g s f j x y).cut (fmtWidth f)) : Spec.Vector2 top mk g := by
  intro s o x y t u f hf ha hb hd hsrc act r hpush
  obtain ⟨run, v, hx⟩ := vec2_run (g' f) ha hb hd hsrc
  rw [hexec]
  exact retire_commit run (fun j => same s f j _ _ hf (hx ▸ elemAt_lt v _ j)) hpush

/-- A one-source instruction does the same. -/
theorem exec_vector1 {mk : V1 → Instr} {g' : Nat → State → Nat → Nat → Elem} {g : State → Nat → Nat → Nat → Elem}
    (hexec : ∀ o s, exec (mk o) s = retire (mk o) (vec1 o (g' o.fmt.toNat) >>= commit o.fmt.toNat o.d) s)
    (same : ∀ (s : State) (f j x : Nat), x < 2 ^ fmtWidth f →
      (g' f s j x).cut (fmtWidth f) = (g s f j x).cut (fmtWidth f)) : Spec.Vector1 mk g := by
  intro s o x t u f ha hd hsrc act r hpush
  rw [hexec]
  exact retire_commit (vec1_run (g' f) ha hd hsrc) (fun j => same s f j _ (elemAt_lt x _ j)) hpush

end Sys2Proof.Machine
end

section
/-! PROOF. Integer and bit arithmetic by element (R227, R228). -/

namespace Sys2Proof.Machine

/-! ## Integers (R73, R74, R227) -/

/-- The value of an integer pattern where it is present (R73). -/
def intValue (f x : Nat) : Int := if f < 4 ∧ 2 ^ (fmtWidth f - 1) ≤ x then (x : Int) - 2 ^ fmtWidth f else x

/-- Which patterns are absent: those of the b formats never (R73). -/
def intAbsent (f x : Nat) : Bool := decide (¬ (8 ≤ f ∧ f < 12)) && x == absentCode f

theorem decodeInt_eq (f x : Nat) : decodeInt f x = if intAbsent f x then none else some (intValue f x) := by
  simp only [decodeInt, intAbsent, intValue, fmtIsB, fmtIsI, Bool.and_eq_true, Bool.not_eq_true', decide_eq_true_eq,
    decide_eq_false_iff_not, beq_iff_eq, and_comm (a := x = _)]
  split
  · rfl
  · split <;> rfl

/-- A result in the range of its format is written as it is; beyond it, clamped or wrapped with OVF (R74). -/
theorem encodeInt_elem {f : Nat} (hf : f < 8) (sat : Bool) (v : Int) :
    let lo : Int := if f < 4 then 1 - 2 ^ (fmtWidth f - 1) else 0
    let hi : Int := if f < 4 then 2 ^ (fmtWidth f - 1) - 1 else 2 ^ fmtWidth f - 2
    (⟨(encodeInt f sat v).1, (encodeInt f sat v).2, false⟩ : Elem) =
      if lo ≤ v ∧ v ≤ hi then ⟨intPattern f v, Sticky.none, false⟩
      else ⟨intPattern f (if sat then max lo (min hi v) else v), ⟨false, true, false⟩, false⟩ := by
  intro lo hi
  have hlo : intLo f = lo := by
    simp only [intLo, fmtIsI, decide_eq_true_eq, lo]
    split <;> omega
  have hhi : intHi f = hi := by
    simp only [intHi, fmtIsI, fmtIsN, decide_eq_true_eq, hi]
    split
    · rfl
    · rw [if_pos (by omega)]
  have order : lo ≤ hi := by
    have half : (1 : Int) ≤ 2 ^ (fmtWidth f - 1) := one_le_pow₀ (by decide)
    have whole : (2 : Int) ^ 1 ≤ 2 ^ fmtWidth f := pow_le_pow_right₀ (by decide) (fmtWidth_pos f)
    simp only [lo, hi]
    split <;> omega
  rw [encodeInt, if_neg (by simp [fmtIsB]; omega), hlo, hhi]
  by_cases below : v < lo
  · have out : ¬ (lo ≤ v ∧ v ≤ hi) := fun inside => below.not_ge inside.1
    rw [if_pos below, if_neg out, min_eq_right (below.le.trans order), max_eq_left below.le]
  rw [if_neg below]
  by_cases above : hi < v
  · have out : ¬ (lo ≤ v ∧ v ≤ hi) := fun inside => above.not_ge inside.2
    rw [if_pos above, if_neg out, min_eq_left above.le, max_eq_right order]
  · rw [if_neg above, if_pos ⟨not_lt.mp below, not_lt.mp above⟩]

theorem intElem_eq_integer {f : Nat} (hf : f < 12) (g : Int → Int → Int) (s : State) (j x y : Nat) :
    intElem f g s j x y = Spec.integer g s f j x y := by
  have absent (k : Nat) : intAbsent f k = true ↔ ¬ (8 ≤ f ∧ f < 12) ∧ k = absentCode f := by
    simp only [intAbsent, Bool.and_eq_true, decide_eq_true_eq, beq_iff_eq]
  rw [intElem, decodeInt_eq, decodeInt_eq, Spec.integer]
  dsimp only
  by_cases hb : 8 ≤ f ∧ f < 12
  · have present (k : Nat) : ¬ intAbsent f k = true := fun h => ((absent k).mp h).1 hb
    rw [if_pos hb, if_neg (present x), if_neg (present y)]
    dsimp only
    rw [encodeInt, if_pos (by simpa [fmtIsB] using hb)]
    rfl
  rw [if_neg hb]
  by_cases hx : x = absentCode f
  · rw [if_pos ((absent x).mpr ⟨hb, hx⟩), if_pos (Or.inl hx)]
    rfl
  rw [if_neg fun h => hx ((absent x).mp h).2]
  by_cases hy : y = absentCode f
  · rw [if_pos ((absent y).mpr ⟨hb, hy⟩), if_pos (Or.inr hy)]
    rfl
  · rw [if_neg fun h => hy ((absent y).mp h).2, if_neg (not_or.mpr ⟨hx, hy⟩)]
    exact encodeInt_elem (by omega) (rmSat s.cur.rmode) (g (intValue f x) (intValue f y))

theorem intExt_eq_integerExt (larger : Bool) (s : State) (f j x y : Nat) :
    intExt larger f s j x y = Spec.integerExt larger s f j x y := by
  have spec : Spec.integerExt larger s f j x y =
      if intAbsent f x ∧ intAbsent f y then absentElem f
      else if intAbsent f x then ⟨y, sawAbsent, false⟩
      else if intAbsent f y then ⟨x, sawAbsent, false⟩
      else plain (if larger then (if intValue f x < intValue f y then y else x) else (if intValue f x < intValue f y then x else y)) := rfl
  rw [intExt, decodeInt_eq, decodeInt_eq, spec]
  cases intAbsent f x with
  | true => cases intAbsent f y <;> rfl
  | false =>
    cases intAbsent f y with
    | true => rfl
    | false => cases larger <;> by_cases less : intValue f x < intValue f y <;> simp [less]

theorem vint2_eq_bind (g : Nat → State → Nat → Nat → Nat → Elem) (o : V2) :
    vint2 g o = vec2 o (g o.fmt.toNat) >>= commit o.fmt.toNat o.d := rfl

/-- An instruction on the integer and bit formats. -/
theorem exec_vectorWords {mk : V2 → Instr} {g' : Nat → State → Nat → Nat → Nat → Elem}
    {g : State → Nat → Nat → Nat → Nat → Elem}
    (hexec : ∀ o s, exec (mk o) s = retire (mk o) (vint2 g' o) s)
    (same : ∀ (s : State) (f j x y : Nat), f < 12 → (g' f s j x y).cut (fmtWidth f) = (g s f j x y).cut (fmtWidth f)) :
    Spec.Vector2 12 mk g :=
  exec_vector2 (g' := g') (fun o s => by rw [hexec, vint2_eq_bind]) fun s f j x y hf _ => same s f j x y hf

theorem vectorIntegers : Spec.VectorIntegers :=
  ⟨exec_vectorWords (fun _ _ => rfl) fun s _ j x y hf => congrArg _ (intElem_eq_integer hf (· + ·) s j x y),
    exec_vectorWords (fun _ _ => rfl) fun s _ j x y hf => congrArg _ (intElem_eq_integer hf (· - ·) s j x y),
    exec_vectorWords (fun _ _ => rfl) fun s _ j x y hf => congrArg _ (intElem_eq_integer hf (· * ·) s j x y),
    exec_vectorWords (fun _ _ => rfl) fun s f j x y _ => congrArg _ (intExt_eq_integerExt true s f j x y),
    exec_vectorWords (fun _ _ => rfl) fun s f j x y _ => congrArg _ (intExt_eq_integerExt false s f j x y)⟩

/-! ## Logic, shifts and bit counts (R228) -/

/-- A logic operation on numbers is that on their low bits. A 64-bit literal reaches a narrower element whole, and the destination
takes its low bits. -/
theorem exec_vectorLogic {mk : V2 → Instr} {g : Nat → Nat → Nat → Nat} {G : (w : Nat) → BitVec w → BitVec w → BitVec w}
    (hexec : ∀ o s, exec (mk o) s = retire (mk o) (vint2 (fun f => bitElem f g) o) s)
    (hg : ∀ w x y, (G w (BitVec.ofNat w x) (BitVec.ofNat w y)).toNat = g w x y % 2 ^ w) : Spec.Vector2 12 mk (Spec.bits G) :=
  exec_vectorWords hexec fun s f j x y _ => by
    simp only [bitElem, Spec.bits, plain, Elem.cut, hg, Nat.mod_mod]

theorem AluFn.Shifts.elem {F : AluFn} {G : (w : Nat) → BitVec w → Nat → BitVec w} (hF : F.Shifts G) (sgn : Bool) {f x : Nat}
    (hx : x < 2 ^ fmtWidth f) (k : Nat) :
    plain (F sgn (fmtWidth f) x k).1 = ⟨(G (fmtWidth f) (BitVec.ofNat _ x) k).toNat, Sticky.none, false⟩ := by
  have number : (BitVec.ofNat (fmtWidth f) x).toNat = x := by rw [BitVec.toNat_ofNat, Nat.mod_eq_of_lt hx]
  have shifted := hF _ sgn (BitVec.ofNat _ x) k (fmtWidth_pos f)
  rw [number] at shifted
  rw [shifted, plain]

/-- A shift by the whole count, which an immediate gives in 64 bits. -/
theorem exec_vectorShift {mk : V2 → Instr} {F : AluFn} {sgn : Bool} {G : (w : Nat) → BitVec w → Nat → BitVec w}
    (hexec : ∀ o s, exec (mk o) s = retire (mk o) (vshift (fun w x k => (F sgn w x k).1) o) s) (hF : F.Shifts G) :
    Spec.VectorShift mk G := by
  intro s o x y t u f ha hb hd hsrc act r hpush
  rw [hexec, vshift]
  cases hs : o.src with
  | ri imm =>
    rw [hs] at hsrc
    obtain ⟨⟨v, v'⟩, hv, hsrc⟩ := Option.map_eq_some_iff.mp hsrc
    cases hsrc
    exact retire_commit (vec1_run (o := ⟨o.fmt, o.pm, o.d, o.a⟩) _ ha hd hv)
      (fun j => congrArg _ (hF.elem sgn (elemAt_lt v _ j) _)) hpush
  | _ =>
    have sources : Spec.sources s f o.a o.src (Spec.active s o.pm f) = some (x, y, t) := by
      rw [hs] at hsrc ⊢
      exact hsrc
    obtain ⟨run, v, hx⟩ := vec2_run (bitElem f fun w x k => (F sgn w x k).1) ha hb hd sources
    exact retire_commit run (fun j => congrArg _ (hF.elem sgn (hx ▸ elemAt_lt v _ j) (y j))) hpush

theorem vbit1_eq_bind (g : Nat → Nat → Nat) (o : V1) :
    vbit1 g o = vec1 o (fun _ _ x => plain (g (fmtWidth o.fmt.toNat) x)) >>= commit o.fmt.toNat o.d := rfl

theorem exec_vectorCount {mk : V1 → Instr} {g : Nat → Nat → Nat} {G : (w : Nat) → BitVec w → Nat}
    (hexec : ∀ o s, exec (mk o) s = retire (mk o) (vbit1 g o) s) (hg : ∀ (w : Nat) (x : BitVec w), g w x.toNat = G w x) :
    Spec.Vector1 mk (Spec.bits1 G) :=
  exec_vector1 (g' := fun f _ _ x => plain (g (fmtWidth f) x)) (fun o s => by rw [hexec, vbit1_eq_bind]) fun s f j x hx => by
    rw [Spec.bits1, ← hg, BitVec.toNat_ofNat, Nat.mod_eq_of_lt hx, plain]

theorem vectorBits : Spec.VectorBits :=
  ⟨exec_vectorLogic (g := andBits) (fun _ _ => rfl) fun w x y => by
      rw [BitVec.toNat_and, BitVec.toNat_ofNat, BitVec.toNat_ofNat, andBits, Nat.and_mod_two_pow],
    exec_vectorLogic (g := orBits) (fun _ _ => rfl) fun w x y => by
      rw [BitVec.toNat_or, BitVec.toNat_ofNat, BitVec.toNat_ofNat, orBits, Nat.or_mod_two_pow],
    exec_vectorLogic (g := xorBits) (fun _ _ => rfl) fun w x y => by
      rw [BitVec.toNat_xor, BitVec.toNat_ofNat, BitVec.toNat_ofNat, xorBits, Nat.xor_mod_two_pow],
    exec_vectorShift (fun _ _ => rfl) shlFn_shifts, exec_vectorShift (fun _ _ => rfl) shrFn_shifts,
    exec_vectorShift (fun _ _ => rfl) sarFn_shifts,
    exec_vectorCount (fun _ _ => rfl) fun _ x => clzOf_toNat x,
    exec_vectorCount (fun _ _ => rfl) fun w x => ctzOf_eq_lowestFrom w x.toNat,
    exec_vectorCount (fun _ _ => rfl) fun _ x => popcOf_toNat x⟩

/-- Settles O14: the sources, the push and the end are those of any vector instruction, and each element is computed as on its
integer or its bits. -/
theorem vectorWords : Obligations.VectorWords := ⟨vectorIntegers, vectorBits⟩

end Sys2Proof.Machine
end

section
/-! PROOF. Fences and tags (R266, R267, R290-R292). -/

namespace Sys2Proof.Machine

/-- An issue that ends with a park (R51). -/
theorem retire_parkOn {i : Instr} {m : Exec Unit} {s : State} {c : ParkCond} {ea : Word} (h : m s = parkOn i c ea s) :
    retire i m s = Spec.waits s i c ea := retire_modCur h

/-- A register takes what the slot in hand gives. -/
theorem writeG_run_of_eq {d : Reg} {w : Word} {v : Slot → Word} {s : State} (h : w = v s.cur) :
    writeG d w s = .ok ((), s.modCur fun z => z.setG d (v z)) := by
  rw [writeG_run, State.modCur_eq, h, ← State.modCur_eq s fun z => z.setG d (v z)]

/-! ## The scopes of a fence (R266, R267) -/

theorem fenceMet_iff (x : Slot) (top : Nat) :
    fenceMet x top = true ↔ ∀ k, 2 ≤ k → k ≤ min top 6 → x.unack.getD k 0 = 0 := by
  simp only [fenceMet, List.all_eq_true, List.mem_range, Bool.or_eq_true, decide_eq_true_eq]
  refine ⟨fun met k low high => ?_, fun zero k hk => ?_⟩
  · have := met k (by omega)
    omega
  · by_cases inScope : 2 ≤ k ∧ k ≤ top
    · exact .inr (zero k inScope.1 (by omega))
    · omega

/-- The mask holds the bits of scopes 2 to `top`. -/
theorem getLsbD_scopeMask (top k : Nat) : (scopeMask top).getLsbD k = decide (2 ≤ k ∧ k ≤ min top 6) := by
  have bits : ∀ n < 7, ∀ k < 8, (BitVec.ofNat 8 (2 ^ (n + 1) - 4)).getLsbD k = decide (2 ≤ k ∧ k ≤ n) := by decide
  by_cases hk : k < 8
  · exact bits (min top 6) (by omega) k hk
  · rw [BitVec.getLsbD_of_ge _ _ (by omega), eq_comm, decide_eq_false_iff_not]
    omega

/-- Some bit under the mask, as the statements look for it. -/
theorem and_scopeMask_ne_zero (p : BitVec 8) (top : Nat) :
    p &&& scopeMask top ≠ 0 ↔
      ((List.range 8).any fun k => decide (2 ≤ k ∧ k ≤ min top 6) && p.getLsbD k) = true := by
  have bit (k : Nat) : (p &&& scopeMask top).getLsbD k = (decide (2 ≤ k ∧ k ≤ min top 6) && p.getLsbD k) := by
    rw [BitVec.getLsbD_and, getLsbD_scopeMask, Bool.and_comm]
  rw [← not_iff_not, not_not, Bool.not_eq_true, List.any_eq_false]
  refine ⟨fun zero k _ => ?_, fun none => BitVec.eq_of_getLsbD_eq fun k hk => ?_⟩
  · rw [← bit, zero, BitVec.ofNat_eq_ofNat, BitVec.getLsbD_zero]
    exact Bool.false_ne_true
  · rw [bit, BitVec.ofNat_eq_ofNat, BitVec.getLsbD_zero]
    exact Bool.eq_false_iff.mpr (none k (List.mem_range.mpr hk))

/-- The bits outside the mask, summed as the statements write them. -/
theorem and_not_scopeMask_eq_sum (p : BitVec 8) (top : Nat) :
    p &&& ~~~(scopeMask top) = BitVec.ofNat 8
      (((List.range 8).map fun k => if 2 ≤ k ∧ k ≤ min top 6 then 0 else b2n (p.getLsbD k) * 2 ^ k).sum) := by
  have bit : ∀ k ∈ List.range 8, (if 2 ≤ k ∧ k ≤ min top 6 then 0 else b2n (p.getLsbD k) * 2 ^ k) =
      if (p &&& ~~~(scopeMask top)).toNat.testBit k then 2 ^ k else 0 := by
    intro k hk
    rw [BitVec.testBit_toNat, BitVec.getLsbD_and, BitVec.getLsbD_not, getLsbD_scopeMask, decide_eq_true (List.mem_range.mp hk)]
    by_cases inScope : 2 ≤ k ∧ k ≤ min top 6
    · rw [if_pos inScope, decide_eq_true inScope]
      simp
    · rw [if_neg inScope, decide_eq_false inScope]
      cases p.getLsbD k <;> simp [b2n]
  rw [List.map_congr_left bit, sum_testBit, Nat.mod_eq_of_lt (BitVec.isLt _), BitVec.ofNat_toNat, BitVec.setWidth_eq]

theorem fenceEnd_of_lt {top : Nat} (h : top < 2) : fenceEnd top = id := funext fun _ => if_pos h

theorem fenceEnd_of_le {top : Nat} (h : 2 ≤ top) (x : Slot) :
    fenceEnd top x = { x with
      flags := if x.faultPending &&& scopeMask top ≠ 0 then x.flags ||| 0x10 else x.flags
      faultPending := x.faultPending &&& ~~~(scopeMask top) } := if_neg (by omega)

/-- A fence whose counters are zero ends at once. -/
theorem exec_jfence_met {s : State} {d : BitVec 3} (h : fenceMet s.cur d.toNat = true) :
    exec (.jfence d) s = Spec.done s (fenceEnd d.toNat) :=
  retire_modCur (i := .jfence d) (m := jfence d) (by rw [jfence, Exec.bind_ok s (look_run s _), if_pos h, modMe_run])

theorem exec_jfence_unmet {s : State} {d : BitVec 3} (h : ¬ fenceMet s.cur d.toNat = true) :
    exec (.jfence d) s = Spec.waits s (.jfence d) (.fence d.toNat) 0 :=
  retire_parkOn (i := .jfence d) (m := jfence d) (by rw [jfence, Exec.bind_ok s (look_run s _), if_neg h])

theorem fence : Spec.Fence := by
  refine fun s d => ⟨fun below => ?_, fun from2 zero => ?_, fun k low high owed => ?_⟩
  · have met := (fenceMet_iff s.cur d.toNat).mpr fun k _ _ => by omega
    rw [exec_jfence_met met, fenceEnd_of_lt below]
  · rw [exec_jfence_met ((fenceMet_iff _ _).mpr zero)]
    refine congrArg (Spec.done s) (funext fun z => ?_)
    simp only [fenceEnd_of_le from2, and_scopeMask_ne_zero, and_not_scopeMask_eq_sum]
  · exact exec_jfence_unmet fun met => owed ((fenceMet_iff _ _).mp met k low high)

/-! ## Masks of tags (R290) -/

theorem regImmVal_run (x : RegImm) (s : State) : regImmVal x s = .ok (Spec.maskOf s x, s) := by
  cases x with
  | reg a => rfl
  | imm v => rw [regImmVal, Exec.pure_run, BitVec.ofNat_toNat, Spec.maskOf]

theorem tagMask_run (x : RegImm) (s : State) : tagMask x s = .ok ((Spec.maskOf s x).setWidth 16, s) := by
  rw [tagMask, Exec.bind_ok s (regImmVal_run x s), Exec.pure_run, BitVec.setWidth_eq_extractLsb' (by decide)]

/-- What WAITANY and WAITALL ask of their tags at issue. -/
def tagsKnown (x : Slot) (m : BitVec 16) (all : Bool) : Bool :=
  if all then decide ((x.tagBusy ||| x.tagSet) &&& m = m) else decide ((x.tagBusy ||| x.tagSet) &&& m ≠ 0)

theorem tagsKnown_any_iff (x : Slot) (m : BitVec 16) :
    tagsKnown x m false = true ↔ ¬ (x.tagSet &&& m = 0 ∧ x.tagBusy &&& m = 0) := by
  have none : (x.tagBusy ||| x.tagSet) &&& m = 0 ↔ x.tagSet &&& m = 0 ∧ x.tagBusy &&& m = 0 := by
    rw [BitVec.and_or_distrib_right, and_comm]
    exact BitVec.or_eq_zero_iff
  exact decide_eq_true_iff.trans (not_congr none)

theorem tagsKnown_all_iff (x : Slot) (m : BitVec 16) : tagsKnown x m true = true ↔ (x.tagBusy ||| x.tagSet) &&& m = m :=
  decide_eq_true_iff

theorem tagsMet_any_iff (x : Slot) (m : BitVec 16) : tagsMet x m false = true ↔ x.tagSet &&& m ≠ 0 := decide_eq_true_iff

theorem tagsMet_all_iff (x : Slot) (m : BitVec 16) : tagsMet x m true = true ↔ x.tagSet &&& m = m := decide_eq_true_iff

/-- A wait that is met passes its check. -/
theorem tagsKnown_of_tagsMet {x : Slot} {m : BitVec 16} {all : Bool} (met : tagsMet x m all = true) : tagsKnown x m all = true := by
  cases all with
  | false => exact (tagsKnown_any_iff x m).mpr fun none => (tagsMet_any_iff x m).mp met none.1
  | true =>
    rw [tagsKnown_all_iff, BitVec.and_or_distrib_right, (tagsMet_all_iff x m).mp met]
    ext k hk
    simp

/-! ## Waiting on tags (R290) -/

section
variable {i : Instr} {all : Bool} {d : Reg} {x : RegImm} {s : State} {m : BitVec 16}

/-- The check at issue, then the answer or the park. -/
theorem waitTags_run (hm : (Spec.maskOf s x).setWidth 16 = m) :
    waitTags i all d x s = (require (tagsKnown s.cur m all) .illegal >>= fun _ =>
      if tagsMet s.cur m all then writeG d (tagsResult s.cur m all) else parkOn i (.tags m all) 0) s := by
  rw [waitTags, Exec.bind_ok s (tagMask_run x s), Exec.bind_ok s (look_run s _), hm]
  rfl

theorem waitTags_known (hm : (Spec.maskOf s x).setWidth 16 = m) (known : tagsKnown s.cur m all = true) :
    waitTags i all d x s = (if tagsMet s.cur m all then writeG d (tagsResult s.cur m all) else parkOn i (.tags m all) 0) s :=
  (waitTags_run hm).trans (Exec.bind_ok (a := ()) (t := s) s (by rw [require_run, if_pos known]))

theorem retire_waitTags_met (hm : (Spec.maskOf s x).setWidth 16 = m) (met : tagsMet s.cur m all = true) :
    retire i (waitTags i all d x) s = Spec.done s fun z => z.setG d (tagsResult z m all) :=
  retire_modCur ((waitTags_known hm (tagsKnown_of_tagsMet met)).trans (by rw [if_pos met]; exact writeG_run_of_eq rfl))

theorem retire_waitTags_unmet (hm : (Spec.maskOf s x).setWidth 16 = m) (known : tagsKnown s.cur m all = true)
    (unmet : ¬ tagsMet s.cur m all = true) :
    retire i (waitTags i all d x) s = Spec.waits s i (.tags m all) 0 :=
  retire_parkOn ((waitTags_known hm known).trans (by rw [if_neg unmet]))

theorem retire_waitTags_unknown (hm : (Spec.maskOf s x).setWidth 16 = m) (unknown : ¬ tagsKnown s.cur m all = true) :
    retire i (waitTags i all d x) s = .next (takeFault s .illegal Detail.zero) :=
  retire_trap ((waitTags_run hm).trans (Exec.bind_error s (by rw [require_run, if_neg unknown])))

end

/-! ## Reading and clearing tags (R291, R292) -/

/-- A field above another is added at its place. -/
theorem toNat_append_add {m n : Nat} (x : BitVec m) (y : BitVec n) : (x ++ y).toNat = x.toNat * 2 ^ n + y.toNat := by
  rw [BitVec.toNat_append, ← Nat.shiftLeft_add_eq_or_of_lt y.isLt, Nat.shiftLeft_eq]

theorem ofNat_tagFields (busy stat set : BitVec 16) :
    BitVec.ofNat 64 (busy.toNat * 2 ^ 32 + stat.toNat * 2 ^ 16 + set.toNat) = (0#16 ++ busy ++ stat ++ set).setWidth 64 := by
  have sum : (0#16 ++ busy ++ stat ++ set).toNat = busy.toNat * 2 ^ 32 + stat.toNat * 2 ^ 16 + set.toNat := by
    rw [toNat_append_add, toNat_append_add, toNat_append_add, BitVec.toNat_zero]
    omega
  rw [← sum, BitVec.ofNat_toNat]

theorem fready_run (d a : Reg) (s : State) :
    let m : BitVec 16 := (s.cur.getG a).setWidth 16
    fready d a s = .ok ((), s.modCur fun z =>
      z.setG d ((0#16 ++ (z.tagBusy &&& m) ++ (z.tagStat &&& m) ++ (z.tagSet &&& m)).setWidth 64)) := by
  rw [fready, Exec.bind_ok s (readG_run s a), Exec.bind_ok s (look_run s _)]
  exact writeG_run_of_eq (by rw [ofNat_tagFields, ← BitVec.setWidth_eq_extractLsb' (show 16 ≤ 64 by decide)])

theorem freadyCode_run (d a : Reg) (s : State) :
    let t : Tag := (s.cur.getG a).setWidth 4
    freadyCode d a s = .ok ((), s.modCur fun z => z.setG d ((z.tagCode[t.toNat]'t.isLt).setWidth 64)) := by
  rw [freadyCode, Exec.bind_ok s (readG_run s a), Exec.bind_ok s (look_run s _)]
  exact writeG_run_of_eq (by simp only [← BitVec.setWidth_eq_extractLsb' (show 4 ≤ 64 by decide)])

/-- TCLR looks for BUSY tags in its mask, then clears. -/
theorem tclr_run (x : RegImm) (s : State) :
    let m : BitVec 16 := (Spec.maskOf s x).setWidth 16
    tclr x s = if s.cur.tagBusy &&& m = 0 then .ok ((), s.modCur fun z => { z with
        tagSet := z.tagSet &&& ~~~m
        tagStat := z.tagStat &&& ~~~m
        tagCode := Vector.ofFn fun t => if m.getLsbD t.val then 0 else z.tagCode[t] })
      else .error (.trap .illegal Detail.zero) := by
  intro m
  rw [tclr, Exec.bind_ok s (tagMask_run x s), Exec.bind_ok s (look_run s _), Exec.bind_run, require_run]
  by_cases noneBusy : s.cur.tagBusy &&& m = 0
  · rw [if_pos noneBusy, if_pos (decide_eq_true noneBusy)]
    rfl
  · rw [if_neg noneBusy, if_neg (by rwa [decide_eq_true_iff])]

theorem tags : Spec.Tags := by
  refine ⟨fun s d x => ?_, fun s d a => ⟨retire_modCur (i := .fready d a) (m := fready d a) (fready_run d a s),
    retire_modCur (i := .freadyCode d a) (m := freadyCode d a) (freadyCode_run d a s)⟩⟩
  intro m z
  refine ⟨fun someSet => ?_, fun noneSet someBusy => ?_, fun noneSet noneBusy => ?_, fun allSet => ?_, fun notAllSet allKnown => ?_,
    fun notAllKnown => ?_, fun noneBusy => ?_, fun someBusy => ?_⟩
  · exact retire_waitTags_met (i := .waitany d x) rfl ((tagsMet_any_iff z m).mpr someSet)
  · have known := (tagsKnown_any_iff z m).mpr fun none => someBusy none.2
    exact retire_waitTags_unmet (i := .waitany d x) rfl known fun met => (tagsMet_any_iff z m).mp met noneSet
  · exact retire_waitTags_unknown (i := .waitany d x) rfl fun known => (tagsKnown_any_iff z m).mp known ⟨noneSet, noneBusy⟩
  · exact retire_waitTags_met (i := .waitall d x) rfl ((tagsMet_all_iff z m).mpr allSet)
  · have known := (tagsKnown_all_iff z m).mpr allKnown
    exact retire_waitTags_unmet (i := .waitall d x) rfl known fun met => notAllSet ((tagsMet_all_iff z m).mp met)
  · exact retire_waitTags_unknown (i := .waitall d x) rfl fun known => notAllKnown ((tagsKnown_all_iff z m).mp known)
  · exact retire_modCur (i := .tclr x) (m := tclr x) ((tclr_run x s).trans (if_pos noneBusy))
  · exact retire_trap (i := .tclr x) (m := tclr x) ((tclr_run x s).trans (if_neg someBusy))

/-- Settles O26: a fence ends or parks on its scopes' counters, a wait on tags passes its check whenever it is met, and the tag
fields are read and cleared under the mask. -/
theorem fencesAndTags : Obligations.FencesAndTags := ⟨fence, tags⟩

end Sys2Proof.Machine
end
